-- ==== Sys2Proof/Word.lean ====
section
/-!
DEFINITION. The words the manual counts in (characters' values, 32-bit counts), the four segments, sets of segments
(written as masks, spec/00_scope.md "Segment sets and masks") and a family of one value per segment.
-/

namespace Sys2Proof

/-- A character's value, an address, a code: 8 bits. -/
abbrev Byte := BitVec 8

/-- A time of the millisecond timebase, or a counter: 32 bits (spec/00 "The millisecond timebase", R176). -/
abbrev Word32 := BitVec 32

/-- The four segments S0 to S3. -/
inductive Seg where
  | s0 | s1 | s2 | s3
  deriving DecidableEq, Repr

namespace Seg

/-- The segment number, 0..3. -/
def num : Seg → Nat
  | s0 => 0
  | s1 => 1
  | s2 => 2
  | s3 => 3

/-- The segment of a number, where it is 0..3. -/
def ofNum? : Nat → Option Seg
  | 0 => some s0
  | 1 => some s1
  | 2 => some s2
  | 3 => some s3
  | _ => none

/-- The segment number as one character. -/
def byte (g : Seg) : Byte := BitVec.ofNat 8 g.num

/-- S0 to S3 in order. -/
def all : List Seg := [s0, s1, s2, s3]

end Seg

/-- A set of segments as its mask: segment n is the bit of value 2 to the power n. -/
abbrev SegSet := BitVec 4

namespace SegSet

/-- Segment g as a set of one. -/
def one : Seg → SegSet
  | .s0 => 1#4
  | .s1 => 2#4
  | .s2 => 4#4
  | .s3 => 8#4

/-- Whether g is in the set. -/
def has (m : SegSet) (g : Seg) : Bool := m &&& one g != 0#4

/-- The set with g. -/
def insert (m : SegSet) (g : Seg) : SegSet := m ||| one g

/-- The set without g. -/
def erase (m : SegSet) (g : Seg) : SegSet := m &&& ~~~(one g)

/-- The segments for which p holds. -/
def ofPred (p : Seg → Bool) : SegSet :=
  Seg.all.foldl (fun m g => if p g then m.insert g else m) 0#4

/-- The members in ascending order. -/
def members (m : SegSet) : List Seg := Seg.all.filter m.has

end SegSet

/-- One value for each segment. -/
structure PerSeg (α : Type) where
  at0 : α
  at1 : α
  at2 : α
  at3 : α
  deriving DecidableEq, Repr

namespace PerSeg

variable {α : Type}

/-- The same value for every segment. -/
def const (a : α) : PerSeg α := ⟨a, a, a, a⟩

/-- The value each segment is given. -/
def tabulate (f : Seg → α) : PerSeg α := ⟨f .s0, f .s1, f .s2, f .s3⟩

/-- The value of segment g. -/
def get (v : PerSeg α) : Seg → α
  | .s0 => v.at0
  | .s1 => v.at1
  | .s2 => v.at2
  | .s3 => v.at3

/-- The family with g's value replaced. -/
def set (v : PerSeg α) (g : Seg) (a : α) : PerSeg α :=
  match g with
  | .s0 => { v with at0 := a }
  | .s1 => { v with at1 := a }
  | .s2 => { v with at2 := a }
  | .s3 => { v with at3 := a }

end PerSeg

end Sys2Proof
end

