-- ==== Sys2Proof/Syntax.lean ====
section
/-!
DEFINITION. The commands: one constructor of `Instr` for each row of spec/opcode_table.json, with the operands the row's
event needs. Every row is one whole, indivisible step of the bridge (spec/95).
-/

namespace Sys2Proof

/-- What the receiver read in one character period: three samples (a, b, c) around the middle of each bit (R58). Bit
k - 1 of each word is the sample taken at bit position k, the start bit being position 1; `true` is high. Thirteen
positions are enough for every format (R53); a shorter format uses the first 11 or 12. -/
structure Samples where
  a : BitVec 13
  b : BitVec 13
  c : BitVec 13
  deriving DecidableEq, Repr

/-- Levels on the strap pins (R182). -/
structure Straps where
  addr : BitVec 3
  topo : Bool
  baud : BitVec 2
  deriving DecidableEq, Repr

/-- What brings a power-on restart about (R183). -/
inductive HoldCause where
  | resetPin
  | supplyMonitor
  deriving DecidableEq, Repr

/-- The events of the bridge, one constructor per row of spec/opcode_table.json, in the table's order. -/
inductive Instr where
  /-- CHARACTER_COMPLETE (R59): the receiver of g has sampled a whole character period. -/
  | characterComplete (g : Seg) (x : Samples)
  /-- BREAK (R60, R85): the receiver of g finds a break at the first stop bit. -/
  | breakFound (g : Seg)
  /-- FALSE_START (R57): the start bit heard on g reads high by majority. -/
  | falseStart (g : Seg)
  /-- START_WHILE_DRIVING (R57, R63, R116): the start bit heard on g reads low while DE is asserted and the transmitter
  is MARKING. -/
  | startWhileDriving (g : Seg)
  /-- RECOVER_END (R56): RXD of g has read high for one full bit time. -/
  | recoverEnd (g : Seg)
  /-- IDLE_GAP_EXPIRY (R61): the quiet time of g reaches the idle gap. -/
  | idleGapExpiry (g : Seg)
  /-- ARBITER_SCAN (R32): the grant arbiter scans the pending list. -/
  | arbiterScan
  /-- TAKE_LINE (R113): the start condition of g holds and there is an item to send. -/
  | takeLine (g : Seg)
  /-- LEAD_GUARD_END (R114): the lead guard of g has run. -/
  | leadGuardEnd (g : Seg)
  /-- CHARACTER_SENT (R64): the last stop bit of the character g sends has ended. -/
  | characterSent (g : Seg)
  /-- ECHO_DEADLINE (R117): the deadline of the oldest expected echo of g passes. -/
  | echoDeadline (g : Seg)
  /-- BREAK_SENT (R65): the break g sends has ended. -/
  | breakSent (g : Seg)
  /-- TAIL_GUARD_END (R119): TAIL of g ends. `straps` are the levels on the strap pins at this step, read where the step
  takes a Full restart (R164, R182). -/
  | tailGuardEnd (g : Seg) (straps : Straps)
  /-- BACKOFF_END (R120): the backoff of g has run. -/
  | backoffEnd (g : Seg)
  /-- RESPONSE_TIMER_EXPIRY (R41): the deadline of record r is reached. -/
  | responseTimerExpiry (r : Fin 8)
  /-- AGING_TICK (R12, R13). -/
  | agingTick
  /-- SWEEP_VISIT (R14, R15). -/
  | sweepVisit
  /-- WALK_VISIT (R17). -/
  | walkVisit
  /-- LEASE_EXPIRY (R161). -/
  | leaseExpiry
  /-- SETTINGS_APPLY (R159): the quiet point of g, whose apply is pending. -/
  | settingsApply (g : Seg)
  /-- IDENTIFY (R137): the management engine takes an Identify from the head of its queue; likewise for the rows below. -/
  | identify
  /-- READ_STATUS (R138). -/
  | readStatus
  /-- READ_STATION (R139). -/
  | readStation
  /-- WRITE_STATION (R140, R20). -/
  | writeStation
  /-- READ_STATION_RANGE (R139): taken up to `claims` entries further (R130). -/
  | readStationRange (claims : Nat)
  /-- CLEAR_LEARNED (R141, R17). -/
  | clearLearned
  /-- READ_SEGMENT (R142). -/
  | readSegment
  /-- WRITE_SEGMENT (R142). -/
  | writeSegment
  /-- APPLY_SEGMENT (R143). -/
  | applySegment
  /-- WRITE_BRIDGE (R144). -/
  | writeBridge
  /-- READ_BRIDGE (R144). -/
  | readBridge
  /-- READ_COUNTERS (R145): taken up to `claims` counters further (R130). -/
  | readCounters (claims : Nat)
  /-- READ_CLEAR_COUNTERS (R145): taken up to `claims` counters further (R130). -/
  | readClearCounters (claims : Nat)
  /-- READ_EVENTS (R146). -/
  | readEvents
  /-- TAKE_LEASE (R148). -/
  | takeLease
  /-- DROP_LEASE (R149). -/
  | dropLease
  /-- RESTART (R150). -/
  | restart
  /-- RESTART_SEGMENT (R151). -/
  | restartSegment
  /-- ECHO (R152). -/
  | echo
  /-- BAD_COMMAND (R131): the request's command code is not in the command table. -/
  | badCommand
  /-- POWER_ON_RESTART (R163, R183). -/
  | powerOnRestart (cause : HoldCause)
  /-- POWER_ON_RESTART_END (R184): `straps` are the levels on the strap pins at this step (R182). -/
  | powerOnRestartEnd (straps : Straps)
  /-- FALLING_EDGE (R57): in READY, RXD of g reads low after reading high. -/
  | fallingEdge (g : Seg)
  deriving DecidableEq, Repr

end Sys2Proof
end

