-- ==== Sys2Proof/Decode.lean ====
section
/-!
DEFINITION. The commands that words spell. spec/opcode_table.json gives no row any bits: a command is an event of the
bridge, not a word, so no word spells one.
-/

namespace Sys2Proof

/-- The command a table word spells: none, since no row of the table gives bits. Log 18. -/
def decodeTableWord (_nbits _w : Nat) : Option Instr := none

end Sys2Proof
end

