-- ==== Sys2Proof/Config.lean ====
section
/-!
DEFINITION. What the part fixes for every machine (capacities, bit times, identification codes), and the free values.
-/

namespace Sys2Proof.Config

/-- Cells of the frame store (spec/05, before R92). -/
abbrev numCells : Nat := 128

/-- Frame descriptors (spec/05, before R92). -/
abbrev numDescs : Nat := 48

/-- Transaction records T0 to T7 (R23). -/
abbrev numTxns : Nat := 8

/-- Character places of a cell (R92). -/
def cellPlaces : Nat := 16

/-- Longest frame in characters (R81). -/
def maxFrame : Nat := 256

/-- Capacity of a reply lane (R108). -/
def replyLaneCap : Nat := 2

/-- Capacity of a bulk lane (R108). -/
def bulkLaneCap : Nat := 8

/-- Capacity of the event queue (R169). -/
def eventQueueCap : Nat := 32

/-- Units of `time` in one CLK period: `time` counts fifths of a period, so that a millisecond is a whole number of
units (14.7456 MHz, R183). -/
def unitsPerClk : Nat := 5

/-- Units of `time` in one millisecond: 14745.6 CLK periods. -/
def unitsPerMs : Nat := 73728

/-- Units of `time` in one bit time at each rate code (R54): 5 times 14745600 divided by the rate. -/
def bitUnits : Fin 10 → Nat
  | 0 => 61440
  | 1 => 30720
  | 2 => 15360
  | 3 => 7680
  | 4 => 3840
  | 5 => 1920
  | 6 => 1280
  | 7 => 640
  | 8 => 320
  | 9 => 160

/-- Vendor code of Identify (R137). -/
def vendorCode : Byte := 0xAB#8

/-- Part code of Identify (R137). -/
def partCode : Byte := 0x04#8

/-- Silicon revision code for revision B (R137). -/
def revisionCode : Byte := 0x02#8

/-- Segment count of Identify (R137). -/
def segmentCount : Byte := 0x04#8

/-- FREE VALUE. Which of the events the block finds due at one moment is taken first: the manual says either may be
(R16, R61, R96, R170). It is drawn at a counter of State, and nothing constrains it. Log 5. -/
opaque eventChoice : Nat → Nat

/-- FREE VALUE. The levels on the six strap pins (ADDR0 least, then TOPO, then BAUD0 and BAUD1) where the bridge itself comes to
the event that samples them: the pins are the board's (R182). Drawn at a counter of State. Log 6. -/
opaque strapLevels : Nat → BitVec 6

/-- FREE VALUE. The second character of the reply to a command of 0x80 or above (R129): the command plus 0x80 is no character,
and the manual gives no other value. Log 27. -/
opaque unknownReplyCode : Byte → Byte

end Sys2Proof.Config
end

