-- ==== Sys2Proof/Machine/Types.lean ====
section
/-!
DEFINITION. The kinds of data the bridge's blocks hold, each with the manual's own names: settings records, station
entries, transaction records, line units, frame receivers, the frame store, egress schedulers, the management engine and
the event and counter unit.
-/

namespace Sys2Proof.Machine

/-! ### Settings (R153, R155) -/

/-- Role of a segment (R153). -/
inductive Role where
  | off | upstream | downstream
  deriving DecidableEq, Repr

/-- Parity of a segment (R53). -/
inductive Parity where
  | none | even | odd
  deriving DecidableEq, Repr

/-- Stop bits of a segment (R53). -/
inductive StopBits where
  | one | two
  deriving DecidableEq, Repr

/-- Noise policy of a segment (R82). -/
inductive NoisePolicy where
  | tolerate | damage
  deriving DecidableEq, Repr

/-- A segment record (R153). -/
structure SegRecord where
  role : Role
  rate : Fin 10
  parity : Parity
  stopBits : StopBits
  idleGap : BitVec 4
  turnGap : BitVec 4
  leadGuard : BitVec 5
  tailGuard : BitVec 5
  echoCheck : Bool
  retryLimit : BitVec 2
  mgmtAccess : Bool
  notices : Bool
  noisePolicy : NoisePolicy
  deriving DecidableEq, Repr

/-- A response timeout class, 0..3 (R1). -/
abbrev TimeoutClass := BitVec 2

/-- The timeout table: the milliseconds of classes 0 to 3, 1..4095 each (R155). -/
structure TimeoutTable where
  class0 : BitVec 12
  class1 : BitVec 12
  class2 : BitVec 12
  class3 : BitVec 12
  deriving DecidableEq, Repr

/-- The milliseconds of a class. -/
def TimeoutTable.get (t : TimeoutTable) (c : TimeoutClass) : BitVec 12 :=
  if c = 0 then t.class0 else if c = 1 then t.class1 else if c = 2 then t.class2 else t.class3

/-- The bridge record (R155). -/
structure BridgeRecord where
  own : Byte
  flood : Bool
  floodClass : TimeoutClass
  learnClass : TimeoutClass
  unsolicited : Bool
  reserve : Byte
  timeouts : TimeoutTable
  bypassLimit : BitVec 3
  missLimit : BitVec 4
  agingInterval : BitVec 12
  ageLimit : Byte
  eventMask : BitVec 16
  deriving DecidableEq, Repr

/-- The settings store (spec/08). -/
structure Settings where
  active : PerSeg SegRecord
  staged : PerSeg SegRecord
  /-- The apply-pending marks (R157). -/
  applyPending : SegSet
  bridge : BridgeRecord
  deriving DecidableEq, Repr

/-- The lease while a segment holds it (R161). -/
structure Lease where
  holder : Seg
  expiry : Word32
  deriving DecidableEq, Repr

/-! ### The station table (R1) -/

/-- A station entry. Each kind carries exactly the fields R1 gives it, so no field of an earlier kind survives a change. A
Static entry is muted while StationSilent is not to be raised for it until its miss count has returned to 0 (R11). -/
inductive Entry where
  | unassigned
  | static (segs : SegSet) (cls : TimeoutClass) (miss : BitVec 4) (muted : Bool)
  | learned (seg : Seg) (cls : TimeoutClass) (used : Bool) (age : Byte) (miss : BitVec 4)
  | blocked
  deriving DecidableEq, Repr

/-- A sweep in flight: when it started and the next entry to visit (R13, R14). -/
structure Sweep where
  start : Word32
  cursor : Byte
  deriving DecidableEq, Repr

/-- The station table with its aging state (R12 to R14). -/
structure StationTable where
  entries : Vector Entry 256
  agingRef : Word32
  sweep : Option Sweep
  deriving DecidableEq, Repr

/-! ### Frames and the frame store (R70, R71, R92, R93) -/

/-- A character as stored and sent: value and mark (R92). -/
structure Ch where
  value : Byte
  mark : Bool
  deriving DecidableEq, Repr

/-- A character as delivered, with its status (R59). -/
structure RxChar where
  value : Byte
  mark : Bool
  parityErr : Bool
  framingErr : Bool
  noise : Bool
  deriving DecidableEq, Repr

/-- Class of a stored frame (R93); Reply is a management reply the bridge built. -/
inductive FrameClass where
  | request | broadcast | management | response | unsolicited | reply
  deriving DecidableEq, Repr

/-- State of a descriptor that is not Free (R93). -/
inductive DescState where
  | filling | ready
  deriving DecidableEq, Repr

/-- A descriptor in Filling or Ready (R93). `ingress = none` is "bridge". -/
structure Desc where
  state : DescState
  cls : FrameClass
  ingress : Option Seg
  station : Byte
  length : Nat
  chain : List (Fin Config.numCells)
  error : Bool
  txn : Option (Fin Config.numTxns)
  pendingEgress : SegSet
  deriving DecidableEq, Repr

/-- The frame store (spec/05). A descriptor that is `none` is Free. -/
structure Store where
  cells : Vector (Vector Ch 16) Config.numCells
  descs : Vector (Option Desc) Config.numDescs
  freeCells : List (Fin Config.numCells)
  freeDescs : List (Fin Config.numDescs)
  deriving DecidableEq, Repr

/-- Why a frame is passed over (R70). -/
inductive SkipReason where
  | blocked | noRoute | noBuffer | stray | late | unsolicitedOff | mgmtOff | oversize | truncated
  deriving DecidableEq, Repr

/-- Notice codes (R43, R123). -/
inductive NoticeCode where
  | noRoute | timeout | damaged | busy | collision | restart
  deriving DecidableEq, Repr

/-- A notice: its code and the station address it names (R108). -/
structure Notice where
  code : NoticeCode
  station : Byte
  deriving DecidableEq, Repr

/-- What a frame calls for at its end (R71). -/
inductive NoticeIntent where
  | noRoute | busy | damaged
  deriving DecidableEq, Repr

/-- The frame in assembly (R71). `cls = none` for a frame skipped as Stray or Late. -/
structure Frame where
  cls : Option FrameClass
  station : Byte
  desc : Option (Fin Config.numDescs)
  txn : Option (Fin Config.numTxns)
  taken : Nat
  intent : Option NoticeIntent
  deriving DecidableEq, Repr

/-- A frame receiver (R70). -/
inductive FrState where
  | hunt
  | store (f : Frame)
  | skip (reason : SkipReason) (f : Frame)
  | blind
  deriving DecidableEq, Repr

/-! ### Transactions (R23) -/

/-- Kind of a transaction (R23). -/
inductive TxnKind where
  | poll | broadcast | loc
  deriving DecidableEq, Repr

/-- State of a transaction (R23). -/
inductive TxnState where
  | forming | pending | executing | sending | awaiting | receiving
  deriving DecidableEq, Repr

/-- Outcome of a transaction (R23). -/
inductive TxnOutcome where
  | answered | complete | replied | discarded | timeout | damaged | noBuffer | collision | restart | noRoute | cancelled
  deriving DecidableEq, Repr

/-- A transaction record in use (R23). `request` is the sequence and command of a Local; `responseSeg` is the segment
noted at a match (R38). -/
structure Txn where
  kind : TxnKind
  state : TxnState
  origin : Seg
  station : Byte
  reqDesc : Option (Fin Config.numDescs)
  egress : SegSet
  copies : SegSet
  windows : SegSet
  cls : Option TimeoutClass
  deadline : Option Word32
  superseded : Bool
  bypass : BitVec 3
  guarded : Bool
  copyOk : Bool
  command : Byte
  sequence : Byte
  outcome : Option TxnOutcome
  responseSeg : Option Seg
  deriving DecidableEq, Repr

/-- The transaction engine (spec/02). -/
structure TxnEngine where
  records : Vector (Option Txn) Config.numTxns
  waiting : List (Fin Config.numTxns)
  holders : PerSeg (Option (Fin Config.numTxns))
  lastTimedOut : PerSeg (Option Byte)
  deriving DecidableEq, Repr

/-! ### Line units (R56, R64). Moments are values of State's `time`. -/

/-- The receiver of a line unit (R56). READY holds the moment its quiet time counts from, whether RXD reads high, and
whether the idle-gap expiry of this quiet period has been taken (R61). -/
inductive RxState where
  | off
  | recover (since : Nat)
  | ready (since : Nat) (high : Bool) (expired : Bool)
  | assemble (edge : Nat) (startTaken : Bool)
  deriving DecidableEq, Repr

/-- The transmitter of a line unit (R64). -/
inductive TxState where
  | marking
  | shifting (c : Ch) (since : Nat)
  | breaking (since : Nat)
  deriving DecidableEq, Repr

/-- A request the transmitter holds (R64, R65). -/
inductive TxRequest where
  | char (c : Ch)
  | brk
  deriving DecidableEq, Repr

/-- A line unit (spec/03). -/
structure LineUnit where
  rx : RxState
  tx : TxState
  held : Option TxRequest
  de : Bool
  deriving DecidableEq, Repr

/-! ### Egress schedulers (R108) -/

/-- Level of a restart asked for by a Restart command (R150). -/
inductive RestartLevel where
  | full | traffic
  deriving DecidableEq, Repr

/-- An effect held until a reply is sent (R135). -/
inductive Deferred where
  | restart (level : RestartLevel)
  | ownAddress (a : Byte)
  deriving DecidableEq, Repr

/-- A deferred effect armed on a reply copy, with the command and sequence of its request (R135). -/
structure Armed where
  effect : Deferred
  command : Byte
  sequence : Byte
  deriving DecidableEq, Repr

/-- A copy in a reply lane (R108). -/
structure ReplyCopy where
  desc : Fin Config.numDescs
  armed : Option Armed
  deriving DecidableEq, Repr

/-- The item in hand (R112): the notice still in the slot, a notice that has left it, or the copy of a descriptor in a
lane. -/
inductive Item where
  | slotNotice
  | sentNotice (n : Notice)
  | reply (d : Fin Config.numDescs)
  | bulk (d : Fin Config.numDescs)
  deriving DecidableEq, Repr

/-- The item in hand with its started mark and attempt count (R108). -/
structure InHand where
  item : Item
  started : Bool
  attempts : Nat
  deriving DecidableEq, Repr

/-- An expected echo (R108, R117): its place in the frame, the character sent, and the moment its last stop bit ended,
once it has. -/
structure Echo where
  index : Nat
  char : Ch
  sentAt : Option Nat
  deriving DecidableEq, Repr

/-- The attempt in progress in TRANSMIT and TAIL: echo check as read at LEAD (R127), own address as read at TRANSMIT
(R123), the index of the next character to request and how many have been sent (R115). -/
structure Attempt where
  echoOn : Bool
  own : Byte
  next : Nat
  sent : Nat
  deriving DecidableEq, Repr

/-- Egress state (R108). `ends` is the moment a guard has run; `since` the moment BACKOFF began. -/
inductive EgState where
  | quiet
  | lead (ends : Nat) (echoOn : Bool)
  | transmit (a : Attempt)
  | tail (ends : Nat) (a : Attempt)
  | backoff (since : Nat)
  deriving DecidableEq, Repr

/-- An egress scheduler (R108). -/
structure Egress where
  slot : Option Notice
  replyLane : List ReplyCopy
  bulkLane : List (Fin Config.numDescs)
  state : EgState
  hand : Option InHand
  echoes : List Echo
  collision : Bool
  deriving DecidableEq, Repr

/-! ### The management engine (R130, R133) -/

/-- A reply cache entry (R133). -/
structure CacheEntry where
  command : Byte
  sequence : Byte
  reply : List Byte
  deferred : Option Deferred
  deriving DecidableEq, Repr

/-- Work of a Local in execution that spans more than one claim (R130): a ClearLearned walk (R17), or the entries (R139)
or counters (R145) still to be read, with the results so far. -/
inductive Work where
  | walk (start : Word32) (cursor : Byte) (mask : SegSet) (cleared : Byte)
  | stations (next : Nat) (left : Nat) (acc : List Byte)
  | counters (clear : Bool) (code : Nat) (next : Nat) (left : Nat) (acc : List Byte)
  deriving DecidableEq, Repr

/-- The engine (R130). -/
inductive EngineState where
  | idle
  | busy (r : Fin Config.numTxns) (w : Work)
  deriving DecidableEq, Repr

/-- The management engine (spec/07). -/
structure Mgmt where
  queue : List (Fin Config.numTxns)
  engine : EngineState
  caches : PerSeg (Option CacheEntry)
  buffer : List Byte
  pendingOwn : Option Byte
  deriving DecidableEq, Repr

/-! ### Events and counters (R168, R176) -/

/-- Event kinds 1..14 (spec/09, 9.3). -/
inductive EventKind where
  | learned | moved | unlearned | bulkUnlearn | stationSilent | timeout | late | collision | leaseTaken | leaseDropped
  | leaseExpired | segmentApplied | restarted | sweepSkipped
  deriving DecidableEq, Repr

/-- An event record (R168). -/
structure EventRecord where
  sequence : BitVec 16
  time : Word32
  kind : EventKind
  seg : Option Seg
  station : Option Byte
  detail : Byte
  deriving DecidableEq, Repr

/-- The event queue, the next sequence number and the events-lost count (R169, R172). -/
structure EventUnit where
  queue : List EventRecord
  nextSeq : BitVec 16
  lost : Byte
  deriving DecidableEq, Repr

/-- The 14 counters of a segment (R176). -/
inductive SegCounter where
  | framesReceived | framesSent | charErrors | noiseChars | orphans | damaged | noBuffer | noRoute | timeouts | lateStray
  | unsolicited | collisions | abandoned | breaks
  deriving DecidableEq, Repr

/-- The 58 counters (R176). -/
structure Counters where
  seg : PerSeg (Vector Word32 14)
  noticesLost : Word32
  sweepsSkipped : Word32
  deriving DecidableEq, Repr

end Sys2Proof.Machine
end

