-- ==== Sys2Proof/Machine/Formats.lean ====
section
/-!
DEFINITION. The formats of R181 and spec/11: codes, and the encoding and decoding of station entries, segment and bridge
records, event records, counters, notices and replies; and the default records the straps give (R153, R155, R182).
-/

namespace Sys2Proof.Machine

/-! ### Codes -/

/-- Role codes (spec/11, segment record). -/
def Role.code : Role → Byte
  | .off => 0
  | .upstream => 1
  | .downstream => 2

/-- The role of a code. -/
def Role.ofCode (b : Byte) : Option Role :=
  if b = 0 then some .off else if b = 1 then some .upstream else if b = 2 then some .downstream else none

/-- Parity codes. -/
def Parity.code : Parity → Byte
  | .none => 0
  | .even => 1
  | .odd => 2

/-- The parity of a code. -/
def Parity.ofCode (b : Byte) : Option Parity :=
  if b = 0 then some .none else if b = 1 then some .even else if b = 2 then some .odd else Option.none

/-- Stop bits as written. -/
def StopBits.code : StopBits → Byte
  | .one => 1
  | .two => 2

/-- The stop bits of a code. -/
def StopBits.ofCode (b : Byte) : Option StopBits :=
  if b = 1 then some .one else if b = 2 then some .two else none

/-- Noise policy codes. -/
def NoisePolicy.code : NoisePolicy → Byte
  | .tolerate => 0
  | .damage => 1

/-- The noise policy of a code. -/
def NoisePolicy.ofCode (b : Byte) : Option NoisePolicy :=
  if b = 0 then some .tolerate else if b = 1 then some .damage else none

/-- A switch: 0x00 off, 0x01 on (R181). -/
def switchCode (b : Bool) : Byte := if b then 1 else 0

/-- The switch of a code. -/
def switchOf (b : Byte) : Option Bool := if b = 0 then some false else if b = 1 then some true else none

/-- A number accepted only in its range (R181). -/
def inRange (lo hi : Nat) (b : Byte) : Option Nat := if lo ≤ b.toNat ∧ b.toNat ≤ hi then some b.toNat else none

/-- A two-character number, most significant first (R181). -/
def number2 (hi lo : Byte) : Nat := hi.toNat * 256 + lo.toNat

/-- A number in two characters, most significant first. -/
def bytes2 (n : Nat) : List Byte := [BitVec.ofNat 8 (n / 256), BitVec.ofNat 8 n]

/-- A 32-bit number in four characters, most significant first. -/
def bytes4 (w : Word32) : List Byte :=
  [w.extractLsb' 24 8, w.extractLsb' 16 8, w.extractLsb' 8 8, w.extractLsb' 0 8]

/-- Notice codes (R43, R123). -/
def NoticeCode.byte : NoticeCode → Byte
  | .noRoute => 0x81
  | .timeout => 0x82
  | .damaged => 0x83
  | .busy => 0x84
  | .collision => 0x85
  | .restart => 0x86

/-- The notice a frame's intent calls for (R89). -/
def NoticeIntent.code : NoticeIntent → NoticeCode
  | .noRoute => .noRoute
  | .busy => .busy
  | .damaged => .damaged

/-- Event kinds 1..14 (spec/09, 9.3). -/
def EventKind.code : EventKind → Nat
  | .learned => 1
  | .moved => 2
  | .unlearned => 3
  | .bulkUnlearn => 4
  | .stationSilent => 5
  | .timeout => 6
  | .late => 7
  | .collision => 8
  | .leaseTaken => 9
  | .leaseDropped => 10
  | .leaseExpired => 11
  | .segmentApplied => 12
  | .restarted => 13
  | .sweepSkipped => 14

/-- The index of a segment counter (R176). -/
def SegCounter.index : SegCounter → Fin 14
  | .framesReceived => 0
  | .framesSent => 1
  | .charErrors => 2
  | .noiseChars => 3
  | .orphans => 4
  | .damaged => 5
  | .noBuffer => 6
  | .noRoute => 7
  | .timeouts => 8
  | .lateStray => 9
  | .unsolicited => 10
  | .collisions => 11
  | .abandoned => 12
  | .breaks => 13

/-- Reply status codes (R129). -/
inductive Status where
  | done | accepted | badCheck | badLength | badCommand | badArgument | noLease | leaseBusy | conflict | notHolder
  deriving DecidableEq, Repr

/-- The status as its code (R129). -/
def Status.byte : Status → Byte
  | .done => 0x00
  | .accepted => 0x01
  | .badCheck => 0x02
  | .badLength => 0x03
  | .badCommand => 0x04
  | .badArgument => 0x05
  | .noLease => 0x06
  | .leaseBusy => 0x07
  | .conflict => 0x08
  | .notHolder => 0x09

/-- The commands of the command table (spec/07, 7.4). -/
inductive MgmtCommand where
  | identify | readStatus | readStation | writeStation | readStationRange | clearLearned | readSegment | writeSegment
  | applySegment | writeBridge | readBridge | readCounters | readClearCounters | readEvents | takeLease | dropLease
  | restart | restartSegment | echo
  deriving DecidableEq, Repr

/-- The command of a code, where the table has it. -/
def MgmtCommand.ofCode (b : Byte) : Option MgmtCommand :=
  if b = 0x01 then some .identify
  else if b = 0x02 then some .readStatus
  else if b = 0x10 then some .readStation
  else if b = 0x11 then some .writeStation
  else if b = 0x12 then some .readStationRange
  else if b = 0x13 then some .clearLearned
  else if b = 0x20 then some .readSegment
  else if b = 0x21 then some .writeSegment
  else if b = 0x22 then some .applySegment
  else if b = 0x23 then some .writeBridge
  else if b = 0x24 then some .readBridge
  else if b = 0x30 then some .readCounters
  else if b = 0x31 then some .readClearCounters
  else if b = 0x38 then some .readEvents
  else if b = 0x40 then some .takeLease
  else if b = 0x41 then some .dropLease
  else if b = 0x50 then some .restart
  else if b = 0x51 then some .restartSegment
  else if b = 0x60 then some .echo
  else none

/-- Whether a number of argument characters is the one the command table gives (spec/07, 7.4; R152 for Echo). -/
def MgmtCommand.argCountOk (c : MgmtCommand) (n : Nat) : Bool :=
  match c with
  | .identify => n == 0
  | .readStatus => n == 0
  | .readStation => n == 1
  | .writeStation => n == 4
  | .readStationRange => n == 2
  | .clearLearned => n == 1
  | .readSegment => n == 2
  | .writeSegment => n == 14
  | .applySegment => n == 1
  | .writeBridge => n == 21
  | .readBridge => n == 0
  | .readCounters => n == 3
  | .readClearCounters => n == 3
  | .readEvents => n == 1
  | .takeLease => n == 1
  | .dropLease => n == 0
  | .restart => n == 1
  | .restartSegment => n == 1
  | .echo => decide (n ≤ 88)

/-- Whether a command needs the lease (spec/07, 7.4). -/
def MgmtCommand.needsLease : MgmtCommand → Bool
  | .writeStation | .clearLearned | .writeSegment | .applySegment | .writeBridge | .restart | .restartSegment => true
  | .identify | .readStatus | .readStation | .readStationRange | .readSegment | .readBridge | .readCounters
  | .readClearCounters | .readEvents | .takeLease | .dropLease | .echo => false

/-! ### Records -/

/-- A segment record in 13 characters (spec/11). -/
def SegRecord.encode (r : SegRecord) : List Byte :=
  [r.role.code, BitVec.ofNat 8 r.rate.val, r.parity.code, r.stopBits.code, r.idleGap.setWidth 8, r.turnGap.setWidth 8,
   r.leadGuard.setWidth 8, r.tailGuard.setWidth 8, switchCode r.echoCheck, r.retryLimit.setWidth 8,
   switchCode r.mgmtAccess, switchCode r.notices, r.noisePolicy.code]

/-- The record of 13 characters, every field in its range (R142, R153), or none. -/
def SegRecord.decode : List Byte → Option SegRecord
  | [role, rate, parity, stops, idle, turn, lead, tail, echo, retry, access, notices, noise] => do
    let role ← Role.ofCode role
    let rateNo ← inRange 0 9 rate
    let parity ← Parity.ofCode parity
    let stops ← StopBits.ofCode stops
    let idle ← inRange 2 15 idle
    let turn ← inRange 1 15 turn
    let lead ← inRange 0 31 lead
    let tail ← inRange 0 31 tail
    let echo ← switchOf echo
    let retry ← inRange 0 3 retry
    let access ← switchOf access
    let notices ← switchOf notices
    let noise ← NoisePolicy.ofCode noise
    pure
      { role := role, rate := Fin.ofNat 10 rateNo, parity := parity, stopBits := stops, idleGap := BitVec.ofNat 4 idle
        turnGap := BitVec.ofNat 4 turn, leadGuard := BitVec.ofNat 5 lead, tailGuard := BitVec.ofNat 5 tail
        echoCheck := echo, retryLimit := BitVec.ofNat 2 retry, mgmtAccess := access, notices := notices
        noisePolicy := noise }
  | _ => none

/-- The ranges of R153 that a record's type does not give by itself. -/
def SegRecord.wf (r : SegRecord) : Bool := decide (2 ≤ r.idleGap.toNat) && decide (1 ≤ r.turnGap.toNat)

/-- A bridge record in 21 characters (spec/11). -/
def BridgeRecord.encode (b : BridgeRecord) : List Byte :=
  [b.own, switchCode b.flood, b.floodClass.setWidth 8, b.learnClass.setWidth 8, switchCode b.unsolicited, b.reserve]
    ++ bytes2 b.timeouts.class0.toNat ++ bytes2 b.timeouts.class1.toNat ++ bytes2 b.timeouts.class2.toNat
    ++ bytes2 b.timeouts.class3.toNat
    ++ [b.bypassLimit.setWidth 8, b.missLimit.setWidth 8]
    ++ bytes2 b.agingInterval.toNat ++ [b.ageLimit] ++ bytes2 b.eventMask.toNat

/-- A two-character number accepted only in its range (R181). -/
def inRange2 (lo hi : Nat) (h l : Byte) : Option Nat :=
  if lo ≤ number2 h l ∧ number2 h l ≤ hi then some (number2 h l) else none

/-- An event mask with positions 0 and 15 clear (R155). -/
def eventMaskOf (h l : Byte) : Option (BitVec 16) :=
  let m := BitVec.ofNat 16 (number2 h l)
  if m.getLsbD 0 || m.getLsbD 15 then none else some m

/-- The bridge record of 21 characters, every field in its range (R144, R155), or none. -/
def BridgeRecord.decode : List Byte → Option BridgeRecord
  | [own, flood, floodClass, learnClass, unsol, reserve, t0h, t0l, t1h, t1l, t2h, t2l, t3h, t3l, bypass, miss, agingH,
     agingL, age, maskH, maskL] => do
    let ownNo ← inRange 1 0xFE own
    let flood ← switchOf flood
    let floodClass ← inRange 0 3 floodClass
    let learnClass ← inRange 0 3 learnClass
    let unsol ← switchOf unsol
    let reserveNo ← inRange 0 64 reserve
    let t0 ← inRange2 1 4095 t0h t0l
    let t1 ← inRange2 1 4095 t1h t1l
    let t2 ← inRange2 1 4095 t2h t2l
    let t3 ← inRange2 1 4095 t3h t3l
    let bypass ← inRange 1 7 bypass
    let miss ← inRange 0 15 miss
    let aging ← inRange2 0 3600 agingH agingL
    let age ← inRange 1 255 age
    let mask ← eventMaskOf maskH maskL
    pure
      { own := BitVec.ofNat 8 ownNo, flood := flood, floodClass := BitVec.ofNat 2 floodClass
        learnClass := BitVec.ofNat 2 learnClass, unsolicited := unsol, reserve := BitVec.ofNat 8 reserveNo
        timeouts := ⟨BitVec.ofNat 12 t0, BitVec.ofNat 12 t1, BitVec.ofNat 12 t2, BitVec.ofNat 12 t3⟩
        bypassLimit := BitVec.ofNat 3 bypass, missLimit := BitVec.ofNat 4 miss
        agingInterval := BitVec.ofNat 12 aging, ageLimit := BitVec.ofNat 8 age, eventMask := mask }
  | _ => none

/-- The ranges of R155 that a record's type does not give by itself. -/
def BridgeRecord.wf (b : BridgeRecord) : Bool :=
  decide (1 ≤ b.own.toNat ∧ b.own.toNat ≤ 0xFE) && decide (b.reserve.toNat ≤ 64)
    && decide (1 ≤ b.timeouts.class0.toNat) && decide (1 ≤ b.timeouts.class1.toNat)
    && decide (1 ≤ b.timeouts.class2.toNat) && decide (1 ≤ b.timeouts.class3.toNat)
    && decide (1 ≤ b.bypassLimit.toNat) && decide (b.agingInterval.toNat ≤ 3600) && decide (1 ≤ b.ageLimit.toNat)
    && !b.eventMask.getLsbD 0 && !b.eventMask.getLsbD 15

/-- A segment set as its mask in one character (R181). -/
def maskByte (m : SegSet) : Byte := m.setWidth 8

/-- The set of a mask that names no segment other than S0..S3 (R20, R141, R143). -/
def maskOf (b : Byte) : Option SegSet := if b.toNat < 16 then some (b.setWidth 4) else none

/-- A station entry in 4 characters (spec/11). -/
def Entry.encode : Entry → List Byte
  | .unassigned => [0, 0, 0, 0]
  | .static segs cls miss _ => [1, maskByte segs, cls.setWidth 8 ||| (miss.setWidth 8 <<< 4), 0]
  | .learned seg cls used age miss =>
    [if used then 0x12 else 0x02, maskByte (SegSet.one seg), cls.setWidth 8 ||| (miss.setWidth 8 <<< 4), age]
  | .blocked => [3, 0, 0, 0]

/-- An event record in 10 characters (spec/11): an absent segment is 0xFF, an absent station 0x00. -/
def EventRecord.encode (e : EventRecord) : List Byte :=
  bytes2 e.sequence.toNat ++ bytes4 e.time
    ++ [BitVec.ofNat 8 e.kind.code, match e.seg with | some g => g.byte | none => 0xFF, e.station.getD 0, e.detail]

/-- The character that makes the sum of all characters 0 modulo 256 (R123, R129). -/
def checkByte (l : List Byte) : Byte := 0 - l.foldl (· + ·) 0

/-- The second character of a reply: the request's command plus 0x80 (R129, R181). DESIGN CHOICE (log 27): for a command of
0x80 or above, which is none of the table's, that sum is no character; R129 says of the character only that it is 0x80 or
more, and its other bits are a FREE VALUE. -/
def replyCode (command : Byte) : Byte :=
  if command < 0x80 then command + 0x80 else 0x80 ||| Config.unknownReplyCode command

/-- A management reply: own address, reply code, sequence, status, results, check (R129). -/
def replyFrame (own command sequence : Byte) (status : Status) (results : List Byte) : List Byte :=
  let body := [own, replyCode command, sequence, status.byte] ++ results
  body ++ [checkByte body]

/-- A notice frame: own address, code, station address, check (R123). -/
def noticeFrame (own : Byte) (n : Notice) : List Byte :=
  let body := [own, n.code.byte, n.station]
  body ++ [checkByte body]

/-! ### Defaults from the straps (R153, R155, R182) -/

/-- The default role of a segment under the TOPO strap (R153). -/
def defaultRole (topo : Bool) : Seg → Role
  | .s0 => .upstream
  | .s1 => if topo then .upstream else .downstream
  | .s2 => .downstream
  | .s3 => .downstream

/-- The rate code of the BAUD strap (R153). -/
def defaultRate (baud : BitVec 2) : Fin 10 :=
  if baud = 0 then 3 else if baud = 1 then 4 else if baud = 2 then 5 else 7

/-- The default segment record (R153). -/
def SegRecord.default (straps : Straps) (g : Seg) : SegRecord :=
  { role := defaultRole straps.topo g, rate := defaultRate straps.baud, parity := .none, stopBits := .one, idleGap := 3
    turnGap := 2, leadGuard := 1, tailGuard := 1, echoCheck := true, retryLimit := 1
    mgmtAccess := defaultRole straps.topo g == .upstream, notices := false, noisePolicy := .tolerate }

/-- The default bridge record (R155): every event kind on except Timeout. -/
def BridgeRecord.default (straps : Straps) : BridgeRecord :=
  { own := 0xF0#8 + straps.addr.setWidth 8, flood := true, floodClass := 2, learnClass := 1, unsolicited := false
    reserve := 16, timeouts := ⟨20, 50, 200, 1000⟩, bypassLimit := 3, missLimit := 3, agingInterval := 60
    ageLimit := 10, eventMask := 0x7FBE }

end Sys2Proof.Machine
end

