-- ==== Sys2Proof/Machine/Flags.lean ====
section
/-!
DEFINITION. The flag and level computations: the parity bit, character formats and their lengths (R53, R54), the levels a
character puts on TXD, and the sum check of a management frame (R128).
-/

namespace Sys2Proof.Machine

/-- Number of the first stop bit's position: after start, eight data bits, mark and the parity bit when present (R53). -/
def SegRecord.firstStop (r : SegRecord) : Nat :=
  match r.parity with
  | .none => 11
  | .even => 12
  | .odd => 12

/-- Bits of a character, which is also the position of its last stop bit: 11, 12 or 13 (R53). -/
def SegRecord.charBits (r : SegRecord) : Nat :=
  match r.stopBits with
  | .one => r.firstStop
  | .two => r.firstStop + 1

/-- Units of `time` in one bit time (R54). -/
def SegRecord.bitTime (r : SegRecord) : Nat := Config.bitUnits r.rate

/-- Units of `time` in one character time (R54). -/
def SegRecord.charTime (r : SegRecord) : Nat := r.charBits * r.bitTime

/-- Units of `time` from a start bit's falling edge to the middle of bit position k: k - 1/2 bit times (R57). -/
def SegRecord.middleOf (r : SegRecord) (k : Nat) : Nat := k * r.bitTime - r.bitTime / 2

/-- Whether the number of ones among the low n bits is odd. -/
def oddOnes (w : BitVec 13) (n : Nat) : Bool :=
  (List.range n).foldl (fun acc i => acc ^^ w.getLsbD i) false

/-- The parity bit of a character: over the eight data bits and the mark bit (R53); none with parity None. -/
def parityBit (p : Parity) (c : Ch) : Option Bool :=
  let ones := oddOnes ((c.value.setWidth 13) ||| (if c.mark then 0x100 else 0)) 9
  match p with
  | .none => none
  | .even => some ones
  | .odd => some !ones

/-- The levels a character puts on TXD, bit position 1 first (R53). -/
def charLevels (r : SegRecord) (c : Ch) : List Bool :=
  [false] ++ (List.range 8).map c.value.getLsbD ++ [c.mark] ++ (parityBit r.parity c).toList
    ++ (match r.stopBits with | .one => [true] | .two => [true, true])

/-- Whether a request is well checked: its characters sum to 0 modulo 256 (R128). -/
def wellChecked (l : List Byte) : Bool := l.foldl (· + ·) 0 == 0

end Sys2Proof.Machine
end

