-- ==== Sys2Proof/WellFormed.lean ====
section
/-!
DEFINITION. Which commands describe an event that can be: the checks on operands alone. A command that passes is taken by
`exec` when the state has room for its event; one that fails is given no better meaning than the receiver's own verdict
(a character whose start bit reads high is a false start, R57) or an execution that makes no claim.
-/

namespace Sys2Proof

/-- Each bit position's value by majority of its three samples (R58). -/
def Samples.majority (x : Samples) : BitVec 13 := (x.a &&& x.b) ||| (x.b &&& x.c) ||| (x.a &&& x.c)

/-- The value of bit position k, counted from 1 (R53). -/
def Samples.bit (x : Samples) (k : Nat) : Bool := x.majority.getLsbD (k - 1)

/-- Whether a command's operands describe an event of its row.
- CHARACTER_COMPLETE: the start bit reads low by majority, else the row would be FALSE_START (R57).
- The reads of several entries or counters make at least one claim (R130). -/
def Instr.wellFormed : Instr → Bool
  | .characterComplete _ x => !x.bit 1
  | .breakFound _ => true
  | .falseStart _ => true
  | .startWhileDriving _ => true
  | .recoverEnd _ => true
  | .idleGapExpiry _ => true
  | .arbiterScan => true
  | .takeLine _ => true
  | .leadGuardEnd _ => true
  | .characterSent _ => true
  | .echoDeadline _ => true
  | .breakSent _ => true
  | .tailGuardEnd _ _ => true
  | .backoffEnd _ => true
  | .responseTimerExpiry _ => true
  | .agingTick => true
  | .sweepVisit => true
  | .walkVisit => true
  | .leaseExpiry => true
  | .settingsApply _ => true
  | .identify => true
  | .readStatus => true
  | .readStation => true
  | .writeStation => true
  | .readStationRange claims => decide (1 ≤ claims)
  | .clearLearned => true
  | .readSegment => true
  | .writeSegment => true
  | .applySegment => true
  | .writeBridge => true
  | .readBridge => true
  | .readCounters claims => decide (1 ≤ claims)
  | .readClearCounters claims => decide (1 ≤ claims)
  | .readEvents => true
  | .takeLease => true
  | .dropLease => true
  | .restart => true
  | .restartSegment => true
  | .echo => true
  | .badCommand => true
  | .powerOnRestart _ => true
  | .powerOnRestartEnd _ => true
  | .fallingEdge _ => true

end Sys2Proof
end

