-- ==== Sys2Proof/Machine/Operands.lean ====
section
/-!
DEFINITION. What the operands of a command say: the receiver's verdict on the samples of one character period (R57 to
R60) and the reading of a request's argument characters.
-/

namespace Sys2Proof.Machine

/-- The receiver's verdict on a character period (spec/03, after R60). -/
inductive Verdict where
  | falseStart
  | brk
  | char (c : RxChar)
  deriving DecidableEq, Repr

/-- Positions at which the three samples disagree (R58). -/
def sampleNoise (x : Samples) : BitVec 13 := (x.a ^^^ x.b) ||| (x.b ^^^ x.c)

/-- Whether a character carries the noise indication: the samples of some bit from the start bit through the last stop
bit disagree (R58). -/
def noisy (r : SegRecord) (x : Samples) : Bool := (sampleNoise x).extractLsb' 0 r.charBits != 0

/-- Whether a received character's parity check fails (R53, R59); never with parity None. -/
def parityFails (r : SegRecord) (x : Samples) : Bool :=
  match r.parity with
  | .none => false
  | .even => oddOnes (x.majority >>> 1) 10
  | .odd => !oddOnes (x.majority >>> 1) 10

/-- Whether some stop bit reads low (R59). -/
def framingFails (r : SegRecord) (x : Samples) : Bool :=
  match r.stopBits with
  | .one => !x.bit r.firstStop
  | .two => !(x.bit r.firstStop && x.bit (r.firstStop + 1))

/-- The receiver's verdict: a start bit that reads high is a false start (R57); all positions low through the first stop
bit are a break (R60); anything else is a character with its status (R59). -/
def verdict (r : SegRecord) (x : Samples) : Verdict :=
  if x.bit 1 then .falseStart
  else if x.majority.extractLsb' 0 r.firstStop = 0 then .brk
  else .char
    { value := x.majority.extractLsb' 1 8, mark := x.bit 10, parityErr := parityFails r x
      framingErr := framingFails r x, noise := noisy r x }

/-- Whether the line reads high at the middle of the last stop bit (R59). -/
def endsHigh (r : SegRecord) (x : Samples) : Bool := x.bit r.charBits

/-- Argument character i of a request (R128: argument i stands at request index 3 + i), or 0 beyond its end. -/
def arg (args : List Byte) (i : Nat) : Byte := args.getD i 0

/-- The segment a one-character argument names, where it is 0..3. -/
def segArg (args : List Byte) (i : Nat) : Option Seg := Seg.ofNum? (arg args i).toNat

end Sys2Proof.Machine
end

