-- ==== Sys2Proof/Machine/PowerOn.lean ====
section
/-!
DEFINITION. What each block holds when a power-on or Full restart ends (R22, R52, R68, R106, R126, R136, R154, R155, R175,
R180, R184), before the Restarted event is raised.
-/

namespace Sys2Proof.Machine

/-- C0 to C127 ascending (R94). -/
def ascendingCells : List (Fin Config.numCells) := List.ofFn id

/-- D0 to D47 ascending (R95). -/
def ascendingDescs : List (Fin Config.numDescs) := List.ofFn id

/-- T0 to T7 ascending. -/
def ascendingTxns : List (Fin Config.numTxns) := [0, 1, 2, 3, 4, 5, 6, 7]

/-- Cells no frame has been stored in yet. DESIGN CHOICE (log 7): their content is never read. -/
def blankCells : Vector (Vector Ch 16) Config.numCells :=
  Vector.replicate Config.numCells (Vector.replicate 16 ⟨0, false⟩)

/-- The store with everything free; cell contents are not cleared (R106). -/
def Store.allFree (cells : Vector (Vector Ch 16) Config.numCells) : Store :=
  { cells := cells, descs := Vector.replicate Config.numDescs none, freeCells := ascendingCells
    freeDescs := ascendingDescs }

/-- The settings from the straps (R154, R155, R182). -/
def Settings.default (straps : Straps) : Settings :=
  { active := PerSeg.tabulate (SegRecord.default straps), staged := PerSeg.tabulate (SegRecord.default straps)
    applyPending := 0, bridge := BridgeRecord.default straps }

/-- The station table cleared (R22). -/
def StationTable.cleared : StationTable :=
  { entries := Vector.replicate 256 .unassigned, agingRef := 0, sweep := none }

/-- The transaction engine with every record free (R52). -/
def TxnEngine.allFree : TxnEngine :=
  { records := Vector.replicate Config.numTxns none, waiting := [], holders := PerSeg.const none
    lastTimedOut := PerSeg.const none }

/-- A line unit as a restart of power-on or Full level starts it (R68). -/
def LineUnit.started (r : SegRecord) : LineUnit :=
  { rx := if r.role = .off then .off else .recover 0, tx := .marking, held := none, de := false }

/-- An egress scheduler with nothing to send (R108, R126). -/
def Egress.empty : Egress :=
  { slot := none, replyLane := [], bulkLane := [], state := .quiet, hand := none, echoes := [], collision := false }

/-- The management engine after a power-on or Full restart (R130, R136). -/
def Mgmt.cleared : Mgmt :=
  { queue := [], engine := .idle, caches := PerSeg.const none, buffer := [], pendingOwn := none }

/-- The event unit before its first event (R175). -/
def EventUnit.empty : EventUnit := { queue := [], nextSeq := 0, lost := 0 }

/-- Every counter 0 (R180). -/
def Counters.zero : Counters :=
  { seg := PerSeg.const (Vector.replicate 14 0), noticesLost := 0, sweepsSkipped := 0 }

/-- The Restarted record of a power-on or Full restart: sequence 0, time 0 (R175). -/
def firstRecord (detail : Byte) : EventRecord :=
  { sequence := 0, time := 0, kind := .restarted, seg := none, station := none, detail := detail }

end Sys2Proof.Machine
end

