-- ==== Sys2Proof/Machine/State.lean ====
section
/-!
DEFINITION. The whole state of the bridge as plain data, the reasons a step can stop (there is no fault), and the state
right after reset.
-/

namespace Sys2Proof.Machine

/-- The bridge: pins, time, one field per block, and the queue of events waiting. -/
structure State where
  /-- Fifths of a CLK period since the last power-on or Full restart (log 3). The millisecond timebase is a view of it. -/
  time : Nat
  /-- RST_N reads high (R163). -/
  rstN : Bool
  /-- The supply monitor holds the bridge (R183). -/
  supplyHold : Bool
  /-- Levels on the strap pins (R182): inputs, which an event that samples them says, and which the bridge never keeps. -/
  straps : Straps
  settings : Settings
  lease : Option Lease
  table : StationTable
  txns : TxnEngine
  lines : PerSeg LineUnit
  receivers : PerSeg FrState
  store : Store
  egress : PerSeg Egress
  mgmt : Mgmt
  events : EventUnit
  counters : Counters
  /-- The model's own: how many free values have been drawn (log 5). -/
  freeChoice : Nat
  /-- The commands waiting, first in first out (log 1). -/
  pending : List Instr
  deriving DecidableEq, Repr

/-- Reasons the bridge stops with a fault. None: the manual gives it no fault, and no command raises one. -/
inductive Fault where
  deriving DecidableEq, Repr

/-- Reasons a command has no meaning here. -/
inductive Refusal where
  /-- Raised only by an arm of `exec` whose command has no meaning yet; safe. No arm does: every row has its meaning. -/
  | notModelled (mnemonic : String)
  deriving DecidableEq, Repr

/-- The strap pins left open: 0 through their pull-downs (R182). DESIGN CHOICE for reset, log 6. -/
def State.resetStraps : Straps := ⟨0, false, 0⟩

/-- The bridge when a power-on restart has just ended (R184): one record, Restarted, in the queue. -/
def State.reset : State :=
  { time := 0
    rstN := true
    supplyHold := false
    straps := State.resetStraps
    settings := Settings.default State.resetStraps
    lease := none
    table := StationTable.cleared
    txns := TxnEngine.allFree
    lines := PerSeg.tabulate fun g => LineUnit.started (SegRecord.default State.resetStraps g)
    receivers := PerSeg.const .hunt
    store := Store.allFree blankCells
    egress := PerSeg.const Egress.empty
    mgmt := Mgmt.cleared
    events := { queue := [firstRecord 0], nextSeq := 1, lost := 0 }
    counters := Counters.zero
    freeChoice := 0
    pending := [] }

end Sys2Proof.Machine
end

