-- ==== Sys2Proof/Machine/Ops.lean ====
section
/-!
DEFINITION. The named operations the meanings are built from: time, events and counters, the frame store, the station
table, notices and lanes, transactions and the grant arbiter. Each is a total function of the state.
-/

namespace Sys2Proof.Machine

/-! ### Power and time -/

/-- Whether the bridge is held in power-on restart (R163, R183). -/
def State.held (s : State) : Bool := !s.rstN || s.supplyHold

/-- The millisecond timebase: wraps at 32 bits (spec/00, R184). -/
def State.nowMs (s : State) : Word32 := BitVec.ofNat 32 (s.time / Config.unitsPerMs)

/-- Time passes up to moment t, where t is still ahead (log 3). -/
def State.advance (s : State) (t : Nat) : State := { s with time := max s.time t }

/-- The moment at which the timebase reaches d, its wrap taken into account: now, when d is reached or past (log 20). -/
def State.momentOf (s : State) (d : Word32) : Nat :=
  let ahead := (d - s.nowMs).toNat
  if ahead = 0 ∨ 2 ^ 31 ≤ ahead then s.time
  else (s.time / Config.unitsPerMs + ahead) * Config.unitsPerMs

/-- One event of the bridge: nothing while the bridge is held (R163); nothing when the event's conditions do not hold
(`due = none`, log 2); else time moves to the event's moment and the effect follows (log 3). -/
def State.takeEvent (s : State) (due : Option Nat) (effect : State → State) :
    Host.Outcome State Fault Refusal :=
  .next (if s.held then s else match due with
    | none => s
    | some t => effect (s.advance t))

/-! ### Per-segment pieces -/

/-- The active record of g. -/
def State.active (s : State) (g : Seg) : SegRecord := s.settings.active.get g

/-- The bridge record. -/
def State.bridge (s : State) : BridgeRecord := s.settings.bridge

/-- Replace the line unit of g. -/
def State.setLine (s : State) (g : Seg) (u : LineUnit) : State := { s with lines := s.lines.set g u }

/-- Replace the frame receiver of g. -/
def State.setReceiver (s : State) (g : Seg) (f : FrState) : State := { s with receivers := s.receivers.set g f }

/-- Replace the egress scheduler of g. -/
def State.setEgress (s : State) (g : Seg) (e : Egress) : State := { s with egress := s.egress.set g e }

/-- The set of segments whose active role is Downstream. -/
def State.downstream (s : State) : SegSet := SegSet.ofPred fun g => (s.active g).role == .downstream

/-! ### Events (R169, R172) and counters (R176) -/

/-- One claim of the event unit (R169): a masked kind leaves no trace; a kind that is on takes a sequence number and joins
the queue, or is dropped and counted at a full queue (R172). -/
def EventUnit.raise (u : EventUnit) (mask : BitVec 16) (now : Word32) (kind : EventKind) (seg : Option Seg)
    (station : Option Byte) (detail : Byte) : EventUnit :=
  if mask.getLsbD kind.code then
    if u.queue.length < Config.eventQueueCap then
      { u with
        queue := u.queue ++ [{ sequence := u.nextSeq, time := now, kind := kind, seg := seg, station := station
                               detail := detail }]
        nextSeq := u.nextSeq + 1 }
    else { u with nextSeq := u.nextSeq + 1, lost := if u.lost = 255 then 255 else u.lost + 1 }
  else u

/-- A block raises an event (R169). -/
def State.raise (s : State) (kind : EventKind) (seg : Option Seg) (station : Option Byte) (detail : Byte) : State :=
  { s with events := s.events.raise s.bridge.eventMask s.nowMs kind seg station detail }

/-- A counter raised by 1, saturating (R176). -/
def saturatingSucc (w : Word32) : Word32 := if w = BitVec.allOnes 32 then w else w + 1

/-- The value of a segment counter. -/
def Counters.read (c : Counters) (g : Seg) (i : Fin 14) : Word32 := (c.seg.get g)[i]

/-- A segment counter replaced. -/
def Counters.write (c : Counters) (g : Seg) (i : Fin 14) (w : Word32) : Counters :=
  { c with seg := c.seg.set g ((c.seg.get g).set i.val w i.isLt) }

/-- Raise a segment counter by 1 (R176). -/
def State.count (s : State) (g : Seg) (c : SegCounter) : State :=
  { s with counters := s.counters.write g c.index (saturatingSucc (s.counters.read g c.index)) }

/-- Raise a segment counter by 1 where b holds. -/
def State.countIf (s : State) (b : Bool) (g : Seg) (c : SegCounter) : State := if b then s.count g c else s

/-- Raise NoticesLost by 1 (R178). -/
def State.countNoticeLost (s : State) : State :=
  { s with counters := { s.counters with noticesLost := saturatingSucc s.counters.noticesLost } }

/-- Raise SweepsSkipped by 1 (R178). -/
def State.countSweepSkipped (s : State) : State :=
  { s with counters := { s.counters with sweepsSkipped := saturatingSucc s.counters.sweepsSkipped } }

/-! ### The frame store (spec/05) -/

/-- The descriptor, where it is not Free. -/
def Store.desc (st : Store) (d : Fin Config.numDescs) : Option Desc := st.descs[d]

/-- Replace a descriptor. -/
def Store.putDesc (st : Store) (d : Fin Config.numDescs) (x : Option Desc) : Store :=
  { st with descs := st.descs.set d.val x d.isLt }

/-- Change a descriptor that is not Free. -/
def Store.modify (st : Store) (d : Fin Config.numDescs) (f : Desc → Desc) : Store :=
  match st.desc d with
  | none => st
  | some x => st.putDesc d (some (f x))

/-- Release (R100): the chain's cells go to the tail of the free cell list in chain order, the descriptor is Free and goes
to the tail of its list. A Free descriptor is not released again. -/
def Store.release (st : Store) (d : Fin Config.numDescs) : Store :=
  match st.desc d with
  | none => st
  | some x => { st.putDesc d none with freeCells := st.freeCells ++ x.chain, freeDescs := st.freeDescs ++ [d] }

/-- Release when Ready with an empty pending egress set and no transaction (R100). -/
def Store.releaseIfDone (st : Store) (d : Fin Config.numDescs) : Store :=
  match st.desc d with
  | none => st
  | some x => if x.state = .ready ∧ x.pendingEgress = 0 ∧ x.txn = none then st.release d else st

/-- Segment g leaves the pending egress set (R98), and the set is tested for release. -/
def Store.leave (st : Store) (d : Fin Config.numDescs) (g : Seg) : Store :=
  (st.modify d fun x => { x with pendingEgress := x.pendingEgress.erase g }).releaseIfDone d

/-- The transaction field is cleared (R99), and the descriptor is tested for release. -/
def Store.dropTxn (st : Store) (d : Fin Config.numDescs) : Store :=
  (st.modify d fun x => { x with txn := none }).releaseIfDone d

/-- The cell at the chain position of character k (R92). -/
def Desc.cellOf (x : Desc) (k : Nat) : Option (Fin Config.numCells) := x.chain[k / Config.cellPlaces]?

/-- Write a character in place k mod 16 of a cell (R92). -/
def Store.writeCell (st : Store) (c : Fin Config.numCells) (k : Nat) (ch : Ch) : Store :=
  { st with
    cells := st.cells.set c.val
      (st.cells[c].set (k % 16) ch (Nat.mod_lt k (by decide))) c.isLt }

/-- Character k of a stored frame, below its length (R92, R101). -/
def Store.charAt (st : Store) (d : Fin Config.numDescs) (k : Nat) : Option Ch :=
  match st.desc d with
  | none => none
  | some x =>
    if k < x.length then
      match x.cellOf k with
      | none => none
      | some c => some (st.cells[c][k % 16]'(Nat.mod_lt k (by decide)))
    else none

/-- The values of a stored frame's characters in order (R128). -/
def Store.values (st : Store) (d : Fin Config.numDescs) : List Byte :=
  match st.desc d with
  | none => []
  | some x => (List.range x.length).filterMap fun k => (st.charAt d k).map Ch.value

/-- The one claim of an admission (R76, R78, R97): the head descriptor and the head cell are taken, the address character
is stored in place 0. -/
def Store.openFrame (st : Store) (cls : FrameClass) (ingress : Seg) (ch : Ch) (error : Bool)
    (txn : Option (Fin Config.numTxns)) : Option (Fin Config.numDescs × Store) :=
  match st.freeDescs, st.freeCells with
  | d :: ds, c :: cs =>
    let x : Desc :=
      { state := .filling, cls := cls, ingress := some ingress, station := ch.value, length := 1, chain := [c]
        error := error, txn := txn, pendingEgress := 0 }
    some (d, ({ st with freeDescs := ds, freeCells := cs }.putDesc d (some x)).writeCell c 0 ch)
  | _, _ => none

/-- Append the head cell of the free list to a chain (R80); none when the list is empty. -/
def Store.grow (st : Store) (d : Fin Config.numDescs) : Option Store :=
  match st.desc d, st.freeCells with
  | some x, c :: cs => some ({ st with freeCells := cs }.putDesc d (some { x with chain := x.chain ++ [c] }))
  | _, _ => none

/-- Store a further character in the chain's next place (R79), with its error record (R82). -/
def Store.append (st : Store) (d : Fin Config.numDescs) (ch : Ch) (erroneous : Bool) : Store :=
  match st.desc d with
  | none => st
  | some x =>
    let st := match x.cellOf x.length with
      | none => st
      | some c => st.writeCell c x.length ch
    st.putDesc d (some { x with length := x.length + 1, error := x.error || erroneous })

/-- Copy a reply's characters into its cells: index k on, the first with mark 1 (R103). -/
def Store.fill (st : Store) (chain : List (Fin Config.numCells)) : Nat → List Byte → Store
  | _, [] => st
  | k, b :: bs =>
    let st := match chain[k / Config.cellPlaces]? with
      | none => st
      | some c => st.writeCell c k ⟨b, k == 0⟩
    Store.fill st chain (k + 1) bs

/-- The claim of a management reply (R103): one descriptor and a cell for every 16 characters; all or nothing. -/
def Store.allocReply (st : Store) (reply : List Byte) : Option (Fin Config.numDescs × Store) :=
  let need := (reply.length + 15) / 16
  match st.freeDescs with
  | [] => none
  | d :: ds =>
    if need ≤ st.freeCells.length then
      let chain := st.freeCells.take need
      let x : Desc :=
        { state := .ready, cls := .reply, ingress := none, station := reply.getD 0 0, length := reply.length
          chain := chain, error := false, txn := none, pendingEgress := 0 }
      some (d, ({ st with freeDescs := ds, freeCells := st.freeCells.drop need }.putDesc d (some x)).fill chain 0 reply)
    else none

/-- Change the store. -/
def State.mapStore (s : State) (f : Store → Store) : State := { s with store := f s.store }

/-! ### The station table (spec/01) -/

/-- The entry of an address. -/
def StationTable.entry (t : StationTable) (a : Byte) : Entry := t.entries[a.toNat]'(by omega)

/-- Replace the entry of an address. -/
def StationTable.put (t : StationTable) (a : Byte) (e : Entry) : StationTable :=
  { t with entries := t.entries.set a.toNat e (by omega) }

/-- The entry of an address. -/
def State.entry (s : State) (a : Byte) : Entry := s.table.entry a

/-- Replace the entry of an address, in one claim. -/
def State.putEntry (s : State) (a : Byte) (e : Entry) : State := { s with table := s.table.put a e }

/-- Result of the route decision (R5). -/
inductive Route where
  | carry (egress : SegSet) (cls : TimeoutClass)
  | drop (reason : SkipReason)
  deriving DecidableEq, Repr

/-- A set and class, or drop NoRoute where the set is empty (R5). -/
def Route.ofSet (m : SegSet) (c : TimeoutClass) : Route := if m = 0 then .drop .noRoute else .carry m c

/-- The route decision for address a (R5, R6). -/
def State.route (s : State) (a : Byte) : Route :=
  match s.entry a with
  | .blocked => .drop .blocked
  | .static m c _ _ => Route.ofSet (m &&& s.downstream) c
  | .learned g c _ _ _ => .carry (SegSet.one g) c
  | .unassigned => if s.bridge.flood then Route.ofSet s.downstream s.bridge.floodClass else .drop .noRoute

/-- A learning step for station a on segment t (R8, R9); none for the own address or 0x00 (R3). -/
def State.learn (s : State) (a : Byte) (t : Seg) : State :=
  if a = s.bridge.own ∨ a = 0 then s
  else
    match s.entry a with
    | .unassigned => (s.putEntry a (.learned t s.bridge.learnClass true 0 0)).raise .learned (some t) (some a) 0
    | .learned u c _ age _ =>
      if u = t then s.putEntry a (.learned u c true age 0)
      else (s.putEntry a (.learned t s.bridge.learnClass true 0 0)).raise .moved (some t) (some a) u.byte
    | .static m c _ _ => s.putEntry a (.static m c 0 false)
    | .blocked => s

/-- A miss count raised by 1, staying at 15 (R10). -/
def missSucc (m : BitVec 4) : BitVec 4 := if m = 15 then 15 else m + 1

/-- A miss counted for station a (R10), and what reaching the miss limit does (R11): a Static entry whose new count equals
the limit is muted from then on; StationSilent is raised unless it was muted before. -/
def State.countMiss (s : State) (a : Byte) : State :=
  match s.entry a with
  | .unassigned => s
  | .blocked => s
  | .learned g c used age miss =>
    let m := missSucc miss
    if s.bridge.missLimit ≠ 0 ∧ s.bridge.missLimit ≤ m then
      (s.putEntry a .unassigned).raise .unlearned (some g) (some a) 2
    else s.putEntry a (.learned g c used age m)
  | .static segs c miss muted =>
    let m := missSucc miss
    if s.bridge.missLimit ≠ 0 ∧ m = s.bridge.missLimit ∧ muted = false then
      (s.putEntry a (.static segs c m true)).raise .stationSilent none (some a) (m.setWidth 8)
    else s.putEntry a (.static segs c m muted)

/-- Whether a change of the miss limit lowers it below a miss count (R11). DEDUCED (log 24): Off, 0, lies above every limit,
and turning the limit Off lowers it below nothing. -/
def limitLowered (before after miss : BitVec 4) : Bool := after != 0 && (before == 0 || after < before) && after < miss

/-- What a change of the miss limit does to an entry (R11): a Static one whose count the limit is lowered below is muted. -/
def Entry.limitChanged (before after : BitVec 4) : Entry → Entry
  | .static m c miss muted => .static m c miss (muted || limitLowered before after miss)
  | .unassigned => .unassigned
  | .learned g c used age miss => .learned g c used age miss
  | .blocked => .blocked

/-- A sweep visit to the entry of a (R15). -/
def State.sweepEntry (s : State) (a : Byte) : State :=
  match s.entry a with
  | .learned g c used age miss =>
    if used then s.putEntry a (.learned g c false 0 miss)
    else if s.bridge.ageLimit.toNat ≤ age.toNat + 1 then
      (s.putEntry a .unassigned).raise .unlearned (some g) (some a) 1
    else s.putEntry a (.learned g c false (age + 1) miss)
  | .unassigned => s
  | .static _ _ _ _ => s
  | .blocked => s

/-- Every Learned entry naming a segment is made Unassigned (R21). -/
def StationTable.unlearnSegment (t : StationTable) (g : Seg) : StationTable :=
  { t with
    entries := t.entries.map fun e => match e with
      | .learned u c used age miss => if u = g then .unassigned else .learned u c used age miss
      | .unassigned => .unassigned
      | .static m c miss muted => .static m c miss muted
      | .blocked => .blocked }

/-- How many Learned entries name a segment (R21). -/
def StationTable.learnedOn (t : StationTable) (g : Seg) : Nat :=
  t.entries.toList.countP fun e => match e with
    | .learned u _ _ _ _ => u == g
    | .unassigned => false
    | .static _ _ _ _ => false
    | .blocked => false

/-! ### Notices and lanes (R109, R110) -/

/-- Whether the item in hand is the notice still in the slot. -/
def Egress.slotInHand (e : Egress) : Bool :=
  match e.hand with
  | some h => h.item == .slotNotice
  | none => false

/-- A notice is put in the slot of g (R109): it replaces and loses an unsent one, and restarts the attempts where that one
was in hand. -/
def State.placeNotice (s : State) (g : Seg) (n : Notice) : State :=
  let e := s.egress.get g
  match e.slot with
  | none => s.setEgress g { e with slot := some n }
  | some _ =>
    (s.setEgress g
      { e with
        slot := some n
        hand := if e.slotInHand then some ⟨.slotNotice, false, 0⟩ else e.hand }).countNoticeLost

/-- A notice toward the masters of g, where its notices are on (R43, R44). -/
def State.notify (s : State) (g : Seg) (code : NoticeCode) (station : Byte) : State :=
  if (s.active g).notices then s.placeNotice g ⟨code, station⟩ else s

/-- The notice slot of g is emptied (R27, R48); an unsent notice in hand goes with it. -/
def State.emptySlot (s : State) (g : Seg) : State :=
  let e := s.egress.get g
  s.setEgress g { e with slot := none, hand := if e.slotInHand then none else e.hand }

/-- A copy is offered to the reply lane of g (R110): appended where the lane has room, else dropped, released and counted
in NoBuffer. -/
def State.offerReply (s : State) (g : Seg) (d : Fin Config.numDescs) (armed : Option Armed) : State :=
  let e := s.egress.get g
  if e.replyLane.length < Config.replyLaneCap then
    (s.setEgress g { e with replyLane := e.replyLane ++ [⟨d, armed⟩] }).mapStore fun st =>
      st.modify d fun x => { x with pendingEgress := x.pendingEgress.insert g }
  else (s.mapStore fun st => st.releaseIfDone d).count g .noBuffer

/-- Whether some copy in a lane has an own address change armed (R135). -/
def State.ownArmed (s : State) : Bool :=
  Seg.all.any fun g => (s.egress.get g).replyLane.any fun c =>
    match c.armed with
    | some a => match a.effect with
      | .ownAddress _ => true
      | .restart _ => false
    | none => false

/-- The pending own address is kept only while a copy armed with it is in a lane or being sent (R4, R135). -/
def State.settlePendingOwn (s : State) : State :=
  if s.ownArmed then s else { s with mgmt := { s.mgmt with pendingOwn := none } }

/-- A copy whose armed own address change is disarmed (R135). -/
def ReplyCopy.disarmOwn (c : ReplyCopy) : ReplyCopy :=
  match c.armed with
  | some a => match a.effect with
    | .ownAddress _ => { c with armed := none }
    | .restart _ => c
  | none => c

/-- Every armed own address change is disarmed (R135). -/
def State.disarmOwn (s : State) : State :=
  { s with
    egress := PerSeg.tabulate fun g =>
      let e := s.egress.get g
      { e with replyLane := e.replyLane.map ReplyCopy.disarmOwn } }

/-- Every armed effect is disarmed (R136). -/
def State.disarmAll (s : State) : State :=
  { s with
    egress := PerSeg.tabulate fun g =>
      let e := s.egress.get g
      { e with replyLane := e.replyLane.map fun c => { c with armed := none } } }

/-- The descriptor of a reply copy in hand whose send has started (R112). -/
def Egress.startedReply (e : Egress) : Option (Fin Config.numDescs) :=
  match e.hand with
  | some ⟨.reply d, true, _⟩ => some d
  | _ => none

/-- Every copy in the reply lane of g whose send has not started is withdrawn and counted in Abandoned (R27, R48, R105).
DESIGN CHOICE (log 15): oldest first. -/
def State.withdrawReplies (s : State) (g : Seg) : State :=
  let e := s.egress.get g
  let gone := e.replyLane.filter fun c => e.startedReply != some c.desc
  let hand := match e.hand with
    | some ⟨.reply _, false, _⟩ => none
    | h => h
  let s := s.setEgress g { e with replyLane := e.replyLane.filter (fun c => e.startedReply == some c.desc), hand := hand }
  (gone.foldl (fun s c => (s.mapStore fun st => st.leave c.desc g).count g .abandoned) s).settlePendingOwn

/-- QUIET or BACKOFF: the states in which the driver is off and no attempt is in progress. -/
def EgState.resting : EgState → Bool
  | .quiet => true
  | .backoff _ => true
  | .lead _ _ => false
  | .transmit _ => false
  | .tail _ _ => false

/-- An Upstream bulk copy in hand is set back when its segment becomes the origin of a live transaction while the
scheduler is QUIET or in BACKOFF (R112). -/
def State.setBackBulk (s : State) (g : Seg) : State :=
  let e := s.egress.get g
  if (s.active g).role = .upstream ∧ e.state.resting = true then
    match e.hand with
    | some ⟨.bulk _, _, _⟩ => s.setEgress g { e with hand := none }
    | _ => s
  else s

end Sys2Proof.Machine
end

