-- ==== Sys2Proof/Machine/Transactions.lean ====
section
/-!
DEFINITION. The transaction engine's operations (spec/02): records, outcomes and notices, supersede and abandonment, the
pending list and the grant arbiter, copies and windows, the response.
-/

namespace Sys2Proof.Machine

/-! ### Records -/

/-- The transaction of a record, where it is in use. -/
def State.txn (s : State) (r : Fin Config.numTxns) : Option Txn := s.txns.records[r]

/-- Replace a record. -/
def State.putTxn (s : State) (r : Fin Config.numTxns) (t : Option Txn) : State :=
  { s with txns := { s.txns with records := s.txns.records.set r.val t r.isLt } }

/-- The record is free again, and off the pending list (R24, R30). -/
def State.freeRecord (s : State) (r : Fin Config.numTxns) : State :=
  { s.putTxn r none with
    txns := { (s.putTxn r none).txns with waiting := s.txns.waiting.filter fun q => q != r } }

/-- The lowest-numbered free record (R25). -/
def State.lowestFree (s : State) : Option (Fin Config.numTxns) :=
  ascendingTxns.find? fun r => (s.txn r).isNone

/-- How many records are in use (R23). -/
def State.recordsInUse (s : State) : Nat := ascendingTxns.countP fun r => (s.txn r).isSome

/-- Live: in use, not FORMING, not superseded (R23). -/
def Txn.live (t : Txn) : Bool := t.state != .forming && !t.superseded

/-- The record of the live transaction whose origin is g (R27: there is at most one). -/
def State.liveOf (s : State) (g : Seg) : Option (Fin Config.numTxns) :=
  ascendingTxns.find? fun r =>
    match s.txn r with
    | some t => t.live && t.origin == g
    | none => false

/-- The grant holder of g. -/
def State.holder (s : State) (g : Seg) : Option (Fin Config.numTxns) := s.txns.holders.get g

/-- Set the grant holder of g. -/
def State.setHolder (s : State) (g : Seg) (h : Option (Fin Config.numTxns)) : State :=
  { s with txns := { s.txns with holders := s.txns.holders.set g h } }

/-- The grant on g is released (R31). -/
def State.releaseGrant (s : State) (g : Seg) : State := s.setHolder g none

/-- The grants on a set of segments are released. -/
def State.releaseGrants (s : State) (m : SegSet) : State := m.members.foldl State.releaseGrant s

/-- Set the last timed-out station of g (R40). -/
def State.setLastTimedOut (s : State) (g : Seg) (a : Option Byte) : State :=
  { s with txns := { s.txns with lastTimedOut := s.txns.lastTimedOut.set g a } }

/-- The transaction with an open window on g: the holder of g with g among its windows (R38). -/
def State.windowOn (s : State) (g : Seg) : Option (Fin Config.numTxns × Txn) :=
  match s.holder g with
  | none => none
  | some r =>
    match s.txn r with
    | none => none
    | some t => if t.windows.has g then some (r, t) else none

/-! ### Outcomes and notices (R37, R43) -/

/-- The notice an outcome calls for (R43). -/
def TxnOutcome.notice : TxnOutcome → Option NoticeCode
  | .noRoute => some .noRoute
  | .timeout => some .timeout
  | .damaged => some .damaged
  | .noBuffer => some .busy
  | .collision => some .collision
  | .restart => some .restart
  | .answered => none
  | .complete => none
  | .replied => none
  | .discarded => none
  | .cancelled => none

/-- The outcome is fixed (R37): it places its notice while the transaction is not superseded, and the record is freed
unless copies are outstanding. An outcome already fixed is not changed. -/
def State.closeTxn (s : State) (r : Fin Config.numTxns) (o : TxnOutcome) : State :=
  match s.txn r with
  | none => s
  | some t =>
    if t.outcome.isSome then s
    else
      let s := s.putTxn r (some { t with outcome := some o })
      let s := match o.notice with
        | some code => if t.superseded then s else s.notify t.origin code t.station
        | none => s
      if t.copies = 0 then s.freeRecord r else s

/-- A transaction's request descriptor is no longer needed by it, and is tested for release (R99, R100). -/
def State.dropRequest (s : State) (t : Txn) : State :=
  match t.reqDesc with
  | some d => s.mapStore fun st => st.dropTxn d
  | none => s

/-- A PENDING transaction leaves the pending list with an outcome; its request descriptor is released (R27, R48, R49,
R50). -/
def State.cancelWaiting (s : State) (r : Fin Config.numTxns) (o : TxnOutcome) : State :=
  match s.txn r with
  | none => s
  | some t => (s.dropRequest t).closeTxn r o

/-- The live transaction of origin g is abandoned (R27, R48, R49): cancelled when PENDING, superseded otherwise; counted
in Abandoned unless its outcome was already fixed. -/
def State.abandonLive (s : State) (g : Seg) : State :=
  match s.liveOf g with
  | none => s
  | some r =>
    match s.txn r with
    | none => s
    | some t =>
      if t.state = .pending then (s.cancelWaiting r .cancelled).count g .abandoned
      else (s.putTxn r (some { t with superseded := true })).countIf t.outcome.isNone g .abandoned

/-- What a supersede and a break on g both do to what waits there (R27, R48): the live transaction is abandoned, unstarted
replies are withdrawn, the notice slot is emptied. DESIGN CHOICE (log 15): descriptors are released in that order. -/
def State.abandonOrigin (s : State) (g : Seg) : State := ((s.abandonLive g).withdrawReplies g).emptySlot g

/-! ### Becoming PENDING or EXECUTING (R27, R49) -/

/-- A FORMING Poll or Broadcast becomes PENDING at the pending list's tail; segments no longer Downstream leave its egress
set, and it closes NoRoute where none is left (R27, R49). -/
def State.becomePending (s : State) (r : Fin Config.numTxns) : State :=
  match s.txn r with
  | none => s
  | some t =>
    let egress := t.egress &&& s.downstream
    let s := s.putTxn r (some { t with state := .pending, egress := egress })
    if egress = 0 then s.cancelWaiting r .noRoute
    else { s with txns := { s.txns with waiting := s.txns.waiting ++ [r] } }

/-- A FORMING Local becomes EXECUTING at the management queue's tail, with its command and sequence (R27, R45). -/
def State.becomeExecuting (s : State) (r : Fin Config.numTxns) (command sequence : Byte) : State :=
  match s.txn r with
  | none => s
  | some t =>
    { s.putTxn r (some { t with state := .executing, command := command, sequence := sequence }) with
      mgmt := { s.mgmt with queue := s.mgmt.queue ++ [r] } }

/-- Whether a Management frame is adopted into the live transaction of its origin (R28): at least three characters, a
Local in EXECUTING with the same command and sequence. -/
def State.adopts (s : State) (g : Seg) (frame : List Byte) : Bool :=
  match s.liveOf g with
  | none => false
  | some r =>
    match s.txn r with
    | none => false
    | some t =>
      t.kind == .loc && t.state == .executing && decide (3 ≤ frame.length)
        && t.command == arg frame 1 && t.sequence == arg frame 2

/-! ### The grant arbiter (R31 to R34) -/

/-- Whether g is free (R31). -/
def State.segFree (s : State) (g : Seg) : Bool :=
  (s.active g).role == .downstream && (s.holder g).isNone && !s.settings.applyPending.has g
    && (s.egress.get g).replyLane.isEmpty && (s.egress.get g).slot.isNone

/-- Whether r may be launched (R32): all its segments are free, and no older waiting transaction that is protected shares a
segment with it. -/
def State.canLaunch (s : State) (older : List (Fin Config.numTxns)) (r : Fin Config.numTxns) : Bool :=
  match s.txn r with
  | none => false
  | some t =>
    t.egress.members.all s.segFree
      && older.all fun o => match s.txn o with
        | some u => !(u.guarded && u.egress &&& t.egress != 0)
        | none => true

/-- A bypass count raised by 1, staying at 7, and the protection it may bring (R34). -/
def Txn.bypassed (t : Txn) (limit : BitVec 3) : Txn :=
  let b := if t.bypass = 7 then 7 else t.bypass + 1
  { t with bypass := b, guarded := t.guarded || decide (limit ≤ b) }

/-- Raise the bypass count of each older waiting transaction that shares a segment with the launched set (R34). -/
def State.raiseBypass (s : State) (older : List (Fin Config.numTxns)) (m : SegSet) : State :=
  older.foldl (fun s o => match s.txn o with
    | some u => if u.egress &&& m = 0 then s else s.putTxn o (some (u.bypassed s.bridge.bypassLimit))
    | none => s) s

/-- Append the copy of a request to the bulk lane of g and make r its holder (R33). -/
def State.grant (r : Fin Config.numTxns) (d : Option (Fin Config.numDescs)) (s : State) (g : Seg) : State :=
  let e := s.egress.get g
  (s.setHolder g (some r)).setEgress g { e with bulkLane := e.bulkLane ++ d.toList }

/-- The launch of r (R33) with the older waiting transactions it passes by (R34). -/
def State.launch (s : State) (older : List (Fin Config.numTxns)) (r : Fin Config.numTxns) : State :=
  match s.txn r with
  | none => s
  | some t =>
    let s := { s with txns := { s.txns with waiting := s.txns.waiting.filter fun q => q != r } }
    let s := t.egress.members.foldl (State.grant r t.reqDesc) s
    let s := match t.reqDesc with
      | some d => s.mapStore fun st => st.modify d fun x => { x with txn := none, pendingEgress := t.egress }
      | none => s
    let s := s.putTxn r (some { t with state := .sending, copies := t.egress })
    s.raiseBypass older t.egress

/-- One scan over the waiting transactions, oldest first (R32). `older` are those already passed over. -/
def State.scanFrom (s : State) (older : List (Fin Config.numTxns)) : List (Fin Config.numTxns) → State
  | [] => s
  | r :: rest =>
    if s.canLaunch older r then (s.launch older r).scanFrom older rest else s.scanFrom (older ++ [r]) rest

/-- The scan of the pending list (R32). -/
def State.scan (s : State) : State := s.scanFrom [] s.txns.waiting

/-! ### Copies (R35, R36) -/

/-- What follows when a carried transaction's copies outstanding have become empty (R36, R37). -/
def State.copiesDone (s : State) (r : Fin Config.numTxns) : State :=
  match s.txn r with
  | none => s
  | some t =>
    if t.copies ≠ 0 then s
    else
      let t := { t with reqDesc := none }
      let s := s.putTxn r (some t)
      if t.outcome.isSome then s.freeRecord r
      else
        match t.kind, t.state with
        | .poll, .sending =>
          if t.windows = 0 then s.closeTxn r .collision
          else
            s.putTxn r (some { t with
              state := .awaiting
              deadline := some (s.nowMs + (s.bridge.timeouts.get (t.cls.getD 0)).setWidth 32) })
        | .poll, _ => s
        | .broadcast, _ => s.closeTxn r (if t.copyOk then .complete else .collision)
        | .loc, _ => s

/-- The request copy on g has reached send completion (R35). -/
def State.copyCompleted (s : State) (g : Seg) : State :=
  match s.holder g with
  | none => s
  | some r =>
    match s.txn r with
    | none => s
    | some t =>
      let t' := { t with copies := t.copies.erase g }
      let s :=
        if t.outcome.isSome then (s.putTxn r (some t')).releaseGrant g
        else
          match t.kind, t.state with
          | .poll, .sending =>
            (s.putTxn r (some { t' with windows := t'.windows.insert g })).setLastTimedOut g none
          | .broadcast, _ => (s.putTxn r (some { t' with copyOk := true })).releaseGrant g
          | _, _ => (s.putTxn r (some t')).releaseGrant g
      s.copiesDone r

/-- The request copy on g has ended in collision (R36): no window, and the segment is released. -/
def State.copyFailed (s : State) (g : Seg) : State :=
  match s.holder g with
  | none => s
  | some r =>
    match s.txn r with
    | none => s
    | some t => ((s.putTxn r (some { t with copies := t.copies.erase g })).releaseGrant g).copiesDone r

/-! ### Responses and timeouts (R38, R41, R42) -/

/-- An address character on g matches r's window (R38). -/
def State.matchWindow (s : State) (r : Fin Config.numTxns) (t : Txn) (g : Seg) : State :=
  (s.putTxn r (some { t with state := .receiving, deadline := none, windows := 0, responseSeg := some g })).releaseGrants
    (t.windows.erase g)

/-- The response of r on g has ended other than intact (R42): g is released and the outcome fixed. -/
def State.responseFailed (s : State) (r : Fin Config.numTxns) (g : Seg) (o : TxnOutcome) : State :=
  (s.releaseGrant g).closeTxn r o

/-- The response of r on g has ended intact in descriptor d (R42, R104): it is placed for the origin, or released when r is
superseded; g is released; the station is learned. -/
def State.responseIntact (s : State) (r : Fin Config.numTxns) (g : Seg) (d : Fin Config.numDescs) : State :=
  match s.txn r with
  | none => s.mapStore fun st => st.dropTxn d
  | some t =>
    let s :=
      if t.superseded then s.mapStore fun st => st.dropTxn d
      else (s.mapStore fun st => st.modify d fun x => { x with txn := none }).offerReply t.origin d none
    ((s.releaseGrant g).closeTxn r .answered).learn t.station g

/-- The response timer of r expires (R41). -/
def State.timeOut (s : State) (r : Fin Config.numTxns) (t : Txn) : State :=
  let s := s.putTxn r (some { t with windows := 0, deadline := none })
  let s := s.releaseGrants t.windows
  let s := t.windows.members.foldl (fun s g => s.setLastTimedOut g (some t.station)) s
  let s := s.countMiss t.station
  let s := s.count t.origin .timeouts
  let s := s.raise .timeout (some t.origin) (some t.station) 0
  s.closeTxn r .timeout

/-! ### A segment leaving Downstream (R49) -/

/-- u is removed from the egress set of every PENDING transaction; those left empty close NoRoute (R49). DESIGN CHOICE
(log 15): oldest first. -/
def State.pruneWaiting (s : State) (u : Seg) : State :=
  s.txns.waiting.foldl (fun s r => match s.txn r with
    | none => s
    | some t =>
      if t.egress.has u then
        let s := s.putTxn r (some { t with egress := t.egress.erase u })
        if t.egress.erase u = 0 then s.cancelWaiting r .noRoute else s
      else s) s

end Sys2Proof.Machine
end

