-- ==== Sys2Proof/Machine/Lines.lean ====
section
/-!
DEFINITION. The line units' operations (spec/03): quiet time, driver requests, what an apply and the restarts do to a line
unit, and the levels on TXD and ATTN_N.
-/

namespace Sys2Proof.Machine

/-! ### Quiet time and outputs -/

/-- The quiet time: the continuous time the receiver has spent in READY with RXD reading high (R61). -/
def LineUnit.quietTime (u : LineUnit) (now : Nat) : Nat :=
  match u.rx with
  | .ready since true _ => now - since
  | _ => 0

/-- The level on TXD (R53, R64): high while MARKING, low while BREAKING, the bits of the character while SHIFTING. -/
def LineUnit.txd (u : LineUnit) (r : SegRecord) (now : Nat) : Bool :=
  match u.tx with
  | .marking => true
  | .breaking _ => false
  | .shifting c since => (charLevels r c).getD ((now - since) / r.bitTime) true

/-- The level on TXD of g. -/
def State.txd (s : State) (g : Seg) : Bool := (s.lines.get g).txd (s.active g) s.time

/-- Whether ATTN_N is driven low (R163, R174). -/
def State.attention (s : State) : Bool := !s.held && !s.events.queue.isEmpty

/-! ### Driver requests (R64, R65) -/

/-- Assert DE. -/
def LineUnit.assertDE (u : LineUnit) : LineUnit := { u with de := true }

/-- Release DE: any character or break in progress is cut, TXD high, the held request discarded (R64). -/
def LineUnit.releaseDE (u : LineUnit) : LineUnit := { u with de := false, tx := .marking, held := none }

/-- A send-character request: starts at once in MARKING, is held otherwise (R64). -/
def LineUnit.sendChar (u : LineUnit) (c : Ch) (now : Nat) : LineUnit :=
  match u.tx with
  | .marking => { u with tx := .shifting c now }
  | .shifting _ _ => { u with held := some (.char c) }
  | .breaking _ => { u with held := some (.char c) }

/-- A send-break request: starts at once in MARKING, is held while SHIFTING (R65). -/
def LineUnit.sendBreak (u : LineUnit) (now : Nat) : LineUnit :=
  match u.tx with
  | .marking => { u with tx := .breaking now }
  | .shifting _ _ => { u with held := some .brk }
  | .breaking _ => u

/-- The character or break being sent has ended: the held request starts at once, or the transmitter is MARKING (R64). -/
def LineUnit.endSending (u : LineUnit) (now : Nat) : LineUnit :=
  match u.held with
  | none => { u with tx := .marking }
  | some (.char c) => { u with tx := .shifting c now, held := none }
  | some .brk => { u with tx := .breaking now, held := none }

/-- DE of g is released and the frame receiver leaves BLIND for HUNT (R72). -/
def State.releaseLine (s : State) (g : Seg) : State :=
  (s.setLine g (s.lines.get g).releaseDE).setReceiver g .hunt

/-! ### Applies (R55) and restarts (R68, R69) -/

/-- What a line unit does when its segment's active record changes (R55). -/
def LineUnit.applied (u : LineUnit) (before after : SegRecord) (now : Nat) : LineUnit :=
  if after.role = .off then { u with rx := .off }
  else if before.role = .off then { u with rx := .recover now }
  else if before.rate = after.rate ∧ before.parity = after.parity ∧ before.stopBits = after.stopBits then u
  else { u with rx := .recover now }

/-- The receiver after a restart: RECOVER, or OFF while the role is Off (R69). -/
def restartedRx (r : SegRecord) (now : Nat) : RxState := if r.role = .off then .off else .recover now

/-- A line unit at a Traffic restart (R69): DE released at once, whatever is being sent is cut. -/
def LineUnit.trafficRestart (u : LineUnit) (r : SegRecord) (now : Nat) : LineUnit :=
  { u.releaseDE with rx := restartedRx r now }

/-- A line unit at a Segment restart (R69): while SHIFTING the character is cut and a break starts at once with DE still
asserted; otherwise DE is released at once. -/
def LineUnit.segmentRestart (u : LineUnit) (r : SegRecord) (now : Nat) : LineUnit :=
  match u.tx with
  | .shifting _ _ => { u with rx := restartedRx r now, tx := .breaking now, held := none }
  | .marking => { u.releaseDE with rx := restartedRx r now }
  | .breaking _ => { u.releaseDE with rx := restartedRx r now }

end Sys2Proof.Machine
end

