-- ==== Sys2Proof/Machine/Restarts.lean ====
section
/-!
DEFINITION. The four restart levels (R163 to R166), the own address change (R156), and the meanings of POWER_ON_RESTART
and POWER_ON_RESTART_END.
-/

namespace Sys2Proof.Machine

/-! ### Power-on and Full (R163, R164, R184) -/

/-- Every block at its power-on value, with the strap pins just sampled, before the Restarted event (R164, R182). The pins, the
queue of commands and the contents of the cells (R106) stay. -/
def State.clearAll (s : State) : State :=
  { s with
    time := 0
    settings := Settings.default s.straps
    lease := none
    table := StationTable.cleared
    txns := TxnEngine.allFree
    lines := PerSeg.tabulate fun g => LineUnit.started (SegRecord.default s.straps g)
    receivers := PerSeg.const .hunt
    store := Store.allFree s.store.cells
    egress := PerSeg.const Egress.empty
    mgmt := Mgmt.cleared
    events := EventUnit.empty
    counters := Counters.zero }

/-- A Full restart (R164). -/
def State.fullRestart (s : State) : State := s.clearAll.raise .restarted none none 1

/-! ### Traffic (R165) -/

/-- A Traffic restart (R165): every segment's traffic state, the transactions, the management queue and the store are
cleared; table, records, marks, lease, caches, counters, events and the timebase are kept. -/
def State.trafficRestart (s : State) : State :=
  State.raise
    { s with
      lines := PerSeg.tabulate fun g => (s.lines.get g).trafficRestart (s.active g) s.time
      receivers := PerSeg.const .hunt
      egress := PerSeg.const Egress.empty
      txns := TxnEngine.allFree
      store := Store.allFree s.store.cells
      mgmt := { s.mgmt with queue := [], engine := .idle, buffer := [], pendingOwn := none } }
    .restarted none none 2

/-! ### Segment (R166) -/

/-- The classes whose frames hold a FORMING record (R25). -/
def FrameClass.bearsRecord : FrameClass → Bool
  | .request => true
  | .broadcast => true
  | .management => true
  | .response => false
  | .unsolicited => false
  | .reply => false

/-- The frame in assembly of a receiver. -/
def FrState.frame : FrState → Option Frame
  | .hunt => none
  | .store f => some f
  | .skip _ f => some f
  | .blind => none

/-- The FORMING record of a frame, where its class bears one (R71). -/
def Frame.formingRecord (f : Frame) : Option (Fin Config.numTxns) :=
  match f.cls with
  | some c => if c.bearsRecord then f.txn else none
  | none => none

/-- A restart discards the frame in assembly of g (R90): its descriptor is released, a FORMING record freed. -/
def State.discardFrame (s : State) (g : Seg) : State :=
  match (s.receivers.get g).frame with
  | none => s
  | some f =>
    let s := match f.desc with
      | some d => s.mapStore fun st => st.release d
      | none => s
    match f.formingRecord with
    | some r => s.freeRecord r
    | none => s

/-- The descriptor of the copy in hand (R112). -/
def Egress.handDesc (e : Egress) : Option (Fin Config.numDescs) :=
  match e.hand with
  | some h => match h.item with
    | .reply d => some d
    | .bulk d => some d
    | .slotNotice => none
    | .sentNotice _ => none
  | none => none

/-- The descriptors a Segment restart takes from the scheduler of g, in the order they are returned (R107): the copy in
hand, the reply lane, the bulk lane, oldest first. -/
def Egress.flushOrder (e : Egress) : List (Fin Config.numDescs) :=
  let lanes := e.replyLane.map ReplyCopy.desc ++ e.bulkLane
  match e.handDesc with
  | some d => d :: lanes.filter fun q => q != d
  | none => lanes

/-- Every copy of g leaves its descriptor, in flush order (R107). -/
def State.flushCopies (s : State) (g : Seg) : State :=
  (s.egress.get g).flushOrder.foldl (fun s d => s.mapStore fun st => st.leave d g) s

/-- What a Segment restart of g does to one transaction whose origin is g (R50): cancelled when PENDING, superseded
otherwise, without counting. -/
def State.restartOrigin (g : Seg) (s : State) (r : Fin Config.numTxns) : State :=
  match s.txn r with
  | none => s
  | some t =>
    if t.origin = g then
      match t.state with
      | .pending => s.cancelWaiting r .cancelled
      | .forming => s
      | .executing | .sending | .awaiting | .receiving => s.putTxn r (some { t with superseded := true })
    else s

/-- What a Segment restart of g does to the transaction that holds g (R51). -/
def State.restartHolder (s : State) (g : Seg) : State :=
  match s.holder g with
  | none => s
  | some r =>
    match s.txn r with
    | none => s.releaseGrant g
    | some t =>
      let t' := { t with copies := t.copies.erase g, windows := t.windows.erase g }
      let s := (s.putTxn r (some t')).releaseGrant g
      let ends := t.outcome.isNone
        && (t.state == .sending || t.state == .awaiting || (t.state == .receiving && t.responseSeg == some g))
      if ends then
        let s := s.releaseGrants t'.windows
        let s := s.putTxn r (some { t' with
          windows := 0, deadline := none, reqDesc := if t'.copies = 0 then none else t'.reqDesc })
        s.closeTxn r .restart
      else s.copiesDone r

/-- The lease of g is dropped by a cause of R162, with its detail. -/
def State.dropLeaseOf (s : State) (g : Seg) (detail : Byte) : State :=
  match s.lease with
  | none => s
  | some l => if l.holder = g then ({ s with lease := none }).raise .leaseDropped (some g) none detail else s

/-- A Segment restart of g (R166). -/
def State.segmentRestart (s : State) (g : Seg) : State :=
  let s := s.discardFrame g
  let s := s.flushCopies g
  let s := s.setEgress g Egress.empty
  let u := (s.lines.get g).segmentRestart (s.active g) s.time
  let s := s.setLine g u
  let s := s.setReceiver g (if u.de then .blind else .hunt)
  let s := ascendingTxns.foldl (State.restartOrigin g) s
  let s := s.restartHolder g
  let s := s.setLastTimedOut g none
  let s := { s with mgmt := { s.mgmt with caches := s.mgmt.caches.set g none } }
  let s := s.settlePendingOwn
  let s := s.raise .restarted (some g) none 3
  s.dropLeaseOf g 2

/-! ### The own address change and deferred effects (R135, R156) -/

/-- The own address change takes effect (R4, R156): every reply cache entry is emptied, no address remains pending and no
effect stays armed on any copy, a restart's included (R136; log 10). -/
def State.changeOwn (s : State) (a : Byte) : State :=
  let s := { s with settings := { s.settings with bridge := { s.settings.bridge with own := a } } }
  let s := s.putEntry a .unassigned
  let s := s.disarmAll
  { s with mgmt := { s.mgmt with caches := PerSeg.const none, pendingOwn := none } }

/-- The deferred effect is cleared from a cache entry that still holds the same command and sequence (R135). -/
def CacheEntry.clearDeferred (a : Armed) (c : CacheEntry) : CacheEntry :=
  if c.command = a.command ∧ c.sequence = a.sequence then { c with deferred := none } else c

/-- The send completion of a reply copy of g on which an effect is armed (R135). -/
def State.takeDeferred (s : State) (g : Seg) (a : Armed) : State :=
  let s := { s with
    mgmt := { s.mgmt with caches := s.mgmt.caches.set g ((s.mgmt.caches.get g).map (CacheEntry.clearDeferred a)) } }
  match a.effect with
  | .restart .full => s.fullRestart
  | .restart .traffic => s.trafficRestart
  | .ownAddress own => s.changeOwn own

/-! ### The two rows -/

/-- POWER_ON_RESTART (R163): RST_N low or the supply monitor holds the bridge; every block is cut and cleared, all outputs
are at rest, no event is taken until the restart ends. -/
def execPowerOnRestart (cause : HoldCause) (s : State) : Host.Outcome State Fault Refusal :=
  let cleared := s.clearAll
  .next (match cause with
    | .resetPin => { cleared with rstN := false }
    | .supplyMonitor => { cleared with supplyHold := true })

/-- POWER_ON_RESTART_END (R163, R183, R184): RST_N is high and the supply monitor has let go; the straps are sampled, the
timebase starts from 0 and Restarted is raised with detail 0. Outside a restart the row's event cannot fall (log 2). -/
def execPowerOnRestartEnd (straps : Straps) (s : State) : Host.Outcome State Fault Refusal :=
  .next (if s.held then
      ({ State.clearAll { s with straps := straps } with rstN := true, supplyHold := false }).raise .restarted none none 0
    else s)

end Sys2Proof.Machine
end

