-- ==== Sys2Proof/Machine/Management.lean ====
section
/-!
DEFINITION. The management engine (spec/07): taking a Local from the queue, the steps of R131, the reply cache and the
hand-over, and the meaning of each management row, of BAD_COMMAND and of WALK_VISIT.
-/

namespace Sys2Proof.Machine

/-! ### Replies and the end of an execution (R129, R132 to R134) -/

/-- What a command answers: status, results and the deferred effect it leaves (R129, R135). -/
structure Reply where
  status : Status
  results : List Byte
  deferred : Option Deferred
  deriving DecidableEq, Repr

/-- How carrying a command out ends: with its reply, or with work that spans further claims (R130). -/
inductive Carried where
  | replied (s : State) (p : Reply)
  | working (s : State) (w : Work)
  deriving DecidableEq, Repr

/-- Replied with a status, results and no deferred effect. -/
def Carried.answer (s : State) (st : Status) (results : List Byte) : Carried := .replied s ⟨st, results, none⟩

/-- The effect a cache entry's reply copy is armed with (R135). -/
def CacheEntry.armed (c : CacheEntry) : Option Armed := c.deferred.map fun e => ⟨e, c.command, c.sequence⟩

/-- A reply is handed to the store for the reply lane of g (R103, R134): NoBuffer where no storage is found. -/
def State.handOver (s : State) (g : Seg) (reply : List Byte) (armed : Option Armed) : State :=
  match s.store.allocReply reply with
  | none => s.count g .noBuffer
  | some (d, st) => ({ s with store := st }).offerReply g d armed

/-- The engine is IDLE with an empty buffer (R132, R134). -/
def State.idleEngine (s : State) : State := { s with mgmt := { s.mgmt with engine := .idle, buffer := [] } }

/-- The end of the execution of Local r (R134, R46): its request descriptor is released; the reply is handed on unless r is
superseded or its origin Off; the record is freed, the engine IDLE; a pending own address no placed copy carries is
dropped (R4). -/
def State.endExecution (s : State) (r : Fin Config.numTxns) (reply : List Byte) (armed : Option Armed) : State :=
  match s.txn r with
  | none => s.idleEngine.settlePendingOwn
  | some t =>
    let s := s.dropRequest t
    let s := if t.superseded = true ∨ (s.active t.origin).role = .off then s else s.handOver t.origin reply armed
    let s := (s.closeTxn r (if t.superseded then .discarded else .replied)).freeRecord r
    s.idleEngine.settlePendingOwn

/-- Replace the reply cache entry of g (R133). -/
def State.setCache (s : State) (g : Seg) (c : Option CacheEntry) : State :=
  { s with mgmt := { s.mgmt with caches := s.mgmt.caches.set g c } }

/-- The reply built for a Local (R129), with the own address in effect. -/
def State.buildReply (s : State) (t : Txn) (p : Reply) : List Byte :=
  replyFrame s.bridge.own t.command t.sequence p.status p.results

/-- An execution ends with a reply that is cached (R131, R133). -/
def State.finishCached (s : State) (r : Fin Config.numTxns) (t : Txn) (p : Reply) : State :=
  let c : CacheEntry := ⟨t.command, t.sequence, s.buildReply t p, p.deferred⟩
  (s.setCache t.origin (some c)).endExecution r c.reply c.armed

/-- A request refused with BadLength or BadCheck: the reply is built in the buffer and not cached (R132). -/
def State.refuseUncached (s : State) (r : Fin Config.numTxns) (t : Txn) (st : Status) : State :=
  let reply := s.buildReply t ⟨st, [], none⟩
  ({ s with mgmt := { s.mgmt with buffer := reply } }).endExecution r reply none

/-! ### The reply cache (R133, R135) -/

/-- Whether an own address may become pending (R4): it differs from the current one and its entry is Unassigned. -/
def State.ownAllowed (s : State) (a : Byte) : Bool := a != s.bridge.own && s.entry a == .unassigned

/-- The entry a Local is answered from (R131 step 3): equal command and sequence, and, where the deferred effect is an own
address change, the check of R4 made again (R135). -/
def State.cacheMatch (s : State) (t : Txn) : Option CacheEntry :=
  match s.mgmt.caches.get t.origin with
  | none => none
  | some c =>
    if c.command = t.command ∧ c.sequence = t.sequence then
      match c.deferred with
      | some (.ownAddress a) => if s.ownAllowed a then some c else none
      | some (.restart _) => some c
      | none => some c
    else none

/-- An address becomes pending anew, and copies armed with another are disarmed (R135); one already pending stays. Log 25. -/
def State.pendAgain (s : State) (a : Byte) : State :=
  if s.mgmt.pendingOwn = some a then s
  else { s.disarmOwn with mgmt := { s.disarmOwn.mgmt with pendingOwn := some a } }

/-- A Local is answered from the cache (R133): the cached reply, armed again; the entry is not changed. -/
def State.answerCached (s : State) (r : Fin Config.numTxns) (c : CacheEntry) : State :=
  let s := match c.deferred with
    | some (.ownAddress a) => s.pendAgain a
    | some (.restart _) => s
    | none => s
  s.endExecution r c.reply c.armed

/-! ### Taking a Local (R130, R131) -/

/-- The Local at the head of the queue, while the engine is IDLE. -/
def State.headLocal (s : State) : Option (Fin Config.numTxns × Txn) :=
  match s.mgmt.engine, s.mgmt.queue with
  | .idle, r :: _ => (s.txn r).map fun t => (r, t)
  | _, _ => none

/-- The characters of a Local's request (R128). -/
def State.requestOf (s : State) (t : Txn) : List Byte :=
  match t.reqDesc with
  | some d => s.store.values d
  | none => []

/-- The argument characters of a request: indices 3 to n - 2 (R128). -/
def argsOf (frame : List Byte) : List Byte := (frame.drop 3).dropLast

/-- When a row that takes a Local is due: at once, where the head of the queue is of its command. -/
def State.localDue (s : State) (c : Option MgmtCommand) : Option Nat :=
  match s.headLocal with
  | some (_, t) => if MgmtCommand.ofCode t.command = c then some s.time else none
  | none => none

/-- The lease check (R147): the refusal's status, or none where it passes. -/
def State.leaseRefusal (s : State) (g : Seg) (c : MgmtCommand) : Option Status :=
  if c.needsLease then
    match s.lease with
    | none => some .noLease
    | some l => if l.holder = g then none else some .notHolder
  else none

/-- How a command is carried out, for the origin and the arguments of its request: steps 7 and 8 of R131. -/
abbrev Carry := State → Seg → List Byte → Carried

/-- Steps 4 to 8 of R131 for a command of the table. -/
def State.carryOut (s : State) (r : Fin Config.numTxns) (t : Txn) (args : List Byte) (c : MgmtCommand) (carry : Carry) :
    State :=
  if c.argCountOk args.length then
    match s.leaseRefusal t.origin c with
    | some st => s.finishCached r t ⟨st, [], none⟩
    | none =>
      match carry s t.origin args with
      | .replied s p => s.finishCached r t p
      | .working s w => { s with mgmt := { s.mgmt with engine := .busy r w } }
  else s.refuseUncached r t .badLength

/-- Steps 1 to 3 of R131, and what follows them. -/
def State.checked (s : State) (r : Fin Config.numTxns) (t : Txn) (after : State → List Byte → State) : State :=
  let frame := s.requestOf t
  if frame.length < 4 then s.refuseUncached r t .badLength
  else if wellChecked frame = false then s.refuseUncached r t .badCheck
  else
    match s.cacheMatch t with
    | some c => s.answerCached r c
    | none => after s (argsOf frame)

/-- The Local leaves the queue for execution (R130). -/
def State.dequeue (s : State) : State := { s with mgmt := { s.mgmt with queue := s.mgmt.queue.tail } }

/-- The engine takes the Local at the head of the queue and carries its command out (R130, R131). -/
def State.takeLocal (s : State) (c : MgmtCommand) (carry : Carry) : State :=
  match s.headLocal with
  | none => s
  | some (r, t) => s.dequeue.checked r t fun s args => s.carryOut r t args c carry

/-- A management row: the engine takes a Local of its command. -/
def State.command (s : State) (c : MgmtCommand) (carry : Carry) : Host.Outcome State Fault Refusal :=
  s.takeEvent (s.localDue (some c)) fun s => s.takeLocal c carry

/-! ### Identification and status (R137, R138) -/

/-- Identify (R137). -/
def carryIdentify : Carry := fun s _ _ =>
  .answer s .done [Config.vendorCode, Config.partCode, Config.revisionCode, s.bridge.own, Config.segmentCount]

/-- IDENTIFY. -/
def execIdentify (s : State) : Host.Outcome State Fault Refusal := s.command .identify carryIdentify

/-- Whole seconds to a lease's expiry, rounded up (R161); 1 where the expiry is reached and not yet taken, since a lease still
held has 1..255 seconds left (R148; log 20). -/
def State.leaseSeconds (s : State) (l : Lease) : Nat :=
  let ahead := (l.expiry - s.nowMs).toNat
  if ahead = 0 ∨ 2 ^ 31 ≤ ahead then 1 else (ahead + 999) / 1000

/-- The figures of ReadStatus (R138). -/
def State.statusFigures (s : State) : List Byte :=
  [BitVec.ofNat 8 s.store.freeCells.length, BitVec.ofNat 8 s.store.freeDescs.length, BitVec.ofNat 8 s.recordsInUse,
   BitVec.ofNat 8 s.events.queue.length,
   match s.lease with
   | some l => l.holder.byte
   | none => 0xFF,
   match s.lease with
   | some l => BitVec.ofNat 8 (s.leaseSeconds l)
   | none => 0,
   switchCode s.table.sweep.isSome, maskByte s.settings.applyPending]

/-- ReadStatus (R138). -/
def carryReadStatus : Carry := fun s _ _ => .answer s .done s.statusFigures

/-- READ_STATUS. -/
def execReadStatus (s : State) : Host.Outcome State Fault Refusal := s.command .readStatus carryReadStatus

/-! ### Station table (R139 to R141) -/

/-- ReadStation (R139). -/
def carryReadStation : Carry := fun s _ args => .answer s .done (s.entry (arg args 0)).encode

/-- READ_STATION. -/
def execReadStation (s : State) : Host.Outcome State Fault Refusal := s.command .readStation carryReadStation

/-- The entry a WriteStation writes, or the status of the first failing check (R20, R140). -/
def State.writtenEntry (s : State) (args : List Byte) : Except Status Entry :=
  let a := arg args 0
  let kind := arg args 1
  if a = 0 then .error .badArgument
  else if a = s.bridge.own ∨ s.mgmt.pendingOwn = some a then .error .conflict
  else if kind = 0 then .ok .unassigned
  else if kind = 3 then .ok .blocked
  else if kind = 1 then
    match maskOf (arg args 2) with
    | none => .error .badArgument
    | some m =>
      if m = 0 then .error .badArgument
      else if (arg args 3).toNat ≤ 3 then .ok (.static m ((arg args 3).setWidth 2) 0 false)
      else .error .badArgument
  else .error .badArgument

/-- WriteStation (R20, R140). -/
def carryWriteStation : Carry := fun s _ args =>
  match s.writtenEntry args with
  | .error st => .answer s st []
  | .ok e => .answer (s.putEntry (arg args 0) e) .done []

/-- WRITE_STATION. -/
def execWriteStation (s : State) : Host.Outcome State Fault Refusal := s.command .writeStation carryWriteStation

/-- ReadStationRange (R139): the number of entries, cut at 0xFF, is the first result; the reads follow. -/
def carryReadStationRange : Carry := fun s _ args =>
  let first := (arg args 0).toNat
  let count := (arg args 1).toNat
  if 1 ≤ count ∧ count ≤ 16 then
    let n := min count (256 - first)
    .working s (.stations first n [BitVec.ofNat 8 n])
  else .answer s .badArgument []

/-- The encodings of n entries from a first address on. -/
def State.entriesFrom (s : State) (first n : Nat) : List Byte :=
  (List.range n).flatMap fun i => (s.entry (BitVec.ofNat 8 (first + i))).encode

/-- The Local in execution reads up to `claims` entries further; after the last it ends (R130, R139). -/
def State.readStations (s : State) (claims : Nat) : State :=
  match s.mgmt.engine with
  | .busy r (.stations next left acc) =>
    let n := min claims left
    let acc := acc ++ s.entriesFrom next n
    if left ≤ claims then
      match s.txn r with
      | some t => s.finishCached r t ⟨.done, acc, none⟩
      | none => s.idleEngine
    else { s with mgmt := { s.mgmt with engine := .busy r (.stations (next + n) (left - n) acc) } }
  | .busy _ (.walk _ _ _ _) => s
  | .busy _ (.counters _ _ _ _ _) => s
  | .idle => s

/-- When READ_STATION_RANGE is due: its Local is at the head, or in execution with entries left. -/
def State.readStationRangeDue (s : State) : Option Nat :=
  match s.mgmt.engine with
  | .busy _ (.stations _ _ _) => some s.time
  | .busy _ (.walk _ _ _ _) => none
  | .busy _ (.counters _ _ _ _ _) => none
  | .idle => s.localDue (some .readStationRange)

/-- READ_STATION_RANGE: taken, where it is not yet in execution, and carried up to `claims` reads further (log 9). -/
def execReadStationRange (claims : Nat) (s : State) : Host.Outcome State Fault Refusal :=
  s.takeEvent s.readStationRangeDue fun s =>
    (s.takeLocal .readStationRange carryReadStationRange).readStations claims

/-- ClearLearned (R141): a valid mask starts the walk of R17. -/
def carryClearLearned : Carry := fun s _ args =>
  match maskOf (arg args 0) with
  | none => .answer s .badArgument []
  | some m => if m = 0 then .answer s .badArgument [] else .working s (.walk s.nowMs 0 m 0)

/-- CLEAR_LEARNED. -/
def execClearLearned (s : State) : Host.Outcome State Fault Refusal := s.command .clearLearned carryClearLearned

/-- Whether an entry is Learned on a segment of m. -/
def Entry.learnedIn (e : Entry) (m : SegSet) : Bool :=
  match e with
  | .learned g _ _ _ _ => m.has g
  | .unassigned => false
  | .static _ _ _ _ => false
  | .blocked => false

/-- When the walk in execution makes its next visit: entry k at its start plus k + 1 ms (R17). -/
def State.walkDue (s : State) : Option Nat :=
  match s.mgmt.engine with
  | .busy _ (.walk start cursor _ _) => some (s.momentOf (start + (cursor.setWidth 32 + 1)))
  | .busy _ (.stations _ _ _) => none
  | .busy _ (.counters _ _ _ _ _) => none
  | .idle => none

/-- The visit clears a Learned entry on a masked segment and counts it; the visit to 0xFF raises BulkUnlearn and the reply
Done with the cleared count follows (R17, R141). -/
def State.walkVisit (s : State) : State :=
  match s.mgmt.engine with
  | .busy r (.walk start cursor mask cleared) =>
    let hit := (s.entry cursor).learnedIn mask
    let s := if hit then s.putEntry cursor .unassigned else s
    let cleared := if hit then cleared + 1 else cleared
    if cursor = 0xFF then
      let s := s.raise .bulkUnlearn none none cleared
      match s.txn r with
      | some t => s.finishCached r t ⟨.done, [cleared], none⟩
      | none => s.idleEngine
    else { s with mgmt := { s.mgmt with engine := .busy r (.walk start (cursor + 1) mask cleared) } }
  | .busy _ (.stations _ _ _) => s
  | .busy _ (.counters _ _ _ _ _) => s
  | .idle => s

/-- WALK_VISIT. -/
def execWalkVisit (s : State) : Host.Outcome State Fault Refusal := s.takeEvent s.walkDue State.walkVisit

/-! ### Segment and bridge settings (R142 to R144) -/

/-- ReadSegment (R142). -/
def carryReadSegment : Carry := fun s _ args =>
  match segArg args 0 with
  | none => .answer s .badArgument []
  | some g =>
    if arg args 1 = 0 then .answer s .done (s.active g).encode
    else if arg args 1 = 1 then .answer s .done (s.settings.staged.get g).encode
    else .answer s .badArgument []

/-- READ_SEGMENT. -/
def execReadSegment (s : State) : Host.Outcome State Fault Refusal := s.command .readSegment carryReadSegment

/-- The role a segment is on its way to: its staged role where it is in m or its apply is pending, else its active role
(R142, R143). -/
def State.prospectiveRole (s : State) (m : SegSet) (u : Seg) : Role :=
  if m.has u || s.settings.applyPending.has u then (s.settings.staged.get u).role else (s.active u).role

/-- WriteSegment (R142). -/
def carryWriteSegment : Carry := fun s _ args =>
  match segArg args 0, SegRecord.decode (args.drop 1) with
  | some g, some rec =>
    if Seg.all.any fun u => (if u = g then rec.role else s.prospectiveRole 0 u) == .upstream then
      .answer { s with settings := { s.settings with staged := s.settings.staged.set g rec } } .done []
    else .answer s .badArgument []
  | _, _ => .answer s .badArgument []

/-- WRITE_SEGMENT. -/
def execWriteSegment (s : State) : Host.Outcome State Fault Refusal := s.command .writeSegment carryWriteSegment

/-- ApplySegment (R143): the segments of the mask are marked apply-pending. -/
def carryApplySegment : Carry := fun s _ args =>
  match maskOf (arg args 0) with
  | none => .answer s .badArgument []
  | some m =>
    if m = 0 then .answer s .badArgument []
    else if Seg.all.any fun u => s.prospectiveRole m u == .upstream then
      let marks := s.settings.applyPending ||| m
      .answer { s with settings := { s.settings with applyPending := marks } } .accepted [maskByte marks]
    else .answer s .badArgument []

/-- APPLY_SEGMENT. -/
def execApplySegment (s : State) : Host.Outcome State Fault Refusal := s.command .applySegment carryApplySegment

/-- ReadBridge (R144). -/
def carryReadBridge : Carry := fun s _ _ => .answer s .done s.bridge.encode

/-- READ_BRIDGE. -/
def execReadBridge (s : State) : Host.Outcome State Fault Refusal := s.command .readBridge carryReadBridge

/-- Every field of the bridge record but the own address is written (R144); an aging interval that was 0 starts to run now
(R12); Static entries whose count the miss limit is lowered below are muted (R11); copies armed with an own address change
are disarmed (R135). -/
def State.storeBridge (s : State) (b : BridgeRecord) : State :=
  let ref := if s.bridge.agingInterval = 0 ∧ b.agingInterval ≠ 0 then s.nowMs else s.table.agingRef
  ({ s with
    settings := { s.settings with bridge := { b with own := s.bridge.own } }
    table := { s.table with
      entries := s.table.entries.map (Entry.limitChanged s.bridge.missLimit b.missLimit)
      agingRef := ref } }).disarmOwn

/-- The pending own address is replaced (R4, R135). -/
def State.setPendingOwn (s : State) (a : Option Byte) : State := { s with mgmt := { s.mgmt with pendingOwn := a } }

/-- WriteBridge (R144, R4): a new own address becomes pending and is the reply's deferred effect. -/
def carryWriteBridge : Carry := fun s _ args =>
  match BridgeRecord.decode args with
  | none => .answer s .badArgument []
  | some b =>
    if b.own = s.bridge.own then .answer ((s.storeBridge b).setPendingOwn none) .done []
    else if s.entry b.own = .unassigned then
      .replied ((s.storeBridge b).setPendingOwn (some b.own)) ⟨.done, [], some (.ownAddress b.own)⟩
    else .answer s .conflict []

/-- WRITE_BRIDGE. -/
def execWriteBridge (s : State) : Host.Outcome State Fault Refusal := s.command .writeBridge carryWriteBridge

/-! ### Counters and events (R145, R146) -/

/-- How many counters a segment code has (R176). -/
def countersOf (code : Nat) : Nat := if code < 4 then 14 else if code = 4 then 2 else 0

/-- The counter of a code and index (R176). -/
def Counters.at (c : Counters) (code i : Nat) : Word32 :=
  match Seg.ofNum? code with
  | some g => c.read g (Fin.ofNat 14 i)
  | none => if i = 0 then c.noticesLost else c.sweepsSkipped

/-- The counter of a code and index set to 0 (R145). -/
def Counters.zeroAt (c : Counters) (code i : Nat) : Counters :=
  match Seg.ofNum? code with
  | some g => c.write g (Fin.ofNat 14 i) 0
  | none => if i = 0 then { c with noticesLost := 0 } else { c with sweepsSkipped := 0 }

/-- The values of n counters from an index on, 4 characters each. -/
def Counters.block (c : Counters) (code first n : Nat) : List Byte :=
  (List.range n).flatMap fun i => bytes4 (c.at code (first + i))

/-- n counters from an index on set to 0. -/
def Counters.zeroBlock (c : Counters) (code first n : Nat) : Counters :=
  (List.range n).foldl (fun c i => c.zeroAt code (first + i)) c

/-- ReadCounters and ReadClearCounters (R145): the arguments are checked and the reads follow. -/
def carryCounters (clear : Bool) : Carry := fun s _ args =>
  let code := (arg args 0).toNat
  let first := (arg args 1).toNat
  let count := (arg args 2).toNat
  if code ≤ 4 ∧ 1 ≤ count ∧ first + count ≤ countersOf code then .working s (.counters clear code first count [])
  else .answer s .badArgument []

/-- The Local in execution reads up to `claims` counters further, each read, and zeroed where it clears, in one claim;
after the last it ends (R130, R145, R179). -/
def State.readCounterBlock (s : State) (claims : Nat) : State :=
  match s.mgmt.engine with
  | .busy r (.counters clear code next left acc) =>
    let n := min claims left
    let acc := acc ++ s.counters.block code next n
    let s := if clear then { s with counters := s.counters.zeroBlock code next n } else s
    if left ≤ claims then
      match s.txn r with
      | some t => s.finishCached r t ⟨.done, acc, none⟩
      | none => s.idleEngine
    else { s with mgmt := { s.mgmt with engine := .busy r (.counters clear code (next + n) (left - n) acc) } }
  | .busy _ (.walk _ _ _ _) => s
  | .busy _ (.stations _ _ _) => s
  | .idle => s

/-- When a counter read is due: its Local is at the head, or in execution with counters left. -/
def State.countersDue (s : State) (clear : Bool) : Option Nat :=
  match s.mgmt.engine with
  | .busy _ (.counters c _ _ _ _) => if c = clear then some s.time else none
  | .busy _ (.walk _ _ _ _) => none
  | .busy _ (.stations _ _ _) => none
  | .idle => s.localDue (some (if clear then .readClearCounters else .readCounters))

/-- READ_COUNTERS: taken, where it is not yet in execution, and carried up to `claims` reads further (log 9). -/
def execReadCounters (claims : Nat) (s : State) : Host.Outcome State Fault Refusal :=
  s.takeEvent (s.countersDue false) fun s => (s.takeLocal .readCounters (carryCounters false)).readCounterBlock claims

/-- READ_CLEAR_COUNTERS: the same, each counter zeroed in the claim that reads it. -/
def execReadClearCounters (claims : Nat) (s : State) : Host.Outcome State Fault Refusal :=
  s.takeEvent (s.countersDue true) fun s => (s.takeLocal .readClearCounters (carryCounters true)).readCounterBlock claims

/-- ReadEvents (R146): the events-lost count is read and zeroed, and up to n of the oldest records leave the queue. -/
def carryReadEvents : Carry := fun s _ args =>
  let n := (arg args 0).toNat
  if 1 ≤ n ∧ n ≤ 8 then
    let taken := s.events.queue.take n
    .answer { s with events := { s.events with queue := s.events.queue.drop n, lost := 0 } } .done
      ([s.events.lost, BitVec.ofNat 8 taken.length] ++ taken.flatMap EventRecord.encode)
  else .answer s .badArgument []

/-- READ_EVENTS. -/
def execReadEvents (s : State) : Host.Outcome State Fault Refusal := s.command .readEvents carryReadEvents

/-! ### The lease (R147 to R149, R161) -/

/-- The lease held by g for some seconds from now (R161). -/
def State.holdLease (s : State) (g : Seg) (seconds : Byte) : State :=
  { s with lease := some ⟨g, s.nowMs + seconds.setWidth 32 * 1000⟩ }

/-- TakeLease (R148). -/
def carryTakeLease : Carry := fun s g args =>
  let time := arg args 0
  if time = 0 then .answer s .badArgument []
  else if (s.active g).mgmtAccess = false then .answer s .conflict []
  else
    match s.lease with
    | none => .answer ((s.holdLease g time).raise .leaseTaken (some g) none time) .done [g.byte, time]
    | some l =>
      if l.holder = g then .answer (s.holdLease g time) .done [g.byte, time]
      else .answer s .leaseBusy [l.holder.byte, BitVec.ofNat 8 (s.leaseSeconds l)]

/-- TAKE_LEASE. -/
def execTakeLease (s : State) : Host.Outcome State Fault Refusal := s.command .takeLease carryTakeLease

/-- DropLease (R149). -/
def carryDropLease : Carry := fun s g _ =>
  match s.lease with
  | none => .answer s .notHolder []
  | some l => if l.holder = g then .answer (s.dropLeaseOf g 0) .done [] else .answer s .notHolder []

/-- DROP_LEASE. -/
def execDropLease (s : State) : Host.Outcome State Fault Refusal := s.command .dropLease carryDropLease

/-! ### Restarts (R150, R151) -/

/-- Restart (R150): the restart is recorded as the reply's deferred effect. -/
def carryRestart : Carry := fun s _ args =>
  if arg args 0 = 1 then .replied s ⟨.accepted, [], some (.restart .full)⟩
  else if arg args 0 = 2 then .replied s ⟨.accepted, [], some (.restart .traffic)⟩
  else .answer s .badArgument []

/-- RESTART. -/
def execRestart (s : State) : Host.Outcome State Fault Refusal := s.command .restart carryRestart

/-- RestartSegment (R151): the Segment restart is taken within the step, before the reply is built. -/
def carryRestartSegment : Carry := fun s g args =>
  match segArg args 0 with
  | none => .answer s .badArgument []
  | some u => if u = g then .answer s .conflict [] else .answer (s.segmentRestart u) .done []

/-- RESTART_SEGMENT. -/
def execRestartSegment (s : State) : Host.Outcome State Fault Refusal := s.command .restartSegment carryRestartSegment

/-! ### Echo and an unknown command (R152, R131) -/

/-- Echo (R152). -/
def carryEcho : Carry := fun s _ args => .answer s .done args

/-- ECHO. -/
def execEcho (s : State) : Host.Outcome State Fault Refusal := s.command .echo carryEcho

/-- A Local whose command code is not in the command table (R131, step 4). -/
def State.takeUnknown (s : State) : State :=
  match s.headLocal with
  | none => s
  | some (r, t) => s.dequeue.checked r t fun s _ => s.finishCached r t ⟨.badCommand, [], none⟩

/-- BAD_COMMAND. -/
def execBadCommand (s : State) : Host.Outcome State Fault Refusal :=
  s.takeEvent (s.localDue none) State.takeUnknown

end Sys2Proof.Machine
end

