-- ==== Sys2Proof/Machine/Sending.lean ====
section
/-!
DEFINITION. The egress schedulers (spec/06): choosing an item, LEAD, TRANSMIT, TAIL and BACKOFF, echo compare, collisions
and how a send ends; the meanings of TAKE_LINE, LEAD_GUARD_END, CHARACTER_SENT, ECHO_DEADLINE, BREAK_SENT, TAIL_GUARD_END,
BACKOFF_END and START_WHILE_DRIVING.
-/

namespace Sys2Proof.Machine

/-! ### The item in hand -/

/-- The item the scheduler of g would choose (R111): the notice, the head of the reply lane, the head of the bulk lane,
which on an Upstream segment waits while the segment is the origin of a live transaction. -/
def State.choose (s : State) (g : Seg) : Option Item :=
  let e := s.egress.get g
  match e.slot, e.replyLane, e.bulkLane with
  | some _, _, _ => some .slotNotice
  | none, c :: _, _ => some (.reply c.desc)
  | none, [], d :: _ =>
    if (s.active g).role = .upstream ∧ (s.liveOf g).isSome then none else some (.bulk d)
  | none, [], [] => none

/-- The item in hand, or the one chosen now, not started, with attempt count 0 (R111, R112). -/
def State.handOrChoice (s : State) (g : Seg) : Option InHand :=
  match (s.egress.get g).hand with
  | some h => some h
  | none => (s.choose g).map fun i => ⟨i, false, 0⟩

/-- The station address of an item (R121). -/
def State.itemStation (s : State) (g : Seg) : Item → Byte
  | .slotNotice => ((s.egress.get g).slot.map Notice.station).getD 0
  | .sentNotice n => n.station
  | .reply d => ((s.store.desc d).map Desc.station).getD 0
  | .bulk d => ((s.store.desc d).map Desc.station).getD 0

/-- The characters an item sends (R101, R115, R123): a notice is built with the own address as read at TRANSMIT. -/
def State.itemChar (s : State) (own : Byte) (k : Nat) : Item → Option Ch
  | .slotNotice => none
  | .sentNotice n => (noticeFrame own n)[k]?.map fun b => ⟨b, k == 0⟩
  | .reply d => s.store.charAt d k
  | .bulk d => s.store.charAt d k

/-- How many characters an item sends. -/
def State.itemLength (s : State) : Item → Nat
  | .slotNotice => 4
  | .sentNotice _ => 4
  | .reply d => ((s.store.desc d).map Desc.length).getD 0
  | .bulk d => ((s.store.desc d).map Desc.length).getD 0

/-- Whether an item is the copy of a request or broadcast, which the transaction engine hears of (R121, R122). -/
def State.isRequestCopy (s : State) : Item → Bool
  | .bulk d =>
    match s.store.desc d with
    | some x => x.cls == .request || x.cls == .broadcast
    | none => false
  | .slotNotice => false
  | .sentNotice _ => false
  | .reply _ => false

/-! ### Sending characters (R115) -/

/-- Request the next character of the item in hand, where one is left, and expect its echo with echo check on (R115). -/
def State.requestNext (s : State) (g : Seg) (a : Attempt) : State :=
  let e := s.egress.get g
  match e.hand with
  | none => s.setEgress g { e with state := .transmit a }
  | some h =>
    match s.itemChar a.own a.next h.item with
    | none => s.setEgress g { e with state := .transmit a }
    | some c =>
      (s.setLine g ((s.lines.get g).sendChar c s.time)).setEgress g
        { e with
          state := .transmit { a with next := a.next + 1 }
          echoes := if a.echoOn then e.echoes ++ [⟨a.next, c, none⟩] else e.echoes }

/-- The item in hand as its send starts: marked started; a notice leaves the slot (R109, R115). -/
def Egress.startItem (e : Egress) : Egress :=
  match e.hand with
  | none => e
  | some h =>
    match h.item, e.slot with
    | .slotNotice, some n => { e with slot := none, hand := some { h with item := .sentNotice n, started := true } }
    | _, _ => { e with hand := some { h with started := true } }

/-- TRANSMIT is entered and the first character requested; with echo check off the second is requested as the first starts
(R114, R115). -/
def State.enterTransmit (s : State) (g : Seg) (echoOn : Bool) : State :=
  let s := s.setEgress g (s.egress.get g).startItem
  let s := s.requestNext g ⟨echoOn, s.bridge.own, 0, 0⟩
  if echoOn then s else s.requestNext g ⟨echoOn, s.bridge.own, 1, 0⟩

/-- TAIL is entered, or its guard counted anew (R118, R119). -/
def State.enterTail (s : State) (g : Seg) (a : Attempt) : State :=
  s.setEgress g { s.egress.get g with
    state := .tail (s.time + (s.active g).tailGuard.toNat * (s.active g).bitTime) a }

/-! ### How a send ends (R121, R122) -/

/-- The item leaves its lane or slot, and a copy's segment leaves the descriptor's pending egress set (R98, R121, R122). -/
def State.dropItem (s : State) (g : Seg) (i : Item) : State :=
  let e := { s.egress.get g with hand := none }
  match i with
  | .slotNotice => s.setEgress g { e with slot := none }
  | .sentNotice _ => s.setEgress g e
  | .reply d =>
    (s.setEgress g { e with replyLane := e.replyLane.filter fun c => c.desc != d }).mapStore fun st => st.leave d g
  | .bulk d =>
    (s.setEgress g { e with bulkLane := e.bulkLane.filter fun q => q != d }).mapStore fun st => st.leave d g

/-- Whether an item is a notice. -/
def Item.isNotice : Item → Bool
  | .slotNotice => true
  | .sentNotice _ => true
  | .reply _ => false
  | .bulk _ => false

/-- The send of the item in hand ends with outcome Collision (R121). -/
def State.sendCollided (s : State) (g : Seg) : State :=
  match (s.egress.get g).hand with
  | none => s
  | some h =>
    let station := s.itemStation g h.item
    let request := s.isRequestCopy h.item
    let s := s.dropItem g h.item
    let s := if h.item.isNotice then s.countNoticeLost else s
    let s := if request then s.copyFailed g else s
    let s := s.settlePendingOwn
    s.raise .collision (some g) (some station) (BitVec.ofNat 8 h.attempts)

/-- The effect armed on the reply copy in hand (R135). -/
def Egress.armedOn (e : Egress) : Item → Option Armed
  | .reply d => (e.replyLane.find? fun c => c.desc == d).bind ReplyCopy.armed
  | .slotNotice => none
  | .sentNotice _ => none
  | .bulk _ => none

/-- The send of the item in hand ends with completion (R122): the copy leaves, FramesSent is raised, a request copy is
reported to the transaction engine, and a reply's armed effect is taken (R135, R167). -/
def State.sendCompleted (s : State) (g : Seg) : State :=
  match (s.egress.get g).hand with
  | none => s
  | some h =>
    let armed := (s.egress.get g).armedOn h.item
    let request := s.isRequestCopy h.item
    let s := s.dropItem g h.item
    let s := s.count g .framesSent
    let s := if request then s.copyCompleted g else s
    match armed with
    | some a => (s.takeDeferred g a).settlePendingOwn
    | none => s

/-! ### Collisions (R116 to R119) -/

/-- An attempt of the item in hand has failed: Collisions and the attempt count are raised by 1 (R116, R118). -/
def State.failAttempt (s : State) (g : Seg) : State :=
  let e := s.egress.get g
  (s.setEgress g { e with hand := e.hand.map fun h => { h with attempts := h.attempts + 1 } }).count g .collisions

/-- Whether the attempt count exceeds the retry limit (R116, R119). -/
def State.retriesSpent (s : State) (g : Seg) : Bool :=
  match (s.egress.get g).hand with
  | some h => decide ((s.active g).retryLimit.toNat < h.attempts)
  | none => false

/-- BACKOFF is entered (R116, R119, R120), the item's send ending first when its retries are spent (R121). DESIGN CHOICE
(log 28): collision found, which R108 gives only for the attempt in progress, is clear between attempts. -/
def State.backOff (s : State) (g : Seg) : State :=
  let s := if s.retriesSpent g then s.sendCollided g else s
  s.setEgress g { s.egress.get g with state := .backoff s.time, echoes := [], collision := false }

/-- The echo compare finds a collision in TRANSMIT or TAIL (R118): the expected echoes are emptied and a break is
requested. -/
def State.foundCollision (s : State) (g : Seg) : State :=
  let s := s.failAttempt g
  let s := s.setEgress g { s.egress.get g with collision := true, echoes := [] }
  s.setLine g ((s.lines.get g).sendBreak s.time)

/-- An item delivered to the echo compare (R62, R117): a character, or a break (`none`). -/
abbrev EchoItem := Option RxChar

/-- Whether a character heard matches an expected echo under the segment's noise policy (R117). -/
def echoMatches (p : NoisePolicy) (x : Echo) (c : RxChar) : Bool :=
  c.value == x.char.value && c.mark == x.char.mark && !c.parityErr && !c.framingErr
    && !(c.noise && p == .damage)

/-- The judgement of an item against the expected echoes (R117): whether it matches the oldest. -/
def Egress.judges (e : Egress) (p : NoisePolicy) (i : EchoItem) : Bool :=
  match i, e.echoes with
  | some c, x :: _ => echoMatches p x c
  | _, _ => false

/-- The echo compare (R117): in TRANSMIT every item, in TAIL while echoes are expected; nothing is judged with echo check
off, once a collision is found, or in any other state. A match in TRANSMIT requests the next character (R115). -/
def State.echoCompare (s : State) (g : Seg) (i : EchoItem) : State :=
  let e := s.egress.get g
  let matched := e.judges (s.active g).noisePolicy i
  match e.state with
  | .transmit a =>
    if a.echoOn && !e.collision then
      if matched then (s.setEgress g { e with echoes := e.echoes.tail }).requestNext g a else s.foundCollision g
    else s
  | .tail _ a =>
    if a.echoOn && !e.collision && !e.echoes.isEmpty then
      if matched then s.setEgress g { e with echoes := e.echoes.tail } else s.foundCollision g
    else s
  | .quiet => s
  | .lead _ _ => s
  | .backoff _ => s

/-! ### TAKE_LINE (R111 to R114) -/

/-- When g may take the line: its role is not Off, its frame receiver is in HUNT, its scheduler QUIET, there is an item,
and the quiet time has reached the turn gap (R113). -/
def State.takeLineDue (s : State) (g : Seg) : Option Nat :=
  let r := s.active g
  match (s.lines.get g).rx with
  | .ready since _ _ =>
    if r.role ≠ .off ∧ s.receivers.get g = .hunt ∧ (s.egress.get g).state = .quiet ∧ (s.handOrChoice g).isSome then
      some (since + r.turnGap.toNat * r.charTime)
    else none
  | .off => none
  | .recover _ => none
  | .assemble _ _ => none

/-- RXD has read high for the quiet time that an event rests on: where it had last read low, it counts from as late as the
event allows (log 13). -/
def LineUnit.quietFor (u : LineUnit) (now gap : Nat) : LineUnit :=
  match u.rx with
  | .ready _ false expired => { u with rx := .ready (now - gap) true expired }
  | _ => u

/-- The scheduler of g takes the line (R114): DE asserted, the receiver BLIND; with lead guard 0 it enters TRANSMIT in the
same step. -/
def State.takeLine (s : State) (g : Seg) : State :=
  let r := s.active g
  let u := (s.lines.get g).quietFor s.time (r.turnGap.toNat * r.charTime)
  let hand := s.handOrChoice g
  let s := (s.setLine g u.assertDE).setReceiver g .blind
  let s := s.setEgress g { s.egress.get g with
    state := .lead (s.time + r.leadGuard.toNat * r.bitTime) r.echoCheck, hand := hand, echoes := [], collision := false }
  if r.leadGuard = 0 then s.enterTransmit g r.echoCheck else s

/-- TAKE_LINE. -/
def execTakeLine (g : Seg) (s : State) : Host.Outcome State Fault Refusal :=
  s.takeEvent (s.takeLineDue g) fun s => s.takeLine g

/-! ### LEAD_GUARD_END (R114, R115) -/

/-- When LEAD of g ends. -/
def State.leadGuardDue (s : State) (g : Seg) : Option Nat :=
  match (s.egress.get g).state with
  | .lead ends _ => some ends
  | .quiet => none
  | .transmit _ => none
  | .tail _ _ => none
  | .backoff _ => none

/-- The lead guard has run without contention: TRANSMIT. -/
def State.endLead (s : State) (g : Seg) : State :=
  match (s.egress.get g).state with
  | .lead _ echoOn => s.enterTransmit g echoOn
  | .quiet => s
  | .transmit _ => s
  | .tail _ _ => s
  | .backoff _ => s

/-- LEAD_GUARD_END. -/
def execLeadGuardEnd (g : Seg) (s : State) : Host.Outcome State Fault Refusal :=
  s.takeEvent (s.leadGuardDue g) fun s => s.endLead g

/-! ### CHARACTER_SENT (R64, R115, R117) -/

/-- When the character g sends ends. -/
def State.characterSentDue (s : State) (g : Seg) : Option Nat :=
  match (s.lines.get g).tx with
  | .shifting _ since => some (since + (s.active g).charTime)
  | .marking => none
  | .breaking _ => none

/-- The expected echoes once character k's last stop bit has ended: its deadline runs from now (R117). -/
def markSent (k now : Nat) (l : List Echo) : List Echo :=
  l.map fun x => if x.index = k then { x with sentAt := some now } else x

/-- The send completion of a character (R64): the held request starts, the echo's deadline starts to run, and after the
last character, with no collision found, TAIL is entered; with echo check off the next character is requested as the one
before it starts (R115). -/
def State.characterSent (s : State) (g : Seg) : State :=
  let s := s.setLine g ((s.lines.get g).endSending s.time)
  let e := s.egress.get g
  match e.state with
  | .transmit a =>
    let a' := { a with sent := a.sent + 1 }
    let s := s.setEgress g { e with state := .transmit a', echoes := markSent a.sent s.time e.echoes }
    if e.collision then s
    else
      match e.hand with
      | none => s
      | some h =>
        if s.itemLength h.item ≤ a'.sent then s.enterTail g a'
        else if a.echoOn then s else s.requestNext g a'
  | .quiet => s
  | .lead _ _ => s
  | .tail _ _ => s
  | .backoff _ => s

/-- CHARACTER_SENT. -/
def execCharacterSent (g : Seg) (s : State) : Host.Outcome State Fault Refusal :=
  s.takeEvent (s.characterSentDue g) fun s => s.characterSent g

/-! ### ECHO_DEADLINE (R117, R118) -/

/-- When the oldest expected echo's deadline passes: one character time after the end of its last stop bit. -/
def State.echoDeadlineDue (s : State) (g : Seg) : Option Nat :=
  match (s.egress.get g).echoes with
  | x :: _ => x.sentAt.map fun t => t + (s.active g).charTime
  | [] => none

/-- ECHO_DEADLINE: a missing echo is a collision. -/
def execEchoDeadline (g : Seg) (s : State) : Host.Outcome State Fault Refusal :=
  s.takeEvent (s.echoDeadlineDue g) fun s => s.foundCollision g

/-! ### BREAK_SENT (R65, R118, R119, R69) -/

/-- When the break g sends ends: two character times after its start (R65). -/
def State.breakSentDue (s : State) (g : Seg) : Option Nat :=
  match (s.lines.get g).tx with
  | .breaking since => some (since + 2 * (s.active g).charTime)
  | .marking => none
  | .shifting _ _ => none

/-- The break has been sent: after a collision TAIL is entered or its guard counted again (R118); after a Segment restart,
when the scheduler is QUIET, DE is released (R69). -/
def State.breakSent (s : State) (g : Seg) : State :=
  let s := s.setLine g ((s.lines.get g).endSending s.time)
  match (s.egress.get g).state with
  | .transmit a => s.enterTail g a
  | .tail _ a => s.enterTail g a
  | .quiet => s.releaseLine g
  | .lead _ _ => s
  | .backoff _ => s.releaseLine g

/-- BREAK_SENT. -/
def execBreakSent (g : Seg) (s : State) : Host.Outcome State Fault Refusal :=
  s.takeEvent (s.breakSentDue g) fun s => s.breakSent g

/-! ### TAIL_GUARD_END (R119) -/

/-- When TAIL of g ends: its guard has run, no echo is expected, and no break is being sent. -/
def State.tailGuardDue (s : State) (g : Seg) : Option Nat :=
  match (s.egress.get g).state with
  | .tail ends _ =>
    if (s.egress.get g).echoes = [] ∧ (s.lines.get g).tx = .marking then some ends else none
  | .quiet => none
  | .lead _ _ => none
  | .transmit _ => none
  | .backoff _ => none

/-- TAIL ends (R119): DE is released; with no collision found the scheduler is QUIET and the send completes (R122), else
the item ends Collision or stays in hand, and BACKOFF is entered. -/
def State.endTail (s : State) (g : Seg) : State :=
  let s := s.releaseLine g
  if (s.egress.get g).collision then s.backOff g
  else (s.setEgress g { s.egress.get g with state := .quiet }).sendCompleted g

/-- TAIL_GUARD_END, with the levels on the strap pins at this step (R182, log 6). -/
def execTailGuardEnd (g : Seg) (straps : Straps) (s : State) : Host.Outcome State Fault Refusal :=
  s.takeEvent (s.tailGuardDue g) fun s => State.endTail { s with straps := straps } g

/-! ### BACKOFF_END (R120) -/

/-- When BACKOFF of g ends: 2 times segment number plus one character times after it began. -/
def State.backoffDue (s : State) (g : Seg) : Option Nat :=
  match (s.egress.get g).state with
  | .backoff since => some (since + 2 * (g.num + 1) * (s.active g).charTime)
  | .quiet => none
  | .lead _ _ => none
  | .transmit _ => none
  | .tail _ _ => none

/-- BACKOFF_END: the scheduler enters QUIET. -/
def execBackoffEnd (g : Seg) (s : State) : Host.Outcome State Fault Refusal :=
  s.takeEvent (s.backoffDue g) fun s => s.setEgress g { s.egress.get g with state := .quiet }

/-! ### START_WHILE_DRIVING (R57, R63, R116) -/

/-- When a valid start bit heard on g is reported: at its middle, while DE is asserted and the transmitter MARKING. -/
def State.startWhileDrivingDue (s : State) (g : Seg) : Option Nat :=
  let u := s.lines.get g
  match u.rx with
  | .assemble edge false =>
    if u.de = true ∧ u.tx = .marking then some (edge + (s.active g).middleOf 1) else none
  | .assemble _ true => none
  | .off => none
  | .recover _ => none
  | .ready _ _ _ => none

/-- The start bit being assembled is taken as valid (R57). -/
def State.takeStart (s : State) (g : Seg) : State :=
  let u := s.lines.get g
  match u.rx with
  | .assemble edge _ => s.setLine g { u with rx := .assemble edge true }
  | .off => s
  | .recover _ => s
  | .ready _ _ _ => s

/-- The start bit is taken as valid; in LEAD it is contention (R116): DE is released and BACKOFF entered. In other states
the report is ignored. -/
def State.startHeard (s : State) (g : Seg) : State :=
  let s := s.takeStart g
  match (s.egress.get g).state with
  | .lead _ _ => ((s.releaseLine g).failAttempt g).backOff g
  | .quiet => s
  | .transmit _ => s
  | .tail _ _ => s
  | .backoff _ => s

/-- START_WHILE_DRIVING. -/
def execStartWhileDriving (g : Seg) (s : State) : Host.Outcome State Fault Refusal :=
  s.takeEvent (s.startWhileDrivingDue g) fun s => s.startHeard g

end Sys2Proof.Machine
end

