-- ==== Sys2Proof/Machine/Reception.lean ====
section
/-!
DEFINITION. The frame receivers (spec/04): classification, admission, growth, frame end and dispatch; and the meanings of
the line events CHARACTER_COMPLETE, BREAK, FALSE_START, RECOVER_END, IDLE_GAP_EXPIRY and FALLING_EDGE.
-/

namespace Sys2Proof.Machine

/-! ### Errors (R82) -/

/-- Whether a character taken in STORE is an erroneous character of its frame (R82). -/
def erroneous (p : NoisePolicy) (c : RxChar) : Bool := c.parityErr || c.framingErr || (c.noise && p == .damage)

/-- CharErrors and NoiseChars for a character taken outside BLIND (R82). -/
def State.countErrors (s : State) (g : Seg) (c : RxChar) : State :=
  (s.countIf (c.parityErr || c.framingErr) g .charErrors).countIf c.noise g .noiseChars

/-! ### Classification (R74, R75) -/

/-- What classification decides at an address character: the class with what its transaction needs, or a skip. -/
inductive Classed where
  /-- To admission with a record to reserve: a Request, Broadcast or Management frame (R25). -/
  | record (cls : FrameClass) (kind : TxnKind) (egress : SegSet) (timeout : Option TimeoutClass)
  /-- To admission as the Response of a transaction (R38). -/
  | response (r : Fin Config.numTxns) (t : Txn)
  /-- To admission as an Unsolicited frame. -/
  | unsolicited
  /-- Passed over. -/
  | skip (cls : Option FrameClass) (reason : SkipReason)
  deriving DecidableEq, Repr

/-- Classification on an Upstream segment (R74). -/
def State.classifyUpstream (s : State) (g : Seg) (a : Byte) : Classed :=
  if a = s.bridge.own then
    if (s.active g).mgmtAccess then .record .management .loc 0 none else .skip (some .management) .mgmtOff
  else if a = 0 then
    if s.downstream ≠ 0 then .record .broadcast .broadcast s.downstream none else .skip (some .broadcast) .noRoute
  else
    match s.route a with
    | .carry m c => .record .request .poll m (some c)
    | .drop reason => .skip (some .request) reason

/-- Classification on a Downstream segment (R75). -/
def State.classifyDownstream (s : State) (g : Seg) (a : Byte) : Classed :=
  match s.windowOn g with
  | some (r, t) => if a = t.station then .response r t else .skip none .stray
  | none =>
    if a = s.bridge.own then
      if (s.active g).mgmtAccess then .record .management .loc 0 none else .skip (some .management) .mgmtOff
    else if s.txns.lastTimedOut.get g = some a then .skip none .late
    else if s.bridge.unsolicited then .unsolicited
    else .skip (some .unsolicited) .unsolicitedOff

/-- Classification of an address character on g; a segment in Off delivers nothing (R66). -/
def State.classify (s : State) (g : Seg) (a : Byte) : Option Classed :=
  match (s.active g).role with
  | .upstream => some (s.classifyUpstream g a)
  | .downstream => some (s.classifyDownstream g a)
  | .off => none

/-! ### Admission (R76 to R78, R25) -/

/-- Whether the reserve refuses a frame: it applies to Broadcast and Unsolicited, and refuses at or below the setting
(R77). -/
def State.reserveRefuses (s : State) (cls : FrameClass) : Bool :=
  match cls with
  | .broadcast | .unsolicited => decide (s.store.freeCells.length ≤ s.bridge.reserve.toNat)
  | .request | .management | .response | .reply => false

/-- The record reserved for a frame (R25). -/
def reservedTxn (kind : TxnKind) (g : Seg) (a : Byte) (d : Fin Config.numDescs) (egress : SegSet)
    (timeout : Option TimeoutClass) : Txn :=
  { kind := kind, state := .forming, origin := g, station := a, reqDesc := some d, egress := egress, copies := 0
    windows := 0, cls := timeout, deadline := none, superseded := false, bypass := 0, guarded := false, copyOk := false
    command := 0, sequence := 0, outcome := none, responseSeg := none }

/-- A frame passed over from its address character on (R70, R71). -/
def State.skipFrame (s : State) (g : Seg) (cls : Option FrameClass) (reason : SkipReason) (a : Byte)
    (txn : Option (Fin Config.numTxns)) (intent : Option NoticeIntent) : State :=
  s.setReceiver g (.skip reason
    { cls := cls, station := a, desc := none, txn := txn, taken := 0, intent := intent })

/-- A frame refused at admission (R76): it takes nothing, NoBuffer is raised, and a record-bearing class calls for Busy. -/
def State.refuseFrame (s : State) (g : Seg) (cls : FrameClass) (a : Byte) (txn : Option (Fin Config.numTxns)) : State :=
  (s.skipFrame g (some cls) .noBuffer a txn (if cls.bearsRecord then some .busy else none)).count g .noBuffer

/-- Admission of a Request, Broadcast or Management frame (R76): descriptor, cell and record in one claim. -/
def State.admitRecord (s : State) (g : Seg) (cls : FrameClass) (kind : TxnKind) (egress : SegSet)
    (timeout : Option TimeoutClass) (c : RxChar) : State :=
  let bad := erroneous (s.active g).noisePolicy c
  if s.reserveRefuses cls then s.refuseFrame g cls c.value none
  else
    match s.lowestFree with
    | none => s.refuseFrame g cls c.value none
    | some r =>
      match s.store.openFrame cls g ⟨c.value, true⟩ bad (some r) with
      | none => s.refuseFrame g cls c.value none
      | some (d, st) =>
        (({ s with store := st }).putTxn r (some (reservedTxn kind g c.value d egress timeout))).setReceiver g
          (.store { cls := some cls, station := c.value, desc := some d, txn := some r, taken := 1
                    intent := if bad then some .damaged else none })

/-- Admission of a Response or an Unsolicited frame (R76): descriptor and cell, no record. -/
def State.admitPlain (s : State) (g : Seg) (cls : FrameClass) (txn : Option (Fin Config.numTxns)) (c : RxChar) : State :=
  let bad := erroneous (s.active g).noisePolicy c
  if s.reserveRefuses cls then s.refuseFrame g cls c.value txn
  else
    match s.store.openFrame cls g ⟨c.value, true⟩ bad txn with
    | none => s.refuseFrame g cls c.value txn
    | some (d, st) =>
      ({ s with store := st }).setReceiver g
        (.store { cls := some cls, station := c.value, desc := some d, txn := txn, taken := 1, intent := none })

/-- An address character taken in HUNT (R73): the frame is classified, counted, and admitted or skipped. -/
def State.beginFrame (s : State) (g : Seg) (c : RxChar) : State :=
  match s.classify g c.value with
  | none => s
  | some (.record cls kind egress timeout) => s.admitRecord g cls kind egress timeout c
  | some (.response r t) => (s.matchWindow r t g).admitPlain g .response (some r) c
  | some .unsolicited => (s.count g .unsolicited).admitPlain g .unsolicited none c
  | some (.skip cls reason) =>
    match reason with
    | .noRoute => (s.skipFrame g cls .noRoute c.value none (some .noRoute)).count g .noRoute
    | .stray => (s.skipFrame g cls .stray c.value none none).count g .lateStray
    | .late =>
      ((s.skipFrame g cls .late c.value none none).count g .lateStray).raise .late (some g) (some c.value) 0
    | .unsolicitedOff => (s.skipFrame g cls .unsolicitedOff c.value none none).count g .unsolicited
    | .blocked | .mgmtOff | .noBuffer | .oversize | .truncated => s.skipFrame g cls reason c.value none none

/-! ### Growth (R79 to R82) -/

/-- The first intent set stays (R89). -/
def Frame.intend (f : Frame) (i : NoticeIntent) : Frame :=
  if f.formingRecord.isSome ∧ f.intent = none then { f with intent := some i } else f

/-- A data character taken in STORE (R79 to R82): the 257th turns the frame to SKIP Oversize; one that needs a cell when
none is free turns it to SKIP Truncated; else it is stored. DESIGN CHOICE (log 26): a character with an error that itself
turns its frame to SKIP is not stored, gives no error record, and leaves the intent the turn sets, Busy or Damaged. -/
def State.growFrame (s : State) (g : Seg) (f : Frame) (c : RxChar) : State :=
  match f.desc with
  | none => s
  | some d =>
    match s.store.desc d with
    | none => s
    | some x =>
      let bad := erroneous (s.active g).noisePolicy c
      let keep (st : Store) : State :=
        let f := { f with taken := f.taken + 1 }
        ({ s with store := st.append d ⟨c.value, false⟩ bad }).setReceiver g
          (.store (if bad then f.intend .damaged else f))
      if Config.maxFrame ≤ x.length then s.setReceiver g (.skip .oversize (f.intend .damaged))
      else if x.length % Config.cellPlaces = 0 then
        match s.store.grow d with
        | none => s.setReceiver g (.skip .truncated (f.intend .busy))
        | some st => keep st
      else keep s.store

/-! ### Frame end and dispatch (R83 to R89) -/

/-- What ends a frame (R83 to R85). -/
inductive EndCause where
  | idleGap | nextAddress | aborted
  deriving DecidableEq, Repr

/-- How a frame ended (R86). -/
inductive Ending where
  | damaged | truncated | intact | skipped
  deriving DecidableEq, Repr

/-- The ending of the frame in assembly (R86): the first row that holds. `skip` is the skip reason, `error` whether the
descriptor has an error record. -/
def endingOf (cause : EndCause) (skip : Option SkipReason) (error : Bool) : Ending :=
  if cause = .aborted then .damaged
  else
    match skip with
    | some .truncated => .truncated
    | some .oversize => .damaged
    | none => if error then .damaged else .intact
    | some .blocked | some .noRoute | some .noBuffer | some .stray | some .late | some .unsolicitedOff
    | some .mgmtOff => .skipped

/-- An Intact Unsolicited frame from a Downstream segment is offered to the bulk lane of every Upstream segment (R88). -/
def State.forwardUnsolicited (s : State) (d : Fin Config.numDescs) : State :=
  let offer (s : State) (u : Seg) : State :=
    let e := s.egress.get u
    if (s.active u).role = .upstream then
      if e.bulkLane.length < Config.bulkLaneCap then
        (s.setEgress u { e with bulkLane := e.bulkLane ++ [d] }).mapStore fun st =>
          st.modify d fun x => { x with pendingEgress := x.pendingEgress.insert u }
      else s.count u .noBuffer
    else s
  (Seg.all.foldl offer s).mapStore fun st => st.releaseIfDone d

/-- A Request, Broadcast or Management frame of g has ended intact with its FORMING record r (R27, R28, R87): adoption, or
the supersede of the origin's live transaction and the new one's entry into PENDING or EXECUTING. -/
def State.enterService (s : State) (g : Seg) (cls : FrameClass) (r : Fin Config.numTxns) (d : Fin Config.numDescs) :
    State :=
  let frame := s.store.values d
  if cls = .management ∧ s.adopts g frame = true then (s.freeRecord r).mapStore fun st => st.dropTxn d
  else
    let s := s.abandonOrigin g
    let s := if cls = .management then s.becomeExecuting r (arg frame 1) (arg frame 2) else s.becomePending r
    s.setBackBulk g

/-- An Intact frame is handed on by its class (R87); its descriptor becomes Ready. -/
def State.handOn (s : State) (g : Seg) (f : Frame) (d : Fin Config.numDescs) : State :=
  let s := s.mapStore fun st => st.modify d fun x => { x with state := .ready }
  match f.cls, f.txn with
  | some .request, some r => s.enterService g .request r d
  | some .broadcast, some r => s.enterService g .broadcast r d
  | some .management, some r => s.enterService g .management r d
  | some .response, some r => s.responseIntact r g d
  | some .unsolicited, _ => s.forwardUnsolicited d
  | _, _ => s

/-- A frame that did not end intact acts on its transaction (R86): a FORMING record is freed, a response fixes its
outcome. -/
def State.endUnkept (s : State) (g : Seg) (f : Frame) (o : Option TxnOutcome) : State :=
  match f.formingRecord with
  | some r => s.freeRecord r
  | none =>
    match f.cls, f.txn, o with
    | some .response, some r, some o => s.responseFailed r g o
    | _, _, _ => s

/-- The outcome an ending other than intact gives a response's transaction (R42, R86). -/
def responseOutcome (ending : Ending) (skip : Option SkipReason) : Option TxnOutcome :=
  match ending with
  | .damaged => some .damaged
  | .truncated => some .noBuffer
  | .skipped => if skip = some .noBuffer then some .noBuffer else none
  | .intact => none

/-- The frame's descriptor is released at a Damaged or Truncated ending (R86, R97). -/
def State.releaseFrame (s : State) (f : Frame) : State :=
  match f.desc with
  | some d => s.mapStore fun st => st.release d
  | none => s

/-- The frame's notice intent is placed at its end, unless a break cut it (R44, R89). -/
def State.placeIntent (s : State) (g : Seg) (f : Frame) (cause : EndCause) : State :=
  match f.intent with
  | some i => if cause = .aborted then s else s.notify g i.code f.station
  | none => s

/-- The end of frame f of g (R86): counted, dispatched, its notice placed; the receiver is in HUNT. -/
def State.endFrameOf (s : State) (g : Seg) (cause : EndCause) (skip : Option SkipReason) (f : Frame) : State :=
  let error := match f.desc with
    | some d => match s.store.desc d with
      | some x => x.error
      | none => false
    | none => false
  let ending := endingOf cause skip error
  let s := (s.setReceiver g .hunt).count g .framesReceived
  let s := s.countIf (ending == .damaged) g .damaged
  let s := s.countIf (ending == .truncated) g .noBuffer
  let s := match ending with
    | .intact => match f.desc with
      | some d => s.handOn g f d
      | none => s
    | .damaged => (s.releaseFrame f).endUnkept g f (responseOutcome .damaged skip)
    | .truncated => (s.releaseFrame f).endUnkept g f (responseOutcome .truncated skip)
    | .skipped => s.endUnkept g f (responseOutcome .skipped skip)
  s.placeIntent g f cause

/-- The end of the frame in assembly of g, where there is one. -/
def State.endFrame (s : State) (g : Seg) (cause : EndCause) : State :=
  match s.receivers.get g with
  | .store f => s.endFrameOf g cause none f
  | .skip reason f => s.endFrameOf g cause (some reason) f
  | .hunt => s
  | .blind => s

/-! ### Items delivered to a frame receiver (R62, R73, R79, R83 to R85) -/

/-- A character delivered to the frame receiver of g. -/
def State.receiveChar (s : State) (g : Seg) (c : RxChar) : State :=
  match s.receivers.get g with
  | .blind => s
  | .hunt => if c.mark then (s.countErrors g c).beginFrame g c else (s.countErrors g c).count g .orphans
  | .store f =>
    if c.mark then ((s.countErrors g c).endFrame g .nextAddress).beginFrame g c else (s.countErrors g c).growFrame g f c
  | .skip _ _ =>
    if c.mark then ((s.countErrors g c).endFrame g .nextAddress).beginFrame g c else s.countErrors g c

/-- A break delivered to the frame receiver of g (R73, R85): it ends the frame in assembly and is counted; on an Upstream
segment it abandons the live transaction and empties what waits (R48). -/
def State.receiveBreak (s : State) (g : Seg) : State :=
  match s.receivers.get g with
  | .blind => s
  | .hunt | .store _ | .skip _ _ =>
    let s := (s.endFrame g .aborted).count g .breaks
    if (s.active g).role = .upstream then s.abandonOrigin g else s

/-! ### CHARACTER_COMPLETE (R59, R62) -/

/-- A character is delivered by the state of DE (R62): to the echo compare or to the frame receiver. -/
def State.deliverChar (s : State) (g : Seg) (c : RxChar) : State :=
  if (s.lines.get g).de then s.echoCompare g (some c) else s.receiveChar g c

/-- A break is delivered by the state of DE (R62). -/
def State.deliverBreak (s : State) (g : Seg) : State :=
  if (s.lines.get g).de then s.echoCompare g none else s.receiveBreak g

/-- The receiver of g enters a state. -/
def State.setRx (s : State) (g : Seg) (rx : RxState) : State := s.setLine g { s.lines.get g with rx := rx }

/-- A false start (R57): READY, NoiseChars raised, nothing delivered. -/
def State.falseStart (s : State) (g : Seg) : State := (s.setRx g (.ready s.time true false)).count g .noiseChars

/-- A break is found (R60): RECOVER, and the break is delivered. -/
def State.breakFound (s : State) (g : Seg) : State := (s.setRx g (.recover s.time)).deliverBreak g

/-- When the receiver of g, in ASSEMBLE, reaches the middle of bit position k. -/
def State.assembleDue (s : State) (g : Seg) (k : Nat) : Option Nat :=
  match (s.lines.get g).rx with
  | .assemble edge _ => some (edge + (s.active g).middleOf k)
  | .off => none
  | .recover _ => none
  | .ready _ _ _ => none

/-- When a start bit may prove false: at its middle, before it has been taken as valid (R57). -/
def State.falseStartDue (s : State) (g : Seg) : Option Nat :=
  match (s.lines.get g).rx with
  | .assemble edge false => some (edge + (s.active g).middleOf 1)
  | .assemble _ true => none
  | .off => none
  | .recover _ => none
  | .ready _ _ _ => none

/-- The moment at which the receiver's verdict on the samples falls: the middle of the start bit, of the first stop bit or
of the last stop bit (R57, R59, R60); a start bit already taken as valid cannot prove false. -/
def State.characterDue (s : State) (g : Seg) (x : Samples) : Option Nat :=
  let r := s.active g
  match verdict r x with
  | .falseStart => s.falseStartDue g
  | .brk => s.assembleDue g r.firstStop
  | .char _ => s.assembleDue g r.charBits

/-- The receiver's verdict on a sampled character period acts (R57 to R60): the quiet time counts from the middle of the
last stop bit (R61). -/
def State.characterComplete (s : State) (g : Seg) (x : Samples) : State :=
  let r := s.active g
  match verdict r x with
  | .falseStart => s.falseStart g
  | .brk => s.breakFound g
  | .char c => (s.setRx g (.ready s.time (endsHigh r x) false)).deliverChar g c

/-- CHARACTER_COMPLETE. -/
def execCharacterComplete (g : Seg) (x : Samples) (s : State) : Host.Outcome State Fault Refusal :=
  s.takeEvent (s.characterDue g x) fun s => s.characterComplete g x

/-! ### BREAK, FALSE_START, FALLING_EDGE, RECOVER_END -/

/-- BREAK (R60, R85): recognised at the middle of the first stop bit. -/
def execBreakFound (g : Seg) (s : State) : Host.Outcome State Fault Refusal :=
  s.takeEvent (s.assembleDue g (s.active g).firstStop) fun s => s.breakFound g

/-- FALSE_START (R57). -/
def execFalseStart (g : Seg) (s : State) : Host.Outcome State Fault Refusal :=
  s.takeEvent (s.falseStartDue g) fun s => s.falseStart g

/-- A falling edge can be taken in READY only, at any moment (R57). -/
def State.fallingEdgeDue (s : State) (g : Seg) : Option Nat :=
  match (s.lines.get g).rx with
  | .ready _ _ _ => some s.time
  | .off => none
  | .recover _ => none
  | .assemble _ _ => none

/-- FALLING_EDGE (R57): ASSEMBLE, timed from this edge; the quiet time is zero (R61). -/
def execFallingEdge (g : Seg) (s : State) : Host.Outcome State Fault Refusal :=
  s.takeEvent (s.fallingEdgeDue g) fun s => s.setRx g (.assemble s.time false)

/-- The earliest moment at which RXD can have read high for one bit time in RECOVER (R56). -/
def State.recoverDue (s : State) (g : Seg) : Option Nat :=
  match (s.lines.get g).rx with
  | .recover since => some (since + (s.active g).bitTime)
  | .off => none
  | .ready _ _ _ => none
  | .assemble _ _ => none

/-- RECOVER_END (R56): READY; the quiet time counts from the end of the recovery (R61). -/
def execRecoverEnd (g : Seg) (s : State) : Host.Outcome State Fault Refusal :=
  s.takeEvent (s.recoverDue g) fun s => s.setRx g (.ready s.time true false)

/-! ### IDLE_GAP_EXPIRY (R61, R62, R83) -/

/-- When the quiet time of g reaches the idle gap, once per quiet period (R61). -/
def State.idleGapDue (s : State) (g : Seg) : Option Nat :=
  let r := s.active g
  match (s.lines.get g).rx with
  | .ready since _ false => some (since + r.idleGap.toNat * r.charTime)
  | .ready _ _ true => none
  | .off => none
  | .recover _ => none
  | .assemble _ _ => none

/-- The receiver after an idle-gap expiry has been taken (R61). -/
def LineUnit.expire (u : LineUnit) : LineUnit :=
  match u.rx with
  | .ready since high _ => { u with rx := .ready since high true }
  | _ => u

/-- An idle-gap expiry is taken (R61); with DE deasserted it is delivered and ends the frame in assembly (R62, R83). -/
def State.idleGap (s : State) (g : Seg) : State :=
  let r := s.active g
  let u := ((s.lines.get g).quietFor s.time (r.idleGap.toNat * r.charTime)).expire
  let s := s.setLine g u
  if u.de then s else s.endFrame g .idleGap

/-- IDLE_GAP_EXPIRY. -/
def execIdleGapExpiry (g : Seg) (s : State) : Host.Outcome State Fault Refusal :=
  s.takeEvent (s.idleGapDue g) fun s => s.idleGap g

end Sys2Proof.Machine
end

