-- ==== Sys2Proof/Machine/Timers.lean ====
section
/-!
DEFINITION. What the timers, the grant arbiter and the settings store take: the meanings of ARBITER_SCAN,
RESPONSE_TIMER_EXPIRY, AGING_TICK, SWEEP_VISIT, LEASE_EXPIRY and SETTINGS_APPLY.
-/

namespace Sys2Proof.Machine

/-! ### ARBITER_SCAN (R32) -/

/-- ARBITER_SCAN: one whole scan of the pending list; one that launches nothing changes nothing (R32, log 16). -/
def execArbiterScan (s : State) : Host.Outcome State Fault Refusal := s.takeEvent (some s.time) State.scan

/-! ### RESPONSE_TIMER_EXPIRY (R41) -/

/-- When the response timer of record r expires: at the deadline, in AWAITING only. -/
def State.responseTimerDue (s : State) (r : Fin Config.numTxns) : Option Nat :=
  match s.txn r with
  | none => none
  | some t => if t.state = .awaiting then t.deadline.map s.momentOf else none

/-- The response timer of record r expires. -/
def State.responseTimer (s : State) (r : Fin Config.numTxns) : State :=
  match s.txn r with
  | none => s
  | some t => s.timeOut r t

/-- RESPONSE_TIMER_EXPIRY. -/
def execResponseTimerExpiry (r : Fin Config.numTxns) (s : State) : Host.Outcome State Fault Refusal :=
  s.takeEvent (s.responseTimerDue r) fun s => s.responseTimer r

/-! ### AGING_TICK (R12, R13) -/

/-- When the aging interval timer ticks: its reference time plus the interval; never with interval 0 (R12). -/
def State.agingDue (s : State) : Option Nat :=
  if s.bridge.agingInterval = 0 then none
  else some (s.momentOf (s.table.agingRef + s.bridge.agingInterval.setWidth 32 * 1000))

/-- The tick is the new reference time (R12); it starts a sweep, or is skipped and counted while one is in flight (R13). -/
def State.agingTick (s : State) : State :=
  let ticked := { s with table := { s.table with agingRef := s.nowMs } }
  match s.table.sweep with
  | none => { ticked with table := { ticked.table with sweep := some ⟨s.nowMs, 0⟩ } }
  | some _ => ticked.countSweepSkipped.raise .sweepSkipped none none 0

/-- AGING_TICK. -/
def execAgingTick (s : State) : Host.Outcome State Fault Refusal := s.takeEvent s.agingDue State.agingTick

/-! ### SWEEP_VISIT (R14, R15) -/

/-- When the sweep in flight makes its next visit: entry k at its start plus 4 (k + 1) ms (R14). -/
def State.sweepDue (s : State) : Option Nat :=
  s.table.sweep.map fun w => s.momentOf (w.start + 4 * (w.cursor.setWidth 32 + 1))

/-- The visit deals with the entry the cursor names, and the cursor advances; the visit to 0xFF ends the sweep (R14). -/
def State.sweepVisit (s : State) : State :=
  match s.table.sweep with
  | none => s
  | some w =>
    let s := s.sweepEntry w.cursor
    { s with table := { s.table with sweep := if w.cursor = 0xFF then none else some { w with cursor := w.cursor + 1 } } }

/-- SWEEP_VISIT. -/
def execSweepVisit (s : State) : Host.Outcome State Fault Refusal := s.takeEvent s.sweepDue State.sweepVisit

/-! ### LEASE_EXPIRY (R161) -/

/-- When the lease expires. -/
def State.leaseDue (s : State) : Option Nat := s.lease.map fun l => s.momentOf l.expiry

/-- The holder is cleared and LeaseExpired raised. -/
def State.expireLease (s : State) : State :=
  match s.lease with
  | none => s
  | some l => ({ s with lease := none }).raise .leaseExpired (some l.holder) none 0

/-- LEASE_EXPIRY. -/
def execLeaseExpiry (s : State) : Host.Outcome State Fault Refusal := s.takeEvent s.leaseDue State.expireLease

/-! ### SETTINGS_APPLY (R158 to R160) -/

/-- Whether some segment has active role Upstream once the apply of g is taken (R158). -/
def State.upstreamAfter (s : State) (g : Seg) : Bool :=
  Seg.all.any fun u => (if u = g then s.settings.staged.get u else s.active u).role == .upstream

/-- The quiet point of g (R158). -/
def State.quietPoint (s : State) (g : Seg) : Bool :=
  s.settings.applyPending.has g && (s.holder g).isNone && s.receivers.get g == .hunt
    && (s.egress.get g).state == .quiet && (s.egress.get g).replyLane.isEmpty && (s.egress.get g).slot.isNone
    && s.upstreamAfter g

/-- When the apply of g is taken: at its quiet point. -/
def State.applyDue (s : State) (g : Seg) : Option Nat := if s.quietPoint g then some s.time else none

/-- The item in hand once the bulk lane is flushed (R124): a bulk copy goes with its lane. -/
def InHand.withoutBulk (h : InHand) : Option InHand :=
  match h.item with
  | .bulk _ => none
  | .slotNotice => some h
  | .sentNotice _ => some h
  | .reply _ => some h

/-- The bulk lane of g, the copy in hand with it, is flushed (R105, R124, R160). DESIGN CHOICE (log 15): oldest first. -/
def State.flushBulk (s : State) (g : Seg) : State :=
  let e := s.egress.get g
  e.bulkLane.foldl (fun s d => s.mapStore fun st => st.leave d g)
    (s.setEgress g { e with bulkLane := [], hand := e.hand.bind InHand.withoutBulk })

/-- Every Learned entry naming g is made Unassigned, with one BulkUnlearn (R21). -/
def State.unlearnSegment (s : State) (g : Seg) : State :=
  ({ s with table := s.table.unlearnSegment g }).raise .bulkUnlearn (some g) none
    (BitVec.ofNat 8 (s.table.learnedOn g))

/-- The consequences of a role change on g (R160). DESIGN CHOICE (log 29): a Local of g, queued or in execution, that an apply
from Downstream to Upstream finds stays live, as R130 and R134 have it, though R160 says that the segment begins with no live
transaction. -/
def State.changeRole (s : State) (g : Seg) (before after : Role) : State :=
  if before = after then s
  else
    match before with
    | .downstream => ((s.unlearnSegment g).pruneWaiting g).setLastTimedOut g none
    | .upstream => (s.abandonLive g).flushBulk g
    | .off => s

/-- The active record of g takes the staged one and the mark is cleared (R159, step 1). -/
def Settings.apply (t : Settings) (g : Seg) : Settings :=
  { t with active := t.active.set g (t.staged.get g), applyPending := t.applyPending.erase g }

/-- An apply that leaves the holder without access or with role Off drops its lease (R159, step 4). -/
def State.applyLease (s : State) (g : Seg) (after : SegRecord) : State :=
  if after.mgmtAccess = false ∨ after.role = .off then s.dropLeaseOf g 1 else s

/-- The apply of g, in the order of R159. -/
def State.applySettings (s : State) (g : Seg) : State :=
  let before := s.active g
  let after := s.settings.staged.get g
  let s := { s with settings := s.settings.apply g }
  let s := s.setLine g ((s.lines.get g).applied before after s.time)
  let s := s.changeRole g before.role after.role
  (s.applyLease g after).raise .segmentApplied (some g) none after.role.code

/-- SETTINGS_APPLY. -/
def execSettingsApply (g : Seg) (s : State) : Host.Outcome State Fault Refusal :=
  s.takeEvent (s.applyDue g) fun s => s.applySettings g

end Sys2Proof.Machine
end

