-- ==== Sys2Proof/Machine/Due.lean ====
section
/-!
DEFINITION. The events the bridge itself finds due: those its timers, schedulers and engines bring about with nothing heard
from outside. `step` puts them in the queue when it is empty (log 4, log 5).
-/

namespace Sys2Proof.Machine

/-- Whether an event's moment has come. -/
def State.reached (s : State) (due : Option Nat) : Bool :=
  match due with
  | some m => decide (m ≤ s.time)
  | none => false

/-- A command, where its event's moment has come. -/
def State.offer (s : State) (due : Option Nat) (c : Instr) : List Instr := if s.reached due then [c] else []

/-- Whether RXD of g is known to read high in READY (log 13): a quiet period is known to run. -/
def State.quietKnown (s : State) (g : Seg) : Bool :=
  match (s.lines.get g).rx with
  | .ready _ high _ => high
  | .off => false
  | .recover _ => false
  | .assemble _ _ => false

/-- The levels on the strap pins at an event the bridge finds due itself: a free value, for the pins are the board's and
nothing in State samples them before (R182, log 6). -/
def State.strapLevels (s : State) : Straps :=
  let v := Config.strapLevels s.freeChoice
  ⟨v.extractLsb' 0 3, v.getLsbD 3, v.extractLsb' 4 2⟩

/-- The events of g that are due. -/
def State.dueOn (s : State) (g : Seg) : List Instr :=
  (if s.quietKnown g then s.offer (s.idleGapDue g) (.idleGapExpiry g) ++ s.offer (s.takeLineDue g) (.takeLine g) else [])
    ++ s.offer (s.leadGuardDue g) (.leadGuardEnd g)
    ++ s.offer (s.characterSentDue g) (.characterSent g)
    ++ s.offer (s.echoDeadlineDue g) (.echoDeadline g)
    ++ s.offer (s.breakSentDue g) (.breakSent g)
    ++ s.offer (s.tailGuardDue g) (.tailGuardEnd g s.strapLevels)
    ++ s.offer (s.backoffDue g) (.backoffEnd g)
    ++ s.offer (s.applyDue g) (.settingsApply g)

/-- The row of a management command, one claim at a time where its reads are made so. -/
def MgmtCommand.row : MgmtCommand → Instr
  | .identify => .identify
  | .readStatus => .readStatus
  | .readStation => .readStation
  | .writeStation => .writeStation
  | .readStationRange => .readStationRange 1
  | .clearLearned => .clearLearned
  | .readSegment => .readSegment
  | .writeSegment => .writeSegment
  | .applySegment => .applySegment
  | .writeBridge => .writeBridge
  | .readBridge => .readBridge
  | .readCounters => .readCounters 1
  | .readClearCounters => .readClearCounters 1
  | .readEvents => .readEvents
  | .takeLease => .takeLease
  | .dropLease => .dropLease
  | .restart => .restart
  | .restartSegment => .restartSegment
  | .echo => .echo

/-- The row the management engine takes next: the work in execution, or the Local at the head of its queue (R130). -/
def State.dueManagement (s : State) : List Instr :=
  match s.mgmt.engine with
  | .busy _ (.walk _ _ _ _) => s.offer s.walkDue .walkVisit
  | .busy _ (.stations _ _ _) => [.readStationRange 1]
  | .busy _ (.counters clear _ _ _ _) => [if clear then .readClearCounters 1 else .readCounters 1]
  | .idle =>
    match s.headLocal with
    | none => []
    | some (_, t) =>
      match MgmtCommand.ofCode t.command with
      | some c => [c.row]
      | none => [.badCommand]

/-- A scan is due while it would launch something (R32, log 16). -/
def State.dueScan (s : State) : List Instr :=
  if s.scan.txns.waiting = s.txns.waiting then [] else [.arbiterScan]

/-- Every event the bridge itself finds due now; none while it is held (R163). -/
def State.dueCommands (s : State) : List Instr :=
  if s.held then []
  else
    Seg.all.flatMap s.dueOn
      ++ ascendingTxns.flatMap (fun r => s.offer (s.responseTimerDue r) (.responseTimerExpiry r))
      ++ s.offer s.agingDue .agingTick ++ s.offer s.sweepDue .sweepVisit ++ s.offer s.leaseDue .leaseExpiry
      ++ s.dueScan ++ s.dueManagement

/-- The block on an empty queue: one of the events due is put in the queue, which one among several being a free value
(log 5), and the free values move on; where none is due, one CLK period passes; while held, nothing happens. -/
def State.idle (s : State) : State :=
  if s.held then s
  else
    match s.dueCommands with
    | [] => { s with time := s.time + Config.unitsPerClk }
    | [c] => { s with pending := [c], freeChoice := s.freeChoice + 1 }
    | c :: d :: rest =>
      { s with
        pending := [(c :: d :: rest).getD (Config.eventChoice s.freeChoice % (rest.length + 2)) c]
        freeChoice := s.freeChoice + 1 }

end Sys2Proof.Machine
end

