-- ==== Sys2Proof/Machine/Dispatch.lean ====
section
/-!
DEFINITION. One command's effect: one arm per constructor of `Instr`, each one direct call of its meaning.
-/

namespace Sys2Proof.Machine

/-- The effect of a command on everything but the queue. -/
def exec (i : Instr) (s : State) : Host.Outcome State Fault Refusal :=
  match i with
  | .characterComplete g x => Sys2Proof.Machine.execCharacterComplete g x s
  | .breakFound g => Sys2Proof.Machine.execBreakFound g s
  | .falseStart g => Sys2Proof.Machine.execFalseStart g s
  | .startWhileDriving g => Sys2Proof.Machine.execStartWhileDriving g s
  | .recoverEnd g => Sys2Proof.Machine.execRecoverEnd g s
  | .idleGapExpiry g => Sys2Proof.Machine.execIdleGapExpiry g s
  | .arbiterScan => Sys2Proof.Machine.execArbiterScan s
  | .takeLine g => Sys2Proof.Machine.execTakeLine g s
  | .leadGuardEnd g => Sys2Proof.Machine.execLeadGuardEnd g s
  | .characterSent g => Sys2Proof.Machine.execCharacterSent g s
  | .echoDeadline g => Sys2Proof.Machine.execEchoDeadline g s
  | .breakSent g => Sys2Proof.Machine.execBreakSent g s
  | .tailGuardEnd g straps => Sys2Proof.Machine.execTailGuardEnd g straps s
  | .backoffEnd g => Sys2Proof.Machine.execBackoffEnd g s
  | .responseTimerExpiry r => Sys2Proof.Machine.execResponseTimerExpiry r s
  | .agingTick => Sys2Proof.Machine.execAgingTick s
  | .sweepVisit => Sys2Proof.Machine.execSweepVisit s
  | .walkVisit => Sys2Proof.Machine.execWalkVisit s
  | .leaseExpiry => Sys2Proof.Machine.execLeaseExpiry s
  | .settingsApply g => Sys2Proof.Machine.execSettingsApply g s
  | .identify => Sys2Proof.Machine.execIdentify s
  | .readStatus => Sys2Proof.Machine.execReadStatus s
  | .readStation => Sys2Proof.Machine.execReadStation s
  | .writeStation => Sys2Proof.Machine.execWriteStation s
  | .readStationRange claims => Sys2Proof.Machine.execReadStationRange claims s
  | .clearLearned => Sys2Proof.Machine.execClearLearned s
  | .readSegment => Sys2Proof.Machine.execReadSegment s
  | .writeSegment => Sys2Proof.Machine.execWriteSegment s
  | .applySegment => Sys2Proof.Machine.execApplySegment s
  | .writeBridge => Sys2Proof.Machine.execWriteBridge s
  | .readBridge => Sys2Proof.Machine.execReadBridge s
  | .readCounters claims => Sys2Proof.Machine.execReadCounters claims s
  | .readClearCounters claims => Sys2Proof.Machine.execReadClearCounters claims s
  | .readEvents => Sys2Proof.Machine.execReadEvents s
  | .takeLease => Sys2Proof.Machine.execTakeLease s
  | .dropLease => Sys2Proof.Machine.execDropLease s
  | .restart => Sys2Proof.Machine.execRestart s
  | .restartSegment => Sys2Proof.Machine.execRestartSegment s
  | .echo => Sys2Proof.Machine.execEcho s
  | .badCommand => Sys2Proof.Machine.execBadCommand s
  | .powerOnRestart cause => Sys2Proof.Machine.execPowerOnRestart cause s
  | .powerOnRestartEnd straps => Sys2Proof.Machine.execPowerOnRestartEnd straps s
  | .fallingEdge g => Sys2Proof.Machine.execFallingEdge g s

end Sys2Proof.Machine
end

