-- ==== Sys2Proof/Safety.lean ====
section
/-!
DEFINITION. What the statements are made of: the laws of the device the manual names, what it means that a request stands
ready for its command, and what an answered request leaves as it was. Nothing the machine does rests on this file.
-/

namespace Sys2Proof.Machine

/-! ### Laws of the device -/

/-- R172: the event queue holds at most 32 records. -/
def State.EventsBounded (s : State) : Prop := s.events.queue.length ≤ 32

/-- R72: a frame receiver is in BLIND exactly while its segment's DE is asserted. -/
def State.BlindWhileDriving (s : State) : Prop :=
  ∀ g, s.receivers.get g = .blind ↔ (s.lines.get g).de = true

/-- R3: the entries at 0x00 and at the own address are Unassigned. -/
def State.ReservedUnassigned (s : State) : Prop :=
  s.entry 0x00 = .unassigned ∧ s.entry s.bridge.own = .unassigned

/-- R2: a Learned entry's segment is Downstream, and a Static entry's segment set is not empty. R11: a Static entry that is
muted has missed. -/
def State.TableLaws (s : State) : Prop :=
  (∀ a g cls used age miss, s.entry a = .learned g cls used age miss → (s.active g).role = .downstream)
    ∧ ∀ a segs cls miss muted, s.entry a = .static segs cls miss muted → segs ≠ 0 ∧ (muted = true → miss ≠ 0)

/-- R75: a frame in assembly as a Response is on a segment whose role is Downstream. -/
def State.ResponsesDownstream (s : State) : Prop :=
  ∀ g f, (s.receivers.get g).frame = some f → f.cls = some .response → (s.active g).role = .downstream

/-- R162: while there is a lease holder, its segment's active record has management access on. -/
def State.LeaseLaw (s : State) : Prop :=
  ∀ l, s.lease = some l → (s.active l.holder).mgmtAccess = true

/-- R110: a reply lane holds at most 2 copies. -/
def State.ReplyLanesBounded (s : State) : Prop := ∀ g, (s.egress.get g).replyLane.length ≤ 2

/-- The chains of every descriptor that is not Free, one after the other. -/
def Store.chains (st : Store) : List (Fin Config.numCells) :=
  ascendingDescs.flatMap fun d => match st.desc d with
    | some x => x.chain
    | none => []

/-- R92, R95: each cell is in the free list or in the chain of exactly one descriptor, once; the free descriptor list holds
exactly the Free descriptors, each once. -/
def Store.Lawful (st : Store) : Prop :=
  (st.freeCells ++ st.chains).Perm ascendingCells ∧ st.freeDescs.Nodup
    ∧ ∀ d, d ∈ st.freeDescs ↔ st.desc d = none

/-- R4, R153, R155: every setting is in its range, and so is every own address that a copy or a cached reply carries; R158:
some segment is Upstream. -/
def State.SettingsLawful (s : State) : Prop :=
  (∀ g, (s.active g).wf = true ∧ (s.settings.staged.get g).wf = true) ∧ s.bridge.wf = true
    ∧ (∃ g, (s.active g).role = .upstream)
    ∧ (∀ g c x a, c ∈ (s.egress.get g).replyLane → c.armed = some x → x.effect = .ownAddress a →
        1 ≤ a.toNat ∧ a.toNat ≤ 0xFE)
    ∧ ∀ g c a, s.mgmt.caches.get g = some c → c.deferred = some (.ownAddress a) → 1 ≤ a.toNat ∧ a.toNat ≤ 0xFE

/-! ### Laws of the transactions (R23 to R38, R71) -/

/-- What a record holds in each state (R23, R33, R36 to R38): windows are open only while no outcome is fixed; copies are
out and windows open only from the launch on; a Local is never launched, and only a Poll awaits or receives. -/
def Txn.Lawful (t : Txn) : Prop :=
  (t.outcome ≠ none → t.windows = 0)
    ∧ match t.state with
      | .forming => t.copies = 0 ∧ t.windows = 0 ∧ t.outcome = none
      | .pending => t.kind ≠ .loc ∧ t.copies = 0 ∧ t.windows = 0 ∧ t.outcome = none
      | .executing => t.kind = .loc ∧ t.copies = 0 ∧ t.windows = 0 ∧ t.outcome = none
      | .sending => t.kind ≠ .loc ∧ (t.kind = .broadcast → t.windows = 0)
      | .awaiting => t.kind = .poll ∧ t.copies = 0 ∧ t.outcome = none
      | .receiving => t.kind = .poll ∧ t.windows = 0

/-- Whether t still needs segment g (R31): a copy is out there, its window is open there, or its response is coming in
there. -/
def Txn.Needs (t : Txn) (g : Seg) : Prop :=
  t.copies.has g = true ∨ t.windows.has g = true ∨ t.state = .receiving ∧ t.outcome = none ∧ t.responseSeg = some g

/-- R30: the pending list holds exactly the PENDING transactions, each once. -/
def State.WaitingLaw (s : State) : Prop :=
  s.txns.waiting.Nodup ∧ ∀ r, r ∈ s.txns.waiting ↔ ∃ t, s.txn r = some t ∧ t.state = .pending

/-- R31, R33: a grant holder is a carried transaction, a Poll or a Broadcast, whose egress set has the segment, and which still
needs it. -/
def State.HolderLaw (s : State) : Prop :=
  ∀ g r, s.holder g = some r → ∃ t, s.txn r = some t ∧ t.kind ≠ .loc ∧ t.egress.has g = true ∧ t.Needs g

/-- R27: a segment is the origin of at most one live transaction. -/
def State.OneLivePerOrigin (s : State) : Prop :=
  ∀ r q t w, s.txn r = some t → s.txn q = some w → t.live = true → w.live = true → t.origin = w.origin → r = q

/-- R71, R38: the record a frame in assembly has reserved is FORMING, of its segment, and a Local exactly for a Management
frame; the transaction a Response belongs to is receiving it there; no other frame has a transaction. -/
def State.FrameLaw (s : State) : Prop :=
  ∀ g f r, (s.receivers.get g).frame = some f →
    (f.formingRecord = some r → ∃ t, s.txn r = some t ∧ t.state = .forming ∧ t.origin = g
      ∧ (t.kind = .loc ↔ f.cls = some .management))
    ∧ (f.cls = some .response → f.txn = some r → ∃ t, s.txn r = some t ∧ t.state = .receiving ∧ t.outcome = none
      ∧ t.responseSeg = some g)
    ∧ (f.txn = some r → f.formingRecord = some r ∨ f.cls = some .response)

/-- Whether Local r is the one in execution (R130). -/
def State.Executing (s : State) (r : Fin Config.numTxns) : Prop := ∃ w, s.mgmt.engine = .busy r w

/-- R130: the management queue and the execution together hold exactly the EXECUTING transactions, each once. -/
def State.QueueLaw (s : State) : Prop :=
  s.mgmt.queue.Nodup ∧ (∀ r, s.Executing r → r ∉ s.mgmt.queue)
    ∧ ∀ r, (r ∈ s.mgmt.queue ∨ s.Executing r) ↔ ∃ t, s.txn r = some t ∧ t.state = .executing

/-- The laws of the transaction engine. -/
def State.TransactionLaws (s : State) : Prop :=
  (∀ r t, s.txn r = some t → t.Lawful) ∧ s.WaitingLaw ∧ s.HolderLaw ∧ s.OneLivePerOrigin ∧ s.FrameLaw ∧ s.QueueLaw

/-! ### Laws of the lanes and descriptors (R97 to R99, R108) -/

/-- The descriptors with a copy in a lane of g. -/
def Egress.copies (e : Egress) : List (Fin Config.numDescs) := e.replyLane.map ReplyCopy.desc ++ e.bulkLane

/-- R98, R108, R112: a descriptor has a copy in a lane of g, and then one, exactly when g is in its pending egress set; a copy
in hand is in its lane. -/
def State.CopiesLaw (s : State) : Prop :=
  (∀ g, (s.egress.get g).copies.Nodup)
    ∧ (∀ g d, d ∈ (s.egress.get g).copies ↔ ∃ x, s.store.desc d = some x ∧ x.pendingEgress.has g = true)
    ∧ ∀ g h d, (s.egress.get g).hand = some h →
        (h.item = .reply d → d ∈ (s.egress.get g).replyLane.map ReplyCopy.desc)
        ∧ (h.item = .bulk d → d ∈ (s.egress.get g).bulkLane)

/-- R97, R99: a Filling descriptor is on no lane; the descriptor of a frame in assembly is Filling, of that segment and that
frame's transaction, and the one its FORMING record names; a transaction not yet launched or executed has its request's
descriptor for itself, Ready from the frame's end on. -/
def State.RequestLaw (s : State) : Prop :=
  (∀ d x, s.store.desc d = some x → x.state = .filling → x.pendingEgress = 0)
    ∧ (∀ g f d, (s.receivers.get g).frame = some f → f.desc = some d →
        (∃ x, s.store.desc d = some x ∧ x.state = .filling ∧ x.ingress = some g ∧ x.txn = f.txn)
        ∧ ∀ r t, f.formingRecord = some r → s.txn r = some t → t.reqDesc = some d)
    ∧ ∀ r t d, s.txn r = some t → t.reqDesc = some d →
        (t.state = .forming → ∃ x, s.store.desc d = some x ∧ x.state = .filling ∧ x.txn = some r)
        ∧ (t.state = .pending ∨ t.state = .executing →
          ∃ x, s.store.desc d = some x ∧ x.state = .ready ∧ x.txn = some r ∧ x.pendingEgress = 0)

/-- The laws of the lanes. -/
def State.LaneLaws (s : State) : Prop := s.CopiesLaw ∧ s.RequestLaw

/-! ### What no statement's command touches -/

/-- The pins, the queue of commands and the count of free values are as they were. -/
def State.SamePins (s u : State) : Prop :=
  u.rstN = s.rstN ∧ u.supplyHold = s.supplyHold ∧ u.straps = s.straps ∧ u.freeChoice = s.freeChoice
    ∧ u.pending = s.pending

/-- k is c with the counters of g in `raised` raised by 1; the other counters of the 58 are as they were. -/
def Counters.RaisedTo (c k : Counters) (g : Seg) (raised : List SegCounter) : Prop :=
  (∀ i, k.read g i.index = if i ∈ raised then saturatingSucc (c.read g i.index) else c.read g i.index)
    ∧ (∀ h i, h ≠ g → k.read h i = c.read h i) ∧ k.noticesLost = c.noticesLost ∧ k.sweepsSkipped = c.sweepsSkipped

/-- The segment counters of `raised` are raised by 1; the other counters of the 58 are as they were. -/
def State.OnlyCounted (s u : State) (g : Seg) (raised : List SegCounter) : Prop :=
  s.counters.RaisedTo u.counters g raised

/-- What a supersede (R27) or a break (R48) does to the live transaction of origin g: record l, where there is one, comes to
hold `after`, Abandoned is raised by `lost`, and descriptor e, where there is one, gives up its transaction. One that waits
is cancelled; any other is superseded, and counted while its outcome is open. -/
def State.LiveGone (s : State) (g : Seg) (l : Option (Fin Config.numTxns)) (after : Option Txn) (lost : Nat)
    (e : Option (Fin Config.numDescs)) : Prop :=
  (s.liveOf g = none ∧ l = none ∧ after = none ∧ lost = 0 ∧ e = none)
    ∨ ∃ r t, s.liveOf g = some r ∧ s.txn r = some t ∧ l = some r
      ∧ (t.state ≠ .pending ∧ after = some { t with superseded := true } ∧ lost = (if t.outcome = none then 1 else 0)
          ∧ e = none
        ∨ t.state = .pending ∧ t.outcome = none ∧ t.copies = 0 ∧ after = none ∧ lost = 1 ∧ e = t.reqDesc)

/-- What is left in hand when what waits at the origin has gone (R27, R48, R109, R112): an unsent notice and a reply not
started go, and where `back` holds a bulk copy is set back. -/
def Egress.handLeft (e : Egress) (back : Bool) : Option InHand :=
  match e.hand with
  | some ⟨.slotNotice, _, _⟩ => none
  | some ⟨.reply _, false, _⟩ => none
  | some ⟨.bulk d, started, n⟩ => if back then none else some ⟨.bulk d, started, n⟩
  | some ⟨.reply d, true, n⟩ => some ⟨.reply d, true, n⟩
  | some ⟨.sentNotice x, started, n⟩ => some ⟨.sentNotice x, started, n⟩
  | none => none

/-- What a supersede or a break leaves of the scheduler of g (R27, R48): every reply not started has left the lane, the slot
is empty; the pending own address stands only while an armed copy is in a lane (R135). -/
def State.OriginCleared (s u : State) (g : Seg) (back : Bool) : Prop :=
  (u.egress = s.egress.set g { s.egress.get g with
      replyLane := (s.egress.get g).replyLane.filter fun c => (s.egress.get g).startedReply == some c.desc
      slot := none
      hand := (s.egress.get g).handLeft back })
    ∧ u.mgmt.pendingOwn = if u.ownArmed then s.mgmt.pendingOwn else none

/-! ### A character or a silence heard (R59, R61, R74, R75, R82) -/

/-- The bridge is not held, and the receiver of g, in the middle of a character that began at `edge`, reads x as c. -/
def State.Hears (s : State) (g : Seg) (edge : Nat) (taken : Bool) (x : Samples) (c : RxChar) : Prop :=
  s.held = false ∧ (s.lines.get g).rx = .assemble edge taken ∧ verdict (s.active g) x = .char c

/-- s with the character read: it is the middle of the last stop bit, unless later already (log 3), and the receiver is in
READY (R59, R61). -/
def State.heard (s : State) (g : Seg) (edge : Nat) (x : Samples) : State :=
  let now := max s.time (edge + (s.active g).middleOf (s.active g).charBits)
  { s with time := now, lines := s.lines.set g { s.lines.get g with rx := .ready now (endsHigh (s.active g) x) false } }

/-- The error counters a character raises outside BLIND (R82). -/
def RxChar.counted (c : RxChar) : List SegCounter :=
  (if c.parityErr || c.framingErr then [.charErrors] else []) ++ if c.noise then [.noiseChars] else []

/-- R74, R75: an address character of value v on g begins a frame of class cls for which a record is reserved, of kind,
with egress set m and timeout class tc. -/
def State.Opens (s : State) (g : Seg) (v : Byte) (cls : FrameClass) (kind : TxnKind) (m : SegSet)
    (tc : Option TimeoutClass) : Prop :=
  ((s.active g).role = .upstream ∧ v ≠ s.bridge.own
      ∧ (v ≠ 0 ∧ cls = .request ∧ kind = .poll ∧ (∃ k, tc = some k ∧ s.route v = .carry m k)
        ∨ v = 0 ∧ cls = .broadcast ∧ kind = .broadcast ∧ m = s.downstream ∧ m ≠ 0 ∧ tc = none))
    ∨ (((s.active g).role = .upstream ∨ (s.active g).role = .downstream ∧ s.windowOn g = none)
      ∧ v = s.bridge.own ∧ (s.active g).mgmtAccess = true ∧ cls = .management ∧ kind = .loc ∧ m = 0 ∧ tc = none)

/-- The bridge is not held, and the receiver of g, its DE deasserted, has heard RXD high since a moment, with the idle-gap
expiry of this quiet period still to come. -/
def State.Silent (s : State) (g : Seg) (since : Nat) : Prop :=
  s.held = false ∧ (s.lines.get g).rx = .ready since true false ∧ (s.lines.get g).de = false

/-- s with the idle-gap expiry taken (R61; log 3), before the frame receiver has dealt with it. -/
def State.gapTaken (s : State) (g : Seg) (since : Nat) : State :=
  { s with
    time := max s.time (since + (s.active g).idleGap.toNat * (s.active g).charTime)
    lines := s.lines.set g { s.lines.get g with rx := .ready since true true } }

/-! ### Frames ended, copies sent and transactions launched (R27, R31, R121) -/

/-- The frame of g has ended at the idle gap, and nothing but transactions, lanes, the store, the counters and the pending own
address may have followed. -/
def State.OnlyServed (s u : State) (g : Seg) (since : Nat) : Prop :=
  u.time = (s.gapTaken g since).time ∧ u.lines = (s.gapTaken g since).lines ∧ u.receivers = s.receivers.set g .hunt
    ∧ u.txns.holders = s.txns.holders ∧ u.txns.lastTimedOut = s.txns.lastTimedOut ∧ u.mgmt.engine = s.mgmt.engine
    ∧ u.mgmt.caches = s.mgmt.caches ∧ u.mgmt.buffer = s.mgmt.buffer ∧ u.settings = s.settings ∧ u.table = s.table
    ∧ u.lease = s.lease ∧ u.events = s.events ∧ s.SamePins u

/-- g is free (R31). -/
def State.Free (s : State) (g : Seg) : Prop :=
  (s.active g).role = .downstream ∧ s.holder g = none ∧ s.settings.applyPending.has g = false
    ∧ (s.egress.get g).replyLane = [] ∧ (s.egress.get g).slot = none

/-- t once launched (R33). -/
def Txn.launched (t : Txn) : Txn := { t with state := .sending, copies := t.egress }

/-- t once bypassed with a limit in force (R34). -/
def Txn.passedBy (t : Txn) (limit : BitVec 3) : Txn :=
  { t with
    bypass := BitVec.ofNat 3 (min 7 (t.bypass.toNat + 1))
    guarded := t.guarded || decide (limit.toNat ≤ min 7 (t.bypass.toNat + 1)) }

/-- The scheduler of g in BACKOFF from now on with nothing in hand, collision found clear (log 28). -/
def State.givenUp (s : State) (g : Seg) : Egress :=
  { s.egress.get g with state := .backoff s.time, hand := none, echoes := [], collision := false }

/-- The events once an item for station a has ended Collision on g after n attempts (R121). -/
def State.collisionRaised (s : State) (g : Seg) (a : Byte) (n : Nat) : EventUnit :=
  s.events.raise s.bridge.eventMask s.nowMs .collision (some g) (some a) (BitVec.ofNat 8 n)

/-- u is s after the send of item i on g has ended Collision, with n attempts made (R121, R36): the scheduler is in BACKOFF, the
event Collision raised. A notice is lost and counted; a copy leaves its lane and its descriptor. A request copy still being
sent is out no more and its segment released; where it was the last, a poll with a window open awaits its response, one
without closes Collision with its notice, and a broadcast closes Complete if some copy of it was sent. The pending own
address stands only while an armed copy is in a lane. -/
def State.SendLost (s u : State) (g : Seg) (i : Item) (n : Nat) : Prop :=
  let e := s.givenUp g
  (∀ x, i = .slotNotice ∧ e.slot = some x ∨ i = .sentNotice x →
      u.egress = s.egress.set g { e with slot := if i = .slotNotice then none else e.slot }
        ∧ u.counters = { s.counters with noticesLost := saturatingSucc s.counters.noticesLost }
        ∧ u.events = s.collisionRaised g x.station n ∧ u.store = s.store ∧ u.txns = s.txns)
    ∧ (∀ d y, i = .reply d → s.store.desc d = some y →
      u.egress = s.egress.set g { e with replyLane := e.replyLane.filter fun c => c.desc != d }
        ∧ u.counters = s.counters ∧ u.events = s.collisionRaised g y.station n ∧ u.store = s.store.leave d g
        ∧ u.txns = s.txns)
    ∧ (∀ d y, i = .bulk d → s.store.desc d = some y →
      u.events = s.collisionRaised g y.station n ∧ u.store = s.store.leave d g
        ∧ (y.cls ≠ .request → y.cls ≠ .broadcast →
          u.egress = s.egress.set g { e with bulkLane := e.bulkLane.filter fun q => q != d }
            ∧ u.counters = s.counters ∧ u.txns = s.txns)
        ∧ (y.cls = .request ∨ y.cls = .broadcast → ∀ r t, s.holder g = some r → s.txn r = some t → t.outcome = none →
          t.state = .sending → t.origin ≠ g →
          u.egress.get g = { e with bulkLane := e.bulkLane.filter fun q => q != d } ∧ u.holder g = none
            ∧ (∀ h, h ≠ g → u.holder h = s.holder h) ∧ (∀ q, q ≠ r → u.txn q = s.txn q)
            ∧ u.txns.lastTimedOut = s.txns.lastTimedOut
            ∧ (t.copies.erase g ≠ 0 → u.txn r = some { t with copies := t.copies.erase g }
              ∧ u.txns.waiting = s.txns.waiting ∧ u.counters = s.counters ∧ ∀ h, h ≠ g → u.egress.get h = s.egress.get h)
            ∧ (t.copies.erase g = 0 → t.kind = .poll → t.windows ≠ 0 → (∀ c, t.cls = some c →
                u.txn r = some { t with
                  copies := 0, reqDesc := none, state := .awaiting
                  deadline := some (s.nowMs + (s.bridge.timeouts.get c).setWidth 32) })
              ∧ u.txns.waiting = s.txns.waiting ∧ u.counters = s.counters ∧ ∀ h, h ≠ g → u.egress.get h = s.egress.get h)
            ∧ (t.copies.erase g = 0 → t.kind = .poll ∧ t.windows = 0 ∨ t.kind = .broadcast →
              u.txn r = none ∧ u.txns.waiting = (s.txns.waiting.filter fun q => q != r)
                ∧ ∀ v, v = (if t.superseded = true ∨ t.kind = .broadcast ∧ t.copyOk = true then s
                  else s.notify t.origin .collision t.station) →
                  u.counters = v.counters ∧ ∀ h, h ≠ g → u.egress.get h = v.egress.get h)))
    ∧ u.mgmt = { s.mgmt with pendingOwn := if u.ownArmed then s.mgmt.pendingOwn else none }
    ∧ u.time = s.time ∧ u.lines = s.lines ∧ u.receivers = s.receivers ∧ u.settings = s.settings ∧ u.table = s.table
    ∧ u.lease = s.lease ∧ s.SamePins u

/-! ### A frame that does not end intact (R29, R42, R44, R86, R89) -/

/-- The store with the descriptor d, where there is one, and its chain gone back to the tails of the free lists (R86, R94,
R100). -/
def Store.without (st : Store) (d : Option (Fin Config.numDescs)) : Store :=
  match d with
  | none => st
  | some d =>
    match st.desc d with
    | none => st
    | some x =>
      { st.putDesc d none with freeCells := st.freeCells ++ x.chain, freeDescs := st.freeDescs ++ [d] }

/-- The notice placed on g where n is called for: none while the segment's notices are off (R43, R44, R89). -/
def State.called (s : State) (g : Seg) (n : Option Notice) : Option Notice :=
  if (s.active g).notices then n else none

/-- s with notice n, where there is one, in the slot of g (R43, R109): an unsent notice there is lost and counted, and where
that one was in hand the new one is, with no attempt made. -/
def State.told (s : State) (g : Seg) (n : Option Notice) : State :=
  let e := s.egress.get g
  match n with
  | none => s
  | some x =>
    { s with
      egress := s.egress.set g { e with
        slot := some x
        hand := if e.slot.isSome = true ∧ e.hand.map InHand.item = some .slotNotice then some ⟨.slotNotice, false, 0⟩
          else e.hand }
      counters := if e.slot.isSome = true then { s.counters with noticesLost := saturatingSucc s.counters.noticesLost }
        else s.counters }

/-- s with record r free (R24, R30). -/
def State.recordFreed (s : State) (r : Fin Config.numTxns) : State :=
  { s with txns := { (s.putTxn r none).txns with waiting := s.txns.waiting.filter fun q => q != r } }

/-- s with the open transaction t of record r closed with outcome o, which calls for a notice of code c while t is not
superseded (R37, R43): the record is free, unless copies are out. -/
def State.closed (s : State) (r : Fin Config.numTxns) (t : Txn) (o : TxnOutcome) (c : NoticeCode) : State :=
  State.told (if t.copies = 0 then s.recordFreed r else s.putTxn r (some { t with outcome := some o })) t.origin
    (if t.superseded then none else s.called t.origin (some ⟨c, t.station⟩))

/-- The notice of an intent (R44, R89). -/
def NoticeIntent.notice (i : NoticeIntent) (station : Byte) : Notice :=
  match i with
  | .noRoute => ⟨.noRoute, station⟩
  | .busy => ⟨.busy, station⟩
  | .damaged => ⟨.damaged, station⟩

/-- How frame f of g ends where it does not end intact (R86), cut by a break or not: the counter raised besides
FramesReceived, and for a Response the outcome and the notice of its transaction (R42). -/
def State.EndsAs (s : State) (g : Seg) (cut : Bool) (f : Frame) (raised : List SegCounter) (o : TxnOutcome)
    (c : NoticeCode) : Prop :=
  (raised = [.damaged] ∧ o = .damaged ∧ c = .damaged
      ∧ (cut = true ∧ (s.receivers.get g = .store f ∨ ∃ why, s.receivers.get g = .skip why f)
        ∨ cut = false ∧ (s.receivers.get g = .skip .oversize f
          ∨ s.receivers.get g = .store f ∧ ∃ d x, f.desc = some d ∧ s.store.desc d = some x ∧ x.error = true)))
    ∨ (raised = [.noBuffer] ∧ o = .noBuffer ∧ c = .busy ∧ cut = false ∧ s.receivers.get g = .skip .truncated f)
    ∨ (raised = [] ∧ o = .noBuffer ∧ c = .busy ∧ cut = false ∧ f.desc = none
      ∧ ∃ why, s.receivers.get g = .skip why f ∧ why ≠ .truncated ∧ why ≠ .oversize
        ∧ (f.txn = none ∨ why = .noBuffer))

/-- u is s once the frame in assembly of g has ended, not intact (R29, R42, R44, R85, R86, R89): the frame receiver is in
HUNT, the descriptor is released, and the counters are raised. A reserved record is free; a frame with no transaction
leaves none; in both the frame's intent is placed as a notice, but after a break. The transaction of a Response closes, with
its notice, and its segment is released. -/
def State.FrameEnds (s u : State) (g : Seg) (cut : Bool) : Prop :=
  ∃ f raised o c k, s.EndsAs g cut f raised o c ∧ s.counters.RaisedTo k g (.framesReceived :: raised)
    ∧ ∀ n v, n = (if cut then none else s.called g (f.intent.map fun i => i.notice f.station)) →
      v = { s with receivers := s.receivers.set g .hunt, store := s.store.without f.desc, counters := k } →
      (∃ r, (f.cls = some .request ∨ f.cls = some .broadcast ∨ f.cls = some .management) ∧ f.txn = some r
          ∧ u = (v.recordFreed r).told g n)
        ∨ (f.txn = none ∧ u = v.told g n)
        ∨ ∃ r t, f.cls = some .response ∧ f.txn = some r ∧ f.intent = none ∧ s.txn r = some t ∧ t.outcome = none
          ∧ u = State.closed { v with txns := { s.txns with holders := s.txns.holders.set g none } } r t o c

/-! ### What a walk over counters reads and zeroes (R145) -/

/-- v is c with the n counters of a code from an index on set to 0, and no other (R145, R176): of a segment for the codes 0 to 3,
NoticesLost and SweepsSkipped for 4. -/
def Counters.Zeroed (c v : Counters) (code first n : Nat) : Prop :=
  (∀ g (i : Fin 14), v.read g i = if g.num = code ∧ first ≤ i.val ∧ i.val < first + n then 0 else c.read g i)
    ∧ v.noticesLost = (if code = 4 ∧ first = 0 ∧ 1 ≤ n then 0 else c.noticesLost)
    ∧ v.sweepsSkipped = (if code = 4 ∧ first ≤ 1 ∧ 1 < first + n then 0 else c.sweepsSkipped)

/-- Counter i of a code, which has `last` counters (R176). -/
def Counters.Holds (c : Counters) (code last : Nat) (val : Nat → Word32) : Prop :=
  (∃ g : Seg, code = g.num ∧ last = 14 ∧ ∀ i, val i = c.read g (Fin.ofNat 14 i))
    ∨ code = 4 ∧ last = 2 ∧ ∀ i, val i = if i = 0 then c.noticesLost else c.sweepsSkipped

/-! ### A request ready for its command (R130, R131) -/

/-- The bridge is not held, the management engine is IDLE, and record r, holding Local t, is at the head of its queue. -/
def State.AtHead (s : State) (r : Fin Config.numTxns) (t : Txn) : Prop :=
  s.held = false ∧ s.mgmt.engine = .idle ∧ s.mgmt.queue.head? = some r ∧ s.txn r = some t

/-- The row that takes a Local of a command, or of a code that is no command's (R131); `claims` is the operand of the three
rows that read claim by claim. -/
def takingRow (c : Option MgmtCommand) (claims : Nat) : Instr :=
  match c with
  | none => .badCommand
  | some .identify => .identify
  | some .readStatus => .readStatus
  | some .readStation => .readStation
  | some .writeStation => .writeStation
  | some .readStationRange => .readStationRange claims
  | some .clearLearned => .clearLearned
  | some .readSegment => .readSegment
  | some .writeSegment => .writeSegment
  | some .applySegment => .applySegment
  | some .writeBridge => .writeBridge
  | some .readBridge => .readBridge
  | some .readCounters => .readCounters claims
  | some .readClearCounters => .readClearCounters claims
  | some .readEvents => .readEvents
  | some .takeLease => .takeLease
  | some .dropLease => .dropLease
  | some .restart => .restart
  | some .restartSegment => .restartSegment
  | some .echo => .echo

/-- The Local t at the head passes steps 1 and 2 of R131 and is not answered from the cache at step 3. -/
def State.Fresh (s : State) (r : Fin Config.numTxns) (t : Txn) : Prop :=
  s.AtHead r t ∧ 4 ≤ (s.requestOf t).length ∧ wellChecked (s.requestOf t) = true ∧ s.cacheMatch t = none

/-- The Local t at the head passes steps 1 to 6 of R131 for command c, with arguments args. -/
def State.Carries (s : State) (r : Fin Config.numTxns) (t : Txn) (c : MgmtCommand) (args : List Byte) : Prop :=
  s.Fresh r t ∧ MgmtCommand.ofCode t.command = some c ∧ argsOf (s.requestOf t) = args
    ∧ c.argCountOk args.length = true ∧ s.leaseRefusal t.origin c = none

/-! ### What an answered request leaves as it was (R134) -/

/-- The store once Local t's request descriptor has given up its transaction (R99, R134). -/
def State.storeWithout (s : State) (t : Txn) : Store :=
  match t.reqDesc with
  | some q => s.store.dropTxn q
  | none => s.store

/-- What becomes of a reply (R99, R103, R110, R134): the request's descriptor gives up its transaction. Where Local t is
superseded or its origin Off, that is all; where the store cannot hold the reply, NoBuffer is raised besides; else the
descriptor taken joins the reply lane of the origin with `armed` on it, or, the lane being full, is released with NoBuffer
raised. No other descriptor, cell, lane or counter is touched. -/
def State.ReplyPlaced (s u : State) (t : Txn) (reply : List Byte) (armed : Option Armed) : Prop :=
  let g := t.origin
  let e := s.egress.get g
  let st := s.storeWithout t
  let refused := s.counters.write g 6 (saturatingSucc (s.counters.read g 6))
  (t.superseded = true ∨ (s.active g).role = .off → u.store = st ∧ u.egress = s.egress ∧ u.counters = s.counters)
    ∧ (t.superseded = false → (s.active g).role ≠ .off →
      (st.allocReply reply = none → u.store = st ∧ u.egress = s.egress ∧ u.counters = refused)
      ∧ ∀ d st', st.allocReply reply = some (d, st') →
        (e.replyLane.length < 2 →
          u.store = st'.modify d (fun x => { x with pendingEgress := x.pendingEgress.insert g })
            ∧ u.egress = s.egress.set g { e with replyLane := e.replyLane ++ [⟨d, armed⟩] } ∧ u.counters = s.counters)
        ∧ (2 ≤ e.replyLane.length →
          u.store = st'.releaseIfDone d ∧ u.egress = s.egress ∧ u.counters = refused))

/-- u is s after Local t in record r has been answered: the engine is IDLE, r is free, the reply has been placed; the pending
own address stands only while an armed copy is in a lane. The reply cache of the origin apart, everything else is as in
s. -/
def State.OnlyReplied (s u : State) (r : Fin Config.numTxns) (t : Txn) (reply : List Byte) (armed : Option Armed) : Prop :=
  u.mgmt.engine = .idle ∧ u.mgmt.buffer = [] ∧ u.mgmt.queue = s.mgmt.queue
    ∧ u.mgmt.pendingOwn = (if u.ownArmed then s.mgmt.pendingOwn else none)
    ∧ (∀ h, h ≠ t.origin → u.mgmt.caches.get h = s.mgmt.caches.get h)
    ∧ u.txn r = none ∧ (∀ q, q ≠ r → u.txn q = s.txn q)
    ∧ u.txns.waiting = (s.txns.waiting.filter fun q => q != r) ∧ u.txns.holders = s.txns.holders
    ∧ u.txns.lastTimedOut = s.txns.lastTimedOut ∧ s.ReplyPlaced u t reply armed
    ∧ u.time = s.time ∧ u.settings = s.settings ∧ u.lease = s.lease ∧ u.table = s.table ∧ u.lines = s.lines
    ∧ u.receivers = s.receivers ∧ u.events = s.events ∧ s.SamePins u

/-- u is s after Local t in record r has been answered with a reply that is cached: the origin's entry holds the reply built
with the own address in effect (R129, R133), and the rest is as `OnlyReplied` says. -/
def State.Answered (s u : State) (r : Fin Config.numTxns) (t : Txn) (st : Status) (results : List Byte)
    (deferred : Option Deferred) : Prop :=
  u.mgmt.caches.get t.origin = some
      ⟨t.command, t.sequence, replyFrame s.bridge.own t.command t.sequence st results, deferred⟩
    ∧ s.OnlyReplied u r t (replyFrame s.bridge.own t.command t.sequence st results)
      (deferred.map fun e => ⟨e, t.command, t.sequence⟩)

/-- Where a copy has joined the reply lane of g between s and u, its descriptor holds the characters of `reply`. -/
def State.Sends (s u : State) (g : Seg) (reply : List Byte) : Prop :=
  ∀ d x, (u.egress.get g).replyLane = (s.egress.get g).replyLane ++ [⟨d, x⟩] → u.store.values d = reply

end Sys2Proof.Machine
end

