-- ==== Sys2Proof/Certificates/Slice0/Obligations.lean ====
section
/-!
DEFINITION. The statements for the provers. Each names the rules it rests on; where one rests on a choice of the model, its
docstring names the log entry.
-/

section

open Sys2Proof Sys2Proof.Machine

/-! ### Steps -/

/-- The front of the queue is executed with the queue's rest (log 1). -/
def Obligations.StepTakesTheFront : Prop :=
  ∀ (c : Instr) (rest : List Instr) (s : State),
    step { s with pending := c :: rest } = exec c { s with pending := rest }

/-- On an empty queue: a held bridge stays as it is; with nothing due one CLK period passes; with one event due that event
joins the queue; with several, one of them does; in both the free values move on (log 4, log 5, log 6). -/
def Obligations.EmptyQueueLetsTimePass : Prop :=
  ∀ s : State, s.pending = [] →
    (s.held = true → step s = .next s)
      ∧ (s.held = false → s.dueCommands = [] → step s = .next { s with time := s.time + 5 })
      ∧ (s.held = false → ∀ c, s.dueCommands = [c] →
          step s = .next { s with pending := [c], freeChoice := s.freeChoice + 1 })
      ∧ (s.held = false → 2 ≤ s.dueCommands.length → ∃ c, c ∈ s.dueCommands
          ∧ step s = .next { s with pending := [c], freeChoice := s.freeChoice + 1 })

/-- R163, R183: POWER_ON_RESTART holds the bridge, with every output at rest and nothing of its traffic left; and a held bridge
takes no event, whatever it is, but those of the restart itself. That the table, the sweep, the lease, the caches, the marks,
the events and all 58 counters are cleared while the bridge is still held, and not only when the restart ends, is the
model's choice (log 8). -/
def Obligations.PowerOnRestartHolds : Prop :=
  (∀ (c : Instr) (s : State), s.held = true → (∀ k, c ≠ .powerOnRestart k) → (∀ x, c ≠ .powerOnRestartEnd x) →
      exec c s = .next s)
  ∧ (∀ (k : HoldCause) (s : State), ∃ u, exec (.powerOnRestart k) s = .next u ∧ u.held = true
      ∧ (∀ g, (u.lines.get g).de = false ∧ u.txd g = true ∧ u.receivers.get g = .hunt ∧ u.egress.get g = Egress.empty)
      ∧ u.attention = false ∧ u.events.queue = [] ∧ (∀ r, u.txn r = none) ∧ u.txns.waiting = []
      ∧ (∀ g, u.holder g = none ∧ u.mgmt.caches.get g = none)
      ∧ u.mgmt.queue = [] ∧ u.mgmt.engine = .idle ∧ u.mgmt.pendingOwn = none ∧ u.lease = none
      ∧ (∀ a, u.entry a = .unassigned) ∧ u.table.sweep = none ∧ u.store.freeCells.length = 128
      ∧ u.store.freeDescs.length = 48 ∧ u.settings.applyPending = 0 ∧ (∀ g i, u.counters.read g i = 0)
      ∧ u.counters.noticesLost = 0 ∧ u.counters.sweepsSkipped = 0 ∧ u.pending = s.pending)

/-! ### Power-on restart -/

/-- R184: what the bridge holds when POWER_ON_RESTART_END has ended a power-on restart: the timebase at 0 and the aging timer
running, every segment in RECOVER or HUNT or QUIET with nothing to send, the store and the records free, the table empty,
both settings records at their defaults, no lease, no cached reply, every counter 0, one event, Restarted, and ATTN_N low.
R153, R155, R182: the own address, the roles and the rates that the straps give. -/
def Obligations.PowerOnRestartEndStartsUp : Prop :=
  (∀ (x : Straps) (s : State), s.held = true → ∃ u, exec (.powerOnRestartEnd x) s = .next u ∧ u.held = false
      ∧ u.nowMs = 0 ∧ u.agingDue = some (60000 * 73728)
      ∧ (∀ g, (u.lines.get g).rx = .recover 0 ∧ (u.lines.get g).tx = .marking ∧ (u.lines.get g).de = false)
      ∧ (∀ g, u.receivers.get g = .hunt)
      ∧ (∀ g, (u.egress.get g).state = .quiet ∧ (u.egress.get g).slot = none ∧ (u.egress.get g).replyLane = []
          ∧ (u.egress.get g).bulkLane = [] ∧ (u.egress.get g).hand = none)
      ∧ u.store.freeCells = List.ofFn id ∧ u.store.freeDescs = List.ofFn id ∧ (∀ d, u.store.desc d = none)
      ∧ (∀ a, u.entry a = .unassigned) ∧ u.table.sweep = none
      ∧ (∀ r, u.txn r = none) ∧ u.txns.waiting = [] ∧ u.mgmt.queue = []
      ∧ (∀ g, u.active g = SegRecord.default x g ∧ u.settings.staged.get g = SegRecord.default x g)
      ∧ u.bridge = BridgeRecord.default x ∧ u.settings.applyPending = 0
      ∧ u.lease = none ∧ (∀ g, u.mgmt.caches.get g = none)
      ∧ u.events.queue = [⟨0, 0, .restarted, none, none, 0⟩] ∧ u.events.nextSeq = 1 ∧ u.events.lost = 0
      ∧ (∀ g i, u.counters.read g i = 0) ∧ u.counters.noticesLost = 0 ∧ u.counters.sweepsSkipped = 0
      ∧ u.attention = true ∧ u.pending = s.pending)
  ∧ (∀ x : Straps, (BridgeRecord.default x).own.toNat = 0xF0 + x.addr.toNat
      ∧ (∀ g, (SegRecord.default x g).role = match g, x.topo with
          | .s0, _ => .upstream
          | .s1, true => .upstream
          | .s1, false => .downstream
          | .s2, _ => .downstream
          | .s3, _ => .downstream)
      ∧ (∀ g, (SegRecord.default x g).mgmtAccess = true ↔ (SegRecord.default x g).role = .upstream)
      ∧ (∀ g, (SegRecord.default x g).rate = match x.baud.toNat with
          | 0 => 3
          | 1 => 4
          | 2 => 5
          | _ => 7))

/-! ### Segment lines -/

/-- R57, R56, R61: FALLING_EDGE, RECOVER_END and FALSE_START move the receiver of their segment and nothing else, but for
NoiseChars at a false start. The level on RXD between two events is not held: that FALLING_EDGE is taken from READY also
where RXD was last read low, and RECOVER_END at the earliest moment that can be, is the model's choice (log 13). Time moves
as log 3 says. -/
def Obligations.ReceiverEdges : Prop :=
  ∀ (s : State) (g : Seg), s.held = false →
    (∀ since high taken, (s.lines.get g).rx = .ready since high taken →
      exec (.fallingEdge g) s
        = .next { s with lines := s.lines.set g { s.lines.get g with rx := .assemble s.time false } })
    ∧ (∀ since, (s.lines.get g).rx = .recover since →
      exec (.recoverEnd g) s = .next { s with
        time := max s.time (since + (s.active g).bitTime)
        lines := s.lines.set g { s.lines.get g with rx := .ready (max s.time (since + (s.active g).bitTime)) true false } })
    ∧ ∀ edge, (s.lines.get g).rx = .assemble edge false →
      exec (.falseStart g) s = .next { s with
        time := max s.time (edge + (s.active g).middleOf 1)
        lines := s.lines.set g
          { s.lines.get g with rx := .ready (max s.time (edge + (s.active g).middleOf 1)) true false }
        counters := s.counters.write g 3 (saturatingSucc (s.counters.read g 3)) }

/-- R53, R58 to R60: a character put on the line in a segment's format is read back with its value and mark and no error by a
receiver in the same format; all bits low through the first stop bit are a break. -/
def Obligations.CharactersReadBack : Prop :=
  ∀ (r : SegRecord) (w : BitVec 13),
    (∀ c : Ch, (∀ k, k < r.charBits → w.getLsbD k = (charLevels r c).getD k true) →
      verdict r ⟨w, w, w⟩ = .char ⟨c.value, c.mark, false, false, false⟩)
    ∧ ((∀ k, k < r.firstStop → w.getLsbD k = false) → verdict r ⟨w, w, w⟩ = .brk)
    ∧ ∀ c : Ch, (charLevels r c).length = r.charBits

/-- R60, R85, R48: BREAK with DE deasserted. In a frame it ends that frame as cut (FrameEnds: Damaged, the descriptor
released, a reserved record freed, a Response's transaction closed Damaged, the intent not placed), and the rest is as
in HUNT. With no frame in assembly: on a Downstream segment it raises Breaks, and the receiver waits in RECOVER; on an
Upstream segment, besides, its live transaction, if there is one, is cancelled while it waits and superseded otherwise,
and counted in Abandoned while its outcome is open; every reply not started is withdrawn and counted in Abandoned; the
notice slot is emptied; and no other transaction is touched. The order in which the descriptors of this one step are
released, the live transaction's request and then the withdrawn replies, oldest first, is the model's choice (log 15).
Time moves as log 3 says. -/
def Obligations.BreakIsTaken : Prop :=
  (∀ (s : State) (g : Seg) (edge : Nat) (taken : Bool),
      s.held = false → (s.lines.get g).rx = .assemble edge taken → (s.lines.get g).de = false →
      s.receivers.get g = .hunt → (s.active g).role = .downstream →
      exec (.breakFound g) s = .next { s with
        time := max s.time (edge + (s.active g).middleOf (s.active g).firstStop)
        lines := s.lines.set g
          { s.lines.get g with rx := .recover (max s.time (edge + (s.active g).middleOf (s.active g).firstStop)) }
        counters := s.counters.write g 13 (saturatingSucc (s.counters.read g 13)) })
  ∧ (∀ (s : State) (g : Seg) (edge : Nat) (taken : Bool) (l : Option (Fin 8)) (after : Option Txn) (lost : Nat)
      (e : Option (Fin 48)) (gone : List ReplyCopy),
      s.held = false → (s.lines.get g).rx = .assemble edge taken → (s.lines.get g).de = false →
      s.receivers.get g = .hunt → (s.active g).role = .upstream → s.LiveGone g l after lost e →
      gone = ((s.egress.get g).replyLane.filter fun c => (s.egress.get g).startedReply != some c.desc) →
      ∃ u k, exec (.breakFound g) s = .next u ∧ (∀ q, u.txn q = if l = some q then after else s.txn q)
        ∧ u.txns.waiting = (if after = none then s.txns.waiting.filter fun q => l != some q else s.txns.waiting)
        ∧ s.OriginCleared u g false
        ∧ u.store = gone.foldl (fun st c => st.leave c.desc g) (e.toList.foldl Store.dropTxn s.store)
        ∧ s.counters.RaisedTo k g [.breaks] ∧ u.counters = k.write g 12
          (BitVec.ofNat 32 (min 4294967295 ((s.counters.read g 12).toNat + lost + gone.length)))
        ∧ u.time = max s.time (edge + (s.active g).middleOf (s.active g).firstStop)
        ∧ u.lines = s.lines.set g { s.lines.get g with rx := .recover u.time }
        ∧ u.txns.holders = s.txns.holders
        ∧ u.txns.lastTimedOut = s.txns.lastTimedOut ∧ u.mgmt.queue = s.mgmt.queue ∧ u.mgmt.engine = s.mgmt.engine
        ∧ u.mgmt.caches = s.mgmt.caches ∧ u.mgmt.buffer = s.mgmt.buffer ∧ u.settings = s.settings ∧ u.table = s.table
        ∧ u.lease = s.lease ∧ u.events = s.events ∧ u.receivers = s.receivers ∧ s.SamePins u)
  ∧ (∀ (s u : State) (g : Seg) (edge : Nat) (taken : Bool),
      s.held = false → (s.lines.get g).rx = .assemble edge taken → (s.lines.get g).de = false →
      s.FrameEnds u g true → u.receivers.get g = .hunt ∧ exec (.breakFound g) s = exec (.breakFound g) u)

/-- R61, R62, R83: IDLE_GAP_EXPIRY is taken once per quiet period: where that of the period has been taken already the command
changes nothing. With DE asserted or no frame in assembly it changes nothing else. R86, R29, R42, R44, R89: a frame that does
not end intact ends as FrameEnds says: Skipped, Truncated, or Damaged by an error or as Oversize. FramesReceived, and Damaged
or NoBuffer, are raised, the descriptor is released, a reserved record is free, a Response's transaction closes Damaged or
NoBuffer with its notice and its segment released, and the frame's intent is placed as a notice; so a frame passed over as
Blocked leaves no trace but its count. R84: an address character in such a frame ends it in the same way, and is then taken
as in HUNT. R43, R109: what placing a notice does. Time moves as log 3 says. -/
def Obligations.IdleGapEndsTheFrame : Prop :=
  (∀ (s : State) (g : Seg) (since : Nat) (high : Bool), (s.lines.get g).rx = .ready since high true →
      exec (.idleGapExpiry g) s = .next s)
  ∧ (∀ (s : State) (g : Seg) (since : Nat), s.held = false → (s.lines.get g).rx = .ready since true false →
    (((s.lines.get g).de = true ∨ s.receivers.get g = .hunt) →
      exec (.idleGapExpiry g) s = .next (s.gapTaken g since))
    ∧ ∀ a, (s.lines.get g).de = false →
      s.receivers.get g = .skip .blocked ⟨some .request, a, none, none, 0, none⟩ →
      exec (.idleGapExpiry g) s = .next { s.gapTaken g since with
        receivers := s.receivers.set g .hunt
        counters := s.counters.write g 0 (saturatingSucc (s.counters.read g 0)) })
  ∧ (∀ (s u : State) (g : Seg), s.FrameEnds u g false →
    (∀ since, s.Silent g since → exec (.idleGapExpiry g) s = .next (u.gapTaken g since))
    ∧ ∀ edge taken x c, s.Hears g edge taken x c → c.mark = true → (s.lines.get g).de = false →
      u.receivers.get g = .hunt ∧ exec (.characterComplete g x) s = exec (.characterComplete g x) u)
  ∧ ∀ (s : State) (g : Seg) (c : NoticeCode) (a : Byte), s.notify g c a = s.told g (s.called g (some ⟨c, a⟩))

/-! ### Frame reception and admission -/

/-- R5: the route decision for address a: Blocked drops; a Static entry carries to those of its segments that are Downstream,
a Learned one to its segment, an Unassigned one, with flood on, to every Downstream segment in the flood class; an empty
set, or an Unassigned entry with flood off, drops with NoRoute. Every segment carried to is Downstream (of a Learned
entry by the law of R2). -/
def Obligations.RouteDecision : Prop :=
  ∀ (s : State) (a : Byte),
    (s.entry a = .blocked → s.route a = .drop .blocked)
    ∧ (∀ m c k q, s.entry a = .static m c k q →
        s.route a = if m &&& s.downstream = 0 then .drop .noRoute else .carry (m &&& s.downstream) c)
    ∧ (∀ g c used age k, s.entry a = .learned g c used age k → s.route a = .carry (SegSet.one g) c)
    ∧ (s.entry a = .unassigned → s.bridge.flood = true →
        s.route a = if s.downstream = 0 then .drop .noRoute else .carry s.downstream s.bridge.floodClass)
    ∧ (s.entry a = .unassigned → s.bridge.flood = false → s.route a = .drop .noRoute)
    ∧ (∀ g, s.downstream.has g = true ↔ (s.active g).role = .downstream)
    ∧ (s.TableLaws → ∀ m c, s.route a = .carry m c →
        m ≠ 0 ∧ ∀ g, m.has g = true → (s.active g).role = .downstream)

/-- R25, R73, R74, R76 to R78: CHARACTER_COMPLETE of an address character in HUNT that begins a Request, a Broadcast or a
Management frame. With a record, a descriptor and a cell free, and for a Broadcast more cells than the reserve, the frame
is admitted: its record, the lowest free one, is FORMING, its first character stands in place 0 of the head cell, and
nothing else changes, no other cell, descriptor or record among it. Otherwise it is passed over with NoBuffer and calls
for Busy. R74, R75: a frame to the own address without management access is passed over as MgmtOff; on an Upstream
segment a Request to a Blocked entry is passed over in silence, and one without a route, or a Broadcast with no segment
Downstream, with the count and the intent NoRoute. An error of the character is counted, and makes an admitted frame's
descriptor erroneous and its intent Damaged (R82). Time moves as log 3 says. -/
def Obligations.RequestIsAdmitted : Prop :=
  ∀ (s : State) (g : Seg) (x : Samples) (edge : Nat) (taken : Bool) (c : RxChar),
    s.Hears g edge taken x c → c.mark = true → (s.lines.get g).de = false → s.receivers.get g = .hunt →
    (∀ cls kind m tc, s.Opens g c.value cls kind m tc →
      (∀ r d ds q qs, s.txn r = none → (∀ p, p < r → s.txn p ≠ none) → s.store.freeDescs = d :: ds →
        s.store.freeCells = q :: qs → (cls = .broadcast → s.bridge.reserve.toNat < s.store.freeCells.length) →
        ∃ k, s.counters.RaisedTo k g c.counted ∧ exec (.characterComplete g x) s = .next { s.heard g edge x with
          txns := (s.putTxn r (some
            { kind := kind, state := .forming, origin := g, station := c.value, reqDesc := some d, egress := m, copies := 0
              windows := 0, cls := tc, deadline := none, superseded := false, bypass := 0, guarded := false
              copyOk := false, command := 0, sequence := 0, outcome := none, responseSeg := none })).txns
          receivers := s.receivers.set g (.store ⟨some cls, c.value, some d, some r, 1,
            if erroneous (s.active g).noisePolicy c then some .damaged else none⟩)
          store := { (s.store.putDesc d (some
              { state := .filling, cls := cls, ingress := some g, station := c.value, length := 1, chain := [q]
                error := erroneous (s.active g).noisePolicy c, txn := some r, pendingEgress := 0 })).writeCell
            q 0 ⟨c.value, true⟩ with freeDescs := ds, freeCells := qs }
          counters := k })
      ∧ ((∀ r, s.txn r ≠ none) ∨ s.store.freeDescs = [] ∨ s.store.freeCells = []
          ∨ cls = .broadcast ∧ s.store.freeCells.length ≤ s.bridge.reserve.toNat →
        ∃ k, s.counters.RaisedTo k g (c.counted ++ [.noBuffer])
          ∧ exec (.characterComplete g x) s = .next { s.heard g edge x with
            receivers := s.receivers.set g (.skip .noBuffer ⟨some cls, c.value, none, none, 0, some .busy⟩)
            counters := k }))
    ∧ ((s.active g).role = .upstream ∨ (s.active g).role = .downstream ∧ s.windowOn g = none →
      c.value = s.bridge.own → (s.active g).mgmtAccess = false →
      ∃ k, s.counters.RaisedTo k g c.counted ∧ exec (.characterComplete g x) s = .next { s.heard g edge x with
        receivers := s.receivers.set g (.skip .mgmtOff ⟨some .management, c.value, none, none, 0, none⟩), counters := k })
    ∧ ((s.active g).role = .upstream → c.value ≠ s.bridge.own →
      (c.value ≠ 0 → s.route c.value = .drop .blocked →
        ∃ k, s.counters.RaisedTo k g c.counted ∧ exec (.characterComplete g x) s = .next { s.heard g edge x with
          receivers := s.receivers.set g (.skip .blocked ⟨some .request, c.value, none, none, 0, none⟩), counters := k })
      ∧ ∀ cls, (c.value ≠ 0 ∧ s.route c.value = .drop .noRoute ∧ cls = .request
          ∨ c.value = 0 ∧ s.downstream = 0 ∧ cls = .broadcast) →
        ∃ k, s.counters.RaisedTo k g (c.counted ++ [.noRoute])
          ∧ exec (.characterComplete g x) s = .next { s.heard g edge x with
            receivers := s.receivers.set g (.skip .noRoute ⟨some cls, c.value, none, none, 0, some .noRoute⟩)
            counters := k })

/-- R73, R79 to R82: CHARACTER_COMPLETE of a data character delivered to a frame receiver. In HUNT it is an orphan; in SKIP its
errors are counted and nothing else. In STORE it is stored in the chain's next place, in a cell newly taken where the
last is full, and no other cell or descriptor changes; the 257th turns the frame to SKIP Oversize, and one that needs a
cell when none is free to SKIP Truncated. Where the frame holds a FORMING record and has no intent yet, Oversize and an
erroneous character set Damaged, Truncated sets Busy. That a character with an error which itself turns the frame to
SKIP gives no error record, and at a Truncated turn Busy rather than Damaged, is the model's choice (log 26). Time moves as
log 3 says. -/
def Obligations.FrameGrows : Prop :=
  ∀ (s : State) (g : Seg) (x : Samples) (edge : Nat) (taken : Bool) (c : RxChar),
    s.Hears g edge taken x c → c.mark = false → (s.lines.get g).de = false →
    (s.receivers.get g = .hunt → ∃ k, s.counters.RaisedTo k g (c.counted ++ [.orphans])
      ∧ exec (.characterComplete g x) s = .next { s.heard g edge x with counters := k })
    ∧ (∀ why f, s.receivers.get g = .skip why f → ∃ k, s.counters.RaisedTo k g c.counted
      ∧ exec (.characterComplete g x) s = .next { s.heard g edge x with counters := k })
    ∧ ∀ f d y, s.receivers.get g = .store f → f.desc = some d → s.store.desc d = some y →
      (∀ i, f.intend i = if f.formingRecord ≠ none ∧ f.intent = none then { f with intent := some i } else f)
      ∧ ∃ k, s.counters.RaisedTo k g c.counted
        ∧ (256 ≤ y.length → exec (.characterComplete g x) s = .next { s.heard g edge x with
          receivers := s.receivers.set g (.skip .oversize (f.intend .damaged)), counters := k })
        ∧ (y.length < 256 → y.length % 16 = 0 → s.store.freeCells = [] →
          exec (.characterComplete g x) s = .next { s.heard g edge x with
            receivers := s.receivers.set g (.skip .truncated (f.intend .busy)), counters := k })
        ∧ (∀ q, y.length < 256 → y.length % 16 ≠ 0 → y.chain[y.length / 16]? = some q →
          exec (.characterComplete g x) s = .next { s.heard g edge x with
            receivers := s.receivers.set g (.store
              { if erroneous (s.active g).noisePolicy c then f.intend .damaged else f with taken := f.taken + 1 })
            store := (s.store.writeCell q y.length ⟨c.value, false⟩).putDesc d (some
              { y with length := y.length + 1, error := y.error || erroneous (s.active g).noisePolicy c })
            counters := k })
        ∧ ∀ q qs, y.length < 256 → y.length % 16 = 0 → y.chain.length = y.length / 16 → s.store.freeCells = q :: qs →
          exec (.characterComplete g x) s = .next { s.heard g edge x with
            receivers := s.receivers.set g (.store
              { if erroneous (s.active g).noisePolicy c then f.intend .damaged else f with taken := f.taken + 1 })
            store := { (s.store.writeCell q y.length ⟨c.value, false⟩).putDesc d (some
                { y with
                  length := y.length + 1, chain := y.chain ++ [q]
                  error := y.error || erroneous (s.active g).noisePolicy c }) with
              freeCells := qs }
            counters := k }

/-- R27, R28, R30, R45, R49, R87, R88, R128: the idle gap ends a stored frame without error; its descriptor is Ready. A
Request or Broadcast waits at the tail of the pending list with the segments of its egress set that are still
Downstream; with none left it closes NoRoute, with its notice. A Management frame is EXECUTING at the tail of the
management queue with the command and sequence of its second and third characters, 0 where it has none; one that repeats
the request its origin has queued or in execution is adopted: its record and descriptor are released and nothing else
changes. A live transaction of the segment is abandoned: cancelled while it waits, else superseded, and counted in
Abandoned while its outcome is open. The slot is emptied, and every reply not started is withdrawn and counted in
Abandoned; the order in which the descriptors of this one step are released, the abandoned request and then the
withdrawn replies, oldest first, is the model's choice (log 15); R112: on an Upstream segment whose scheduler is QUIET
or in BACKOFF a bulk copy in hand is set back. Said of a Request, a Broadcast and a Management frame alike. An
Unsolicited frame joins the bulk lane of every Upstream segment with room, the full ones counting NoBuffer, and is
released where none takes it. Time moves as log 3 says. -/
def Obligations.IntactRequestWaits : Prop :=
  ∀ (s : State) (g : Seg) (since : Nat) (cls : FrameClass) (a : Byte) (d : Fin 48) (x : Desc) (n : Nat),
    s.Silent g since → s.store.desc d = some x → x.error = false →
    (∀ r t, s.receivers.get g = .store ⟨some cls, a, some d, some r, n, none⟩ → s.txn r = some t → t.state = .forming →
      (∀ l after lost e gone back, s.LiveGone g l after lost e →
        gone = ((s.egress.get g).replyLane.filter fun c => (s.egress.get g).startedReply != some c.desc) →
        (back = true ↔ (s.active g).role = .upstream
          ∧ ((s.egress.get g).state = .quiet ∨ ∃ since, (s.egress.get g).state = .backoff since)) →
        ((cls = .request ∨ cls = .broadcast) ∧ t.egress &&& s.downstream ≠ 0
          ∨ cls = .management ∧ ∀ q w, s.liveOf g = some q → s.txn q = some w →
            ¬ (w.kind = .loc ∧ w.state = .executing ∧ 3 ≤ (s.store.values d).length
              ∧ (s.store.values d)[1]? = some w.command ∧ (s.store.values d)[2]? = some w.sequence)) →
        ∃ u k, exec (.idleGapExpiry g) s = .next u ∧ s.OnlyServed u g since
          ∧ u.txn r = (if cls = .management
            then some { t with
              state := .executing, command := (s.store.values d).getD 1 0, sequence := (s.store.values d).getD 2 0 }
            else some { t with state := .pending, egress := t.egress &&& s.downstream })
          ∧ (∀ q, q ≠ r → u.txn q = if l = some q then after else s.txn q)
          ∧ (∀ kept, kept = (if after = none then s.txns.waiting.filter fun q => l != some q else s.txns.waiting) →
            u.txns.waiting = if cls = .management then kept else kept ++ [r])
          ∧ u.mgmt.queue = (if cls = .management then s.mgmt.queue ++ [r] else s.mgmt.queue)
          ∧ s.OriginCleared u g back
          ∧ u.store = gone.foldl (fun st c => st.leave c.desc g)
            (e.toList.foldl Store.dropTxn (s.store.putDesc d (some { x with state := .ready })))
          ∧ s.counters.RaisedTo k g [.framesReceived] ∧ u.counters = k.write g 12
            (BitVec.ofNat 32 (min 4294967295 ((s.counters.read g 12).toNat + lost + gone.length))))
      ∧ (cls = .request ∨ cls = .broadcast → s.liveOf g = none → (s.egress.get g).replyLane = [] →
        t.egress &&& s.downstream = 0 → t.reqDesc = some d → x.pendingEgress = 0 → t.copies = 0 → t.outcome = none →
        t.origin = g → t.superseded = false → ∃ u, exec (.idleGapExpiry g) s = .next u ∧ s.OnlyServed u g since
          ∧ u.txn r = none ∧ (∀ q, q ≠ r → u.txn q = s.txn q)
          ∧ u.txns.waiting = (s.txns.waiting.filter fun q => q != r) ∧ u.mgmt.queue = s.mgmt.queue
          ∧ u.store = { s.store.putDesc d none with
            freeCells := s.store.freeCells ++ x.chain, freeDescs := s.store.freeDescs ++ [d] }
          ∧ (u.egress.get g).slot = (if (s.active g).notices = true then some ⟨.noRoute, t.station⟩ else none)
          ∧ s.OnlyCounted u g [.framesReceived])
      ∧ (cls = .management → ∀ l w, s.liveOf g = some l → s.txn l = some w → w.kind = .loc → w.state = .executing →
          3 ≤ (s.store.values d).length → (s.store.values d)[1]? = some w.command →
          (s.store.values d)[2]? = some w.sequence → x.pendingEgress = 0 →
          ∃ k, s.counters.RaisedTo k g [.framesReceived] ∧ exec (.idleGapExpiry g) s = .next { s.gapTaken g since with
            txns := { (s.putTxn r none).txns with waiting := s.txns.waiting.filter fun q => q != r }
            receivers := s.receivers.set g .hunt
            store := { s.store.putDesc d none with
              freeCells := s.store.freeCells ++ x.chain, freeDescs := s.store.freeDescs ++ [d] }
            counters := k }))
    ∧ (s.receivers.get g = .store ⟨some .unsolicited, a, some d, none, n, none⟩ → x.txn = none → x.pendingEgress = 0 →
      ∀ m : SegSet, (∀ h, m.has h = true ↔ (s.active h).role = .upstream ∧ (s.egress.get h).bulkLane.length < 8) →
      ∃ u, exec (.idleGapExpiry g) s = .next u ∧ s.OnlyServed u g since ∧ u.txns = s.txns ∧ u.mgmt = s.mgmt
        ∧ (∀ h, u.egress.get h = if m.has h = true
          then { s.egress.get h with bulkLane := (s.egress.get h).bulkLane ++ [d] } else s.egress.get h)
        ∧ u.store = (if m = 0 then { s.store.putDesc d none with
              freeCells := s.store.freeCells ++ x.chain, freeDescs := s.store.freeDescs ++ [d] }
            else s.store.putDesc d (some { x with state := .ready, pendingEgress := m }))
        ∧ (∀ h i, u.counters.read h i = if h = g ∧ i = 0 ∨ i = 6 ∧ (s.active h).role = .upstream ∧ m.has h = false
          then saturatingSucc (s.counters.read h i) else s.counters.read h i)
        ∧ u.counters.noticesLost = s.counters.noticesLost ∧ u.counters.sweepsSkipped = s.counters.sweepsSkipped)

/-- R38 to R40, R75 to R77: CHARACTER_COMPLETE of an address character in HUNT on a Downstream segment. With a window open and
the address its station's, the transaction is RECEIVING there with no deadline, its other windows are closed and
released, and the frame is stored as its Response, or, with no descriptor or cell free, passed over with NoBuffer and
still tied to it. Any other address is then a Stray. With no window, and not the own address: the last timed-out station
is passed over as Late, with its event; else the frame is Unsolicited, counted, and with forwarding off passed over, with
forwarding on stored, or refused for want of a descriptor or at the reserve. No other cell, descriptor or record changes.
Time moves as log 3 says. -/
def Obligations.ResponseIsMatched : Prop :=
  ∀ (s : State) (g : Seg) (x : Samples) (edge : Nat) (taken : Bool) (c : RxChar),
    s.Hears g edge taken x c → c.mark = true → (s.lines.get g).de = false → s.receivers.get g = .hunt →
    (s.active g).role = .downstream →
    (∀ r t, s.holder g = some r → s.txn r = some t → t.windows.has g = true →
      (c.value = t.station → ∃ n, (∀ h, n.get h = if t.windows.has h = true ∧ h ≠ g then none else s.holder h)
        ∧ (∀ d ds q qs, s.store.freeDescs = d :: ds → s.store.freeCells = q :: qs →
          ∃ k, s.counters.RaisedTo k g c.counted ∧ exec (.characterComplete g x) s = .next { s.heard g edge x with
            txns := { (s.putTxn r (some
                { t with state := .receiving, deadline := none, windows := 0, responseSeg := some g })).txns with
              holders := n }
            receivers := s.receivers.set g (.store ⟨some .response, t.station, some d, some r, 1, none⟩)
            store := { (s.store.putDesc d (some
                { state := .filling, cls := .response, ingress := some g, station := t.station, length := 1, chain := [q]
                  error := erroneous (s.active g).noisePolicy c, txn := some r, pendingEgress := 0 })).writeCell
              q 0 ⟨t.station, true⟩ with freeDescs := ds, freeCells := qs }
            counters := k })
        ∧ (s.store.freeDescs = [] ∨ s.store.freeCells = [] →
          ∃ k, s.counters.RaisedTo k g (c.counted ++ [.noBuffer])
            ∧ exec (.characterComplete g x) s = .next { s.heard g edge x with
              txns := { (s.putTxn r (some
                  { t with state := .receiving, deadline := none, windows := 0, responseSeg := some g })).txns with
                holders := n }
              receivers := s.receivers.set g (.skip .noBuffer ⟨some .response, t.station, none, some r, 0, none⟩)
              counters := k }))
      ∧ (c.value ≠ t.station → ∃ k, s.counters.RaisedTo k g (c.counted ++ [.lateStray])
        ∧ exec (.characterComplete g x) s = .next { s.heard g edge x with
          receivers := s.receivers.set g (.skip .stray ⟨none, c.value, none, none, 0, none⟩), counters := k }))
    ∧ (s.windowOn g = none → c.value ≠ s.bridge.own →
      (s.txns.lastTimedOut.get g = some c.value → ∃ k, s.counters.RaisedTo k g (c.counted ++ [.lateStray])
        ∧ exec (.characterComplete g x) s = .next { s.heard g edge x with
          receivers := s.receivers.set g (.skip .late ⟨none, c.value, none, none, 0, none⟩), counters := k
          events := s.events.raise s.bridge.eventMask (s.heard g edge x).nowMs .late (some g) (some c.value) 0 })
      ∧ (s.txns.lastTimedOut.get g ≠ some c.value →
        (s.bridge.unsolicited = false → ∃ k, s.counters.RaisedTo k g (c.counted ++ [.unsolicited])
          ∧ exec (.characterComplete g x) s = .next { s.heard g edge x with
            receivers := s.receivers.set g (.skip .unsolicitedOff ⟨some .unsolicited, c.value, none, none, 0, none⟩)
            counters := k })
        ∧ (s.bridge.unsolicited = true →
          (∀ d ds q qs, s.store.freeDescs = d :: ds → s.store.freeCells = q :: qs →
            s.bridge.reserve.toNat < s.store.freeCells.length →
            ∃ k, s.counters.RaisedTo k g (c.counted ++ [.unsolicited])
              ∧ exec (.characterComplete g x) s = .next { s.heard g edge x with
                receivers := s.receivers.set g (.store ⟨some .unsolicited, c.value, some d, none, 1, none⟩)
                store := { (s.store.putDesc d (some
                    { state := .filling, cls := .unsolicited, ingress := some g, station := c.value, length := 1
                      chain := [q], error := erroneous (s.active g).noisePolicy c, txn := none
                      pendingEgress := 0 })).writeCell q 0 ⟨c.value, true⟩ with freeDescs := ds, freeCells := qs }
                counters := k })
          ∧ (s.store.freeDescs = [] ∨ s.store.freeCells.length ≤ s.bridge.reserve.toNat →
            ∃ k, s.counters.RaisedTo k g (c.counted ++ [.unsolicited, .noBuffer])
              ∧ exec (.characterComplete g x) s = .next { s.heard g edge x with
                receivers := s.receivers.set g (.skip .noBuffer ⟨some .unsolicited, c.value, none, none, 0, none⟩)
                counters := k }))))

/-- R42, R104, R7, R110, R37: the idle gap ends a response without error. The transaction closes Answered: its record is free
once no copy is out, and kept with the outcome till then; the segment is released, and the station is learned on it. Where
the transaction is not superseded and the reply lane of the origin has room, the descriptor joins that lane. Where the lane
is full the response is dropped and released, and NoBuffer of the origin raised; where the transaction is superseded it is
released, and nothing placed. Time moves as log 3 says. -/
def Obligations.IntactResponseAnswers : Prop :=
  ∀ (s : State) (g : Seg) (since : Nat) (a : Byte) (d : Fin 48) (x : Desc) (r : Fin 8) (t : Txn) (n : Nat),
    s.held = false → (s.lines.get g).rx = .ready since true false → (s.lines.get g).de = false →
    s.receivers.get g = .store ⟨some .response, a, some d, some r, n, none⟩ →
    s.store.desc d = some x → x.error = false → s.txn r = some t → t.outcome = none →
    ∃ u k, exec (.idleGapExpiry g) s = .next u ∧ s.counters.RaisedTo k g [.framesReceived]
      ∧ u.txn r = (if t.copies = 0 then none else some { t with outcome := some .answered })
      ∧ u.txns.waiting = (if t.copies = 0 then s.txns.waiting.filter fun q => q != r else s.txns.waiting)
      ∧ (∀ q, q ≠ r → u.txn q = s.txn q) ∧ u.holder g = none ∧ (∀ h, h ≠ g → u.holder h = s.holder h)
      ∧ u.txns.lastTimedOut = s.txns.lastTimedOut
      ∧ u.table = (s.learn t.station g).table ∧ u.receivers = s.receivers.set g .hunt
      ∧ u.time = max s.time (since + (s.active g).idleGap.toNat * (s.active g).charTime)
      ∧ u.events = ((s.advance u.time).learn t.station g).events
      ∧ u.lines = s.lines.set g { s.lines.get g with rx := .ready since true true }
      ∧ u.settings = s.settings ∧ u.lease = s.lease ∧ u.mgmt = s.mgmt ∧ s.SamePins u
      ∧ (t.superseded = false → (s.egress.get t.origin).replyLane.length < 2 →
        u.egress = s.egress.set t.origin { s.egress.get t.origin with
            replyLane := (s.egress.get t.origin).replyLane ++ [⟨d, none⟩] }
          ∧ u.store = s.store.putDesc d (some { x with
            state := .ready, txn := none, pendingEgress := x.pendingEgress.insert t.origin })
          ∧ u.counters = k)
      ∧ (t.superseded = false → 2 ≤ (s.egress.get t.origin).replyLane.length → x.pendingEgress = 0 →
        u.egress = s.egress ∧ u.store = s.store.without (some d)
          ∧ u.counters = k.write t.origin 6 (saturatingSucc (k.read t.origin 6)))
      ∧ (t.superseded = true → x.pendingEgress = 0 →
        u.egress = s.egress ∧ u.store = s.store.without (some d) ∧ u.counters = k)

/-! ### Egress -/

/-- R111 to R114: TAKE_LINE, with the quiet time running and a lead guard, asserts DE, blinds the frame receiver and
enters LEAD with the item in hand, or with the first of: the notice, the head of the reply lane, the head of the bulk
lane, which on an Upstream segment waits while the segment is the origin of a live transaction. Time moves as log 3
says. -/
def Obligations.TakeLineEntersLead : Prop :=
  ∀ (s : State) (g : Seg) (since : Nat) (taken : Bool) (h : InHand),
    s.held = false → (s.lines.get g).rx = .ready since true taken → (s.active g).role ≠ .off →
    s.receivers.get g = .hunt → (s.egress.get g).state = .quiet → (s.active g).leadGuard ≠ 0 →
    ((s.egress.get g).hand = some h
      ∨ (s.egress.get g).hand = none ∧ h.started = false ∧ h.attempts = 0
        ∧ ((∃ n, (s.egress.get g).slot = some n ∧ h.item = .slotNotice)
          ∨ (∃ c l, (s.egress.get g).slot = none ∧ (s.egress.get g).replyLane = c :: l ∧ h.item = .reply c.desc)
          ∨ ∃ d l, (s.egress.get g).slot = none ∧ (s.egress.get g).replyLane = []
            ∧ (s.egress.get g).bulkLane = d :: l ∧ h.item = .bulk d
            ∧ ((s.active g).role = .upstream → s.liveOf g = none))) →
    exec (.takeLine g) s = .next { s with
      time := max s.time (since + (s.active g).turnGap.toNat * (s.active g).charTime)
      lines := s.lines.set g { s.lines.get g with de := true }
      receivers := s.receivers.set g .blind
      egress := s.egress.set g { s.egress.get g with
        state := .lead (max s.time (since + (s.active g).turnGap.toNat * (s.active g).charTime)
          + (s.active g).leadGuard.toNat * (s.active g).bitTime) (s.active g).echoCheck
        hand := some h, echoes := [], collision := false } }

/-- R114, R115, R123: LEAD_GUARD_END enters TRANSMIT and sends the first character: of a stored frame its character 0; of the
notice in the slot, which leaves the slot, the own address with mark 1. With echo check on its echo is expected; with echo
check off the second character is requested at once. R64, R115, R117: CHARACTER_SENT with no request held and no collision
found: the transmitter is MARKING and the character's deadline starts to run; after the last character of the item TAIL is
entered, before it the scheduler waits for the echo. With a character held, that one starts, and with echo check off the
one after it is requested; with a break held after a collision, the break starts. R115, R117: CHARACTER_COMPLETE while
driving goes to the echo compare: in TRANSMIT a match removes the oldest expected echo and requests the next character,
where one is left; in TAIL it removes the echo. With echo check off, after a collision, and in TAIL with no echo expected,
nothing is judged. Time moves as log 3 says. -/
def Obligations.TransmitSendsTheItem : Prop :=
  (∀ (s : State) (g : Seg) (ends : Nat) (h : InHand),
      s.held = false → (s.egress.get g).state = .lead ends true → (s.egress.get g).hand = some h →
      (s.lines.get g).tx = .marking →
      (∀ d c, (h.item = .bulk d ∨ h.item = .reply d) → s.store.charAt d 0 = some c →
        exec (.leadGuardEnd g) s = .next { s with
          time := max s.time ends
          lines := s.lines.set g { s.lines.get g with tx := .shifting c (max s.time ends) }
          egress := s.egress.set g { s.egress.get g with
            state := .transmit ⟨true, s.bridge.own, 1, 0⟩, hand := some { h with started := true }
            echoes := (s.egress.get g).echoes ++ [⟨0, c, none⟩] } })
      ∧ ∀ n, h.item = .slotNotice → (s.egress.get g).slot = some n →
        exec (.leadGuardEnd g) s = .next { s with
          time := max s.time ends
          lines := s.lines.set g { s.lines.get g with tx := .shifting ⟨s.bridge.own, true⟩ (max s.time ends) }
          egress := s.egress.set g { s.egress.get g with
            slot := none, state := .transmit ⟨true, s.bridge.own, 1, 0⟩
            hand := some { h with item := .sentNotice n, started := true }
            echoes := (s.egress.get g).echoes ++ [⟨0, ⟨s.bridge.own, true⟩, none⟩] } })
  ∧ (∀ (s : State) (g : Seg) (ends : Nat) (h : InHand) (d : Fin 48) (c e : Ch),
      s.held = false → (s.egress.get g).state = .lead ends false → (s.egress.get g).hand = some h →
      (s.lines.get g).tx = .marking → (h.item = .bulk d ∨ h.item = .reply d) → s.store.charAt d 0 = some c →
      s.store.charAt d 1 = some e →
      exec (.leadGuardEnd g) s = .next { s with
        time := max s.time ends
        lines := s.lines.set g { s.lines.get g with tx := .shifting c (max s.time ends), held := some (.char e) }
        egress := s.egress.set g { s.egress.get g with
          state := .transmit ⟨false, s.bridge.own, 2, 0⟩, hand := some { h with started := true } } })
  ∧ (∀ (s : State) (g : Seg) (c : Ch) (since : Nat) (a : Attempt) (h : InHand),
      s.held = false → (s.lines.get g).tx = .shifting c since → (s.egress.get g).state = .transmit a →
      (s.egress.get g).hand = some h → ∀ now, now = max s.time (since + (s.active g).charTime) →
      (a.echoOn = true → (s.egress.get g).collision = false →
        ((s.lines.get g).held = none → exec (.characterSent g) s = .next { s with
          time := now
          lines := s.lines.set g { s.lines.get g with tx := .marking }
          egress := s.egress.set g { s.egress.get g with
            state := if s.itemLength h.item ≤ a.sent + 1
              then .tail (now + (s.active g).tailGuard.toNat * (s.active g).bitTime) { a with sent := a.sent + 1 }
              else .transmit { a with sent := a.sent + 1 }
            echoes := (s.egress.get g).echoes.map fun y =>
              if y.index = a.sent then { y with sentAt := some now } else y } })
        ∧ ∀ e, (s.lines.get g).held = some (.char e) → a.sent + 1 < s.itemLength h.item →
          exec (.characterSent g) s = .next { s with
            time := now
            lines := s.lines.set g { s.lines.get g with tx := .shifting e now, held := none }
            egress := s.egress.set g { s.egress.get g with
              state := .transmit { a with sent := a.sent + 1 }
              echoes := (s.egress.get g).echoes.map fun y =>
                if y.index = a.sent then { y with sentAt := some now } else y } })
      ∧ (∀ e f, a.echoOn = false → (s.egress.get g).collision = false → (s.egress.get g).echoes = [] →
        (s.lines.get g).held = some (.char e) → a.sent + 1 < s.itemLength h.item →
        s.itemChar a.own a.next h.item = some f →
        exec (.characterSent g) s = .next { s with
          time := now
          lines := s.lines.set g { s.lines.get g with tx := .shifting e now, held := some (.char f) }
          egress := s.egress.set g { s.egress.get g with
            state := .transmit { a with sent := a.sent + 1, next := a.next + 1 } } })
      ∧ ((s.egress.get g).collision = true → (s.egress.get g).echoes = [] → (s.lines.get g).held = some .brk →
        exec (.characterSent g) s = .next { s with
          time := now
          lines := s.lines.set g { s.lines.get g with tx := .breaking now, held := none }
          egress := s.egress.set g { s.egress.get g with state := .transmit { a with sent := a.sent + 1 } } }))
  ∧ (∀ (s : State) (g : Seg) (edge : Nat) (taken : Bool) (x : Samples) (c : RxChar),
      s.Hears g edge taken x c → (s.lines.get g).de = true →
      ∀ v u, v = s.heard g edge x → u = v.lines.get g →
      (∀ e l, (s.egress.get g).echoes = e :: l → (s.egress.get g).collision = false → c.value = e.char.value →
        c.mark = e.char.mark → c.parityErr = false → c.framingErr = false →
        (c.noise = true → (s.active g).noisePolicy = .tolerate) →
        (∀ a h, (s.egress.get g).state = .transmit a → a.echoOn = true → (s.egress.get g).hand = some h →
          (s.itemChar a.own a.next h.item = none →
            exec (.characterComplete g x) s
              = .next { v with egress := s.egress.set g { s.egress.get g with echoes := l } })
          ∧ ∀ f, s.itemChar a.own a.next h.item = some f →
            (∀ f' t0, u.tx = .shifting f' t0 → exec (.characterComplete g x) s = .next { v with
              lines := v.lines.set g { u with held := some (.char f) }
              egress := s.egress.set g { s.egress.get g with
                state := .transmit { a with next := a.next + 1 }, echoes := l ++ [⟨a.next, f, none⟩] } })
            ∧ (u.tx = .marking → exec (.characterComplete g x) s = .next { v with
              lines := v.lines.set g { u with tx := .shifting f v.time }
              egress := s.egress.set g { s.egress.get g with
                state := .transmit { a with next := a.next + 1 }, echoes := l ++ [⟨a.next, f, none⟩] } }))
        ∧ ∀ ends a, (s.egress.get g).state = .tail ends a → a.echoOn = true →
          exec (.characterComplete g x) s
            = .next { v with egress := s.egress.set g { s.egress.get g with echoes := l } })
      ∧ ((∃ a, ((s.egress.get g).state = .transmit a ∨ ∃ ends, (s.egress.get g).state = .tail ends a)
            ∧ (a.echoOn = false ∨ (s.egress.get g).collision = true))
          ∨ (∃ ends a, (s.egress.get g).state = .tail ends a ∧ (s.egress.get g).echoes = []) →
        exec (.characterComplete g x) s = .next v))

/-- R117, R118: ECHO_DEADLINE of the oldest expected echo is a collision: the attempt count and Collisions are raised, no
further echo is expected, and a break starts. So is, with echo check on and none found yet, a character heard that does not
match the oldest expected one, and in TRANSMIT one heard with none expected; and a break heard. The break is held while a
character is being sent, and starts at once otherwise. R65, R118, R69: BREAK_SENT, two character times after the break
began: after a collision TAIL is entered with its guard counted from there; after a Segment restart, the scheduler being
QUIET, DE is released and the frame receiver is in HUNT. Time moves as log 3 says. -/
def Obligations.CollisionSendsABreak : Prop :=
  (∀ (s : State) (g : Seg) (e : Echo) (l : List Echo) (at0 : Nat) (h : InHand),
      s.held = false → (s.egress.get g).echoes = e :: l → e.sentAt = some at0 → (s.egress.get g).hand = some h →
      (s.lines.get g).tx = .marking →
      exec (.echoDeadline g) s = .next { s with
        time := max s.time (at0 + (s.active g).charTime)
        lines := s.lines.set g { s.lines.get g with tx := .breaking (max s.time (at0 + (s.active g).charTime)) }
        egress := s.egress.set g { s.egress.get g with
          hand := some { h with attempts := h.attempts + 1 }, collision := true, echoes := [] }
        counters := s.counters.write g 11 (saturatingSucc (s.counters.read g 11)) })
  ∧ (∀ (s : State) (g : Seg) (edge : Nat) (taken : Bool) (a : Attempt) (h : InHand),
      s.held = false → (s.lines.get g).rx = .assemble edge taken → (s.lines.get g).de = true →
      ((s.egress.get g).state = .transmit a
        ∨ (s.egress.get g).echoes ≠ [] ∧ ∃ ends, (s.egress.get g).state = .tail ends a) →
      a.echoOn = true → (s.egress.get g).collision = false → (s.egress.get g).hand = some h →
      ∀ (w : Instr) (v : State),
        ((∃ x c, s.Hears g edge taken x c ∧ w = .characterComplete g x ∧ v = s.heard g edge x
            ∧ ∀ e l, (s.egress.get g).echoes = e :: l → ¬ (c.value = e.char.value ∧ c.mark = e.char.mark
              ∧ c.parityErr = false ∧ c.framingErr = false ∧ (c.noise = true → (s.active g).noisePolicy = .tolerate)))
          ∨ w = .breakFound g ∧ ∃ now, now = max s.time (edge + (s.active g).middleOf (s.active g).firstStop)
            ∧ v = { s with time := now, lines := s.lines.set g { s.lines.get g with rx := .recover now } }) →
        ((s.lines.get g).tx = .marking → exec w s = .next { v with
          lines := v.lines.set g { v.lines.get g with tx := .breaking v.time }
          egress := s.egress.set g { s.egress.get g with
            hand := some { h with attempts := h.attempts + 1 }, collision := true, echoes := [] }
          counters := s.counters.write g 11 (saturatingSucc (s.counters.read g 11)) })
        ∧ ∀ f t0, (s.lines.get g).tx = .shifting f t0 → exec w s = .next { v with
          lines := v.lines.set g { v.lines.get g with held := some .brk }
          egress := s.egress.set g { s.egress.get g with
            hand := some { h with attempts := h.attempts + 1 }, collision := true, echoes := [] }
          counters := s.counters.write g 11 (saturatingSucc (s.counters.read g 11)) })
  ∧ (∀ (s : State) (g : Seg) (since : Nat), s.held = false → (s.lines.get g).tx = .breaking since →
      (s.lines.get g).held = none →
      (∀ a, (s.egress.get g).state = .transmit a →
        exec (.breakSent g) s = .next { s with
          time := max s.time (since + 2 * (s.active g).charTime)
          lines := s.lines.set g { s.lines.get g with tx := .marking }
          egress := s.egress.set g { s.egress.get g with
            state := .tail (max s.time (since + 2 * (s.active g).charTime)
              + (s.active g).tailGuard.toNat * (s.active g).bitTime) a } })
      ∧ ((s.egress.get g).state = .quiet →
        exec (.breakSent g) s = .next { s with
          time := max s.time (since + 2 * (s.active g).charTime)
          lines := s.lines.set g { s.lines.get g with tx := .marking, de := false }
          receivers := s.receivers.set g .hunt }))

/-- R63, R116, R120: START_WHILE_DRIVING in LEAD is contention. DE is released, the frame receiver is in HUNT, the
attempt and Collisions are counted, and with retries left the item stays in hand in BACKOFF; with them spent its send
ends Collision (R121). In any other state the report changes nothing but that the start bit has been taken. That
collision found is clear in BACKOFF is the model's choice (log 28). Time moves as log 3 says. -/
def Obligations.ContentionBacksOff : Prop :=
  ∀ (s : State) (g : Seg) (edge : Nat), s.held = false → (s.lines.get g).rx = .assemble edge false →
    (s.lines.get g).de = true → (s.lines.get g).tx = .marking →
    (∀ ends on h, (s.egress.get g).state = .lead ends on → (s.egress.get g).hand = some h →
      ∀ v : State, v = { s with
        time := max s.time (edge + (s.active g).middleOf 1)
        lines := s.lines.set g
          { rx := .assemble edge true, tx := .marking, held := none, de := false }
        receivers := s.receivers.set g .hunt
        counters := s.counters.write g 11 (saturatingSucc (s.counters.read g 11)) } →
      (h.attempts + 1 ≤ (s.active g).retryLimit.toNat →
        exec (.startWhileDriving g) s = .next { v with
          egress := s.egress.set g { s.egress.get g with
            state := .backoff (max s.time (edge + (s.active g).middleOf 1))
            hand := some { h with attempts := h.attempts + 1 }, echoes := [], collision := false } })
      ∧ ((s.active g).retryLimit.toNat < h.attempts + 1 →
        ∃ u, exec (.startWhileDriving g) s = .next u ∧ v.SendLost u g h.item (h.attempts + 1)))
    ∧ ((∀ ends on, (s.egress.get g).state ≠ .lead ends on) →
      exec (.startWhileDriving g) s = .next { s with
        time := max s.time (edge + (s.active g).middleOf 1)
        lines := s.lines.set g { s.lines.get g with rx := .assemble edge true } })

/-- R119, R122, R72: TAIL_GUARD_END releases DE, and the frame receiver is in HUNT. With no collision found, of a
notice: the scheduler is QUIET with nothing in hand, and FramesSent is raised; of an Unsolicited copy, and of a response
or a reply with no effect armed, besides, the copy leaves its lane and its descriptor. With a collision found the
scheduler is in BACKOFF: with retries left the item stays in hand, with them spent its send ends Collision (R121). That
collision found is clear in BACKOFF is the model's choice (log 28). R120: BACKOFF_END, 2 (n + 1) character times after
BACKOFF of segment n began, leaves the scheduler QUIET and changes nothing else. Time moves as log 3 says; the operand
is the strap pins' levels (log 6). -/
def Obligations.SendsEnd : Prop :=
  (∀ (s : State) (g : Seg) (x : Straps) (ends : Nat) (a : Attempt) (h : InHand),
      s.held = false → (s.egress.get g).state = .tail ends a → (s.egress.get g).echoes = [] →
      (s.lines.get g).tx = .marking → (s.egress.get g).hand = some h →
      ∀ v : State, v = { s with
        time := max s.time ends
        straps := x
        lines := s.lines.set g { s.lines.get g with held := none, de := false }
        receivers := s.receivers.set g .hunt } →
      ((s.egress.get g).collision = false →
        (∀ n, h.item = .sentNotice n → exec (.tailGuardEnd g x) s = .next { v with
          egress := s.egress.set g { s.egress.get g with state := .quiet, hand := none }
          counters := s.counters.write g 1 (saturatingSucc (s.counters.read g 1)) })
        ∧ (∀ d y, h.item = .bulk d → s.store.desc d = some y → y.cls = .unsolicited →
          exec (.tailGuardEnd g x) s = .next { v with
            egress := s.egress.set g { s.egress.get g with
              state := .quiet, hand := none, bulkLane := (s.egress.get g).bulkLane.filter fun q => q != d }
            store := s.store.leave d g
            counters := s.counters.write g 1 (saturatingSucc (s.counters.read g 1)) })
        ∧ ∀ d, h.item = .reply d → (∀ c, c ∈ (s.egress.get g).replyLane → c.desc = d → c.armed = none) →
          exec (.tailGuardEnd g x) s = .next { v with
            egress := s.egress.set g { s.egress.get g with
              state := .quiet, hand := none, replyLane := (s.egress.get g).replyLane.filter fun c => c.desc != d }
            store := s.store.leave d g
            counters := s.counters.write g 1 (saturatingSucc (s.counters.read g 1)) })
      ∧ ((s.egress.get g).collision = true →
        (h.attempts ≤ (s.active g).retryLimit.toNat → exec (.tailGuardEnd g x) s = .next { v with
          egress := s.egress.set g { s.egress.get g with
            state := .backoff (max s.time ends), echoes := [], collision := false } })
        ∧ ((s.active g).retryLimit.toNat < h.attempts →
          ∃ u, exec (.tailGuardEnd g x) s = .next u ∧ v.SendLost u g h.item h.attempts)))
  ∧ (∀ (s : State) (g : Seg) (since : Nat), s.held = false → (s.egress.get g).state = .backoff since →
      exec (.backoffEnd g) s = .next { s with
        time := max s.time (since + 2 * (g.num + 1) * (s.active g).charTime)
        egress := s.egress.set g { s.egress.get g with state := .quiet } })

/-- R35, R36, R122: TAIL_GUARD_END of a request or broadcast copy, with no collision found, by the rows of R35. A poll that is
SENDING opens a window on the segment, whose last timed-out station is cleared; where it was the last copy the poll awaits
its response, its deadline the timeout of its class from now. In the other rows no window opens and the segment is released:
a poll that is RECEIVING stays so; a broadcast has its copy sent, and closes Complete with its last; a transaction whose
outcome is fixed is free with its last. The copy leaves its lane and its descriptor. R98 to R100: what that does to a
descriptor, and what giving up its transaction does. Time moves as log 3 says; the operand is the strap pins' levels
(log 6). -/
def Obligations.LastCopyOpensTheWindow : Prop :=
  (∀ (s : State) (g : Seg) (x : Straps) (ends : Nat) (a : Attempt) (h : InHand) (d : Fin 48) (y : Desc) (r : Fin 8)
      (t : Txn) (left : SegSet) (w : Option Txn) (opens : Bool),
    s.held = false → (s.egress.get g).state = .tail ends a → (s.egress.get g).echoes = [] →
    (s.lines.get g).tx = .marking → (s.egress.get g).collision = false → (s.egress.get g).hand = some h →
    h.item = .bulk d → s.store.desc d = some y → (y.cls = .request ∨ y.cls = .broadcast) → s.holder g = some r →
    s.txn r = some t → left = t.copies.erase g →
    (t.outcome = none ∧ t.kind = .poll ∧ t.state = .sending ∧ opens = true
        ∧ (left ≠ 0 ∧ w = some { t with copies := left, windows := t.windows.insert g }
          ∨ left = 0 ∧ ∃ c, t.cls = some c ∧ w = some { t with
            copies := 0, windows := t.windows.insert g, reqDesc := none, state := .awaiting
            deadline := some (BitVec.ofNat 32 (max s.time ends / 73728) + (s.bridge.timeouts.get c).setWidth 32) })
      ∨ t.outcome = none ∧ t.kind = .poll ∧ t.state = .receiving ∧ opens = false
        ∧ w = some { t with copies := left, reqDesc := if left = 0 then none else t.reqDesc }
      ∨ t.outcome = none ∧ t.kind = .broadcast ∧ t.state = .sending ∧ opens = false
        ∧ w = (if left = 0 then none else some { t with copies := left, copyOk := true })
      ∨ t.outcome ≠ none ∧ opens = false ∧ w = if left = 0 then none else some { t with copies := left }) →
    ∃ u, exec (.tailGuardEnd g x) s = .next u ∧ u.txn r = w ∧ (∀ q, q ≠ r → u.txn q = s.txn q)
      ∧ u.txns.lastTimedOut = (if opens then s.txns.lastTimedOut.set g none else s.txns.lastTimedOut)
      ∧ u.txns.holders = (if opens then s.txns.holders else s.txns.holders.set g none)
      ∧ u.txns.waiting = (if w = none then s.txns.waiting.filter fun q => q != r else s.txns.waiting)
      ∧ (u.egress.get g).bulkLane = (s.egress.get g).bulkLane.filter (fun q => q != d)
      ∧ (u.egress.get g).state = .quiet ∧ (u.egress.get g).hand = none
      ∧ (u.egress.get g).replyLane = (s.egress.get g).replyLane ∧ (u.egress.get g).slot = (s.egress.get g).slot
      ∧ (∀ q, q ≠ g → u.egress.get q = s.egress.get q) ∧ (u.lines.get g).de = false
      ∧ (∀ q, q ≠ g → u.lines.get q = s.lines.get q) ∧ u.receivers = s.receivers.set g .hunt
      ∧ u.time = max s.time ends ∧ u.store = s.store.leave d g
      ∧ s.OnlyCounted u g [.framesSent] ∧ u.table = s.table ∧ u.settings = s.settings ∧ u.mgmt = s.mgmt
      ∧ u.lease = s.lease ∧ u.events = s.events ∧ State.SamePins { s with straps := x } u)
  ∧ ∀ (st : Store) (d : Fin 48),
      (st.desc d = none → st.dropTxn d = st ∧ ∀ g, st.leave d g = st)
      ∧ ∀ x, st.desc d = some x →
        (∀ g m, m = x.pendingEgress.erase g → st.leave d g = if x.state = .ready ∧ m = 0 ∧ x.txn = none
          then st.without (some d) else st.putDesc d (some { x with pendingEgress := m }))
        ∧ st.dropTxn d = if x.state = .ready ∧ x.pendingEgress = 0
          then st.without (some d) else st.putDesc d (some { x with txn := none })

/-- R135, R164, R165, R150, R182: TAIL_GUARD_END of a reply with a restart armed takes it: a Full restart starts the bridge from
the levels on the strap pins at this step, the operand (log 6), with Restarted, detail 1, as its first record; a Traffic
restart frees transactions, lanes and store and keeps the table, the records, the lease and the counters but FramesSent of
the reply. Time moves as log 3 says. -/
def Obligations.ArmedRestartIsTaken : Prop :=
  ∀ (s : State) (g : Seg) (x : Straps) (ends : Nat) (a : Attempt) (h : InHand) (d : Fin 48) (cmd seq : Byte)
    (level : RestartLevel),
    s.held = false → (s.egress.get g).state = .tail ends a → (s.egress.get g).echoes = [] →
    (s.lines.get g).tx = .marking → (s.egress.get g).collision = false → (s.egress.get g).hand = some h →
    h.item = .reply d → (s.egress.get g).replyLane = [⟨d, some ⟨.restart level, cmd, seq⟩⟩] →
    ∃ u, exec (.tailGuardEnd g x) s = .next u ∧ (∀ r, u.txn r = none) ∧ u.txns.waiting = [] ∧ u.mgmt.queue = []
      ∧ u.mgmt.engine = .idle ∧ u.store.freeCells = List.ofFn id ∧ u.store.freeDescs = List.ofFn id
      ∧ (∀ q, u.egress.get q = Egress.empty ∧ u.receivers.get q = .hunt ∧ (u.lines.get q).de = false
          ∧ u.holder q = none)
      ∧ State.SamePins { s with straps := x } u
      ∧ match level with
        | .full => u.time = 0 ∧ u.settings = Settings.default x ∧ u.lease = none
            ∧ (∀ b, u.entry b = .unassigned) ∧ (∀ q, u.mgmt.caches.get q = none)
            ∧ (∀ q i, u.counters.read q i = 0) ∧ u.events.queue = [⟨0, 0, .restarted, none, none, 1⟩]
        | .traffic => u.time = max s.time ends ∧ u.settings = s.settings ∧ u.lease = s.lease ∧ u.table = s.table
            ∧ (∀ q i, ¬ (q = g ∧ i = 1) → u.counters.read q i = s.counters.read q i)
            ∧ u.counters.noticesLost = s.counters.noticesLost ∧ u.counters.sweepsSkipped = s.counters.sweepsSkipped
            ∧ (∀ q, q ≠ g → u.mgmt.caches.get q = s.mgmt.caches.get q)
            ∧ u.events = s.events.raise s.bridge.eventMask (BitVec.ofNat 32 (max s.time ends / 73728)) .restarted
                none none 2

/-- R4, R135, R136, R156: TAIL_GUARD_END of a reply with an own address change armed: the own address is the new one, its entry
is Unassigned, every reply cache entry is empty, no address is pending and no effect stays armed on any copy, a restart's
included, which the table of R136 states and R135 alone may be read not to (log 10); the records, the other entries, the
transactions, the lease and the events stay. Time moves as log 3 says; the operand is the strap pins' levels (log 6). -/
def Obligations.OwnAddressChangeIsTaken : Prop :=
  ∀ (s : State) (g : Seg) (x : Straps) (ends : Nat) (a : Attempt) (h : InHand) (d : Fin 48) (own cmd seq : Byte)
    (l : List ReplyCopy),
    s.held = false → (s.egress.get g).state = .tail ends a → (s.egress.get g).echoes = [] →
    (s.lines.get g).tx = .marking → (s.egress.get g).collision = false → (s.egress.get g).hand = some h →
    h.item = .reply d → (s.egress.get g).replyLane = ⟨d, some ⟨.ownAddress own, cmd, seq⟩⟩ :: l →
    ∃ u, exec (.tailGuardEnd g x) s = .next u
      ∧ u.settings = { s.settings with bridge := { s.bridge with own := own } }
      ∧ u.entry own = .unassigned ∧ (∀ b, b ≠ own → u.entry b = s.entry b) ∧ u.table.sweep = s.table.sweep
      ∧ (∀ q, u.mgmt.caches.get q = none) ∧ u.mgmt.pendingOwn = none ∧ u.mgmt.queue = s.mgmt.queue
      ∧ u.mgmt.engine = s.mgmt.engine ∧ (∀ q c, c ∈ (u.egress.get q).replyLane → c.armed = none)
      ∧ (∀ q, q ≠ g → (u.egress.get q).replyLane.map ReplyCopy.desc = (s.egress.get q).replyLane.map ReplyCopy.desc)
      ∧ u.time = max s.time ends ∧ u.txns = s.txns ∧ u.lease = s.lease ∧ u.events = s.events
      ∧ s.OnlyCounted u g [.framesSent] ∧ State.SamePins { s with straps := x } u

/-! ### Transactions -/

/-- R32, R33: ARBITER_SCAN launches the one waiting transaction whose segments are all free: it holds them, each has a copy at
the tail of its bulk lane, and its copies outstanding are its egress set. R34: it launches nothing while an older
protected one, which cannot be launched, shares a segment with the only other one. R32, R34: of two that wait, the older
is launched where its segments are free; the younger where its segments are, none of them just given to the older, and no
segment is shared with an older that stays and is protected. One launch passes by an older that stays and shares a
segment: its bypass count is raised by 1, up to 7, and at the limit it is protected from then on. -/
def Obligations.ScanLaunches : Prop :=
  (∀ (s : State) (r : Fin 8) (t : Txn) (d : Fin 48) (y : Desc),
      s.held = false → s.txns.waiting = [r] → s.txn r = some t → t.reqDesc = some d → s.store.desc d = some y →
      (∀ g, t.egress.has g = true → s.Free g) →
      ∃ u, exec .arbiterScan s = .next u ∧ u.txns.waiting = []
        ∧ u.txn r = some { t with state := .sending, copies := t.egress } ∧ (∀ q, q ≠ r → u.txn q = s.txn q)
        ∧ (∀ g, u.holder g = if t.egress.has g then some r else s.holder g)
        ∧ (∀ g, u.egress.get g = if t.egress.has g
            then { s.egress.get g with bulkLane := (s.egress.get g).bulkLane ++ [d] } else s.egress.get g)
        ∧ u.store.desc d = some { y with txn := none, pendingEgress := t.egress }
        ∧ (∀ e, e ≠ d → u.store.desc e = s.store.desc e) ∧ u.store.freeCells = s.store.freeCells
        ∧ u.txns.lastTimedOut = s.txns.lastTimedOut ∧ u.time = s.time ∧ u.settings = s.settings ∧ u.table = s.table
        ∧ u.lease = s.lease ∧ u.lines = s.lines ∧ u.receivers = s.receivers ∧ u.mgmt = s.mgmt ∧ u.events = s.events
        ∧ u.counters = s.counters)
  ∧ (∀ (s : State) (o r : Fin 8) (w t : Txn) (g h : Seg),
      s.held = false → s.txns.waiting = [o, r] → s.txn o = some w → s.txn r = some t → w.guarded = true →
      w.egress.has g = true → (s.holder g).isSome = true → w.egress.has h = true → t.egress.has h = true →
      exec .arbiterScan s = .next s)
  ∧ (∀ (s : State) (o r : Fin 8) (w t : Txn) (c d : Fin 48) (x y : Desc) (first second shared : Bool),
      s.held = false → s.txns.waiting = [o, r] → o ≠ r → s.txn o = some w → s.txn r = some t → w.reqDesc = some c →
      t.reqDesc = some d → c ≠ d → s.store.desc c = some x → s.store.desc d = some y →
      (shared = true ↔ ∃ g, w.egress.has g = true ∧ t.egress.has g = true) →
      (first = true ↔ ∀ g, w.egress.has g = true → s.Free g) →
      (second = true ↔ (∀ g, t.egress.has g = true → s.Free g)
        ∧ (shared = true → first = false ∧ w.guarded = false)) →
      ∃ u, exec .arbiterScan s = .next u
        ∧ u.txns.waiting = (if first then [] else [o]) ++ (if second then [] else [r])
        ∧ u.txn o = (if first then some w.launched
            else if second && shared then some (w.passedBy s.bridge.bypassLimit) else some w)
        ∧ u.txn r = (if second then some t.launched else some t) ∧ (∀ q, q ≠ o → q ≠ r → u.txn q = s.txn q)
        ∧ (∀ g, u.holder g = if first && w.egress.has g then some o
            else if second && t.egress.has g then some r else s.holder g)
        ∧ (∀ g, u.egress.get g = if first && w.egress.has g
            then { s.egress.get g with bulkLane := (s.egress.get g).bulkLane ++ [c] }
            else if second && t.egress.has g
            then { s.egress.get g with bulkLane := (s.egress.get g).bulkLane ++ [d] } else s.egress.get g)
        ∧ u.store.desc c = (if first then some { x with txn := none, pendingEgress := w.egress } else some x)
        ∧ u.store.desc d = (if second then some { y with txn := none, pendingEgress := t.egress } else some y)
        ∧ (∀ e, e ≠ c → e ≠ d → u.store.desc e = s.store.desc e) ∧ u.store.freeCells = s.store.freeCells
        ∧ u.store.freeDescs = s.store.freeDescs ∧ u.store.cells = s.store.cells
        ∧ u.txns.lastTimedOut = s.txns.lastTimedOut ∧ u.time = s.time ∧ u.settings = s.settings ∧ u.table = s.table
        ∧ u.lease = s.lease ∧ u.lines = s.lines ∧ u.receivers = s.receivers ∧ u.mgmt = s.mgmt ∧ u.events = s.events
        ∧ u.counters = s.counters ∧ s.SamePins u)

/-- R41, R40, R10: RESPONSE_TIMER_EXPIRY of a poll that awaits its response: its segments are released with its station
as their last timed-out one, Timeouts of the origin is raised, the miss is counted, the notice Timeout is placed where
notices are on and the poll is not superseded, and the record is free. That the miss's own event is raised before
Timeout is the model's order (log 15). Time moves as log 3 says. -/
def Obligations.ResponseTimerExpires : Prop :=
  ∀ (s : State) (r : Fin 8) (t : Txn) (d : Word32),
    s.held = false → s.txn r = some t → t.state = .awaiting → t.deadline = some d → t.copies = 0 → t.outcome = none →
    (s.egress.get t.origin).slot = none →
    ∃ u, exec (.responseTimerExpiry r) s = .next u ∧ u.txn r = none ∧ (∀ q, q ≠ r → u.txn q = s.txn q)
      ∧ (∀ g, u.holder g = if t.windows.has g then none else s.holder g)
      ∧ (∀ g, u.txns.lastTimedOut.get g = if t.windows.has g then some t.station else s.txns.lastTimedOut.get g)
      ∧ s.OnlyCounted u t.origin [.timeouts] ∧ u.time = max s.time (s.momentOf d)
      ∧ u.table = (s.countMiss t.station).table
      ∧ u.events = (((s.advance u.time).countMiss t.station).raise .timeout (some t.origin) (some t.station) 0).events
      ∧ u.txns.waiting = (s.txns.waiting.filter fun q => q != r) ∧ s.SamePins u
      ∧ (u.egress.get t.origin).slot
          = (if (s.active t.origin).notices = true ∧ t.superseded = false then some ⟨.timeout, t.station⟩ else none)
      ∧ (∀ h, h ≠ t.origin → u.egress.get h = s.egress.get h) ∧ u.store = s.store ∧ u.settings = s.settings
      ∧ u.lease = s.lease ∧ u.lines = s.lines ∧ u.receivers = s.receivers ∧ u.mgmt = s.mgmt

/-! ### The station table -/

/-- R8, R3: a learning step for station a, not 0x00, on segment t: none for the own address; an Unassigned entry becomes
Learned on t in the learn class, used, age and misses 0, raising Learned; one Learned on t keeps class and age, is used,
and has no misses; one Learned on another segment is learned anew on t, raising Moved with the old segment; a Static
entry's misses are 0, and it is no longer muted; a Blocked entry stays. -/
def Obligations.LearningStep : Prop :=
  ∀ (s : State) (a : Byte) (t : Seg), a ≠ 0 →
    (a = s.bridge.own → s.learn a t = s)
    ∧ (a ≠ s.bridge.own →
      (s.entry a = .unassigned →
        s.learn a t = (s.putEntry a (.learned t s.bridge.learnClass true 0 0)).raise .learned (some t) (some a) 0)
      ∧ (∀ c used age k, s.entry a = .learned t c used age k → s.learn a t = s.putEntry a (.learned t c true age 0))
      ∧ (∀ v c used age k, s.entry a = .learned v c used age k → v ≠ t →
          s.learn a t
            = (s.putEntry a (.learned t s.bridge.learnClass true 0 0)).raise .moved (some t) (some a) v.byte)
      ∧ (∀ m c k q, s.entry a = .static m c k q → s.learn a t = s.putEntry a (.static m c 0 false))
      ∧ (s.entry a = .blocked → s.learn a t = s))

/-- R10, R11: a miss counted for station a. The count saturates at 15. StationSilent is raised where the new count of a Static
entry that is not muted equals the limit, which mutes it: it is not raised again until the count has returned to 0, which
ends the muting (an answer or a write: the statements LearningStep and StationIsWritten). A limit lowered below the count
mutes the entry too (BridgeIsWritten). -/
def Obligations.MissCounting : Prop :=
  ∀ (s : State) (a : Byte),
    (s.entry a = .unassigned ∨ s.entry a = .blocked → s.countMiss a = s)
    ∧ (∀ g c used age k, s.entry a = .learned g c used age k →
        s.countMiss a = if s.bridge.missLimit.toNat ≠ 0 ∧ s.bridge.missLimit.toNat ≤ min 15 (k.toNat + 1)
          then (s.putEntry a .unassigned).raise .unlearned (some g) (some a) 2
          else s.putEntry a (.learned g c used age (BitVec.ofNat 4 (min 15 (k.toNat + 1)))))
    ∧ ∀ m c k q, s.entry a = .static m c k q →
        s.countMiss a = if s.bridge.missLimit.toNat ≠ 0 ∧ min 15 (k.toNat + 1) = s.bridge.missLimit.toNat ∧ q = false
          then (s.putEntry a (.static m c s.bridge.missLimit true)).raise .stationSilent none (some a)
            (s.bridge.missLimit.setWidth 8)
          else s.putEntry a (.static m c (BitVec.ofNat 4 (min 15 (k.toNat + 1))) q)

/-- R12, R13: AGING_TICK, at the reference time plus the interval: the tick is the new reference time; it starts a sweep
at entry 0x00, or, during a sweep, is skipped, counted and reported. R161: LEASE_EXPIRY clears the holder and raises
LeaseExpired, and changes nothing else. Time moves as log 3 says. -/
def Obligations.TimersFall : Prop :=
  (∀ (s : State) (m : Nat), s.held = false → s.agingDue = some m →
      (s.table.sweep = none → exec .agingTick s = .next { s with
        time := max s.time m
        table := { s.table with
          agingRef := BitVec.ofNat 32 (max s.time m / 73728), sweep := some ⟨BitVec.ofNat 32 (max s.time m / 73728), 0⟩ } })
      ∧ ∀ w, s.table.sweep = some w → exec .agingTick s = .next { s with
        time := max s.time m
        table := { s.table with agingRef := BitVec.ofNat 32 (max s.time m / 73728) }
        counters := { s.counters with sweepsSkipped := saturatingSucc s.counters.sweepsSkipped }
        events := s.events.raise s.bridge.eventMask (BitVec.ofNat 32 (max s.time m / 73728)) .sweepSkipped none none 0 })
  ∧ (∀ (s : State) (l : Lease), s.held = false → s.lease = some l →
      exec .leaseExpiry s = .next { s with
        time := max s.time (s.momentOf l.expiry)
        lease := none
        events := s.events.raise s.bridge.eventMask (BitVec.ofNat 32 (max s.time (s.momentOf l.expiry) / 73728))
          .leaseExpired (some l.holder) none 0 })

/-- R14, R15: SWEEP_VISIT deals with the entry the cursor names and no other, and the cursor advances; the visit to 0xFF
ends the sweep. Time moves as log 3 says, to the moment log 20 gives. -/
def Obligations.SweepVisit : Prop :=
  ∀ (s : State) (w : Sweep), s.held = false → s.table.sweep = some w →
    ∃ u, exec .sweepVisit s = .next u
      ∧ u.table.sweep = (if w.cursor = 0xFF then none else some ⟨w.start, w.cursor + 1⟩)
      ∧ u.table.agingRef = s.table.agingRef ∧ (∀ a, a ≠ w.cursor → u.entry a = s.entry a)
      ∧ (∀ g c age k, s.entry w.cursor = .learned g c true age k →
          u.entry w.cursor = .learned g c false 0 k ∧ u.events = s.events)
      ∧ (∀ g c age k, s.entry w.cursor = .learned g c false age k →
          (age.toNat + 1 < s.bridge.ageLimit.toNat →
            u.entry w.cursor = .learned g c false (age + 1) k ∧ u.events = s.events)
          ∧ (s.bridge.ageLimit.toNat ≤ age.toNat + 1 → u.entry w.cursor = .unassigned
            ∧ u.events = s.events.raise s.bridge.eventMask u.nowMs .unlearned (some g) (some w.cursor) 1))
      ∧ ((∀ g c used age k, s.entry w.cursor ≠ .learned g c used age k) →
          u.entry w.cursor = s.entry w.cursor ∧ u.events = s.events)
      ∧ u.settings = s.settings ∧ u.lease = s.lease ∧ u.txns = s.txns ∧ u.lines = s.lines ∧ u.receivers = s.receivers
      ∧ u.store = s.store ∧ u.egress = s.egress ∧ u.mgmt = s.mgmt ∧ u.counters = s.counters
      ∧ u.time = max s.time (s.momentOf (w.start + 4 * (w.cursor.setWidth 32 + 1))) ∧ s.SamePins u

/-- R17, R141: WALK_VISIT before the last: a Learned entry on a masked segment is made Unassigned and counted, any other
is passed over, no event is raised, and the walk's cursor advances. The visit to 0xFF deals with its entry in the same way
and raises one BulkUnlearn with the cleared count, and the Local is answered Done with it. Time moves as log 3 says. -/
def Obligations.WalkVisit : Prop :=
  (∀ (s : State) (r : Fin 8) (start : Word32) (k : Byte) (m : SegSet) (n : Byte),
      s.held = false → s.mgmt.engine = .busy r (.walk start k m n) → k ≠ 0xFF →
      ((∀ g c used age x, s.entry k = .learned g c used age x → m.has g = false) →
        exec .walkVisit s = .next { s with
          time := max s.time (s.momentOf (start + (k.setWidth 32 + 1)))
          mgmt := { s.mgmt with engine := .busy r (.walk start (k + 1) m n) } })
      ∧ ∀ g c used age x, s.entry k = .learned g c used age x → m.has g = true →
        exec .walkVisit s = .next { s with
          time := max s.time (s.momentOf (start + (k.setWidth 32 + 1)))
          table := s.table.put k .unassigned
          mgmt := { s.mgmt with engine := .busy r (.walk start (k + 1) m (n + 1)) } })
  ∧ (∀ (s : State) (r : Fin 8) (t : Txn) (start : Word32) (m : SegSet) (n total : Byte) (hit : Bool),
      s.held = false → s.mgmt.engine = .busy r (.walk start 0xFF m n) → s.txn r = some t →
      (hit = true ↔ ∃ g c used age x, s.entry 0xFF = .learned g c used age x ∧ m.has g = true) →
      total = (if hit then n + 1 else n) →
      ∃ u, exec .walkVisit s = .next u
        ∧ State.Answered
          (State.raise { s with
            time := max s.time (s.momentOf (start + 256))
            table := if hit then s.table.put 0xFF .unassigned else s.table } .bulkUnlearn none none total)
          u r t .done [total] none)

/-! ### Settings and lease -/

/-- R158, R159: SETTINGS_APPLY at the quiet point of g, of a record that keeps the role, or of a segment that was Off (R160:
nothing to flush): the active record takes the staged one, the mark is cleared, the line unit responds by the table of R55,
the lease is dropped with LeaseDropped, detail 1, where g holds it and the new record has management access off or the role
Off (R162), and SegmentApplied is raised with the role; nothing else changes. -/
def Obligations.ApplyTakesTheStagedRecord : Prop :=
  ∀ (s : State) (g : Seg) (new : SegRecord) (dropped : Bool), s.held = false → s.settings.applyPending.has g = true →
    s.holder g = none → s.receivers.get g = .hunt → (s.egress.get g).state = .quiet → (s.egress.get g).replyLane = [] →
    (s.egress.get g).slot = none → new = s.settings.staged.get g →
    (new.role = (s.active g).role ∨ (s.active g).role = .off) → (∃ h, (s.active h).role = .upstream) →
    (dropped = true ↔ (∃ l, s.lease = some l ∧ l.holder = g) ∧ (new.mgmtAccess = false ∨ new.role = .off)) →
    exec (.settingsApply g) s = .next { s with
      settings := { s.settings with
        active := s.settings.active.set g new, applyPending := s.settings.applyPending.erase g }
      lines := s.lines.set g { s.lines.get g with
        rx := if new.role = .off then .off
          else if (s.active g).role = .off then .recover s.time
          else if (s.active g).rate = new.rate ∧ (s.active g).parity = new.parity ∧ (s.active g).stopBits = new.stopBits
            then (s.lines.get g).rx
          else .recover s.time }
      lease := if dropped then none else s.lease
      events := (if dropped then s.events.raise s.bridge.eventMask s.nowMs .leaseDropped (some g) none 1
        else s.events).raise s.bridge.eventMask s.nowMs .segmentApplied (some g) none new.role.code }

/-- R21, R160: an apply that takes g out of the Downstream role makes every Learned entry naming g Unassigned and no
other, and raises BulkUnlearn, with how many they were, before SegmentApplied. R49: where a transaction waits for g, g
leaves its egress set; one left with none closes NoRoute, is released with its request, and its notice is placed. R49,
R160, R105: an apply that takes g out of the Upstream role abandons its live transaction, cancelled while it waits and
superseded otherwise, and counted in Abandoned while its outcome is open; the bulk lane is flushed, a bulk copy in hand
with it; no entry is unlearned. The order in which the descriptors of this one step are released, the cancelled request
and then the bulk lane, oldest first, is the model's choice (log 15). That a Local of g stays live where g becomes
Upstream is the model's choice (log 29). That any other item in hand, a started notice, stays in hand is the model's
reading (log 14). R159, R162: in both, the lease is dropped, with LeaseDropped, detail 1, before SegmentApplied, where g
holds it and the new record has management access off or the role Off. The line unit responds by the table of R55. -/
def Obligations.LeavingDownstreamUnlearns : Prop :=
  ∀ (s : State) (g : Seg) (new : SegRecord) (dropped : Bool), s.held = false → s.quietPoint g = true →
    new = s.settings.staged.get g →
    (dropped = true ↔ (∃ l, s.lease = some l ∧ l.holder = g) ∧ (new.mgmtAccess = false ∨ new.role = .off)) →
    ∀ v : State, v = { s with
      settings := { s.settings with
        active := s.settings.active.set g new, applyPending := s.settings.applyPending.erase g }
      lines := s.lines.set g { s.lines.get g with
        rx := if new.role = .off then .off
          else if (s.active g).rate = new.rate ∧ (s.active g).parity = new.parity ∧ (s.active g).stopBits = new.stopBits
            then (s.lines.get g).rx
          else .recover s.time } } →
    ((s.active g).role = .downstream → new.role ≠ .downstream →
      (s.txns.waiting = [] ∨ ∃ r t, s.txns.waiting = [r] ∧ s.txn r = some t) →
      ∃ u, exec (.settingsApply g) s = .next u
      ∧ (∀ a, u.entry a = match s.entry a with
          | .learned h c used age k => if h = g then .unassigned else .learned h c used age k
          | .unassigned => .unassigned
          | .static m c k q => .static m c k q
          | .blocked => .blocked)
      ∧ (∀ w, w = s.events.raise s.bridge.eventMask s.nowMs .bulkUnlearn (some g) none
          (BitVec.ofNat 8 (s.table.learnedOn g)) →
        u.events = (if dropped then w.raise s.bridge.eventMask s.nowMs .leaseDropped (some g) none 1 else w).raise
          s.bridge.eventMask s.nowMs .segmentApplied (some g) none new.role.code)
      ∧ u.txns.lastTimedOut = s.txns.lastTimedOut.set g none ∧ u.settings = v.settings ∧ u.bridge = s.bridge
      ∧ u.txns.holders = s.txns.holders ∧ u.lines = v.lines ∧ u.receivers = s.receivers ∧ u.mgmt = s.mgmt
      ∧ u.lease = (if dropped then none else s.lease) ∧ u.time = s.time ∧ s.SamePins u
      ∧ (s.txns.waiting = [] → (∀ r, u.txn r = s.txn r) ∧ u.txns.waiting = [] ∧ u.egress = s.egress
        ∧ u.store = s.store ∧ u.counters = s.counters)
      ∧ ∀ r t, s.txns.waiting = [r] → s.txn r = some t → (∀ q, q ≠ r → u.txn q = s.txn q)
        ∧ (t.egress.has g = false → u.txn r = some t)
        ∧ (t.egress.has g = true → t.egress.erase g ≠ 0 → u.txn r = some { t with egress := t.egress.erase g })
        ∧ (t.egress.has g = false ∨ t.egress.erase g ≠ 0 → u.txns.waiting = [r] ∧ u.egress = s.egress
          ∧ u.store = s.store ∧ u.counters = s.counters)
        ∧ (t.egress.has g = true → t.egress.erase g = 0 → t.copies = 0 → t.outcome = none →
          u.txn r = none ∧ u.txns.waiting = []
          ∧ (∀ d y, t.reqDesc = some d → s.store.desc d = some y → y.state = .ready → y.pendingEgress = 0 →
            u.store = { s.store.putDesc d none with
              freeCells := s.store.freeCells ++ y.chain, freeDescs := s.store.freeDescs ++ [d] })
          ∧ ∀ w, w = (if t.superseded then v else v.notify t.origin .noRoute t.station) →
            u.egress = w.egress ∧ u.counters = w.counters))
    ∧ ((s.active g).role = .upstream → new.role ≠ .upstream →
      ∃ u, exec (.settingsApply g) s = .next u ∧ u.table = s.table ∧ u.settings = v.settings ∧ u.lines = v.lines
      ∧ u.events = (if dropped then s.events.raise s.bridge.eventMask s.nowMs .leaseDropped (some g) none 1
        else s.events).raise s.bridge.eventMask s.nowMs .segmentApplied (some g) none new.role.code
      ∧ u.txns.holders = s.txns.holders ∧ u.txns.lastTimedOut = s.txns.lastTimedOut ∧ u.receivers = s.receivers
      ∧ u.mgmt = s.mgmt ∧ u.lease = (if dropped then none else s.lease) ∧ u.time = s.time ∧ s.SamePins u
      ∧ (∀ h, h ≠ g → u.egress.get h = s.egress.get h)
      ∧ (∃ k, u.egress.get g = { s.egress.get g with bulkLane := [], hand := k }
        ∧ ∀ i, k = some i ↔ (s.egress.get g).hand = some i ∧ ∀ d, i.item ≠ .bulk d)
      ∧ (s.liveOf g = none → u.txns = s.txns ∧ u.counters = s.counters
        ∧ u.store = (s.egress.get g).bulkLane.foldl (fun st d => st.leave d g) s.store)
      ∧ ∀ l w, s.liveOf g = some l → s.txn l = some w → (∀ q, q ≠ l → u.txn q = s.txn q)
        ∧ (w.state ≠ .pending → u.txn l = some { w with superseded := true } ∧ u.txns.waiting = s.txns.waiting
          ∧ s.OnlyCounted u g (if w.outcome = none then [.abandoned] else [])
          ∧ u.store = (s.egress.get g).bulkLane.foldl (fun st d => st.leave d g) s.store)
        ∧ (w.state = .pending → w.outcome = none → w.copies = 0 → ∀ e, w.reqDesc = some e →
          u.txn l = none ∧ u.txns.waiting = (s.txns.waiting.filter fun q => q != l) ∧ s.OnlyCounted u g [.abandoned]
          ∧ u.store = (s.egress.get g).bulkLane.foldl (fun st d => st.leave d g) (s.store.dropTxn e)))

/-! ### Management -/

/-- R131, R132: a request shorter than 4 characters is refused with BadLength, one that fails its check with BadCheck, one with
another number of arguments than its command's with BadLength, and none is cached: every cache entry stays. One whose
command is not in the table is refused with BadCommand, one that needs a lease nobody holds with NoLease, one that needs a
lease another segment holds with NotHolder, and all are cached. R133: a Local whose command and sequence equal those of its
origin's cache entry is answered with the cached reply, and the entry is not changed. R135: a deferred effect of the entry
is armed on the new copy; an own address change only where the check of R4 passes, and its address is then pending again,
earlier copies armed with another disarmed (log 25); where it fails the entry is no match, and a WriteBridge of that
address is answered Conflict. All this is said of the row of every command. R147: the lease check refuses a command that
needs the lease with NoLease where no segment holds it, with NotHolder where another segment than the origin does, and
passes it otherwise; the other commands pass. Section 7.4: the argument counts. -/
def Obligations.RequestsNotCarriedOut : Prop :=
  (∀ (s : State) (r : Fin 8) (t : Txn) (st : Status) (claims : Nat), s.AtHead r t →
      ((s.requestOf t).length < 4 ∧ st = .badLength
        ∨ 4 ≤ (s.requestOf t).length ∧ wellChecked (s.requestOf t) = false ∧ st = .badCheck
        ∨ s.Fresh r t ∧ st = .badLength ∧ ∃ c, MgmtCommand.ofCode t.command = some c
          ∧ c.argCountOk (argsOf (s.requestOf t)).length = false) →
      ∀ reply, reply = replyFrame s.bridge.own t.command t.sequence st [] →
      ∃ u, exec (takingRow (MgmtCommand.ofCode t.command) claims) s = .next u
        ∧ s.dequeue.OnlyReplied u r t reply none ∧ u.mgmt.caches = s.mgmt.caches ∧ s.Sends u t.origin reply)
  ∧ (∀ (s : State) (r : Fin 8) (t : Txn) (claims : Nat), s.Fresh r t →
      (MgmtCommand.ofCode t.command = none →
        ∃ u, exec .badCommand s = .next u ∧ s.dequeue.Answered u r t .badCommand [] none)
      ∧ ∀ c, MgmtCommand.ofCode t.command = some c → c.argCountOk (argsOf (s.requestOf t)).length = true →
        c.needsLease = true →
        (s.lease = none → ∃ u, exec (takingRow (some c) claims) s = .next u
          ∧ s.dequeue.Answered u r t .noLease [] none)
        ∧ ∀ l, s.lease = some l → l.holder ≠ t.origin → ∃ u, exec (takingRow (some c) claims) s = .next u
          ∧ s.dequeue.Answered u r t .notHolder [] none)
  ∧ (∀ (s : State) (r : Fin 8) (t : Txn) (c : CacheEntry) (claims : Nat), s.AtHead r t → 4 ≤ (s.requestOf t).length →
      wellChecked (s.requestOf t) = true → s.mgmt.caches.get t.origin = some c → c.command = t.command →
      c.sequence = t.sequence →
      (s.store.Lawful → c.deferred = none ∨ (∃ level, c.deferred = some (.restart level)) →
        ∃ u, exec (takingRow (MgmtCommand.ofCode t.command) claims) s = .next u
          ∧ s.dequeue.OnlyReplied u r t c.reply (c.deferred.map fun e => ⟨e, t.command, t.sequence⟩)
          ∧ u.mgmt.caches = s.mgmt.caches ∧ s.Sends u t.origin c.reply)
      ∧ ∀ a, c.deferred = some (.ownAddress a) →
        (s.store.Lawful → a ≠ s.bridge.own → s.entry a = .unassigned →
          ∀ w : State, w = (if s.mgmt.pendingOwn = some a then s.dequeue else { s.dequeue with
            egress := PerSeg.tabulate fun g => { s.egress.get g with
              replyLane := (s.egress.get g).replyLane.map fun c => { c with
                armed := match c.armed with
                  | some ⟨.ownAddress _, _, _⟩ => none
                  | other => other } }
            mgmt := { s.dequeue.mgmt with pendingOwn := some a } }) →
          ∃ u, exec (takingRow (MgmtCommand.ofCode t.command) claims) s = .next u
            ∧ w.OnlyReplied u r t c.reply (some ⟨.ownAddress a, t.command, t.sequence⟩)
            ∧ u.mgmt.caches = s.mgmt.caches ∧ w.Sends u t.origin c.reply)
        ∧ (a = s.bridge.own ∨ s.entry a ≠ .unassigned → s.Fresh r t
          ∧ ∀ b : BridgeRecord, s.Carries r t .writeBridge b.encode → b.wf = true → b.own = a → a ≠ s.bridge.own →
            ∃ u, exec .writeBridge s = .next u ∧ s.dequeue.Answered u r t .conflict [] none))
  ∧ (∀ (s : State) (g : Seg) (c : MgmtCommand),
      (c.needsLease = true ↔ c = .writeStation ∨ c = .clearLearned ∨ c = .writeSegment ∨ c = .applySegment
        ∨ c = .writeBridge ∨ c = .restart ∨ c = .restartSegment)
      ∧ (c.needsLease = false → s.leaseRefusal g c = none)
      ∧ (c.needsLease = true → s.lease = none → s.leaseRefusal g c = some .noLease)
      ∧ (∀ l, c.needsLease = true → s.lease = some l → l.holder ≠ g → s.leaseRefusal g c = some .notHolder)
      ∧ (∀ l, s.lease = some l → l.holder = g → s.leaseRefusal g c = none)
      ∧ ∀ n, c.argCountOk n = true ↔
        (c = .identify ∨ c = .readStatus ∨ c = .readBridge ∨ c = .dropLease) ∧ n = 0
          ∨ (c = .readStation ∨ c = .clearLearned ∨ c = .applySegment ∨ c = .readEvents ∨ c = .takeLease ∨ c = .restart
            ∨ c = .restartSegment) ∧ n = 1
          ∨ (c = .readStationRange ∨ c = .readSegment) ∧ n = 2
          ∨ (c = .readCounters ∨ c = .readClearCounters) ∧ n = 3
          ∨ c = .writeStation ∧ n = 4 ∨ c = .writeSegment ∧ n = 14 ∨ c = .writeBridge ∧ n = 21 ∨ c = .echo ∧ n ≤ 88)

/-- R92, R103, R110, R134: the reply of an executed Local that is not superseded, whose origin is not Off and has room in its
reply lane, where the store has a descriptor and cells for it: a copy of the built reply joins the tail of the lane. Every
descriptor but the reply's and the request's stays, and so do the characters in every cell outside the reply's chain. Said
of IDENTIFY. -/
def Obligations.ReplyIsHandedOn : Prop :=
  ∀ (s : State) (r : Fin 8) (t : Txn), s.Carries r t .identify [] → t.superseded = false →
    (s.active t.origin).role ≠ .off → (s.egress.get t.origin).replyLane.length < 2 →
    s.store.freeDescs ≠ [] → 1 ≤ s.store.freeCells.length →
    ∃ u d, exec .identify s = .next u
      ∧ (u.egress.get t.origin).replyLane = (s.egress.get t.origin).replyLane ++ [⟨d, none⟩]
      ∧ (u.store.desc d).map Desc.cls = some .reply ∧ (u.store.desc d).map Desc.length = some 10
      ∧ u.store.values d
        = replyFrame s.bridge.own t.command t.sequence .done [0xAB, 0x04, 0x02, s.bridge.own, 0x04]
      ∧ (∀ e, e ≠ d → t.reqDesc ≠ some e → u.store.desc e = s.store.desc e)
      ∧ (∀ y (c : Fin 128), u.store.desc d = some y → c ∉ y.chain → u.store.cells[c] = s.store.cells[c])
      ∧ u.counters = s.counters

/-- R92, R103: a reply copied into cells reads back character for character, the first with mark 1; the descriptor is Ready, of
class Reply, from the bridge; the head cells and the head descriptor are taken. Every other descriptor stays, and so do
the characters in every other cell. -/
def Obligations.AllocatedReplyReadsBack : Prop :=
  ∀ (st st' : Store) (reply : List Byte) (d : Fin 48), st.freeCells.Nodup → reply ≠ [] →
    st.allocReply reply = some (d, st') →
    (∀ k, st'.charAt d k = (reply[k]?).map fun b => ⟨b, k == 0⟩)
      ∧ st.freeDescs = d :: st'.freeDescs ∧ st'.freeCells = st.freeCells.drop ((reply.length + 15) / 16)
      ∧ (∀ e, e ≠ d → st'.desc e = st.desc e)
      ∧ (∀ c : Fin 128, c ∉ st.freeCells.take ((reply.length + 15) / 16) → st'.cells[c] = st.cells[c])
      ∧ ∃ chain, st'.desc d = some ⟨.ready, .reply, none, reply.getD 0 0, reply.length, chain, false, none, 0⟩
        ∧ chain = st.freeCells.take ((reply.length + 15) / 16)

/-- R137, R138, R139, R142, R144: the commands that read and change nothing but the reply: IDENTIFY, READ_STATUS,
READ_STATION, READ_SEGMENT, READ_BRIDGE. The reply is cached and handed on (R134), which takes a descriptor, cells and a
place in the reply lane, and the request's descriptor and the record are given up; no other descriptor, cell, lane or
counter changes. That the lease seconds of READ_STATUS are 1 for an expiry reached and not yet taken is the model's
reading (log 20). -/
def Obligations.ReadCommandsAnswer : Prop :=
  ∀ (s : State) (r : Fin 8) (t : Txn) (args : List Byte),
    (s.Carries r t .identify args → ∃ u, exec .identify s = .next u
      ∧ s.dequeue.Answered u r t .done [0xAB, 0x04, 0x02, s.bridge.own, 0x04] none)
    ∧ (s.Carries r t .readStatus args → ∃ u, exec .readStatus s = .next u
      ∧ s.dequeue.Answered u r t .done
        [BitVec.ofNat 8 s.store.freeCells.length, BitVec.ofNat 8 s.store.freeDescs.length,
         BitVec.ofNat 8 s.recordsInUse, BitVec.ofNat 8 s.events.queue.length,
         (s.lease.map fun l => l.holder.byte).getD 0xFF,
         (s.lease.map fun l => BitVec.ofNat 8 (s.leaseSeconds l)).getD 0,
         if s.table.sweep.isSome then 1 else 0, s.settings.applyPending.setWidth 8] none)
    ∧ (∀ a, s.Carries r t .readStation [a] → ∃ u, exec .readStation s = .next u
      ∧ s.dequeue.Answered u r t .done (s.entry a).encode none)
    ∧ (∀ g, s.Carries r t .readSegment [Seg.byte g, 0] → ∃ u, exec .readSegment s = .next u
      ∧ s.dequeue.Answered u r t .done (s.active g).encode none)
    ∧ (∀ g, s.Carries r t .readSegment [Seg.byte g, 1] → ∃ u, exec .readSegment s = .next u
      ∧ s.dequeue.Answered u r t .done (s.settings.staged.get g).encode none)
    ∧ (∀ a b, s.Carries r t .readSegment [a, b] → 3 < a.toNat ∨ 1 < b.toNat → ∃ u, exec .readSegment s = .next u
      ∧ s.dequeue.Answered u r t .badArgument [] none)
    ∧ (s.Carries r t .readBridge args → ∃ u, exec .readBridge s = .next u
      ∧ s.dequeue.Answered u r t .done s.bridge.encode none)

/-- R152: Echo is not checked for the lease; its results are its argument characters, unchanged and in order; with more than 88
it is refused with BadLength; no state changes but the reply, its descriptor and cells, and what the end of an execution
frees (R134). -/
def Obligations.EchoReturnsItsArguments : Prop :=
  ∀ (s : State) (r : Fin 8) (t : Txn) (args : List Byte),
    (s.Carries r t .echo args → ∃ u, exec .echo s = .next u ∧ s.dequeue.Answered u r t .done args none)
    ∧ (s.Fresh r t → MgmtCommand.ofCode t.command = some .echo → argsOf (s.requestOf t) = args → args.length ≤ 88 →
        s.Carries r t .echo args)
    ∧ (s.Fresh r t → MgmtCommand.ofCode t.command = some .echo → 88 < (argsOf (s.requestOf t)).length →
        ∀ reply, reply = replyFrame s.bridge.own t.command t.sequence .badLength [] →
        ∃ u, exec .echo s = .next u ∧ s.dequeue.OnlyReplied u r t reply none ∧ u.mgmt.caches = s.mgmt.caches
          ∧ s.Sends u t.origin reply)

/-- R139, R130: READ_STATION_RANGE: the number returned, cut at 0xFF, then the entries in ascending order; a count of 0 or
above 16 is refused. The entries are read one claim at a time (R130): taken with fewer claims than are left, the row reads as many
entries as its claims, and the engine stays BUSY with the rest; the next READ_STATION_RANGE goes on with it, and after the
last entry the Local is answered. How many claims a row makes is its operand (log 9). -/
def Obligations.StationRangeIsRead : Prop :=
  (∀ (s : State) (r : Fin 8) (t : Txn) (first count : Byte) (claims n : Nat),
    s.Carries r t .readStationRange [first, count] →
    (1 ≤ count.toNat → count.toNat ≤ 16 → n = min count.toNat (256 - first.toNat) →
      (n ≤ claims → ∃ u, exec (.readStationRange claims) s = .next u
        ∧ s.dequeue.Answered u r t .done
          (BitVec.ofNat 8 n :: (List.range n).flatMap fun i => (s.entry (BitVec.ofNat 8 (first.toNat + i))).encode) none)
      ∧ (claims < n → exec (.readStationRange claims) s = .next { s with
        mgmt := { s.mgmt with
          queue := s.mgmt.queue.tail
          engine := .busy r (.stations (first.toNat + claims) (n - claims) (BitVec.ofNat 8 n ::
            (List.range claims).flatMap fun i => (s.entry (BitVec.ofNat 8 (first.toNat + i))).encode)) } }))
    ∧ (count.toNat = 0 ∨ 16 < count.toNat → ∃ u, exec (.readStationRange claims) s = .next u
      ∧ s.dequeue.Answered u r t .badArgument [] none))
  ∧ (∀ (s : State) (r : Fin 8) (t : Txn) (next left claims : Nat) (acc : List Byte),
    s.held = false → s.mgmt.engine = .busy r (.stations next left acc) → s.txn r = some t →
    (claims < left → exec (.readStationRange claims) s = .next { s with
      mgmt := { s.mgmt with
        engine := .busy r (.stations (next + claims) (left - claims) (acc ++
          (List.range claims).flatMap fun i => (s.entry (BitVec.ofNat 8 (next + i))).encode)) } })
    ∧ (left ≤ claims → ∃ u, exec (.readStationRange claims) s = .next u
      ∧ s.Answered u r t .done
        (acc ++ (List.range left).flatMap fun i => (s.entry (BitVec.ofNat 8 (next + i))).encode) none))

/-- R20, R140: WRITE_STATION. The first failing check gives the status and leaves every entry; a write that passes replaces the
entry of its address whole, with no misses and not muted, and no other, and raises no event. -/
def Obligations.StationIsWritten : Prop :=
  ∀ (s : State) (r : Fin 8) (t : Txn) (a kind mask cls : Byte), s.Carries r t .writeStation [a, kind, mask, cls] →
    ∃ u, exec .writeStation s = .next u
      ∧ (if a = 0 then s.dequeue.Answered u r t .badArgument [] none
        else if a = s.bridge.own ∨ s.mgmt.pendingOwn = some a then s.dequeue.Answered u r t .conflict [] none
        else if kind = 0 then (s.dequeue.putEntry a .unassigned).Answered u r t .done [] none
        else if kind = 3 then (s.dequeue.putEntry a .blocked).Answered u r t .done [] none
        else if kind = 1 ∧ 1 ≤ mask.toNat ∧ mask.toNat < 16 ∧ cls.toNat < 4 then
          (s.dequeue.putEntry a (.static (mask.setWidth 4) (cls.setWidth 2) 0 false)).Answered u r t .done [] none
        else s.dequeue.Answered u r t .badArgument [] none)

/-- R141, R17: CLEAR_LEARNED with a valid mask starts the walk at entry 0x00, now; nothing else changes until its visits. A mask
of 0x00 or with a bit of 0x10 or above is refused. -/
def Obligations.ClearLearnedStartsTheWalk : Prop :=
  ∀ (s : State) (r : Fin 8) (t : Txn) (mask : Byte), s.Carries r t .clearLearned [mask] →
    (1 ≤ mask.toNat → mask.toNat < 16 → exec .clearLearned s = .next { s with
      mgmt := { s.mgmt with queue := s.mgmt.queue.tail, engine := .busy r (.walk s.nowMs 0 (mask.setWidth 4) 0) } })
    ∧ (mask.toNat = 0 ∨ 16 ≤ mask.toNat → ∃ u, exec .clearLearned s = .next u
      ∧ s.dequeue.Answered u r t .badArgument [] none)

/-- R142, R153: WRITE_SEGMENT. Its checks in order: the segment number is at most 3; the 13 characters are a record in its
ranges; some segment would stay Upstream. The first that fails gives BadArgument, and nothing is written. A write that
passes replaces the staged record of its segment whole and touches nothing else but the reply. -/
def Obligations.SegmentIsStaged : Prop :=
  (∀ (s : State) (r : Fin 8) (t : Txn) (g : Seg) (rec : SegRecord),
    s.Carries r t .writeSegment (Seg.byte g :: rec.encode) → rec.wf = true →
    ∃ u, exec .writeSegment s = .next u
      ∧ ((∃ h, (if h = g then rec.role
            else if s.settings.applyPending.has h then (s.settings.staged.get h).role else (s.active h).role)
              = .upstream) →
          State.Answered { s.dequeue with settings := { s.settings with staged := s.settings.staged.set g rec } } u r t
            .done [] none)
      ∧ ((∀ h, (if h = g then rec.role
            else if s.settings.applyPending.has h then (s.settings.staged.get h).role else (s.active h).role)
              ≠ .upstream) →
          s.dequeue.Answered u r t .badArgument [] none))
  ∧ (∀ (s : State) (r : Fin 8) (t : Txn) (n : Byte) (l : List Byte), s.Carries r t .writeSegment (n :: l) →
      (4 ≤ n.toNat ∨ ∀ rec : SegRecord, rec.wf = true → l ≠ rec.encode) →
      ∃ u, exec .writeSegment s = .next u ∧ s.dequeue.Answered u r t .badArgument [] none)

/-- R143, R157: APPLY_SEGMENT marks every segment of a valid mask apply-pending, and is answered Accepted with the marks after
it; it is refused where the mask names none or none of S0 to S3, or could leave no segment Upstream. -/
def Obligations.ApplyIsMarked : Prop :=
  ∀ (s : State) (r : Fin 8) (t : Txn) (mask : Byte), s.Carries r t .applySegment [mask] →
    ∃ u, exec .applySegment s = .next u
      ∧ (1 ≤ mask.toNat → mask.toNat < 16 →
          (∃ h, (if SegSet.has (mask.setWidth 4 ||| s.settings.applyPending) h
            then (s.settings.staged.get h).role else (s.active h).role) = .upstream) →
          State.Answered { s.dequeue with settings := { s.settings with
              applyPending := s.settings.applyPending ||| mask.setWidth 4 } } u r t .accepted
            [(s.settings.applyPending ||| mask.setWidth 4).setWidth 8] none)
      ∧ (mask.toNat = 0 ∨ 16 ≤ mask.toNat
          ∨ (∀ h, (if SegSet.has (mask.setWidth 4 ||| s.settings.applyPending) h
            then (s.settings.staged.get h).role else (s.active h).role) ≠ .upstream) →
          s.dequeue.Answered u r t .badArgument [] none)

/-- R144, R4, R12, R135, R155: WRITE_BRIDGE of a record in its ranges. Its own address aside it takes effect at once, and in
every lane armed own address changes are disarmed, restarts not; a Static entry whose count the miss limit is lowered below
is muted (R11; that Off lies above every limit is log 24); a new own address whose entry is Unassigned becomes pending
and is the reply's deferred effect, one whose entry is not gives Conflict and changes nothing. Characters that are no record
in its ranges are refused with BadArgument, and nothing is written. -/
def Obligations.BridgeIsWritten : Prop :=
  (∀ (s : State) (r : Fin 8) (t : Txn) (b : BridgeRecord), s.Carries r t .writeBridge b.encode → b.wf = true →
    ∃ u, exec .writeBridge s = .next u
      ∧ (b.own ≠ s.bridge.own → s.entry b.own ≠ .unassigned → s.dequeue.Answered u r t .conflict [] none)
      ∧ (b.own = s.bridge.own ∨ s.entry b.own = .unassigned →
        State.Answered
          { s.dequeue with
            settings := { s.settings with bridge := { b with own := s.bridge.own } }
            table := { s.table with
              entries := s.table.entries.map fun e => match e with
                | .static m c k q => .static m c k (q || decide (b.missLimit.toNat ≠ 0
                    ∧ (s.bridge.missLimit.toNat = 0 ∨ b.missLimit.toNat < s.bridge.missLimit.toNat)
                    ∧ b.missLimit.toNat < k.toNat))
                | other => other
              agingRef := if s.bridge.agingInterval = 0 ∧ b.agingInterval ≠ 0 then s.nowMs else s.table.agingRef }
            egress := PerSeg.tabulate fun g => { s.egress.get g with
              replyLane := (s.egress.get g).replyLane.map fun c => { c with
                armed := match c.armed with
                  | some ⟨.ownAddress _, _, _⟩ => none
                  | other => other } }
            mgmt := { s.dequeue.mgmt with pendingOwn := if b.own = s.bridge.own then none else some b.own } }
          u r t .done [] (if b.own = s.bridge.own then none else some (.ownAddress b.own))))
  ∧ (∀ (s : State) (r : Fin 8) (t : Txn) (l : List Byte), s.Carries r t .writeBridge l →
      (∀ b : BridgeRecord, b.wf = true → l ≠ b.encode) →
      ∃ u, exec .writeBridge s = .next u ∧ s.dequeue.Answered u r t .badArgument [] none)

/-- R145, R176, R179: READ_COUNTERS and READ_CLEAR_COUNTERS of a segment or of the bridge-wide counters, code 4: the counters in
ascending order, 4 characters each; the second sets to 0 each counter it reads and no other. A range beyond the last
counter, a count of 0 or a code above 4 is refused. The counters are read one claim at a time (R130): taken with fewer claims
than are left, a row reads as many counters as its claims, and the engine stays BUSY with the rest; the next such row goes on with
it, and after the last counter the Local is answered. How many claims a row makes is its operand (log 9). -/
def Obligations.CountersAreRead : Prop :=
  (∀ (s : State) (r : Fin 8) (t : Txn) (claims last : Nat) (val : Nat → Word32) (code first count : Byte),
    (s.counters.Holds code.toNat last val → 1 ≤ count.toNat → first.toNat + count.toNat ≤ last →
      (s.Carries r t .readCounters [code, first, count] →
        (count.toNat ≤ claims → ∃ u, exec (.readCounters claims) s = .next u
          ∧ s.dequeue.Answered u r t .done ((List.range count.toNat).flatMap fun i => bytes4 (val (first.toNat + i))) none)
        ∧ (claims < count.toNat → exec (.readCounters claims) s = .next { s with
          mgmt := { s.mgmt with
            queue := s.mgmt.queue.tail
            engine := .busy r (.counters false code.toNat (first.toNat + claims) (count.toNat - claims)
              ((List.range claims).flatMap fun i => bytes4 (val (first.toNat + i)))) } }))
      ∧ (s.Carries r t .readClearCounters [code, first, count] →
        (count.toNat ≤ claims → ∃ u v, exec (.readClearCounters claims) s = .next u
          ∧ s.counters.Zeroed v code.toNat first.toNat count.toNat
          ∧ State.Answered { s.dequeue with counters := v } u r t .done
            ((List.range count.toNat).flatMap fun i => bytes4 (val (first.toNat + i))) none)
        ∧ (claims < count.toNat → ∃ v, s.counters.Zeroed v code.toNat first.toNat claims
          ∧ exec (.readClearCounters claims) s = .next { s with
            counters := v
            mgmt := { s.mgmt with
              queue := s.mgmt.queue.tail
              engine := .busy r (.counters true code.toNat (first.toNat + claims) (count.toNat - claims)
                ((List.range claims).flatMap fun i => bytes4 (val (first.toNat + i)))) } })))
    ∧ (4 < code.toNat ∨ count.toNat = 0 ∨ (code.toNat < 4 ∧ 14 < first.toNat + count.toNat)
        ∨ (code.toNat = 4 ∧ 2 < first.toNat + count.toNat) →
      (s.Carries r t .readCounters [code, first, count] → ∃ u, exec (.readCounters claims) s = .next u
        ∧ s.dequeue.Answered u r t .badArgument [] none)
      ∧ (s.Carries r t .readClearCounters [code, first, count] → ∃ u, exec (.readClearCounters claims) s = .next u
        ∧ s.dequeue.Answered u r t .badArgument [] none)))
  ∧ (∀ (s : State) (r : Fin 8) (t : Txn) (clear : Bool) (code next left claims last : Nat) (val : Nat → Word32)
      (acc : List Byte),
    s.held = false → s.mgmt.engine = .busy r (.counters clear code next left acc) → s.txn r = some t →
    s.counters.Holds code last val → next + left ≤ last →
    ∀ (w : Instr), w = (if clear then .readClearCounters claims else .readCounters claims) →
    (claims < left → ∃ v, (if clear then s.counters.Zeroed v code next claims else v = s.counters)
      ∧ exec w s = .next { s with
        counters := v
        mgmt := { s.mgmt with
          engine := .busy r (.counters clear code (next + claims) (left - claims)
            (acc ++ (List.range claims).flatMap fun i => bytes4 (val (next + i)))) } })
    ∧ (left ≤ claims → ∃ u v, exec w s = .next u
      ∧ (if clear then s.counters.Zeroed v code next left else v = s.counters)
      ∧ State.Answered { s with counters := v } u r t .done
        (acc ++ (List.range left).flatMap fun i => bytes4 (val (next + i))) none))

/-- R146, R173: READ_EVENTS removes up to n of the oldest records, zeroes the events-lost count, and returns both; sequence
numbers are not affected. An n of 0 or above 8 is refused and removes nothing. -/
def Obligations.EventsAreRead : Prop :=
  ∀ (s : State) (r : Fin 8) (t : Txn) (n : Byte), s.Carries r t .readEvents [n] →
    ∃ u, exec .readEvents s = .next u
      ∧ (if 1 ≤ n.toNat ∧ n.toNat ≤ 8 then
          State.Answered
            { s.dequeue with events := ⟨s.events.queue.drop n.toNat, s.events.nextSeq, 0⟩ } u r t .done
            (s.events.lost :: BitVec.ofNat 8 (min n.toNat s.events.queue.length) ::
              (s.events.queue.take n.toNat).flatMap EventRecord.encode) none
        else s.dequeue.Answered u r t .badArgument [] none)

/-- R148, R161: TAKE_LEASE with n seconds: 0 is refused with BadArgument, an origin without management access with Conflict;
where none holds the lease the origin takes it, expiring n seconds from now, raising LeaseTaken; the holder's own is set
anew with no event; another's gives LeaseBusy with the holder and its remaining whole seconds, and changes nothing. With
up to 255 seconds left those are the milliseconds left in seconds, rounded up; that an expiry reached and not yet taken
counts as 1, the least that R148 allows, is the model's reading (log 20). -/
def Obligations.LeaseIsTaken : Prop :=
  (∀ (s : State) (r : Fin 8) (t : Txn) (n : Byte), s.Carries r t .takeLease [n] →
    ∃ u, exec .takeLease s = .next u
      ∧ (n = 0 → s.dequeue.Answered u r t .badArgument [] none)
      ∧ (n ≠ 0 → (s.active t.origin).mgmtAccess = false → s.dequeue.Answered u r t .conflict [] none)
      ∧ (n ≠ 0 → (s.active t.origin).mgmtAccess = true →
        (s.lease = none → State.Answered
          { s.dequeue with
            lease := some ⟨t.origin, s.nowMs + BitVec.ofNat 32 (1000 * n.toNat)⟩
            events := s.events.raise s.bridge.eventMask s.nowMs .leaseTaken (some t.origin) none n }
          u r t .done [t.origin.byte, n] none)
        ∧ (∀ l, s.lease = some l → l.holder = t.origin → State.Answered
          { s.dequeue with lease := some ⟨t.origin, s.nowMs + BitVec.ofNat 32 (1000 * n.toNat)⟩ }
          u r t .done [t.origin.byte, n] none)
        ∧ (∀ l, s.lease = some l → l.holder ≠ t.origin → s.dequeue.Answered u r t .leaseBusy
          [l.holder.byte, BitVec.ofNat 8 (s.leaseSeconds l)] none)))
  ∧ (∀ (s : State) (l : Lease), (l.expiry - s.nowMs).toNat ≤ 255000 →
      1 ≤ s.leaseSeconds l ∧ s.leaseSeconds l ≤ 255 ∧ (l.expiry - s.nowMs).toNat ≤ 1000 * s.leaseSeconds l
        ∧ 1000 * s.leaseSeconds l < (l.expiry - s.nowMs).toNat + (if l.expiry = s.nowMs then 1001 else 1000))

/-- R149: DROP_LEASE from the holder clears the holder and raises LeaseDropped with detail 0; from any other segment, or where
none holds it, it is refused with NotHolder, as after an expiry taken first. -/
def Obligations.LeaseIsDropped : Prop :=
  ∀ (s : State) (r : Fin 8) (t : Txn), s.Carries r t .dropLease [] →
    ∃ u, exec .dropLease s = .next u
      ∧ (∀ l, s.lease = some l → l.holder = t.origin → State.Answered
          { s.dequeue with
            lease := none
            events := s.events.raise s.bridge.eventMask s.nowMs .leaseDropped (some t.origin) none 0 }
          u r t .done [] none)
      ∧ (∀ l, s.lease = some l → l.holder ≠ t.origin → s.dequeue.Answered u r t .notHolder [] none)
      ∧ (s.lease = none → s.dequeue.Answered u r t .notHolder [] none)

/-- R150, R135: RESTART with level 1 or 2 is answered Accepted, the restart being the reply's deferred effect; nothing is
restarted yet. Any other level is refused. -/
def Obligations.RestartIsDeferred : Prop :=
  ∀ (s : State) (r : Fin 8) (t : Txn) (n : Byte), s.Carries r t .restart [n] →
    ∃ u, exec .restart s = .next u
      ∧ (if n = 1 then s.dequeue.Answered u r t .accepted [] (some (.restart .full))
        else if n = 2 then s.dequeue.Answered u r t .accepted [] (some (.restart .traffic))
        else s.dequeue.Answered u r t .badArgument [] none)

/-- R151: RESTART_SEGMENT takes the Segment restart of another segment before its reply is built; a number above 3 is refused
with BadArgument, the origin's own with Conflict. Said of states in which no segment holds the Local (the law of R31) and no
frame in assembly has its record (the law of R71). -/
def Obligations.SegmentIsRestarted : Prop :=
  ∀ (s : State) (r : Fin 8) (t : Txn) (n : Byte), s.Carries r t .restartSegment [n] →
    ∃ u, exec .restartSegment s = .next u
      ∧ (4 ≤ n.toNat → s.dequeue.Answered u r t .badArgument [] none)
      ∧ (n = t.origin.byte → s.dequeue.Answered u r t .conflict [] none)
      ∧ ∀ g : Seg, n = g.byte → g ≠ t.origin → s.holder g ≠ some r →
          (∀ f, (s.receivers.get g).frame = some f → f.txn ≠ some r) →
          (s.dequeue.segmentRestart g).Answered u r t .done [] none

/-- R166, R50, R51, R69, R107, R125, R136, R162: what a Segment restart of g leaves. The scheduler is empty and QUIET; a
character being shifted is cut by a break with DE as it was, and anything else releases DE; a transaction of its origin is
freed while FORMING, cancelled while it waits, and superseded otherwise, with no Abandoned counted; it has no holder, no last
timed-out station and no cached reply; its lease is dropped after Restarted is raised. The store takes back, in this order,
the frame in assembly, the copy in hand, the reply lane, the bulk lane, and the requests of the transactions cancelled. The
holder loses its copy and window there: while its outcome is open and it awaits, is sending, or receives its response there,
it closes Restart, its other windows are closed and released, and its notice is placed; otherwise it carries on. Other
segments' line units, receivers, lanes and caches, the table and the settings stay. Clauses on the holder, on the transactions
of g and on the store are said of states in which the holder of a segment is no FORMING transaction, and a frame's record no
other. -/
def Obligations.SegmentRestartClears : Prop :=
  ∀ (s u : State) (g : Seg), u = s.segmentRestart g →
    ((∀ q t, s.holder g = some q → s.txn q = some t → t.state ≠ .forming) → u.egress.get g = Egress.empty)
      ∧ (∀ h, h ≠ g → (u.egress.get h).replyLane = (s.egress.get h).replyLane
          ∧ (u.egress.get h).bulkLane = (s.egress.get h).bulkLane ∧ (u.egress.get h).state = (s.egress.get h).state
          ∧ u.lines.get h = s.lines.get h ∧ u.receivers.get h = s.receivers.get h
          ∧ u.mgmt.caches.get h = s.mgmt.caches.get h
          ∧ u.txns.lastTimedOut.get h = s.txns.lastTimedOut.get h)
      ∧ (∀ c since, (s.lines.get g).tx = .shifting c since →
          (u.lines.get g).tx = .breaking s.time ∧ (u.lines.get g).de = (s.lines.get g).de)
      ∧ ((∀ c since, (s.lines.get g).tx ≠ .shifting c since) →
          (u.lines.get g).tx = .marking ∧ (u.lines.get g).de = false ∧ u.receivers.get g = .hunt)
      ∧ (∀ q t, s.txn q = some t → t.origin = g → s.holder g ≠ some q → t.state ≠ .forming → t.state ≠ .pending →
          (∀ f, (s.receivers.get g).frame = some f → f.txn ≠ some q) → u.txn q = some { t with superseded := true })
      ∧ (∀ q t, s.txn q = some t → t.origin = g → s.holder g ≠ some q → t.state = .pending → t.outcome = none →
          t.copies = 0 → u.txn q = none ∧ q ∉ u.txns.waiting)
      ∧ (∀ f q, (s.receivers.get g).frame = some f → f.txn = some q →
          (f.cls = some .request ∨ f.cls = some .broadcast ∨ f.cls = some .management) → u.txn q = none)
      ∧ (s.holder g = none → u.counters = s.counters ∧ ∀ h, h ≠ g → u.holder h = s.holder h ∧ u.egress.get h = s.egress.get h)
      ∧ (∀ q t left w, s.holder g = some q → s.txn q = some t → t.origin ≠ g →
          (∀ f, (s.receivers.get g).frame = some f → f.txn = some q → f.cls = some .response) →
          left = t.copies.erase g →
          (∀ v, t.outcome = none →
            (t.state = .sending ∨ t.state = .awaiting ∨ t.state = .receiving ∧ t.responseSeg = some g) →
            v = (if t.superseded then s else s.told t.origin (s.called t.origin (some ⟨.restart, t.station⟩))) →
            u.txn q = (if left = 0 then none
                else some { t with copies := left, windows := 0, deadline := none, outcome := some .restart })
              ∧ (∀ h, u.holder h = if h = g ∨ (t.windows.erase g).has h = true then none else s.holder h)
              ∧ (∀ h, h ≠ g → u.egress.get h = v.egress.get h) ∧ u.counters = v.counters)
          ∧ ((t.outcome ≠ none ∧ (left = 0 ∧ w = none
                ∨ left ≠ 0 ∧ w = some { t with copies := left, windows := t.windows.erase g })
              ∨ t.outcome = none ∧ t.kind = .poll ∧ t.state = .receiving ∧ t.responseSeg ≠ some g
                ∧ w = some { t with
                  copies := left, windows := t.windows.erase g, reqDesc := if left = 0 then none else t.reqDesc }) →
            u.txn q = w ∧ (∀ h, u.holder h = if h = g then none else s.holder h) ∧ u.counters = s.counters
              ∧ ∀ h, h ≠ g → u.egress.get h = s.egress.get h))
      ∧ (∀ o order lanes cancelled d,
          (∀ e, o = some e ↔ ∃ h, (s.egress.get g).hand = some h ∧ (h.item = .reply e ∨ h.item = .bulk e)) →
          lanes = (s.egress.get g).replyLane.map ReplyCopy.desc ++ (s.egress.get g).bulkLane →
          order = o.toList ++ lanes.filter (fun e => o != some e) → d = ((s.receivers.get g).frame).bind Frame.desc →
          (∀ f, (s.receivers.get g).frame = some f → ∀ q t, f.txn = some q → s.txn q = some t → t.state ≠ .pending) →
          cancelled = (List.finRange 8).filterMap (fun q => match s.txn q with
            | some t => if t.origin = g ∧ t.state = .pending then t.reqDesc else none
            | none => none) →
          u.store = cancelled.foldl Store.dropTxn (order.foldl (fun st e => st.leave e g) (s.store.without d)))
      ∧ u.holder g = none ∧ u.txns.lastTimedOut.get g = none ∧ u.mgmt.caches.get g = none
      ∧ (∀ l, s.lease = some l → l.holder = g → u.lease = none ∧ u.events
          = (s.events.raise s.bridge.eventMask s.nowMs .restarted (some g) none 3).raise s.bridge.eventMask s.nowMs
              .leaseDropped (some g) none 2)
      ∧ ((∀ l, s.lease = some l → l.holder ≠ g) → u.lease = s.lease
          ∧ u.events = s.events.raise s.bridge.eventMask s.nowMs .restarted (some g) none 3)
      ∧ u.time = s.time ∧ u.settings = s.settings ∧ u.table = s.table ∧ s.SamePins u
      ∧ (∀ h i, u.counters.read h i = s.counters.read h i)

/-! ### Events and counters -/

/-- R169, R172: a raise of a kind that is off leaves no trace; of a kind that is on it uses the next sequence number, and the
record joins the tail of a queue of fewer than 32, or is dropped and counted as lost, the count staying at 255; the block
that raised it is not changed. R174: ATTN_N is driven low exactly while the queue holds a record and no power-on restart
holds the bridge. -/
def Obligations.EventIsRaised : Prop :=
  (∀ (s : State) (k : EventKind) (g : Option Seg) (a : Option Byte) (d : Byte),
      s.raise k g a d = { s with events := s.events.raise s.bridge.eventMask s.nowMs k g a d }
      ∧ (s.bridge.eventMask.getLsbD k.code = false → s.raise k g a d = s)
      ∧ (s.bridge.eventMask.getLsbD k.code = true → s.events.queue.length < 32 →
          s.raise k g a d = { s with events := ⟨s.events.queue ++ [⟨s.events.nextSeq, s.nowMs, k, g, a, d⟩],
            s.events.nextSeq + 1, s.events.lost⟩ })
      ∧ (s.bridge.eventMask.getLsbD k.code = true → 32 ≤ s.events.queue.length →
          s.raise k g a d = { s with events := ⟨s.events.queue, s.events.nextSeq + 1,
            BitVec.ofNat 8 (min 255 (s.events.lost.toNat + 1))⟩ }))
  ∧ (∀ s : State, s.attention = true ↔ s.events.queue ≠ [] ∧ s.rstN = true ∧ s.supplyHold = false)

/-- R176: a raise adds 1 to one counter, which stays at 4294967295; the other 57 are not changed. Said of a segment counter, of
NoticesLost and of SweepsSkipped; nothing but the counters changes. -/
def Obligations.CountersSaturate : Prop :=
  ∀ (s : State) (g : Seg) (c : SegCounter),
    s.count g c = { s with counters := (s.count g c).counters }
    ∧ ((s.count g c).counters.read g c.index).toNat = min 4294967295 ((s.counters.read g c.index).toNat + 1)
    ∧ (∀ h i, ¬ (h = g ∧ i = c.index) → (s.count g c).counters.read h i = s.counters.read h i)
    ∧ (s.count g c).counters.noticesLost = s.counters.noticesLost
    ∧ (s.count g c).counters.sweepsSkipped = s.counters.sweepsSkipped
    ∧ s.countNoticeLost = { s with
      counters := { s.counters with
        noticesLost := BitVec.ofNat 32 (min 4294967295 (s.counters.noticesLost.toNat + 1)) } }
    ∧ s.countSweepSkipped = { s with
      counters := { s.counters with
        sweepsSkipped := BitVec.ofNat 32 (min 4294967295 (s.counters.sweepsSkipped.toNat + 1)) } }

/-! ### Encodings -/

/-- R181, R153, R155: a segment record in its ranges reads back from its 13 characters, and a bridge record from its 21, and no
other characters give it. -/
def Obligations.RecordsReadBack : Prop :=
  (∀ r : SegRecord, r.wf = true →
      SegRecord.decode r.encode = some r ∧ r.encode.length = 13 ∧ ∀ l, SegRecord.decode l = some r → l = r.encode)
  ∧ (∀ b : BridgeRecord, b.wf = true →
      BridgeRecord.decode b.encode = some b ∧ b.encode.length = 21 ∧ ∀ l, BridgeRecord.decode l = some b → l = b.encode)

/-- R181 (spec/11, station entry), R129, R123: the four characters of an entry; the characters of a reply, whose second is the
command plus 0x80, and for a command of 0x80 or above no more than 0x80 or above (log 27); and that every reply and every
notice sums to 0 modulo 256. -/
def Obligations.EntriesAndChecks : Prop :=
  Entry.encode .unassigned = [0, 0, 0, 0]
    ∧ (∀ m c k q, Entry.encode (.static m c k q) = [1, m.setWidth 8, BitVec.ofNat 8 (c.toNat + 16 * k.toNat), 0])
    ∧ (∀ g c used age k, Entry.encode (.learned g c used age k)
        = [BitVec.ofNat 8 (2 + if used then 16 else 0), BitVec.ofNat 8 (2 ^ g.num),
           BitVec.ofNat 8 (c.toNat + 16 * k.toNat), age])
    ∧ Entry.encode .blocked = [3, 0, 0, 0]
    ∧ (∀ own cmd seq st results, wellChecked (replyFrame own cmd seq st results) = true
        ∧ (replyFrame own cmd seq st results).length = 5 + results.length
        ∧ ∃ code check, replyFrame own cmd seq st results = [own, code, seq, st.byte] ++ results ++ [check]
          ∧ 0x80 ≤ code.toNat ∧ (cmd.toNat < 0x80 → code = cmd + 0x80))
    ∧ ∀ own n, wellChecked (noticeFrame own n) = true ∧ (noticeFrame own n).length = 4

/-! ### Laws of the device, kept by every step -/

/-- R2, R11, R75: no step breaks the laws of the table, nor lets a response be in assembly outside Downstream. R3: the entries at
0x00 and at the own address stay Unassigned. -/
def Obligations.TableLawsAreKept : Prop :=
  (∀ s t : State, s.TableLaws → s.ResponsesDownstream → step s = .next t → t.TableLaws ∧ t.ResponsesDownstream)
  ∧ (∀ s t : State, s.ReservedUnassigned → step s = .next t → t.ReservedUnassigned)

/-- R162: no step leaves a lease holder without management access. R153, R155, R158: every step keeps each setting in its range
and leaves a segment Upstream. -/
def Obligations.ConfigurationLawsAreKept : Prop :=
  (∀ s t : State, s.LeaseLaw → step s = .next t → t.LeaseLaw)
  ∧ (∀ s t : State, s.SettingsLawful → step s = .next t → t.SettingsLawful)

/-- R172, R110: no step takes the event queue above 32 records or a reply lane above 2 copies. R72: no step lets BLIND and DE
part. -/
def Obligations.CapacitiesAreKept : Prop :=
  (∀ s t : State, s.EventsBounded → s.ReplyLanesBounded → step s = .next t → t.EventsBounded ∧ t.ReplyLanesBounded)
  ∧ (∀ s t : State, s.BlindWhileDriving → step s = .next t → t.BlindWhileDriving)

/-- R92, R95, R100: no step loses a cell or a descriptor, or uses one twice. -/
def Obligations.StoreLawIsKept : Prop :=
  ∀ s t : State, s.store.Lawful → step s = .next t → t.store.Lawful

/-- R23, R27, R30, R31, R71, R130: no step breaks the laws of the transactions: what each record holds in its state; the pending
list is exactly the PENDING ones, the management queue with the Local in execution exactly the EXECUTING ones; a holder is
a Poll or Broadcast whose egress set has the segment; a segment is the origin of at most one live transaction; a frame in
assembly has the record or the response that is its own. -/
def Obligations.TransactionLawsAreKept : Prop :=
  ∀ s t : State, s.TransactionLaws → step s = .next t → t.TransactionLaws

/-- R97 to R99, R108, R112: no step breaks the laws of the lanes: a lane has one copy of a descriptor exactly where its segment
is in the pending egress set; what is in hand is in its lane; a Filling descriptor is on no lane and is that of its frame;
a request not yet launched or executed has its own descriptor. Said of states that also keep the laws of the store and of
the transactions, which every step keeps. -/
def Obligations.LaneLawsAreKept : Prop :=
  ∀ s t : State, s.store.Lawful → s.TransactionLaws → s.LaneLaws → step s = .next t → t.LaneLaws

/-- The laws that the statements above say every step keeps (table, lease, settings, capacities, BLIND, store, transactions,
lanes) hold right after reset. -/
def Obligations.LawsHoldAtReset : Prop :=
  State.reset.TableLaws ∧ State.reset.ResponsesDownstream ∧ State.reset.ReservedUnassigned ∧ State.reset.LeaseLaw
    ∧ State.reset.EventsBounded ∧ State.reset.ReplyLanesBounded ∧ State.reset.BlindWhileDriving
    ∧ State.reset.store.Lawful ∧ State.reset.SettingsLawful ∧ State.reset.TransactionLaws ∧ State.reset.LaneLaws

end
end

