-- ==== Sys2Proof/Laws/State.lean ====
section
/-!
SUPPORT. What each update of State does to each field, and the laws of families per segment and of segment sets, so that
no later proof unfolds a record update.
-/

namespace Sys2Proof

/-! ### Families per segment -/

@[simp] theorem PerSeg.get_set {α : Type} (v : PerSeg α) (g u : Seg) (a : α) :
    (v.set g a).get u = if u = g then a else v.get u := by
  cases g <;> cases u <;> rfl

@[simp] theorem PerSeg.get_const {α : Type} (a : α) (g : Seg) : (PerSeg.const a).get g = a := by cases g <;> rfl

@[simp] theorem PerSeg.get_tabulate {α : Type} (f : Seg → α) (g : Seg) : (PerSeg.tabulate f).get g = f g := by
  cases g <;> rfl

theorem PerSeg.ext_get {α : Type} {v w : PerSeg α} (h : ∀ g, v.get g = w.get g) : v = w := by
  cases v; cases w
  simp only [PerSeg.mk.injEq]
  exact ⟨h .s0, h .s1, h .s2, h .s3⟩

@[simp] theorem PerSeg.set_set {α : Type} (v : PerSeg α) (g : Seg) (a b : α) : (v.set g a).set g b = v.set g b := by
  cases g <;> rfl

@[simp] theorem PerSeg.set_get {α : Type} (v : PerSeg α) (g : Seg) : v.set g (v.get g) = v := by cases g <;> rfl

theorem Seg.mem_all (g : Seg) : g ∈ Seg.all := by cases g <;> decide

/-! ### Sets of segments -/

@[simp] theorem SegSet.has_insert (m : SegSet) (g u : Seg) : (m.insert g).has u = (decide (u = g) || m.has u) := by
  revert m; cases g <;> cases u <;> decide

@[simp] theorem SegSet.has_erase (m : SegSet) (g u : Seg) : (m.erase g).has u = (!decide (u = g) && m.has u) := by
  revert m; cases g <;> cases u <;> decide

@[simp] theorem SegSet.has_one (g u : Seg) : (SegSet.one g).has u = decide (u = g) := by
  cases g <;> cases u <;> decide

@[simp] theorem SegSet.has_zero (g : Seg) : SegSet.has 0 g = false := by cases g <;> decide

@[simp] theorem SegSet.has_and (m n : SegSet) (g : Seg) : SegSet.has (m &&& n) g = (m.has g && n.has g) := by
  revert m n; cases g <;> decide

@[simp] theorem SegSet.mem_members (m : SegSet) (g : Seg) : g ∈ m.members ↔ m.has g = true := by
  simp [SegSet.members, Seg.mem_all]

@[simp] theorem SegSet.has_ofPred (p : Seg → Bool) (g : Seg) : (SegSet.ofPred p).has g = p g := by
  cases h0 : p .s0 <;> cases h1 : p .s1 <;> cases h2 : p .s2 <;> cases h3 : p .s3 <;> cases g <;>
    simp [SegSet.ofPred, Seg.all, h0, h1, h2, h3] <;> decide

namespace Machine

/-! ### Updates of State, field by field -/

/-- Time passes. -/
@[simp] theorem State.advance_fields (s : State) (t : Nat) :
    (s.advance t).time = max s.time t ∧ (s.advance t).rstN = s.rstN ∧ (s.advance t).supplyHold = s.supplyHold ∧
    (s.advance t).straps = s.straps ∧ (s.advance t).settings = s.settings ∧ (s.advance t).lease = s.lease ∧
    (s.advance t).table = s.table ∧ (s.advance t).txns = s.txns ∧ (s.advance t).lines = s.lines ∧
    (s.advance t).receivers = s.receivers ∧ (s.advance t).store = s.store ∧ (s.advance t).egress = s.egress ∧
    (s.advance t).mgmt = s.mgmt ∧ (s.advance t).events = s.events ∧ (s.advance t).counters = s.counters ∧
    (s.advance t).freeChoice = s.freeChoice ∧ (s.advance t).pending = s.pending := by
  and_intros <;> rfl

/-- A line unit is replaced. -/
@[simp] theorem State.setLine_fields (s : State) (g : Seg) (u : LineUnit) :
    (s.setLine g u).time = s.time ∧ (s.setLine g u).rstN = s.rstN ∧ (s.setLine g u).supplyHold = s.supplyHold ∧
    (s.setLine g u).straps = s.straps ∧ (s.setLine g u).settings = s.settings ∧ (s.setLine g u).lease = s.lease ∧
    (s.setLine g u).table = s.table ∧ (s.setLine g u).txns = s.txns ∧ (s.setLine g u).lines = s.lines.set g u ∧
    (s.setLine g u).receivers = s.receivers ∧ (s.setLine g u).store = s.store ∧ (s.setLine g u).egress = s.egress ∧
    (s.setLine g u).mgmt = s.mgmt ∧ (s.setLine g u).events = s.events ∧ (s.setLine g u).counters = s.counters ∧
    (s.setLine g u).freeChoice = s.freeChoice ∧ (s.setLine g u).pending = s.pending := by
  and_intros <;> rfl

/-- A frame receiver is replaced. -/
@[simp] theorem State.setReceiver_fields (s : State) (g : Seg) (f : FrState) :
    (s.setReceiver g f).time = s.time ∧ (s.setReceiver g f).rstN = s.rstN ∧
    (s.setReceiver g f).supplyHold = s.supplyHold ∧ (s.setReceiver g f).straps = s.straps ∧
    (s.setReceiver g f).settings = s.settings ∧ (s.setReceiver g f).lease = s.lease ∧
    (s.setReceiver g f).table = s.table ∧ (s.setReceiver g f).txns = s.txns ∧ (s.setReceiver g f).lines = s.lines ∧
    (s.setReceiver g f).receivers = s.receivers.set g f ∧ (s.setReceiver g f).store = s.store ∧
    (s.setReceiver g f).egress = s.egress ∧ (s.setReceiver g f).mgmt = s.mgmt ∧
    (s.setReceiver g f).events = s.events ∧ (s.setReceiver g f).counters = s.counters ∧
    (s.setReceiver g f).freeChoice = s.freeChoice ∧ (s.setReceiver g f).pending = s.pending := by
  and_intros <;> rfl

/-- An egress scheduler is replaced. -/
@[simp] theorem State.setEgress_fields (s : State) (g : Seg) (e : Egress) :
    (s.setEgress g e).time = s.time ∧ (s.setEgress g e).rstN = s.rstN ∧ (s.setEgress g e).supplyHold = s.supplyHold ∧
    (s.setEgress g e).straps = s.straps ∧ (s.setEgress g e).settings = s.settings ∧
    (s.setEgress g e).lease = s.lease ∧ (s.setEgress g e).table = s.table ∧ (s.setEgress g e).txns = s.txns ∧
    (s.setEgress g e).lines = s.lines ∧ (s.setEgress g e).receivers = s.receivers ∧
    (s.setEgress g e).store = s.store ∧ (s.setEgress g e).egress = s.egress.set g e ∧
    (s.setEgress g e).mgmt = s.mgmt ∧ (s.setEgress g e).events = s.events ∧ (s.setEgress g e).counters = s.counters ∧
    (s.setEgress g e).freeChoice = s.freeChoice ∧ (s.setEgress g e).pending = s.pending := by
  and_intros <;> rfl

/-- A receiver enters a state. -/
@[simp] theorem State.setRx_fields (s : State) (g : Seg) (rx : RxState) :
    (s.setRx g rx).time = s.time ∧ (s.setRx g rx).rstN = s.rstN ∧ (s.setRx g rx).supplyHold = s.supplyHold ∧
    (s.setRx g rx).straps = s.straps ∧ (s.setRx g rx).settings = s.settings ∧ (s.setRx g rx).lease = s.lease ∧
    (s.setRx g rx).table = s.table ∧ (s.setRx g rx).txns = s.txns ∧
    (s.setRx g rx).lines = s.lines.set g { s.lines.get g with rx := rx } ∧ (s.setRx g rx).receivers = s.receivers ∧
    (s.setRx g rx).store = s.store ∧ (s.setRx g rx).egress = s.egress ∧ (s.setRx g rx).mgmt = s.mgmt ∧
    (s.setRx g rx).events = s.events ∧ (s.setRx g rx).counters = s.counters ∧
    (s.setRx g rx).freeChoice = s.freeChoice ∧ (s.setRx g rx).pending = s.pending := by
  and_intros <;> rfl

/-- DE is released. -/
@[simp] theorem State.releaseLine_fields (s : State) (g : Seg) :
    (s.releaseLine g).time = s.time ∧ (s.releaseLine g).rstN = s.rstN ∧ (s.releaseLine g).supplyHold = s.supplyHold ∧
    (s.releaseLine g).straps = s.straps ∧ (s.releaseLine g).settings = s.settings ∧
    (s.releaseLine g).lease = s.lease ∧ (s.releaseLine g).table = s.table ∧ (s.releaseLine g).txns = s.txns ∧
    (s.releaseLine g).lines = s.lines.set g (s.lines.get g).releaseDE ∧
    (s.releaseLine g).receivers = s.receivers.set g .hunt ∧ (s.releaseLine g).store = s.store ∧
    (s.releaseLine g).egress = s.egress ∧ (s.releaseLine g).mgmt = s.mgmt ∧ (s.releaseLine g).events = s.events ∧
    (s.releaseLine g).counters = s.counters ∧ (s.releaseLine g).freeChoice = s.freeChoice ∧
    (s.releaseLine g).pending = s.pending := by
  and_intros <;> rfl

/-- An event is raised. -/
@[simp] theorem State.raise_fields (s : State) (k : EventKind) (g : Option Seg) (a : Option Byte) (d : Byte) :
    (s.raise k g a d).time = s.time ∧ (s.raise k g a d).rstN = s.rstN ∧ (s.raise k g a d).supplyHold = s.supplyHold ∧
    (s.raise k g a d).straps = s.straps ∧ (s.raise k g a d).settings = s.settings ∧
    (s.raise k g a d).lease = s.lease ∧ (s.raise k g a d).table = s.table ∧ (s.raise k g a d).txns = s.txns ∧
    (s.raise k g a d).lines = s.lines ∧ (s.raise k g a d).receivers = s.receivers ∧
    (s.raise k g a d).store = s.store ∧ (s.raise k g a d).egress = s.egress ∧ (s.raise k g a d).mgmt = s.mgmt ∧
    (s.raise k g a d).events = s.events.raise s.bridge.eventMask s.nowMs k g a d ∧
    (s.raise k g a d).counters = s.counters ∧ (s.raise k g a d).freeChoice = s.freeChoice ∧
    (s.raise k g a d).pending = s.pending := by
  and_intros <;> rfl

/-- A segment counter is raised. -/
@[simp] theorem State.count_fields (s : State) (g : Seg) (c : SegCounter) :
    (s.count g c).time = s.time ∧ (s.count g c).rstN = s.rstN ∧ (s.count g c).supplyHold = s.supplyHold ∧
    (s.count g c).straps = s.straps ∧ (s.count g c).settings = s.settings ∧ (s.count g c).lease = s.lease ∧
    (s.count g c).table = s.table ∧ (s.count g c).txns = s.txns ∧ (s.count g c).lines = s.lines ∧
    (s.count g c).receivers = s.receivers ∧ (s.count g c).store = s.store ∧ (s.count g c).egress = s.egress ∧
    (s.count g c).mgmt = s.mgmt ∧ (s.count g c).events = s.events ∧
    (s.count g c).counters = s.counters.write g c.index (saturatingSucc (s.counters.read g c.index)) ∧
    (s.count g c).freeChoice = s.freeChoice ∧ (s.count g c).pending = s.pending := by
  and_intros <;> rfl

/-- NoticesLost is raised. -/
@[simp] theorem State.countNoticeLost_fields (s : State) :
    s.countNoticeLost.time = s.time ∧ s.countNoticeLost.rstN = s.rstN ∧ s.countNoticeLost.supplyHold = s.supplyHold ∧
    s.countNoticeLost.straps = s.straps ∧ s.countNoticeLost.settings = s.settings ∧
    s.countNoticeLost.lease = s.lease ∧ s.countNoticeLost.table = s.table ∧ s.countNoticeLost.txns = s.txns ∧
    s.countNoticeLost.lines = s.lines ∧ s.countNoticeLost.receivers = s.receivers ∧
    s.countNoticeLost.store = s.store ∧ s.countNoticeLost.egress = s.egress ∧ s.countNoticeLost.mgmt = s.mgmt ∧
    s.countNoticeLost.events = s.events ∧
    s.countNoticeLost.counters = { s.counters with noticesLost := saturatingSucc s.counters.noticesLost } ∧
    s.countNoticeLost.freeChoice = s.freeChoice ∧ s.countNoticeLost.pending = s.pending := by
  and_intros <;> rfl

/-- SweepsSkipped is raised. -/
@[simp] theorem State.countSweepSkipped_fields (s : State) :
    s.countSweepSkipped.time = s.time ∧ s.countSweepSkipped.rstN = s.rstN ∧
    s.countSweepSkipped.supplyHold = s.supplyHold ∧ s.countSweepSkipped.straps = s.straps ∧
    s.countSweepSkipped.settings = s.settings ∧ s.countSweepSkipped.lease = s.lease ∧
    s.countSweepSkipped.table = s.table ∧ s.countSweepSkipped.txns = s.txns ∧ s.countSweepSkipped.lines = s.lines ∧
    s.countSweepSkipped.receivers = s.receivers ∧ s.countSweepSkipped.store = s.store ∧
    s.countSweepSkipped.egress = s.egress ∧ s.countSweepSkipped.mgmt = s.mgmt ∧
    s.countSweepSkipped.events = s.events ∧
    s.countSweepSkipped.counters = { s.counters with sweepsSkipped := saturatingSucc s.counters.sweepsSkipped } ∧
    s.countSweepSkipped.freeChoice = s.freeChoice ∧ s.countSweepSkipped.pending = s.pending := by
  and_intros <;> rfl

/-- The store is changed. -/
@[simp] theorem State.mapStore_fields (s : State) (f : Store → Store) :
    (s.mapStore f).time = s.time ∧ (s.mapStore f).rstN = s.rstN ∧ (s.mapStore f).supplyHold = s.supplyHold ∧
    (s.mapStore f).straps = s.straps ∧ (s.mapStore f).settings = s.settings ∧ (s.mapStore f).lease = s.lease ∧
    (s.mapStore f).table = s.table ∧ (s.mapStore f).txns = s.txns ∧ (s.mapStore f).lines = s.lines ∧
    (s.mapStore f).receivers = s.receivers ∧ (s.mapStore f).store = f s.store ∧ (s.mapStore f).egress = s.egress ∧
    (s.mapStore f).mgmt = s.mgmt ∧ (s.mapStore f).events = s.events ∧ (s.mapStore f).counters = s.counters ∧
    (s.mapStore f).freeChoice = s.freeChoice ∧ (s.mapStore f).pending = s.pending := by
  and_intros <;> rfl

/-- A station entry is replaced. -/
@[simp] theorem State.putEntry_fields (s : State) (a : Byte) (e : Entry) :
    (s.putEntry a e).time = s.time ∧ (s.putEntry a e).rstN = s.rstN ∧ (s.putEntry a e).supplyHold = s.supplyHold ∧
    (s.putEntry a e).straps = s.straps ∧ (s.putEntry a e).settings = s.settings ∧ (s.putEntry a e).lease = s.lease ∧
    (s.putEntry a e).table = s.table.put a e ∧ (s.putEntry a e).txns = s.txns ∧ (s.putEntry a e).lines = s.lines ∧
    (s.putEntry a e).receivers = s.receivers ∧ (s.putEntry a e).store = s.store ∧
    (s.putEntry a e).egress = s.egress ∧ (s.putEntry a e).mgmt = s.mgmt ∧ (s.putEntry a e).events = s.events ∧
    (s.putEntry a e).counters = s.counters ∧ (s.putEntry a e).freeChoice = s.freeChoice ∧
    (s.putEntry a e).pending = s.pending := by
  and_intros <;> rfl

/-- A transaction record is replaced. -/
@[simp] theorem State.putTxn_fields (s : State) (r : Fin Config.numTxns) (t : Option Txn) :
    (s.putTxn r t).time = s.time ∧ (s.putTxn r t).rstN = s.rstN ∧ (s.putTxn r t).supplyHold = s.supplyHold ∧
    (s.putTxn r t).straps = s.straps ∧ (s.putTxn r t).settings = s.settings ∧ (s.putTxn r t).lease = s.lease ∧
    (s.putTxn r t).table = s.table ∧
    (s.putTxn r t).txns = { s.txns with records := s.txns.records.set r.val t r.isLt } ∧
    (s.putTxn r t).lines = s.lines ∧ (s.putTxn r t).receivers = s.receivers ∧ (s.putTxn r t).store = s.store ∧
    (s.putTxn r t).egress = s.egress ∧ (s.putTxn r t).mgmt = s.mgmt ∧ (s.putTxn r t).events = s.events ∧
    (s.putTxn r t).counters = s.counters ∧ (s.putTxn r t).freeChoice = s.freeChoice ∧
    (s.putTxn r t).pending = s.pending := by
  and_intros <;> rfl

/-- A record is freed. -/
@[simp] theorem State.freeRecord_fields (s : State) (r : Fin Config.numTxns) :
    (s.freeRecord r).time = s.time ∧ (s.freeRecord r).rstN = s.rstN ∧ (s.freeRecord r).supplyHold = s.supplyHold ∧
    (s.freeRecord r).straps = s.straps ∧ (s.freeRecord r).settings = s.settings ∧ (s.freeRecord r).lease = s.lease ∧
    (s.freeRecord r).table = s.table ∧
    (s.freeRecord r).txns = { s.txns with records := s.txns.records.set r.val none r.isLt, waiting := s.txns.waiting.filter fun q => q != r } ∧
    (s.freeRecord r).lines = s.lines ∧ (s.freeRecord r).receivers = s.receivers ∧ (s.freeRecord r).store = s.store ∧
    (s.freeRecord r).egress = s.egress ∧ (s.freeRecord r).mgmt = s.mgmt ∧ (s.freeRecord r).events = s.events ∧
    (s.freeRecord r).counters = s.counters ∧ (s.freeRecord r).freeChoice = s.freeChoice ∧
    (s.freeRecord r).pending = s.pending := by
  and_intros <;> rfl

/-- A grant holder is set. -/
@[simp] theorem State.setHolder_fields (s : State) (g : Seg) (h : Option (Fin Config.numTxns)) :
    (s.setHolder g h).time = s.time ∧ (s.setHolder g h).rstN = s.rstN ∧ (s.setHolder g h).supplyHold = s.supplyHold ∧
    (s.setHolder g h).straps = s.straps ∧ (s.setHolder g h).settings = s.settings ∧
    (s.setHolder g h).lease = s.lease ∧ (s.setHolder g h).table = s.table ∧
    (s.setHolder g h).txns = { s.txns with holders := s.txns.holders.set g h } ∧ (s.setHolder g h).lines = s.lines ∧
    (s.setHolder g h).receivers = s.receivers ∧ (s.setHolder g h).store = s.store ∧
    (s.setHolder g h).egress = s.egress ∧ (s.setHolder g h).mgmt = s.mgmt ∧ (s.setHolder g h).events = s.events ∧
    (s.setHolder g h).counters = s.counters ∧ (s.setHolder g h).freeChoice = s.freeChoice ∧
    (s.setHolder g h).pending = s.pending := by
  and_intros <;> rfl

/-- A grant is released. -/
@[simp] theorem State.releaseGrant_fields (s : State) (g : Seg) :
    (s.releaseGrant g).time = s.time ∧ (s.releaseGrant g).rstN = s.rstN ∧
    (s.releaseGrant g).supplyHold = s.supplyHold ∧ (s.releaseGrant g).straps = s.straps ∧
    (s.releaseGrant g).settings = s.settings ∧ (s.releaseGrant g).lease = s.lease ∧
    (s.releaseGrant g).table = s.table ∧
    (s.releaseGrant g).txns = { s.txns with holders := s.txns.holders.set g none } ∧
    (s.releaseGrant g).lines = s.lines ∧ (s.releaseGrant g).receivers = s.receivers ∧
    (s.releaseGrant g).store = s.store ∧ (s.releaseGrant g).egress = s.egress ∧ (s.releaseGrant g).mgmt = s.mgmt ∧
    (s.releaseGrant g).events = s.events ∧ (s.releaseGrant g).counters = s.counters ∧
    (s.releaseGrant g).freeChoice = s.freeChoice ∧ (s.releaseGrant g).pending = s.pending := by
  and_intros <;> rfl

/-- A last timed-out station is set. -/
@[simp] theorem State.setLastTimedOut_fields (s : State) (g : Seg) (a : Option Byte) :
    (s.setLastTimedOut g a).time = s.time ∧ (s.setLastTimedOut g a).rstN = s.rstN ∧
    (s.setLastTimedOut g a).supplyHold = s.supplyHold ∧ (s.setLastTimedOut g a).straps = s.straps ∧
    (s.setLastTimedOut g a).settings = s.settings ∧ (s.setLastTimedOut g a).lease = s.lease ∧
    (s.setLastTimedOut g a).table = s.table ∧
    (s.setLastTimedOut g a).txns = { s.txns with lastTimedOut := s.txns.lastTimedOut.set g a } ∧
    (s.setLastTimedOut g a).lines = s.lines ∧ (s.setLastTimedOut g a).receivers = s.receivers ∧
    (s.setLastTimedOut g a).store = s.store ∧ (s.setLastTimedOut g a).egress = s.egress ∧
    (s.setLastTimedOut g a).mgmt = s.mgmt ∧ (s.setLastTimedOut g a).events = s.events ∧
    (s.setLastTimedOut g a).counters = s.counters ∧ (s.setLastTimedOut g a).freeChoice = s.freeChoice ∧
    (s.setLastTimedOut g a).pending = s.pending := by
  and_intros <;> rfl

/-- Own address changes are disarmed. -/
@[simp] theorem State.disarmOwn_fields (s : State) :
    s.disarmOwn.time = s.time ∧ s.disarmOwn.rstN = s.rstN ∧ s.disarmOwn.supplyHold = s.supplyHold ∧
    s.disarmOwn.straps = s.straps ∧ s.disarmOwn.settings = s.settings ∧ s.disarmOwn.lease = s.lease ∧
    s.disarmOwn.table = s.table ∧ s.disarmOwn.txns = s.txns ∧ s.disarmOwn.lines = s.lines ∧
    s.disarmOwn.receivers = s.receivers ∧ s.disarmOwn.store = s.store ∧ s.disarmOwn.mgmt = s.mgmt ∧
    s.disarmOwn.events = s.events ∧ s.disarmOwn.counters = s.counters ∧ s.disarmOwn.freeChoice = s.freeChoice ∧
    s.disarmOwn.pending = s.pending := by
  and_intros <;> rfl

/-- Every armed effect is disarmed. -/
@[simp] theorem State.disarmAll_fields (s : State) :
    s.disarmAll.time = s.time ∧ s.disarmAll.rstN = s.rstN ∧ s.disarmAll.supplyHold = s.supplyHold ∧
    s.disarmAll.straps = s.straps ∧ s.disarmAll.settings = s.settings ∧ s.disarmAll.lease = s.lease ∧
    s.disarmAll.table = s.table ∧ s.disarmAll.txns = s.txns ∧ s.disarmAll.lines = s.lines ∧
    s.disarmAll.receivers = s.receivers ∧ s.disarmAll.store = s.store ∧ s.disarmAll.mgmt = s.mgmt ∧
    s.disarmAll.events = s.events ∧ s.disarmAll.counters = s.counters ∧ s.disarmAll.freeChoice = s.freeChoice ∧
    s.disarmAll.pending = s.pending := by
  and_intros <;> rfl

/-- A reply cache entry is replaced. -/
@[simp] theorem State.setCache_fields (s : State) (g : Seg) (c : Option CacheEntry) :
    (s.setCache g c).time = s.time ∧ (s.setCache g c).rstN = s.rstN ∧ (s.setCache g c).supplyHold = s.supplyHold ∧
    (s.setCache g c).straps = s.straps ∧ (s.setCache g c).settings = s.settings ∧ (s.setCache g c).lease = s.lease ∧
    (s.setCache g c).table = s.table ∧ (s.setCache g c).txns = s.txns ∧ (s.setCache g c).lines = s.lines ∧
    (s.setCache g c).receivers = s.receivers ∧ (s.setCache g c).store = s.store ∧
    (s.setCache g c).egress = s.egress ∧ (s.setCache g c).mgmt = { s.mgmt with caches := s.mgmt.caches.set g c } ∧
    (s.setCache g c).events = s.events ∧ (s.setCache g c).counters = s.counters ∧
    (s.setCache g c).freeChoice = s.freeChoice ∧ (s.setCache g c).pending = s.pending := by
  and_intros <;> rfl

/-- The pending own address is replaced. -/
@[simp] theorem State.setPendingOwn_fields (s : State) (a : Option Byte) :
    (s.setPendingOwn a).time = s.time ∧ (s.setPendingOwn a).rstN = s.rstN ∧
    (s.setPendingOwn a).supplyHold = s.supplyHold ∧ (s.setPendingOwn a).straps = s.straps ∧
    (s.setPendingOwn a).settings = s.settings ∧ (s.setPendingOwn a).lease = s.lease ∧
    (s.setPendingOwn a).table = s.table ∧ (s.setPendingOwn a).txns = s.txns ∧ (s.setPendingOwn a).lines = s.lines ∧
    (s.setPendingOwn a).receivers = s.receivers ∧ (s.setPendingOwn a).store = s.store ∧
    (s.setPendingOwn a).egress = s.egress ∧ (s.setPendingOwn a).mgmt = { s.mgmt with pendingOwn := a } ∧
    (s.setPendingOwn a).events = s.events ∧ (s.setPendingOwn a).counters = s.counters ∧
    (s.setPendingOwn a).freeChoice = s.freeChoice ∧ (s.setPendingOwn a).pending = s.pending := by
  and_intros <;> rfl

/-- The management engine is IDLE. -/
@[simp] theorem State.idleEngine_fields (s : State) :
    s.idleEngine.time = s.time ∧ s.idleEngine.rstN = s.rstN ∧ s.idleEngine.supplyHold = s.supplyHold ∧
    s.idleEngine.straps = s.straps ∧ s.idleEngine.settings = s.settings ∧ s.idleEngine.lease = s.lease ∧
    s.idleEngine.table = s.table ∧ s.idleEngine.txns = s.txns ∧ s.idleEngine.lines = s.lines ∧
    s.idleEngine.receivers = s.receivers ∧ s.idleEngine.store = s.store ∧ s.idleEngine.egress = s.egress ∧
    s.idleEngine.mgmt = { s.mgmt with engine := .idle, buffer := [] } ∧ s.idleEngine.events = s.events ∧
    s.idleEngine.counters = s.counters ∧ s.idleEngine.freeChoice = s.freeChoice ∧ s.idleEngine.pending = s.pending := by
  and_intros <;> rfl

/-- A Local leaves the management queue. -/
@[simp] theorem State.dequeue_fields (s : State) :
    s.dequeue.time = s.time ∧ s.dequeue.rstN = s.rstN ∧ s.dequeue.supplyHold = s.supplyHold ∧
    s.dequeue.straps = s.straps ∧ s.dequeue.settings = s.settings ∧ s.dequeue.lease = s.lease ∧
    s.dequeue.table = s.table ∧ s.dequeue.txns = s.txns ∧ s.dequeue.lines = s.lines ∧
    s.dequeue.receivers = s.receivers ∧ s.dequeue.store = s.store ∧ s.dequeue.egress = s.egress ∧
    s.dequeue.mgmt = { s.mgmt with queue := s.mgmt.queue.tail } ∧ s.dequeue.events = s.events ∧
    s.dequeue.counters = s.counters ∧ s.dequeue.freeChoice = s.freeChoice ∧ s.dequeue.pending = s.pending := by
  and_intros <;> rfl

/-- The lease is taken or renewed. -/
@[simp] theorem State.holdLease_fields (s : State) (g : Seg) (n : Byte) :
    (s.holdLease g n).time = s.time ∧ (s.holdLease g n).rstN = s.rstN ∧ (s.holdLease g n).supplyHold = s.supplyHold ∧
    (s.holdLease g n).straps = s.straps ∧ (s.holdLease g n).settings = s.settings ∧
    (s.holdLease g n).lease = some ⟨g, s.nowMs + n.setWidth 32 * 1000⟩ ∧ (s.holdLease g n).table = s.table ∧
    (s.holdLease g n).txns = s.txns ∧ (s.holdLease g n).lines = s.lines ∧ (s.holdLease g n).receivers = s.receivers ∧
    (s.holdLease g n).store = s.store ∧ (s.holdLease g n).egress = s.egress ∧ (s.holdLease g n).mgmt = s.mgmt ∧
    (s.holdLease g n).events = s.events ∧ (s.holdLease g n).counters = s.counters ∧
    (s.holdLease g n).freeChoice = s.freeChoice ∧ (s.holdLease g n).pending = s.pending := by
  and_intros <;> rfl

/-! ### Reads after updates -/

@[simp] theorem State.held_advance (s : State) (t : Nat) : (s.advance t).held = s.held := rfl

@[simp] theorem StationTable.entry_put (t : StationTable) (a b : Byte) (e : Entry) :
    (t.put a e).entry b = if b = a then e else t.entry b := by
  unfold StationTable.put StationTable.entry
  simp only [Vector.getElem_set]
  by_cases h : b = a
  · simp [h]
  · have : ¬ a.toNat = b.toNat := fun e => h (BitVec.eq_of_toNat_eq e.symm)
    simp [h, this]

@[simp] theorem State.entry_putEntry (s : State) (a b : Byte) (e : Entry) :
    (s.putEntry a e).entry b = if b = a then e else s.entry b := StationTable.entry_put s.table a b e

@[simp] theorem State.txn_putTxn (s : State) (r q : Fin Config.numTxns) (t : Option Txn) :
    (s.putTxn r t).txn q = if q = r then t else s.txn q := by
  simp only [State.txn, State.putTxn_fields, Fin.getElem_fin, Vector.getElem_set]
  by_cases h : q = r
  · simp [h]
  · have : ¬ r.val = q.val := fun e => h (Fin.ext e.symm)
    simp [h, this]

@[simp] theorem State.txn_freeRecord (s : State) (r q : Fin Config.numTxns) :
    (s.freeRecord r).txn q = if q = r then none else s.txn q := State.txn_putTxn s r q none

@[simp] theorem Store.desc_putDesc (st : Store) (d e : Fin Config.numDescs) (x : Option Desc) :
    (st.putDesc d x).desc e = if e = d then x else st.desc e := by
  simp only [Store.desc, Store.putDesc, Fin.getElem_fin, Vector.getElem_set]
  by_cases h : e = d
  · simp [h]
  · have : ¬ d.val = e.val := fun k => h (Fin.ext k.symm)
    simp [h, this]

@[simp] theorem Store.putDesc_fields (st : Store) (d : Fin Config.numDescs) (x : Option Desc) :
    (st.putDesc d x).cells = st.cells ∧ (st.putDesc d x).freeCells = st.freeCells
      ∧ (st.putDesc d x).freeDescs = st.freeDescs := by
  and_intros <;> rfl

@[simp] theorem Counters.read_write (c : Counters) (g u : Seg) (i j : Fin 14) (w : Word32) :
    (c.write g i w).read u j = if u = g ∧ j = i then w else c.read u j := by
  simp only [Counters.read, Counters.write, PerSeg.get_set, Fin.getElem_fin]
  by_cases h : u = g
  · subst h
    by_cases k : j = i
    · simp [k]
    · have : ¬ i.val = j.val := fun e => k (Fin.ext e.symm)
      simp [k, this]
  · simp [h]

@[simp] theorem Counters.write_bridgeWide (c : Counters) (g : Seg) (i : Fin 14) (w : Word32) :
    (c.write g i w).noticesLost = c.noticesLost ∧ (c.write g i w).sweepsSkipped = c.sweepsSkipped := ⟨rfl, rfl⟩

end Machine

end Sys2Proof
end

