-- ==== Sys2Proof/Laws/Ops.lean ====
section
/-!
SUPPORT. One lemma per shared operation, saying once everything it can change: `_only` lemmas name the fields, and the
others stand.
-/

namespace Sys2Proof.Machine

/-! ### Time and events -/

/-- An event of the bridge answers a next state: unchanged while held or not due, else its effect at its moment. -/
theorem State.takeEvent_due {s : State} {m : Nat} (hs : s.held = false) (effect : State → State) :
    s.takeEvent (some m) effect = .next (effect (s.advance m)) := by
  simp [State.takeEvent, hs]

/-- A held bridge takes no event (R163). -/
theorem State.takeEvent_held {s : State} (hs : s.held = true) (due : Option Nat) (effect : State → State) :
    s.takeEvent due effect = .next s := by
  simp [State.takeEvent, hs]

/-- An event whose conditions do not hold changes nothing (log 2). -/
theorem State.takeEvent_none (s : State) (effect : State → State) : s.takeEvent none effect = .next s := by
  simp [State.takeEvent]

/-- Every event of the bridge answers a next state. -/
theorem State.takeEvent_next (s : State) (due : Option Nat) (effect : State → State) :
    ∃ t, s.takeEvent due effect = .next t := ⟨_, rfl⟩

/-- A step that is now falls at no later moment. -/
@[simp] theorem State.advance_time (s : State) : s.advance s.time = s := by
  simp [State.advance]

/-- Raising an event keeps the capacity of the queue (R172). -/
theorem EventUnit.raise_bounded {u : EventUnit} (h : u.queue.length ≤ Config.eventQueueCap) (mask : BitVec 16)
    (now : Word32) (k : EventKind) (g : Option Seg) (a : Option Byte) (d : Byte) :
    (u.raise mask now k g a d).queue.length ≤ Config.eventQueueCap := by
  unfold EventUnit.raise
  split
  · split
    · simp; omega
    · exact h
  · exact h

/-- A counter raised where a condition holds. -/
theorem State.countIf_only (s : State) (b : Bool) (g : Seg) (c : SegCounter) :
    ∃ k, s.countIf b g c = { s with counters := k } := by
  cases b
  · exact ⟨s.counters, rfl⟩
  · exact ⟨_, rfl⟩

/-! ### The frame store -/

/-- A descriptor changed where it is not Free. -/
theorem Store.desc_modify (st : Store) (d e : Fin Config.numDescs) (f : Desc → Desc) :
    (st.modify d f).desc e = if e = d then (st.desc d).map f else st.desc e := by
  unfold Store.modify
  cases h : st.desc d with
  | none => by_cases k : e = d <;> simp [k, h]
  | some x => by_cases k : e = d <;> simp [k]

/-- Changing a descriptor takes nothing from the free lists and no cell's content. -/
@[simp] theorem Store.modify_fields (st : Store) (d : Fin Config.numDescs) (f : Desc → Desc) :
    (st.modify d f).cells = st.cells ∧ (st.modify d f).freeCells = st.freeCells
      ∧ (st.modify d f).freeDescs = st.freeDescs := by
  unfold Store.modify
  cases st.desc d <;> simp

/-- A Free descriptor is not released again (R100). -/
theorem Store.release_free {st : Store} {d : Fin Config.numDescs} (h : st.desc d = none) : st.release d = st := by
  simp [Store.release, h]

/-- Release (R100): chain and descriptor go to the tails of their free lists. -/
theorem Store.release_used {st : Store} {d : Fin Config.numDescs} {x : Desc} (h : st.desc d = some x) :
    (st.release d).desc d = none ∧ (∀ e, e ≠ d → (st.release d).desc e = st.desc e)
      ∧ (st.release d).freeCells = st.freeCells ++ x.chain ∧ (st.release d).freeDescs = st.freeDescs ++ [d]
      ∧ (st.release d).cells = st.cells := by
  have hd : ∀ e, (st.release d).desc e = if e = d then none else st.desc e := by
    intro e
    have : (st.release d).desc e = (st.putDesc d none).desc e := by simp only [Store.release, h]; rfl
    rw [this, Store.desc_putDesc]
  refine ⟨by simp [hd], fun e he => by simp [hd, he], ?_, ?_, ?_⟩ <;> simp [Store.release, h]

/-- A claim of an admission (R76, R97): it succeeds exactly where both free lists have a head. -/
theorem Store.openFrame_some (st : Store) (cls : FrameClass) (g : Seg) (ch : Ch) (e : Bool) (x : Option (Fin Config.numTxns)) :
    (st.openFrame cls g ch e x).isSome = (!st.freeDescs.isEmpty && !st.freeCells.isEmpty) := by
  unfold Store.openFrame
  cases st.freeDescs <;> cases st.freeCells <;> rfl

/-! ### The station table -/

/-- A learning step changes the table and the event unit alone. -/
theorem State.learn_only (s : State) (a : Byte) (g : Seg) :
    ∃ t e, s.learn a g = { s with table := t, events := e } := by
  unfold State.learn
  split
  · exact ⟨_, _, rfl⟩
  · split
    · exact ⟨_, _, rfl⟩
    · split <;> exact ⟨_, _, rfl⟩
    · exact ⟨_, _, rfl⟩
    · exact ⟨_, _, rfl⟩

/-- Counting a miss changes the table and the event unit alone. -/
theorem State.countMiss_only (s : State) (a : Byte) :
    ∃ t e, s.countMiss a = { s with table := t, events := e } := by
  unfold State.countMiss
  split
  · exact ⟨_, _, rfl⟩
  · exact ⟨_, _, rfl⟩
  · dsimp only
    split <;> exact ⟨_, _, rfl⟩
  · dsimp only
    split <;> exact ⟨_, _, rfl⟩

/-- A sweep visit's work on an entry changes the table and the event unit alone. -/
theorem State.sweepEntry_only (s : State) (a : Byte) :
    ∃ t e, s.sweepEntry a = { s with table := t, events := e } := by
  unfold State.sweepEntry
  split
  · split
    · exact ⟨_, _, rfl⟩
    · split <;> exact ⟨_, _, rfl⟩
  · exact ⟨_, _, rfl⟩
  · exact ⟨_, _, rfl⟩
  · exact ⟨_, _, rfl⟩

/-! ### Notices and lanes -/

/-- A notice placed changes its segment's scheduler and NoticesLost alone. -/
theorem State.placeNotice_only (s : State) (g : Seg) (n : Notice) :
    ∃ e k, s.placeNotice g n = { s with egress := e, counters := k } := by
  unfold State.placeNotice
  dsimp only
  split <;> exact ⟨_, _, rfl⟩

/-- A notice asked for changes its segment's scheduler and NoticesLost alone. -/
theorem State.notify_only (s : State) (g : Seg) (c : NoticeCode) (a : Byte) :
    ∃ e k, s.notify g c a = { s with egress := e, counters := k } := by
  unfold State.notify
  split
  · exact s.placeNotice_only _ _
  · exact ⟨_, _, rfl⟩

/-- A copy offered to a reply lane changes that scheduler, the store and NoBuffer alone. -/
theorem State.offerReply_only (s : State) (g : Seg) (d : Fin Config.numDescs) (a : Option Armed) :
    ∃ e st k, s.offerReply g d a = { s with egress := e, store := st, counters := k } := by
  unfold State.offerReply
  dsimp only
  split <;> exact ⟨_, _, _, rfl⟩

/-- Settling the pending own address changes the management engine alone. -/
theorem State.settlePendingOwn_only (s : State) : ∃ m, s.settlePendingOwn = { s with mgmt := m } := by
  unfold State.settlePendingOwn
  split <;> exact ⟨_, rfl⟩

/-- Setting a bulk copy back changes the schedulers alone. -/
theorem State.setBackBulk_only (s : State) (g : Seg) : ∃ e, s.setBackBulk g = { s with egress := e } := by
  unfold State.setBackBulk
  dsimp only
  split
  · split <;> exact ⟨_, rfl⟩
  · exact ⟨_, rfl⟩

/-- Copies leaving a list of descriptors change the store alone. -/
theorem State.leaveAll_only (g : Seg) (l : List (Fin Config.numDescs)) (s : State) :
    ∃ st, l.foldl (fun s d => s.mapStore fun st => st.leave d g) s = { s with store := st } := by
  induction l generalizing s with
  | nil => exact ⟨_, rfl⟩
  | cons d l ih =>
    obtain ⟨st, h⟩ := ih (s.mapStore fun st => st.leave d g)
    exact ⟨st, by simpa using h⟩

/-- Withdrawing a segment's unstarted replies changes its scheduler, the store, its Abandoned counter and the pending own
address alone. -/
theorem State.withdrawReplies_only (s : State) (g : Seg) :
    ∃ e st k m, s.withdrawReplies g = { s with egress := e, store := st, counters := k, mgmt := m } := by
  have fold : ∀ (l : List ReplyCopy) (s : State),
      ∃ st k, l.foldl (fun s c => (s.mapStore fun st => st.leave c.desc g).count g .abandoned) s
        = { s with store := st, counters := k } := by
    intro l
    induction l with
    | nil => exact fun s => ⟨_, _, rfl⟩
    | cons c l ih =>
      intro s
      obtain ⟨st, k, h⟩ := ih ((s.mapStore fun st => st.leave c.desc g).count g .abandoned)
      exact ⟨st, k, h⟩
  unfold State.withdrawReplies
  dsimp only
  generalize hs : s.setEgress g _ = s'
  obtain ⟨st, k, h⟩ := fold ((s.egress.get g).replyLane.filter fun c => (s.egress.get g).startedReply != some c.desc) s'
  obtain ⟨m, h'⟩ := State.settlePendingOwn_only { s' with store := st, counters := k }
  rw [h, h', ← hs]
  exact ⟨_, _, _, _, rfl⟩

end Sys2Proof.Machine
end

