-- ==== Sys2Proof/Laws/Transactions.lean ====
section
/-!
SUPPORT. What each operation of the transaction engine can change: `_only` lemmas name the fields, and the others stand.
-/

namespace Sys2Proof.Machine

/-- The grants on a set released: the transaction engine alone. -/
theorem State.releaseGrants_only (s : State) (m : SegSet) : ∃ x, s.releaseGrants m = { s with txns := x } := by
  have : ∀ (l : List Seg) (s : State), ∃ x, l.foldl State.releaseGrant s = { s with txns := x } := by
    intro l
    induction l with
    | nil => exact fun s => ⟨_, rfl⟩
    | cons g l ih =>
      intro s
      obtain ⟨x, h⟩ := ih (s.releaseGrant g)
      exact ⟨x, h⟩
  exact this _ _

/-- Last timed-out stations set on a list: the transaction engine alone. -/
theorem State.setLastTimedOutAll_only (a : Option Byte) (l : List Seg) (s : State) :
    ∃ x, l.foldl (fun s g => s.setLastTimedOut g a) s = { s with txns := x } := by
  induction l generalizing s with
  | nil => exact ⟨_, rfl⟩
  | cons g l ih =>
    obtain ⟨x, h⟩ := ih (s.setLastTimedOut g a)
    exact ⟨x, h⟩

/-- An outcome fixed: records, the notice and its count. -/
theorem State.closeTxn_only (s : State) (r : Fin Config.numTxns) (o : TxnOutcome) :
    ∃ x e k, s.closeTxn r o = { s with txns := x, egress := e, counters := k } := by
  have free : ∀ (p : Prop) [Decidable p] (s' : State),
      (∃ x e k, s' = { s with txns := x, egress := e, counters := k }) →
      ∃ x e k, (if p then s'.freeRecord r else s') = { s with txns := x, egress := e, counters := k } := by
    rintro p _ _ ⟨x, e, k, rfl⟩
    split <;> exact ⟨_, _, _, rfl⟩
  unfold State.closeTxn
  split
  · exact ⟨_, _, _, rfl⟩
  · dsimp only
    split
    · exact ⟨_, _, _, rfl⟩
    · refine free _ _ ?_
      split
      · split
        · exact ⟨_, _, _, rfl⟩
        · obtain ⟨e, k, h⟩ := State.notify_only (s.putTxn r _) _ _ _
          rw [h]
          exact ⟨_, _, _, rfl⟩
      · exact ⟨_, _, _, rfl⟩

/-- An outcome that calls for no notice touches the records alone (R43). -/
theorem State.closeTxn_silent (s : State) (r : Fin Config.numTxns) {o : TxnOutcome} (h : o.notice = none) :
    ∃ x, s.closeTxn r o = { s with txns := x } := by
  unfold State.closeTxn
  split
  · exact ⟨_, rfl⟩
  · simp only [h]
    split
    · exact ⟨_, rfl⟩
    · split <;> exact ⟨_, rfl⟩

/-- A request descriptor no longer needed: the store alone. -/
theorem State.dropRequest_only (s : State) (t : Txn) : ∃ st, s.dropRequest t = { s with store := st } := by
  unfold State.dropRequest
  split <;> exact ⟨_, rfl⟩

/-- A waiting transaction cancelled. -/
theorem State.cancelWaiting_only (s : State) (r : Fin Config.numTxns) (o : TxnOutcome) :
    ∃ x e k st, s.cancelWaiting r o = { s with txns := x, egress := e, counters := k, store := st } := by
  unfold State.cancelWaiting
  split
  · exact ⟨_, _, _, _, rfl⟩
  · rename_i t _
    obtain ⟨st, h⟩ := s.dropRequest_only t
    rw [h]
    obtain ⟨x, e, k, h⟩ := State.closeTxn_only { s with store := st } r o
    rw [h]
    exact ⟨_, _, _, _, rfl⟩

/-- The live transaction of an origin abandoned. -/
theorem State.abandonLive_only (s : State) (g : Seg) :
    ∃ x e k st, s.abandonLive g = { s with txns := x, egress := e, counters := k, store := st } := by
  unfold State.abandonLive
  split
  · exact ⟨_, _, _, _, rfl⟩
  · split
    · exact ⟨_, _, _, _, rfl⟩
    · split
      · obtain ⟨x, e, k, st, h⟩ := State.cancelWaiting_only s _ .cancelled
        rw [h]
        exact ⟨_, _, _, _, rfl⟩
      · obtain ⟨k, h⟩ := State.countIf_only _ _ g .abandoned
        rw [h]
        exact ⟨_, _, _, _, rfl⟩

/-- What a supersede or a break does to an origin (R27, R48). -/
theorem State.abandonOrigin_only (s : State) (g : Seg) :
    ∃ x e k st m, s.abandonOrigin g = { s with txns := x, egress := e, counters := k, store := st, mgmt := m } := by
  unfold State.abandonOrigin
  obtain ⟨x, e, k, st, h⟩ := State.abandonLive_only s g
  rw [h]
  obtain ⟨e', st', k', m, h'⟩ :=
    State.withdrawReplies_only { s with txns := x, egress := e, counters := k, store := st } g
  rw [h']
  exact ⟨_, _, _, _, _, rfl⟩

/-- A forming transaction becomes PENDING, or closes NoRoute. -/
theorem State.becomePending_only (s : State) (r : Fin Config.numTxns) :
    ∃ x e k st, s.becomePending r = { s with txns := x, egress := e, counters := k, store := st } := by
  unfold State.becomePending
  split
  · exact ⟨_, _, _, _, rfl⟩
  · dsimp only
    split
    · obtain ⟨x, e, k, st, h⟩ := State.cancelWaiting_only (s.putTxn r _) r .noRoute
      rw [h]
      exact ⟨_, _, _, _, rfl⟩
    · exact ⟨_, _, _, _, rfl⟩

/-- A forming Local becomes EXECUTING. -/
theorem State.becomeExecuting_only (s : State) (r : Fin Config.numTxns) (c q : Byte) :
    ∃ x m, s.becomeExecuting r c q = { s with txns := x, mgmt := m } := by
  unfold State.becomeExecuting
  split <;> exact ⟨_, _, rfl⟩

/-- A launch: records, grants, lanes and the descriptor. -/
theorem State.launch_only (s : State) (older : List (Fin Config.numTxns)) (r : Fin Config.numTxns) :
    ∃ x e st, s.launch older r = { s with txns := x, egress := e, store := st } := by
  have grants : ∀ (d : Option (Fin Config.numDescs)) (l : List Seg) (s : State),
      ∃ x e, l.foldl (State.grant r d) s = { s with txns := x, egress := e } := by
    intro d l
    induction l with
    | nil => exact fun s => ⟨_, _, rfl⟩
    | cons g l ih =>
      intro s
      obtain ⟨x, e, h⟩ := ih (State.grant r d s g)
      exact ⟨x, e, h⟩
  have bypass : ∀ (m : SegSet) (l : List (Fin Config.numTxns)) (s : State), ∃ x, s.raiseBypass l m = { s with txns := x } := by
    intro m l
    induction l with
    | nil => exact fun s => ⟨_, rfl⟩
    | cons o l ih =>
      intro s
      unfold State.raiseBypass at ih ⊢
      rw [List.foldl_cons]
      split
      · split
        · exact ih s
        · obtain ⟨x, h⟩ := ih (s.putTxn o _)
          exact ⟨x, h⟩
      · exact ih s
  unfold State.launch
  split
  · exact ⟨_, _, _, rfl⟩
  · rename_i t ht
    dsimp only
    obtain ⟨x, e, h⟩ := grants t.reqDesc t.egress.members
      { s with txns := { s.txns with waiting := s.txns.waiting.filter fun q => q != r } }
    rw [h]
    split
    · obtain ⟨y, h'⟩ := bypass t.egress older (State.putTxn (State.mapStore _ _) r _)
      rw [h']
      exact ⟨_, _, _, rfl⟩
    · obtain ⟨y, h'⟩ := bypass t.egress older (State.putTxn _ r _)
      rw [h']
      exact ⟨_, _, _, rfl⟩

/-- A scan: records, grants, lanes and descriptors. -/
theorem State.scanFrom_only (l : List (Fin Config.numTxns)) (s : State) (older : List (Fin Config.numTxns)) :
    ∃ x e st, s.scanFrom older l = { s with txns := x, egress := e, store := st } := by
  induction l generalizing s older with
  | nil => exact ⟨_, _, _, rfl⟩
  | cons r l ih =>
    unfold State.scanFrom
    split
    · obtain ⟨x, e, st, h⟩ := s.launch_only older r
      obtain ⟨x', e', st', h'⟩ := ih (s.launch older r) older
      rw [h', h]
      exact ⟨_, _, _, rfl⟩
    · exact ih s _

/-- What follows when the copies outstanding may have become empty (R36). -/
theorem State.copiesDone_only (s : State) (r : Fin Config.numTxns) :
    ∃ x e k, s.copiesDone r = { s with txns := x, egress := e, counters := k } := by
  have close : ∀ (s : State) (t : Option Txn) (o : TxnOutcome),
      ∃ x e k, (s.putTxn r t).closeTxn r o = { s with txns := x, egress := e, counters := k } := by
    intro s t o
    obtain ⟨x, e, k, h⟩ := State.closeTxn_only (s.putTxn r t) r o
    exact ⟨x, e, k, h⟩
  unfold State.copiesDone
  split
  · exact ⟨_, _, _, rfl⟩
  · dsimp only
    split
    · exact ⟨_, _, _, rfl⟩
    · split
      · exact ⟨_, _, _, rfl⟩
      · split
        · split
          · exact close _ _ _
          · exact ⟨_, _, _, rfl⟩
        · exact ⟨_, _, _, rfl⟩
        · exact close _ _ _
        · exact ⟨_, _, _, rfl⟩

/-- A request copy sent whole (R35). -/
theorem State.copyCompleted_only (s : State) (g : Seg) :
    ∃ x e k, s.copyCompleted g = { s with txns := x, egress := e, counters := k } := by
  have done : ∀ (s s' : State) (r : Fin Config.numTxns), (∃ x, s' = { s with txns := x }) →
      ∃ x e k, s'.copiesDone r = { s with txns := x, egress := e, counters := k } := by
    rintro s _ r ⟨x, rfl⟩
    obtain ⟨x, e, k, h⟩ := State.copiesDone_only { s with txns := x } r
    exact ⟨x, e, k, h⟩
  unfold State.copyCompleted
  split
  · exact ⟨_, _, _, rfl⟩
  · split
    · exact ⟨_, _, _, rfl⟩
    · refine done s _ _ ?_
      split
      · exact ⟨_, rfl⟩
      · split <;> exact ⟨_, rfl⟩

/-- A request copy lost to a collision (R36). -/
theorem State.copyFailed_only (s : State) (g : Seg) :
    ∃ x e k, s.copyFailed g = { s with txns := x, egress := e, counters := k } := by
  unfold State.copyFailed
  split
  · exact ⟨_, _, _, rfl⟩
  · split
    · exact ⟨_, _, _, rfl⟩
    · obtain ⟨x, e, k, h⟩ := State.copiesDone_only (State.releaseGrant (s.putTxn _ _) g) _
      exact ⟨x, e, k, h⟩

/-- A window matched: the transaction engine alone (R38). -/
theorem State.matchWindow_only (s : State) (r : Fin Config.numTxns) (t : Txn) (g : Seg) :
    ∃ x, s.matchWindow r t g = { s with txns := x } := by
  unfold State.matchWindow
  obtain ⟨x, h⟩ := State.releaseGrants_only (s.putTxn r _) (t.windows.erase g)
  exact ⟨x, h⟩

/-- A response that ended other than intact (R42). -/
theorem State.responseFailed_only (s : State) (r : Fin Config.numTxns) (g : Seg) (o : TxnOutcome) :
    ∃ x e k, s.responseFailed r g o = { s with txns := x, egress := e, counters := k } := by
  obtain ⟨x, e, k, h⟩ := State.closeTxn_only (s.releaseGrant g) r o
  exact ⟨x, e, k, h⟩

/-- A response that ended intact (R42, R104). -/
theorem State.responseIntact_only (s : State) (r : Fin Config.numTxns) (g : Seg) (d : Fin Config.numDescs) :
    ∃ x e k st t v, s.responseIntact r g d
      = { s with txns := x, egress := e, counters := k, store := st, table := t, events := v } := by
  have tail : ∀ (s : State) (o : TxnOutcome) (a : Byte), ∃ x e k t v,
      ((s.releaseGrant g).closeTxn r o).learn a g
        = { s with txns := x, egress := e, counters := k, table := t, events := v } := by
    intro s o a
    obtain ⟨x, e, k, h⟩ := State.closeTxn_only (s.releaseGrant g) r o
    rw [h]
    obtain ⟨t, v, h'⟩ := State.learn_only { s.releaseGrant g with txns := x, egress := e, counters := k } a g
    exact ⟨x, e, k, t, v, h'⟩
  unfold State.responseIntact
  split
  · exact ⟨_, _, _, _, _, _, rfl⟩
  · dsimp only
    split
    · obtain ⟨x, e, k, t, v, h⟩ := tail (s.mapStore fun st => st.dropTxn d) .answered _
      rw [h]
      exact ⟨_, _, _, _, _, _, rfl⟩
    · obtain ⟨e, st, k, h⟩ := State.offerReply_only (s.mapStore fun st => st.modify d fun x => { x with txn := none }) _ d none
      rw [h]
      obtain ⟨x, e, k, t, v, h⟩ := tail _ .answered _
      rw [h]
      exact ⟨_, _, _, _, _, _, rfl⟩

/-- The response timer's expiry (R41). -/
theorem State.timeOut_only (s : State) (r : Fin Config.numTxns) (t : Txn) :
    ∃ x e k b v, s.timeOut r t = { s with txns := x, egress := e, counters := k, table := b, events := v } := by
  unfold State.timeOut
  dsimp only
  obtain ⟨x, h⟩ := State.releaseGrants_only (s.putTxn r (some { t with windows := 0, deadline := none })) t.windows
  rw [h]
  obtain ⟨x, h⟩ := State.setLastTimedOutAll_only (some t.station) t.windows.members
    { s.putTxn r (some { t with windows := 0, deadline := none }) with txns := x }
  rw [h]
  obtain ⟨b, v, h⟩ := State.countMiss_only { s with txns := x } t.station
  rw [show ({ ({ s.putTxn r (some { t with windows := 0, deadline := none }) with txns := x } : State) with txns := x } : State)
    = { s with txns := x } from rfl] at *
  rw [h]
  obtain ⟨x, e, k, h⟩ := State.closeTxn_only
    ((State.count { s with txns := x, table := b, events := v } t.origin .timeouts).raise .timeout (some t.origin)
      (some t.station) 0) r .timeout
  rw [h]
  exact ⟨_, _, _, _, _, rfl⟩

/-- A segment leaving the egress sets of the waiting transactions (R49). -/
theorem State.pruneWaiting_only (s : State) (g : Seg) :
    ∃ x e k st, s.pruneWaiting g = { s with txns := x, egress := e, counters := k, store := st } := by
  unfold State.pruneWaiting
  generalize s.txns.waiting = l
  induction l generalizing s with
  | nil => exact ⟨_, _, _, _, rfl⟩
  | cons r l ih =>
    rw [List.foldl_cons]
    split
    · exact ih s
    · dsimp only
      split
      · split
        · obtain ⟨x, e, k, st, h⟩ := State.cancelWaiting_only (s.putTxn r _) r .noRoute
          rw [h]
          obtain ⟨x', e', k', st', h'⟩ := ih { s.putTxn r _ with txns := x, egress := e, counters := k, store := st }
          rw [h']
          exact ⟨_, _, _, _, rfl⟩
        · obtain ⟨x, e, k, st, h⟩ := ih (s.putTxn r _)
          exact ⟨x, e, k, st, h⟩
      · exact ih s

end Sys2Proof.Machine
end

