-- ==== Sys2Proof/Laws/Sending.lean ====
section
/-!
SUPPORT. What each operation of the egress schedulers can change: `_only` lemmas name the fields, and the others stand.
-/

namespace Sys2Proof.Machine

/-- Requesting a character (R115). -/
theorem State.requestNext_only (s : State) (g : Seg) (a : Attempt) :
    ∃ l e, s.requestNext g a = { s with lines := l, egress := e } := by
  unfold State.requestNext
  dsimp only
  split
  · exact ⟨_, _, rfl⟩
  · split <;> exact ⟨_, _, rfl⟩

/-- Entering TRANSMIT (R114, R115). -/
theorem State.enterTransmit_only (s : State) (g : Seg) (b : Bool) :
    ∃ l e, s.enterTransmit g b = { s with lines := l, egress := e } := by
  unfold State.enterTransmit
  dsimp only
  obtain ⟨l, e, h⟩ := State.requestNext_only (s.setEgress g (s.egress.get g).startItem) g
    ⟨b, (s.setEgress g (s.egress.get g).startItem).bridge.own, 0, 0⟩
  rw [h]
  split
  · exact ⟨_, _, rfl⟩
  · obtain ⟨l', e', h'⟩ := State.requestNext_only
      { s.setEgress g (s.egress.get g).startItem with lines := l, egress := e } g _
    rw [h']
    exact ⟨_, _, rfl⟩

/-- An item leaving its lane or slot (R121, R122). -/
theorem State.dropItem_only (s : State) (g : Seg) (i : Item) :
    ∃ e st, s.dropItem g i = { s with egress := e, store := st } := by
  unfold State.dropItem
  dsimp only
  split <;> exact ⟨_, _, rfl⟩

/-- A send that ends in collision (R121). -/
theorem State.sendCollided_only (s : State) (g : Seg) : ∃ e st x k m v, s.sendCollided g
    = { s with egress := e, store := st, txns := x, counters := k, mgmt := m, events := v } := by
  have settle : ∀ (s : State) (k : EventKind) (u : Option Seg) (a : Option Byte) (d : Byte),
      ∃ m v, s.settlePendingOwn.raise k u a d = { s with mgmt := m, events := v } := by
    intro s k u a d
    obtain ⟨m, h⟩ := s.settlePendingOwn_only
    rw [h]
    exact ⟨_, _, rfl⟩
  have fail : ∀ (b : Bool) (s : State),
      ∃ x e k, (if b = true then s.copyFailed g else s) = { s with txns := x, egress := e, counters := k } := by
    intro b s
    split
    · exact s.copyFailed_only g
    · exact ⟨_, _, _, rfl⟩
  have lost : ∀ (b : Bool) (s : State), ∃ k, (if b = true then s.countNoticeLost else s) = { s with counters := k } := by
    intro b s
    split <;> exact ⟨_, rfl⟩
  unfold State.sendCollided
  split
  · exact ⟨_, _, _, _, _, _, rfl⟩
  · rename_i h _
    dsimp only
    obtain ⟨e, st, h1⟩ := s.dropItem_only g h.item
    rw [h1]
    obtain ⟨k, h2⟩ := lost h.item.isNotice { s with egress := e, store := st }
    rw [h2]
    obtain ⟨x, e, k, h3⟩ := fail (s.isRequestCopy h.item) { s with egress := e, store := st, counters := k }
    rw [h3]
    obtain ⟨m, v, h4⟩ := settle { s with egress := e, store := st, counters := k, txns := x } .collision (some g)
      (some (s.itemStation g h.item)) (BitVec.ofNat 8 h.attempts)
    rw [h4]
    exact ⟨_, _, _, _, _, _, rfl⟩

/-- Entering BACKOFF (R116, R119, R120). -/
theorem State.backOff_only (s : State) (g : Seg) : ∃ e st x k m v, s.backOff g
    = { s with egress := e, store := st, txns := x, counters := k, mgmt := m, events := v } := by
  unfold State.backOff
  dsimp only
  split
  · obtain ⟨e, st, x, k, m, v, h⟩ := s.sendCollided_only g
    rw [h]
    exact ⟨_, _, _, _, _, _, rfl⟩
  · exact ⟨_, _, _, _, _, _, rfl⟩

/-- A collision found (R118). -/
theorem State.foundCollision_only (s : State) (g : Seg) :
    ∃ e l k, s.foundCollision g = { s with egress := e, lines := l, counters := k } := ⟨_, _, _, rfl⟩

/-- The echo compare (R117). -/
theorem State.echoCompare_only (s : State) (g : Seg) (i : EchoItem) :
    ∃ e l k, s.echoCompare g i = { s with egress := e, lines := l, counters := k } := by
  unfold State.echoCompare
  dsimp only
  split
  · split
    · split
      · obtain ⟨l, e, h⟩ := State.requestNext_only (s.setEgress g _) g _
        rw [h]
        exact ⟨_, _, _, rfl⟩
      · exact s.foundCollision_only g
    · exact ⟨_, _, _, rfl⟩
  · split
    · split
      · exact ⟨_, _, _, rfl⟩
      · exact s.foundCollision_only g
    · exact ⟨_, _, _, rfl⟩
  · exact ⟨_, _, _, rfl⟩
  · exact ⟨_, _, _, rfl⟩
  · exact ⟨_, _, _, rfl⟩

/-- Taking the line (R114). -/
theorem State.takeLine_only (s : State) (g : Seg) :
    ∃ e l f, s.takeLine g = { s with egress := e, lines := l, receivers := f } := by
  unfold State.takeLine
  dsimp only
  split
  · obtain ⟨l, e, h⟩ := State.enterTransmit_only (State.setEgress _ g _) g (s.active g).echoCheck
    rw [h]
    exact ⟨_, _, _, rfl⟩
  · exact ⟨_, _, _, rfl⟩

/-- LEAD's end (R114). -/
theorem State.endLead_only (s : State) (g : Seg) : ∃ l e, s.endLead g = { s with lines := l, egress := e } := by
  unfold State.endLead
  split
  · exact s.enterTransmit_only g _
  · exact ⟨_, _, rfl⟩
  · exact ⟨_, _, rfl⟩
  · exact ⟨_, _, rfl⟩
  · exact ⟨_, _, rfl⟩

/-- A character's send completion (R64, R115). -/
theorem State.characterSent_only (s : State) (g : Seg) :
    ∃ l e, s.characterSent g = { s with lines := l, egress := e } := by
  unfold State.characterSent
  dsimp only
  split
  · split
    · exact ⟨_, _, rfl⟩
    · split
      · exact ⟨_, _, rfl⟩
      · split
        · exact ⟨_, _, rfl⟩
        · split
          · exact ⟨_, _, rfl⟩
          · obtain ⟨l, e, h⟩ := State.requestNext_only (State.setEgress _ g _) g _
            rw [h]
            exact ⟨_, _, rfl⟩
  · exact ⟨_, _, rfl⟩
  · exact ⟨_, _, rfl⟩
  · exact ⟨_, _, rfl⟩
  · exact ⟨_, _, rfl⟩

/-- A break's send completion (R118, R69). -/
theorem State.breakSent_only (s : State) (g : Seg) :
    ∃ l e f, s.breakSent g = { s with lines := l, egress := e, receivers := f } := by
  unfold State.breakSent
  dsimp only
  split <;> exact ⟨_, _, _, rfl⟩

/-- A start bit heard while driving (R57, R116). -/
theorem State.startHeard_only (s : State) (g : Seg) : ∃ l f e st x k m v, s.startHeard g = { s with
    lines := l, receivers := f, egress := e, store := st, txns := x, counters := k, mgmt := m, events := v } := by
  have taken : ∃ l, s.takeStart g = { s with lines := l } := by
    unfold State.takeStart
    dsimp only
    split <;> exact ⟨_, rfl⟩
  obtain ⟨l, h⟩ := taken
  unfold State.startHeard
  dsimp only
  rw [h]
  split
  · obtain ⟨e, st, x, k, m, v, h'⟩ := State.backOff_only
      (State.failAttempt (State.releaseLine { s with lines := l } g) g) g
    rw [h']
    exact ⟨_, _, _, _, _, _, _, _, rfl⟩
  all_goals exact ⟨_, _, _, _, _, _, _, _, rfl⟩

end Sys2Proof.Machine
end

