-- ==== Sys2Proof/Laws/Reception.lean ====
section
/-!
SUPPORT. What each operation of the frame receivers, of a Segment restart and of a settings apply can change: `_only`
lemmas name the fields, and the others stand.
-/

namespace Sys2Proof.Machine

/-! ### Frame receivers -/

/-- The error counts of a character (R82). -/
theorem State.countErrors_only (s : State) (g : Seg) (c : RxChar) : ∃ k, s.countErrors g c = { s with counters := k } := by
  unfold State.countErrors
  obtain ⟨k, h⟩ := s.countIf_only (c.parityErr || c.framingErr) g .charErrors
  obtain ⟨k', h'⟩ := State.countIf_only { s with counters := k } c.noise g .noiseChars
  rw [h, h']
  exact ⟨_, rfl⟩

/-- Admission with a record (R76). -/
theorem State.admitRecord_only (s : State) (g : Seg) (cls : FrameClass) (kind : TxnKind) (m : SegSet)
    (tc : Option TimeoutClass) (c : RxChar) : ∃ f k st x,
    s.admitRecord g cls kind m tc c = { s with receivers := f, counters := k, store := st, txns := x } := by
  unfold State.admitRecord
  dsimp only
  split
  · exact ⟨_, _, _, _, rfl⟩
  · split
    · exact ⟨_, _, _, _, rfl⟩
    · split <;> exact ⟨_, _, _, _, rfl⟩

/-- Admission without a record (R76). -/
theorem State.admitPlain_only (s : State) (g : Seg) (cls : FrameClass) (r : Option (Fin Config.numTxns)) (c : RxChar) :
    ∃ f k st, s.admitPlain g cls r c = { s with receivers := f, counters := k, store := st } := by
  unfold State.admitPlain
  dsimp only
  split
  · exact ⟨_, _, _, rfl⟩
  · split <;> exact ⟨_, _, _, rfl⟩

/-- An address character taken in HUNT (R73). -/
theorem State.beginFrame_only (s : State) (g : Seg) (c : RxChar) : ∃ f k st x v,
    s.beginFrame g c = { s with receivers := f, counters := k, store := st, txns := x, events := v } := by
  unfold State.beginFrame
  split
  · exact ⟨_, _, _, _, _, rfl⟩
  · obtain ⟨f, k, st, x, h⟩ := s.admitRecord_only g _ _ _ _ c
    rw [h]
    exact ⟨_, _, _, _, _, rfl⟩
  · obtain ⟨x, h⟩ := s.matchWindow_only _ _ g
    rw [h]
    obtain ⟨f, k, st, h⟩ := State.admitPlain_only { s with txns := x } g .response (some _) c
    rw [h]
    exact ⟨_, _, _, _, _, rfl⟩
  · obtain ⟨f, k, st, h⟩ := State.admitPlain_only (s.count g .unsolicited) g .unsolicited none c
    rw [h]
    exact ⟨_, _, _, _, _, rfl⟩
  · split <;> exact ⟨_, _, _, _, _, rfl⟩

/-- A data character taken in STORE (R79 to R82). -/
theorem State.growFrame_only (s : State) (g : Seg) (f : Frame) (c : RxChar) :
    ∃ r st, s.growFrame g f c = { s with receivers := r, store := st } := by
  unfold State.growFrame
  split
  · exact ⟨_, _, rfl⟩
  · split
    · exact ⟨_, _, rfl⟩
    · dsimp only
      split
      · exact ⟨_, _, rfl⟩
      · split
        · split <;> exact ⟨_, _, rfl⟩
        · exact ⟨_, _, rfl⟩

/-- An Unsolicited frame forwarded (R88). -/
theorem State.forwardUnsolicited_only (s : State) (d : Fin Config.numDescs) :
    ∃ e k st, s.forwardUnsolicited d = { s with egress := e, counters := k, store := st } := by
  unfold State.forwardUnsolicited
  dsimp only
  generalize Seg.all = l
  suffices h : ∀ (l : List Seg) (s : State), ∃ e k st, l.foldl (fun (s : State) (u : Seg) =>
      if (s.active u).role = .upstream then
        if (s.egress.get u).bulkLane.length < Config.bulkLaneCap then
          (s.setEgress u { s.egress.get u with bulkLane := (s.egress.get u).bulkLane ++ [d] }).mapStore fun st =>
            st.modify d fun x => { x with pendingEgress := x.pendingEgress.insert u }
        else s.count u .noBuffer
      else s) s = { s with egress := e, counters := k, store := st } by
    obtain ⟨e, k, st, h⟩ := h l s
    rw [h]
    exact ⟨_, _, _, rfl⟩
  intro l
  induction l with
  | nil => exact fun s => ⟨_, _, _, rfl⟩
  | cons u l ih =>
    intro s
    rw [List.foldl_cons]
    split
    · split
      · obtain ⟨e, k, st, h⟩ := ih ((s.setEgress u { s.egress.get u with bulkLane := (s.egress.get u).bulkLane ++ [d] }).mapStore
          fun st => st.modify d fun x => { x with pendingEgress := x.pendingEgress.insert u })
        exact ⟨e, k, st, h⟩
      · obtain ⟨e, k, st, h⟩ := ih (s.count u .noBuffer)
        exact ⟨e, k, st, h⟩
    · exact ih s

/-- A record entering service (R27, R28). -/
theorem State.enterService_only (s : State) (g : Seg) (cls : FrameClass) (r : Fin Config.numTxns)
    (d : Fin Config.numDescs) : ∃ x e k st m,
    s.enterService g cls r d = { s with txns := x, egress := e, counters := k, store := st, mgmt := m } := by
  have enter : ∀ (p : Prop) [Decidable p] (s : State) (a b : Byte), ∃ x e k st m,
      (if p then s.becomeExecuting r a b else s.becomePending r)
        = { s with txns := x, egress := e, counters := k, store := st, mgmt := m } := by
    intro p _ s a b
    split
    · obtain ⟨x, m, h⟩ := s.becomeExecuting_only r a b
      rw [h]
      exact ⟨_, _, _, _, _, rfl⟩
    · obtain ⟨x, e, k, st, h⟩ := s.becomePending_only r
      rw [h]
      exact ⟨_, _, _, _, _, rfl⟩
  unfold State.enterService
  dsimp only
  split
  · exact ⟨_, _, _, _, _, rfl⟩
  · obtain ⟨x, e, k, st, m, h⟩ := s.abandonOrigin_only g
    rw [h]
    obtain ⟨x, e, k, st, m, h⟩ := enter (cls = .management)
      { s with txns := x, egress := e, counters := k, store := st, mgmt := m } (arg (s.store.values d) 1)
      (arg (s.store.values d) 2)
    rw [h]
    obtain ⟨e, h⟩ := State.setBackBulk_only { s with txns := x, egress := e, counters := k, store := st, mgmt := m } g
    rw [h]
    exact ⟨_, _, _, _, _, rfl⟩

/-- An Intact frame handed on (R87). -/
theorem State.handOn_only (s : State) (g : Seg) (f : Frame) (d : Fin Config.numDescs) : ∃ x e k st m t v,
    s.handOn g f d
      = { s with txns := x, egress := e, counters := k, store := st, mgmt := m, table := t, events := v } := by
  have service : ∀ (cls : FrameClass) (r : Fin Config.numTxns) (st : Store), ∃ x e k st' m t v,
      State.enterService { s with store := st } g cls r d
        = { s with txns := x, egress := e, counters := k, store := st', mgmt := m, table := t, events := v } := by
    intro cls r st
    obtain ⟨x, e, k, st', m, h⟩ := State.enterService_only { s with store := st } g cls r d
    exact ⟨x, e, k, st', m, s.table, s.events, h⟩
  unfold State.handOn
  dsimp only
  split
  · exact service _ _ _
  · exact service _ _ _
  · exact service _ _ _
  · obtain ⟨x, e, k, st, t, v, h⟩ := State.responseIntact_only (s.mapStore fun st => st.modify d fun x => { x with state := .ready }) _ g d
    exact ⟨x, e, k, st, s.mgmt, t, v, h⟩
  · obtain ⟨e, k, st, h⟩ := State.forwardUnsolicited_only (s.mapStore fun st => st.modify d fun x => { x with state := .ready }) d
    exact ⟨s.txns, e, k, st, s.mgmt, s.table, s.events, h⟩
  · exact ⟨_, _, _, _, _, _, _, rfl⟩

/-- The end of a frame (R86): every field but the lines, the settings, the lease and the pins may change; the receiver is in
HUNT. -/
theorem State.endFrameOf_only (s : State) (g : Seg) (cause : EndCause) (skip : Option SkipReason) (f : Frame) :
    ∃ x e k st m t v, s.endFrameOf g cause skip f
      = { s with
          receivers := s.receivers.set g .hunt
          txns := x, egress := e, counters := k, store := st, mgmt := m, table := t, events := v } := by
  have unkept : ∀ (s : State) (o : Option TxnOutcome), ∃ x e k st, (s.releaseFrame f).endUnkept g f o
      = { s with txns := x, egress := e, counters := k, store := st } := by
    intro s o
    have : ∃ st, s.releaseFrame f = { s with store := st } := by
      unfold State.releaseFrame
      split <;> exact ⟨_, rfl⟩
    obtain ⟨st, h⟩ := this
    rw [h]
    unfold State.endUnkept
    split
    · exact ⟨_, _, _, _, rfl⟩
    · split
      · obtain ⟨x, e, k, h⟩ := State.responseFailed_only { s with store := st } _ g _
        rw [h]
        exact ⟨_, _, _, _, rfl⟩
      · exact ⟨_, _, _, _, rfl⟩
  have unkept' : ∀ (s : State) (o : Option TxnOutcome), ∃ x e k, s.endUnkept g f o
      = { s with txns := x, egress := e, counters := k } := by
    intro s o
    unfold State.endUnkept
    split
    · exact ⟨_, _, _, rfl⟩
    · split
      · exact s.responseFailed_only _ g _
      · exact ⟨_, _, _, rfl⟩
  have intent : ∀ s : State, ∃ e k, s.placeIntent g f cause = { s with egress := e, counters := k } := by
    intro s
    unfold State.placeIntent
    split
    · split
      · exact ⟨_, _, rfl⟩
      · exact s.notify_only _ _ _
    · exact ⟨_, _, rfl⟩
  unfold State.endFrameOf
  dsimp only
  generalize endingOf cause skip _ = ending
  obtain ⟨k, h⟩ := State.countIf_only ((s.setReceiver g .hunt).count g .framesReceived) (ending == .damaged) g .damaged
  rw [h]
  obtain ⟨k, h⟩ := State.countIf_only { (s.setReceiver g .hunt).count g .framesReceived with counters := k }
    (ending == .truncated) g .noBuffer
  rw [h]
  suffices h : ∀ (s1 s2 : State),
      (∃ x e k st m t v, s2
        = { s1 with txns := x, egress := e, counters := k, store := st, mgmt := m, table := t, events := v }) →
      ∃ x e k st m t v, s2.placeIntent g f cause
        = { s1 with txns := x, egress := e, counters := k, store := st, mgmt := m, table := t, events := v } by
    refine h { s with receivers := s.receivers.set g .hunt } _ ?_
    split
    · split
      · obtain ⟨x, e, k, st, m, t, v, h⟩ := State.handOn_only
          { (s.setReceiver g .hunt).count g .framesReceived with counters := k } g f _
        exact ⟨x, e, k, st, m, t, v, h⟩
      · exact ⟨_, _, _, _, _, _, _, rfl⟩
    · obtain ⟨x, e, k, st, h⟩ := unkept { (s.setReceiver g .hunt).count g .framesReceived with counters := k } _
      rw [h]
      exact ⟨_, _, _, _, _, _, _, rfl⟩
    · obtain ⟨x, e, k, st, h⟩ := unkept { (s.setReceiver g .hunt).count g .framesReceived with counters := k } _
      rw [h]
      exact ⟨_, _, _, _, _, _, _, rfl⟩
    · obtain ⟨x, e, k, h⟩ := unkept' { (s.setReceiver g .hunt).count g .framesReceived with counters := k } _
      rw [h]
      exact ⟨_, _, _, _, _, _, _, rfl⟩
  rintro s1 _ ⟨x, e, k, st, m, t, v, rfl⟩
  obtain ⟨e, k, h⟩ := intent { s1 with txns := x, egress := e, counters := k, store := st, mgmt := m, table := t, events := v }
  exact ⟨x, e, k, st, m, t, v, h⟩

/-- An item delivered to a frame receiver, or a frame's end, leaves time, pins, settings, lease and lines as they are. -/
theorem State.endFrame_only (s : State) (g : Seg) (cause : EndCause) : ∃ f x e k st m t v, s.endFrame g cause
    = { s with receivers := f, txns := x, egress := e, counters := k, store := st, mgmt := m, table := t, events := v } := by
  unfold State.endFrame
  split
  · obtain ⟨x, e, k, st, m, t, v, h⟩ := s.endFrameOf_only g cause none _
    exact ⟨_, x, e, k, st, m, t, v, h⟩
  · obtain ⟨x, e, k, st, m, t, v, h⟩ := s.endFrameOf_only g cause (some _) _
    exact ⟨_, x, e, k, st, m, t, v, h⟩
  · exact ⟨_, _, _, _, _, _, _, _, rfl⟩
  · exact ⟨_, _, _, _, _, _, _, _, rfl⟩

/-- The end of a frame leaves the receiver in HUNT, or where it was. -/
theorem State.endFrame_receiver (s : State) (g : Seg) (cause : EndCause) (u : Seg) :
    (s.endFrame g cause).receivers.get u = .hunt ∨ (s.endFrame g cause).receivers.get u = s.receivers.get u := by
  unfold State.endFrame
  split
  · obtain ⟨x, e, k, st, m, t, v, h⟩ := s.endFrameOf_only g cause none _
    rw [h]
    by_cases hu : u = g <;> simp [hu]
  · obtain ⟨x, e, k, st, m, t, v, h⟩ := s.endFrameOf_only g cause (some _) _
    rw [h]
    by_cases hu : u = g <;> simp [hu]
  · exact .inr rfl
  · exact .inr rfl

/-- A character delivered to a frame receiver (R73, R79, R84). -/
theorem State.receiveChar_only (s : State) (g : Seg) (c : RxChar) : ∃ f x e k st m t v, s.receiveChar g c
    = { s with receivers := f, txns := x, egress := e, counters := k, store := st, mgmt := m, table := t, events := v } := by
  have next : ∀ s : State, ∃ f x e k st m t v, (s.endFrame g .nextAddress).beginFrame g c
      = { s with receivers := f, txns := x, egress := e, counters := k, store := st, mgmt := m, table := t, events := v } := by
    intro s
    obtain ⟨f, x, e, k, st, m, t, v, h⟩ := s.endFrame_only g .nextAddress
    rw [h]
    obtain ⟨f', k', st', x', v', h'⟩ := State.beginFrame_only
      { s with receivers := f, txns := x, egress := e, counters := k, store := st, mgmt := m, table := t, events := v } g c
    rw [h']
    exact ⟨_, _, _, _, _, _, _, _, rfl⟩
  obtain ⟨k, hk⟩ := s.countErrors_only g c
  unfold State.receiveChar
  rw [hk]
  split
  · exact ⟨_, _, _, _, _, _, _, _, rfl⟩
  · split
    · obtain ⟨f, k', st, x, v, h⟩ := State.beginFrame_only { s with counters := k } g c
      rw [h]
      exact ⟨_, _, _, _, _, _, _, _, rfl⟩
    · exact ⟨_, _, _, _, _, _, _, _, rfl⟩
  · split
    · obtain ⟨f, x, e, k', st, m, t, v, h⟩ := next { s with counters := k }
      rw [h]
      exact ⟨_, _, _, _, _, _, _, _, rfl⟩
    · obtain ⟨r, st, h⟩ := State.growFrame_only { s with counters := k } g _ c
      rw [h]
      exact ⟨_, _, _, _, _, _, _, _, rfl⟩
  · split
    · obtain ⟨f, x, e, k', st, m, t, v, h⟩ := next { s with counters := k }
      rw [h]
      exact ⟨_, _, _, _, _, _, _, _, rfl⟩
    · exact ⟨_, _, _, _, _, _, _, _, rfl⟩

/-- A break delivered to a frame receiver (R85, R48). -/
theorem State.receiveBreak_only (s : State) (g : Seg) : ∃ f x e k st m t v, s.receiveBreak g
    = { s with receivers := f, txns := x, egress := e, counters := k, store := st, mgmt := m, table := t, events := v } := by
  have main : ∃ f x e k st m t v, (if (((s.endFrame g .aborted).count g .breaks).active g).role = .upstream then
      ((s.endFrame g .aborted).count g .breaks).abandonOrigin g else (s.endFrame g .aborted).count g .breaks)
      = { s with receivers := f, txns := x, egress := e, counters := k, store := st, mgmt := m, table := t, events := v } := by
    obtain ⟨f, x, e, k, st, m, t, v, h⟩ := s.endFrame_only g .aborted
    rw [h]
    split
    · obtain ⟨x, e, k, st, m, h'⟩ := State.abandonOrigin_only (State.count
        { s with receivers := f, txns := x, egress := e, counters := k, store := st, mgmt := m, table := t, events := v } g .breaks) g
      rw [h']
      exact ⟨_, _, _, _, _, _, _, _, rfl⟩
    · exact ⟨_, _, _, _, _, _, _, _, rfl⟩
  unfold State.receiveBreak
  split
  · exact ⟨_, _, _, _, _, _, _, _, rfl⟩
  · exact main
  · exact main
  · exact main

/-! ### Segment restart (R166) -/

/-- A dropped lease: the lease and the event unit alone (R162). -/
theorem State.dropLeaseOf_only (s : State) (g : Seg) (d : Byte) :
    ∃ l v, s.dropLeaseOf g d = { s with lease := l, events := v } := by
  unfold State.dropLeaseOf
  split
  · exact ⟨_, _, rfl⟩
  · split <;> exact ⟨_, _, rfl⟩

/-- What a Segment restart does to the transactions whose origin it is (R50). -/
theorem State.restartOrigins_only (g : Seg) (l : List (Fin Config.numTxns)) (s : State) : ∃ x e k st,
    l.foldl (State.restartOrigin g) s = { s with txns := x, egress := e, counters := k, store := st } := by
  have one : ∀ (s : State) (r : Fin Config.numTxns), ∃ x e k st,
      State.restartOrigin g s r = { s with txns := x, egress := e, counters := k, store := st } := by
    intro s r
    unfold State.restartOrigin
    split
    · exact ⟨_, _, _, _, rfl⟩
    · split
      · split
        · exact s.cancelWaiting_only r .cancelled
        all_goals exact ⟨_, _, _, _, rfl⟩
      · exact ⟨_, _, _, _, rfl⟩
  induction l generalizing s with
  | nil => exact ⟨_, _, _, _, rfl⟩
  | cons r l ih =>
    obtain ⟨x, e, k, st, h⟩ := one s r
    obtain ⟨x', e', k', st', h'⟩ := ih (State.restartOrigin g s r)
    rw [List.foldl_cons, h', h]
    exact ⟨_, _, _, _, rfl⟩

/-- What a Segment restart does to the transaction that holds the segment (R51). -/
theorem State.restartHolder_only (s : State) (g : Seg) :
    ∃ x e k, s.restartHolder g = { s with txns := x, egress := e, counters := k } := by
  unfold State.restartHolder
  split
  · exact ⟨_, _, _, rfl⟩
  · split
    · exact ⟨_, _, _, rfl⟩
    · rename_i r _ _ t _
      dsimp only
      split
      · obtain ⟨x, h⟩ := State.releaseGrants_only ((s.putTxn r (some
        { t with copies := t.copies.erase g, windows := t.windows.erase g })).releaseGrant g) (t.windows.erase g)
        rw [h]
        obtain ⟨x, e, k, h⟩ := State.closeTxn_only (State.putTxn _ r _) r .restart
        rw [h]
        exact ⟨_, _, _, rfl⟩
      · obtain ⟨x, e, k, h⟩ := State.copiesDone_only (State.releaseGrant (s.putTxn r _) g) r
        rw [h]
        exact ⟨_, _, _, rfl⟩

/-- A Segment restart leaves time, pins, settings and the station table as they are (R166), and the other segments' line
units and frame receivers. -/
theorem State.segmentRestart_only (s : State) (g : Seg) : ∃ e k st x m v l,
    s.segmentRestart g = { s with
      lines := s.lines.set g ((s.lines.get g).segmentRestart (s.active g) s.time)
      receivers := s.receivers.set g
        (if ((s.lines.get g).segmentRestart (s.active g) s.time).de then .blind else .hunt)
      egress := e, counters := k, store := st, txns := x, mgmt := m, events := v, lease := l } := by
  have discard : ∃ st x, s.discardFrame g = { s with store := st, txns := x } := by
    unfold State.discardFrame
    split
    · exact ⟨_, _, rfl⟩
    · dsimp only
      split <;> split <;> exact ⟨_, _, rfl⟩
  unfold State.segmentRestart
  dsimp only
  obtain ⟨st, x, h⟩ := discard
  rw [h]
  obtain ⟨st, h⟩ : ∃ st', State.flushCopies { s with store := st, txns := x } g = { s with store := st', txns := x } :=
    State.leaveAll_only g _ _
  rw [h]
  obtain ⟨x, e, k, st, h⟩ := State.restartOrigins_only g ascendingTxns
    (((State.setEgress { s with store := st, txns := x } g Egress.empty).setLine g
      ((s.lines.get g).segmentRestart (s.active g) s.time)).setReceiver g
      (if ((s.lines.get g).segmentRestart (s.active g) s.time).de then .blind else .hunt))
  rw [show ((State.setEgress { s with store := _, txns := _ } g Egress.empty).lines.get g).segmentRestart
    ((State.setEgress { s with store := _, txns := _ } g Egress.empty).active g)
    (State.setEgress { s with store := _, txns := _ } g Egress.empty).time
      = (s.lines.get g).segmentRestart (s.active g) s.time from rfl]
  rw [h]
  obtain ⟨x, e, k, h⟩ := State.restartHolder_only (State.setReceiver (State.setLine
      { s with txns := x, egress := e, counters := k, store := st } g ((s.lines.get g).segmentRestart (s.active g) s.time)) g
      (if ((s.lines.get g).segmentRestart (s.active g) s.time).de then .blind else .hunt)) g
  erw [h]
  obtain ⟨m, h⟩ := State.settlePendingOwn_only { (State.setLastTimedOut (State.setReceiver (State.setLine
      { s with txns := x, egress := e, counters := k, store := st } g ((s.lines.get g).segmentRestart (s.active g) s.time)) g
      (if ((s.lines.get g).segmentRestart (s.active g) s.time).de then .blind else .hunt)) g none) with
      mgmt := { s.mgmt with caches := s.mgmt.caches.set g none } }
  erw [h]
  obtain ⟨l, v, h⟩ := State.dropLeaseOf_only (State.raise (State.setReceiver (State.setLine
      { s with txns := { x with lastTimedOut := x.lastTimedOut.set g none }, egress := e, counters := k, store := st, mgmt := m } g
      ((s.lines.get g).segmentRestart (s.active g) s.time)) g
      (if ((s.lines.get g).segmentRestart (s.active g) s.time).de then .blind else .hunt)) .restarted (some g) none 3) g 2
  erw [h]
  exact ⟨_, _, _, _, _, _, _, rfl⟩

/-! ### Settings apply (R159, R160) -/

/-- What a role change on a segment can change (R160). -/
theorem State.changeRole_only (s : State) (g : Seg) (a b : Role) : ∃ x e k st t v, s.changeRole g a b
    = { s with txns := x, egress := e, counters := k, store := st, table := t, events := v } := by
  unfold State.changeRole
  split
  · exact ⟨_, _, _, _, _, _, rfl⟩
  · split
    · obtain ⟨x, e, k, st, h⟩ := State.pruneWaiting_only (s.unlearnSegment g) g
      rw [h]
      exact ⟨_, _, _, _, _, _, rfl⟩
    · obtain ⟨x, e, k, st, h⟩ := s.abandonLive_only g
      rw [h]
      unfold State.flushBulk
      dsimp only
      obtain ⟨st', h'⟩ := State.leaveAll_only g (e.get g).bulkLane (State.setEgress
        { s with txns := x, egress := e, counters := k, store := st } g { e.get g with bulkLane := [], hand := (e.get g).hand.bind InHand.withoutBulk })
      rw [h']
      exact ⟨_, _, _, _, _, _, rfl⟩
    · exact ⟨_, _, _, _, _, _, rfl⟩

/-- An apply of a segment replaces its active record, clears its mark and steps its line unit (R159, R55). -/
theorem State.applySettings_only (s : State) (g : Seg) : ∃ x e k st t v l, s.applySettings g
    = { s with
        settings := s.settings.apply g
        lines := s.lines.set g ((s.lines.get g).applied (s.active g) (s.settings.staged.get g) s.time)
        txns := x, egress := e, counters := k, store := st, table := t, events := v, lease := l } := by
  unfold State.applySettings
  dsimp only
  obtain ⟨x, e, k, st, t, v, h⟩ := State.changeRole_only (State.setLine { s with settings := s.settings.apply g } g
    ((s.lines.get g).applied (s.active g) (s.settings.staged.get g) s.time)) g (s.active g).role (s.settings.staged.get g).role
  erw [h]
  unfold State.applyLease
  split
  · obtain ⟨l, v, h⟩ := State.dropLeaseOf_only { (State.setLine { s with settings := s.settings.apply g } g
      ((s.lines.get g).applied (s.active g) (s.settings.staged.get g) s.time)) with
      txns := x, egress := e, counters := k, store := st, table := t, events := v } g 1
    rw [h]
    exact ⟨_, _, _, _, _, _, _, rfl⟩
  · exact ⟨_, _, _, _, _, _, _, rfl⟩

end Sys2Proof.Machine
end

