-- ==== Sys2Proof/Laws/Management.lean ====
section
/-!
SUPPORT. What the management engine's operations can change, and that every command answers a next state.
-/

namespace Sys2Proof.Machine

/-- A reply handed over: the schedulers, the store and NoBuffer alone (R103). -/
theorem State.handOver_only (s : State) (g : Seg) (reply : List Byte) (a : Option Armed) :
    ∃ e st k, s.handOver g reply a = { s with egress := e, store := st, counters := k } := by
  unfold State.handOver
  split
  · exact ⟨_, _, _, rfl⟩
  · obtain ⟨e, st, k, h⟩ := State.offerReply_only { s with store := _ } g _ a
    rw [h]
    exact ⟨_, _, _, rfl⟩

/-- The end of an execution (R134) changes storage, lanes, NoBuffer, the records and the engine alone. -/
theorem State.endExecution_only (s : State) (r : Fin Config.numTxns) (reply : List Byte) (a : Option Armed) :
    ∃ e st k x m, s.endExecution r reply a
      = { s with egress := e, store := st, counters := k, txns := x, mgmt := m } := by
  have idle : ∀ s : State, ∃ m, s.idleEngine.settlePendingOwn = { s with mgmt := m } := by
    intro s
    obtain ⟨m, h⟩ := s.idleEngine.settlePendingOwn_only
    exact ⟨m, h⟩
  have tail : ∀ (s : State) (o : TxnOutcome), o.notice = none →
      ∃ x m, ((s.closeTxn r o).freeRecord r).idleEngine.settlePendingOwn = { s with txns := x, mgmt := m } := by
    intro s o ho
    obtain ⟨x, h⟩ := s.closeTxn_silent r ho
    obtain ⟨m, h'⟩ := idle ((s.closeTxn r o).freeRecord r)
    rw [h', h]
    exact ⟨_, _, rfl⟩
  have place : ∀ (p : Prop) [Decidable p] (s : State) (g : Seg),
      ∃ e st k, (if p then s else s.handOver g reply a) = { s with egress := e, store := st, counters := k } := by
    intro p _ s g
    split
    · exact ⟨_, _, _, rfl⟩
    · exact s.handOver_only g reply a
  unfold State.endExecution
  split
  · obtain ⟨m, h⟩ := idle s
    rw [h]
    exact ⟨_, _, _, _, _, rfl⟩
  · rename_i t _
    dsimp only
    obtain ⟨st, h⟩ := s.dropRequest_only t
    rw [h]
    obtain ⟨e, st', k, h⟩ := place (t.superseded = true ∨ (State.active { s with store := st } t.origin).role = .off)
      { s with store := st } t.origin
    rw [h]
    obtain ⟨x, m, h⟩ := tail { s with store := st', egress := e, counters := k }
      (if t.superseded = true then .discarded else .replied) (by split <;> rfl)
    rw [h]
    exact ⟨_, _, _, _, _, rfl⟩

/-- An execution that ends with a cached reply. -/
theorem State.finishCached_only (s : State) (r : Fin Config.numTxns) (t : Txn) (p : Reply) :
    ∃ e st k x m, s.finishCached r t p = { s with egress := e, store := st, counters := k, txns := x, mgmt := m } := by
  unfold State.finishCached
  dsimp only
  obtain ⟨e, st, k, x, m, h⟩ := State.endExecution_only (s.setCache t.origin (some _)) r _ _
  rw [h]
  exact ⟨_, _, _, _, _, rfl⟩

/-- A request refused and not cached (R132). -/
theorem State.refuseUncached_only (s : State) (r : Fin Config.numTxns) (t : Txn) (st : Status) :
    ∃ e q k x m, s.refuseUncached r t st = { s with egress := e, store := q, counters := k, txns := x, mgmt := m } := by
  unfold State.refuseUncached
  dsimp only
  obtain ⟨e, q, k, x, m, h⟩ := State.endExecution_only { s with mgmt := { s.mgmt with buffer := _ } } r _ none
  rw [h]
  exact ⟨_, _, _, _, _, rfl⟩

/-- A Local answered from the cache (R133). -/
theorem State.answerCached_only (s : State) (r : Fin Config.numTxns) (c : CacheEntry) :
    ∃ e q k x m, s.answerCached r c = { s with egress := e, store := q, counters := k, txns := x, mgmt := m } := by
  have main : ∀ s' : State, (∃ e m, s' = { s with egress := e, mgmt := m }) → ∃ e q k x m,
      s'.endExecution r c.reply c.armed = { s with egress := e, store := q, counters := k, txns := x, mgmt := m } := by
    rintro _ ⟨e, m, rfl⟩
    obtain ⟨e, q, k, x, m, h⟩ := State.endExecution_only { s with egress := e, mgmt := m } r c.reply c.armed
    exact ⟨e, q, k, x, m, h⟩
  unfold State.answerCached
  refine main _ ?_
  split
  · unfold State.pendAgain
    split <;> exact ⟨_, _, rfl⟩
  · exact ⟨_, _, rfl⟩
  · exact ⟨_, _, rfl⟩

/-- Every command answers a next state: the bridge has no fault, and no command is refused. -/
theorem exec_next (c : Instr) (s : State) : ∃ t, exec c s = .next t := by
  cases c <;> exact ⟨_, rfl⟩

end Sys2Proof.Machine
end

