-- ==== Sys2Proof/Laws/Answers.lean ====
section
/-!
SUPPORT. How an execution ends (R134), said once in the terms the statements use, and what a row that takes a Local comes to
when its request passes the checks of R131.
-/

namespace Sys2Proof.Machine

/-- A Local's request descriptor gives up its transaction (R99). -/
theorem State.dropRequest_store (s : State) (t : Txn) : s.dropRequest t = { s with store := s.storeWithout t } := by
  unfold State.dropRequest State.storeWithout
  cases t.reqDesc <;> rfl

/-- The reply of Local t, handed on or held back (R103, R110, R134), is placed as `ReplyPlaced` says, and nothing else
changes. -/
theorem State.reply_placed (s : State) (t : Txn) (reply : List Byte) (a : Option Armed) : ∃ e st k,
    (if t.superseded = true ∨ ((s.dropRequest t).active t.origin).role = .off
      then s.dropRequest t else (s.dropRequest t).handOver t.origin reply a)
        = { s with egress := e, store := st, counters := k }
      ∧ ∀ u : State, u.egress = e → u.store = st → u.counters = k → s.ReplyPlaced u t reply a := by
  have role : (s.dropRequest t).active t.origin = s.active t.origin := by
    rw [State.dropRequest_store]
    rfl
  rw [role, State.dropRequest_store]
  unfold State.ReplyPlaced
  dsimp only
  generalize s.storeWithout t = st
  split
  · rename_i silent
    refine ⟨s.egress, st, s.counters, rfl, fun u he hs hk => ⟨fun _ => ⟨hs, he, hk⟩, fun h h' => ?_⟩⟩
    exact absurd silent (by simp [h, h'])
  · rename_i silent
    have spoken : ∀ {p : Prop}, t.superseded = true ∨ (s.active t.origin).role = .off → p := fun h => absurd h silent
    unfold State.handOver
    cases ha : st.allocReply reply with
    | none =>
      exact ⟨s.egress, st, _, rfl, fun u he hs hk =>
        ⟨spoken, fun _ _ => ⟨fun _ => ⟨hs, he, hk⟩, fun _ _ h => absurd h.symm (Option.some_ne_none _)⟩⟩⟩
    | some p =>
      obtain ⟨d, st'⟩ := p
      unfold State.offerReply
      dsimp only
      split
      · rename_i room
        refine ⟨_, _, _, rfl, fun u he hs hk => ⟨spoken, fun _ _ => ⟨fun h => absurd h (Option.some_ne_none _), ?_⟩⟩⟩
        intro d' st'' h
        obtain ⟨rfl, rfl⟩ := Prod.mk.inj (Option.some.inj h)
        exact ⟨fun _ => ⟨hs, he, hk⟩, fun full => absurd room (Nat.not_lt.mpr full)⟩
      · rename_i full
        refine ⟨_, _, _, rfl, fun u he hs hk => ⟨spoken, fun _ _ => ⟨fun h => absurd h (Option.some_ne_none _), ?_⟩⟩⟩
        intro d' st'' h
        obtain ⟨rfl, rfl⟩ := Prod.mk.inj (Option.some.inj h)
        exact ⟨fun room => absurd room full, fun _ => ⟨hs, he, hk⟩⟩

/-- A record closed without a notice and freed (R37): the record and its place on the pending list alone. -/
theorem State.closeFree (s : State) (r : Fin Config.numTxns) {o : TxnOutcome} (ho : o.notice = none) :
    (s.closeTxn r o).freeRecord r = s.freeRecord r := by
  unfold State.closeTxn
  cases ht : s.txn r with
  | none => rfl
  | some t =>
    by_cases hd : t.outcome.isSome = true
    · simp [hd]
    · have hc : t.copies = 0#4 ∨ ¬ t.copies = 0#4 := Decidable.em _
      rcases hc with hc | hc <;>
        simp [hd, ho, hc, State.freeRecord, State.putTxn, List.filter_filter]

/-- The end of an execution (R134) says what `OnlyReplied` says. -/
theorem State.endExecution_replied (s : State) (r : Fin Config.numTxns) (t : Txn) (reply : List Byte)
    (a : Option Armed) (ht : s.txn r = some t) : s.OnlyReplied (s.endExecution r reply a) r t reply a := by
  obtain ⟨e, st, k, h, placed⟩ := s.reply_placed t reply a
  have silent : (if t.superseded = true then TxnOutcome.discarded else TxnOutcome.replied).notice = none := by
    split <;> rfl
  unfold State.endExecution
  rw [ht]
  dsimp only
  rw [h, State.closeFree _ r silent]
  unfold State.settlePendingOwn
  split <;> rename_i own
  all_goals
    unfold State.OnlyReplied
    refine ⟨rfl, rfl, rfl, ?_, fun _ _ => rfl, ?_, ?_, rfl, rfl, rfl, placed _ rfl rfl rfl, rfl, rfl, rfl, rfl, rfl, rfl,
      rfl, rfl, rfl, rfl, rfl, rfl⟩
    · first | exact (if_pos own).symm | exact (if_neg own).symm
    · exact (State.txn_freeRecord { s with egress := e, store := st, counters := k } r r).trans (if_pos rfl)
    · intro q hq
      exact (State.txn_freeRecord { s with egress := e, store := st, counters := k } r q).trans (if_neg hq)

/-- An execution that ends with a cached reply says what `Answered` says (R131, R133, R134). -/
theorem State.finishCached_answered (s : State) (r : Fin Config.numTxns) (t : Txn) (p : Reply)
    (ht : s.txn r = some t) : s.Answered (s.finishCached r t p) r t p.status p.results p.deferred := by
  let c : CacheEntry := ⟨t.command, t.sequence, s.buildReply t p, p.deferred⟩
  have caches : (s.finishCached r t p).mgmt.caches = s.mgmt.caches.set t.origin (some c) := by
    have keep : ∀ (s : State) (r : Fin Config.numTxns) (reply : List Byte) (a : Option Armed),
        (s.endExecution r reply a).mgmt.caches = s.mgmt.caches := by
      intro s r reply a
      have idle : ∀ s : State, s.idleEngine.settlePendingOwn.mgmt.caches = s.mgmt.caches := by
        intro s
        unfold State.settlePendingOwn
        split <;> rfl
      unfold State.endExecution
      split
      · exact idle s
      · rename_i t _
        dsimp only
        rw [idle, State.closeFree _ r (by split <;> rfl)]
        obtain ⟨st, h⟩ := s.dropRequest_only t
        rw [h]
        split
        · rfl
        · obtain ⟨e, st', k, h⟩ := State.handOver_only { s with store := st } t.origin reply a
          rw [h]
          rfl
    exact keep _ r _ _
  have replied := State.endExecution_replied (s.setCache t.origin (some c)) r t c.reply c.armed ht
  refine ⟨by rw [caches]; simp [c, State.buildReply], ?_⟩
  obtain ⟨h1, h2, h3, h4, h5, rest⟩ := replied
  refine ⟨h1, h2, h3, h4, ?_, rest⟩
  intro h hne
  exact (h5 h hne).trans (by simp [hne])

/-- The Local at the head of the queue, where one stands ready. -/
theorem State.AtHead.headLocal {s : State} {r : Fin Config.numTxns} {t : Txn} (h : s.AtHead r t) :
    s.headLocal = some (r, t) := by
  obtain ⟨_, he, hq, ht⟩ := h
  unfold State.headLocal
  rw [he]
  cases hl : s.mgmt.queue with
  | nil => simp [hl] at hq
  | cons q l =>
    simp only [hl, List.head?_cons, Option.some.injEq] at hq
    subst hq
    simp [ht]

/-- A row whose command the Local at the head carries is due at once. -/
theorem State.AtHead.due {s : State} {r : Fin Config.numTxns} {t : Txn} (h : s.AtHead r t) {c : Option MgmtCommand}
    (hc : MgmtCommand.ofCode t.command = c) : s.localDue c = some s.time := by
  simp [State.localDue, h.headLocal, hc]

/-- A Local that passes steps 1 to 3 of R131 comes to what follows them. -/
theorem State.Fresh.checked {s : State} {r : Fin Config.numTxns} {t : Txn} (h : s.Fresh r t)
    (after : State → List Byte → State) :
    s.dequeue.checked r t after = after s.dequeue (argsOf (s.requestOf t)) := by
  obtain ⟨_, h4, hw, hm⟩ := h
  have hr : s.dequeue.requestOf t = s.requestOf t := rfl
  have hm' : s.dequeue.cacheMatch t = none := hm
  unfold State.checked
  simp [hr, hm', hw, Nat.not_lt.mpr h4]

/-- A Local that passes steps 1 to 6 of R131 is carried out (steps 7 and 8). -/
theorem State.Carries.takes {s : State} {r : Fin Config.numTxns} {t : Txn} {c : MgmtCommand} {args : List Byte}
    (h : s.Carries r t c args) (carry : Carry) :
    s.takeLocal c carry = match carry s.dequeue t.origin args with
      | .replied s p => s.finishCached r t p
      | .working s w => { s with mgmt := { s.mgmt with engine := .busy r w } } := by
  obtain ⟨hf, _, ha, hn, hl⟩ := h
  have hl' : s.dequeue.leaseRefusal t.origin c = none := hl
  unfold State.takeLocal
  rw [hf.1.headLocal]
  dsimp only
  rw [hf.checked]
  unfold State.carryOut
  rw [ha, hn, hl']
  rfl

/-- A management row whose command the Local at the head carries, taken by the engine. -/
theorem State.Carries.command {s : State} {r : Fin Config.numTxns} {t : Txn} {c : MgmtCommand} {args : List Byte}
    (h : s.Carries r t c args) (carry : Carry) : s.command c carry = .next (s.takeLocal c carry) := by
  have due := h.1.1.due (c := some c) h.2.1
  unfold State.command
  rw [due, State.takeEvent_due h.1.1.1, State.advance_time]

/-- A request refused without caching leaves what `OnlyReplied` says (R132). -/
theorem State.refuseUncached_replied (s : State) (r : Fin Config.numTxns) (t : Txn) (st : Status) (ht : s.txn r = some t) :
    s.OnlyReplied (s.refuseUncached r t st) r t (replyFrame s.bridge.own t.command t.sequence st []) none :=
  State.endExecution_replied { s with mgmt := { s.mgmt with buffer := s.buildReply t ⟨st, [], none⟩ } } r t
    (s.buildReply t ⟨st, [], none⟩) none ht

/-! ### The row of a Local (R130, R131) -/

/-- Where the engine is IDLE there are no entries left to read. -/
theorem State.readStations_idle {s : State} (h : s.mgmt.engine = .idle) (n : Nat) : s.readStations n = s := by
  unfold State.readStations
  rw [h]

/-- Where the engine is IDLE there are no counters left to read. -/
theorem State.readCounterBlock_idle {s : State} (h : s.mgmt.engine = .idle) (n : Nat) : s.readCounterBlock n = s := by
  unfold State.readCounterBlock
  rw [h]

/-- The row of the command of the Local at the head takes it through the steps of R131: what follows steps 1 to 3 is
`finishCached` with BadCommand for a code that is no command's, and else steps 4 to 8. Where the engine is IDLE then, the row
has ended. -/
theorem State.AtHead.row {s : State} {r : Fin Config.numTxns} {t : Txn} (h : s.AtHead r t) (claims : Nat) :
    ∃ after : State → List Byte → State,
      (∀ u, u = s.dequeue.checked r t after → u.mgmt.engine = .idle →
        exec (takingRow (MgmtCommand.ofCode t.command) claims) s = .next u)
      ∧ (MgmtCommand.ofCode t.command = none → after = fun s _ => s.finishCached r t ⟨.badCommand, [], none⟩)
      ∧ ∀ c, MgmtCommand.ofCode t.command = some c → ∃ carry, after = fun s args => s.carryOut r t args c carry := by
  cases code : MgmtCommand.ofCode t.command with
  | none =>
    refine ⟨_, ?_, fun _ => rfl, fun c hc => by cases hc⟩
    rintro u rfl _
    show execBadCommand s = _
    unfold execBadCommand
    rw [h.due code, State.takeEvent_due h.1, State.advance_time]
    unfold State.takeUnknown
    rw [h.headLocal]
  | some c =>
    have rows : ∀ carry : Carry,
        s.command c carry = .next (s.dequeue.checked r t fun s args => s.carryOut r t args c carry) := by
      intro carry
      unfold State.command
      rw [h.due code, State.takeEvent_due h.1, State.advance_time]
      unfold State.takeLocal
      rw [h.headLocal]
    have head : ∀ carry,
        s.takeLocal c carry = s.dequeue.checked r t fun s args => s.carryOut r t args c carry := by
      intro carry
      unfold State.takeLocal
      rw [h.headLocal]
    have due := h.due code
    have pack : ∀ carry : Carry,
        (∀ u, (u = s.dequeue.checked r t fun s args => s.carryOut r t args c carry) → u.mgmt.engine = .idle →
          exec (takingRow (some c) claims) s = .next u) → ∃ after : State → List Byte → State,
      (∀ u, u = s.dequeue.checked r t after → u.mgmt.engine = .idle → exec (takingRow (some c) claims) s = .next u)
      ∧ (some c = none → after = fun s _ => s.finishCached r t ⟨.badCommand, [], none⟩)
      ∧ ∀ d, some c = some d → ∃ carry, after = fun s args => s.carryOut r t args d carry :=
      fun carry row => ⟨_, row, fun no => absurd no (by simp), fun d same => by cases same; exact ⟨carry, rfl⟩⟩
    cases c
    case readStationRange =>
      refine pack carryReadStationRange fun u hu idle => ?_
      show execReadStationRange claims s = _
      unfold execReadStationRange
      have : s.readStationRangeDue = some s.time := by unfold State.readStationRangeDue; rw [h.2.1]; exact due
      rw [this, State.takeEvent_due h.1, State.advance_time, head, ← hu, State.readStations_idle idle]
    case readCounters =>
      refine pack (carryCounters false) fun u hu idle => ?_
      show execReadCounters claims s = _
      unfold execReadCounters
      have : s.countersDue false = some s.time := by unfold State.countersDue; rw [h.2.1]; exact due
      rw [this, State.takeEvent_due h.1, State.advance_time, head, ← hu, State.readCounterBlock_idle idle]
    case readClearCounters =>
      refine pack (carryCounters true) fun u hu idle => ?_
      show execReadClearCounters claims s = _
      unfold execReadClearCounters
      have : s.countersDue true = some s.time := by unfold State.countersDue; rw [h.2.1]; exact due
      rw [this, State.takeEvent_due h.1, State.advance_time, head, ← hu, State.readCounterBlock_idle idle]
    case identify => exact pack carryIdentify fun u same _ => same ▸ rows carryIdentify
    case readStatus => exact pack carryReadStatus fun u same _ => same ▸ rows carryReadStatus
    case readStation => exact pack carryReadStation fun u same _ => same ▸ rows carryReadStation
    case writeStation => exact pack carryWriteStation fun u same _ => same ▸ rows carryWriteStation
    case clearLearned => exact pack carryClearLearned fun u same _ => same ▸ rows carryClearLearned
    case readSegment => exact pack carryReadSegment fun u same _ => same ▸ rows carryReadSegment
    case writeSegment => exact pack carryWriteSegment fun u same _ => same ▸ rows carryWriteSegment
    case applySegment => exact pack carryApplySegment fun u same _ => same ▸ rows carryApplySegment
    case readBridge => exact pack carryReadBridge fun u same _ => same ▸ rows carryReadBridge
    case writeBridge => exact pack carryWriteBridge fun u same _ => same ▸ rows carryWriteBridge
    case readEvents => exact pack carryReadEvents fun u same _ => same ▸ rows carryReadEvents
    case takeLease => exact pack carryTakeLease fun u same _ => same ▸ rows carryTakeLease
    case dropLease => exact pack carryDropLease fun u same _ => same ▸ rows carryDropLease
    case restart => exact pack carryRestart fun u same _ => same ▸ rows carryRestart
    case restartSegment => exact pack carryRestartSegment fun u same _ => same ▸ rows carryRestartSegment
    case echo => exact pack carryEcho fun u same _ => same ▸ rows carryEcho

end Sys2Proof.Machine
end

