-- ==== Sys2Proof/Laws/Delivery.lean ====
section
/-!
SUPPORT. What becomes of a character, a silence and a lost copy, said once in the terms the statements use: a character is
delivered by the state of DE, a stored frame without error is handed on, and how the engine hears that a copy has failed.
-/

namespace Sys2Proof.Machine

/-! ### Counters -/

/-- The index of a counter tells it. -/
theorem SegCounter.index_inj (a b : SegCounter) : a.index = b.index ↔ a = b := by cases a <;> cases b <;> decide

/-- Raising nothing. -/
theorem Counters.raisedTo_nil (c : Counters) (g : Seg) : c.RaisedTo c g [] := by simp [Counters.RaisedTo]

/-- Raising one counter more. -/
theorem Counters.RaisedTo.more {c k : Counters} {g : Seg} {l : List SegCounter} (h : c.RaisedTo k g l) {a : SegCounter}
    (new : a ∉ l) : c.RaisedTo (k.write g a.index (saturatingSucc (k.read g a.index))) g (l ++ [a]) := by
  obtain ⟨own, others, notices, sweeps⟩ := h
  refine ⟨fun i => ?_, fun u i hu => ?_, notices, sweeps⟩
  · rw [Counters.read_write]
    by_cases hi : i = a
    · subst hi
      simp [own, new]
    · simp [hi, own, SegCounter.index_inj]
  · rw [Counters.read_write]
    simp [hu, others u i hu]

/-- The error counters of a character (R82). -/
theorem State.countErrors_raised (s : State) (g : Seg) (c : RxChar) :
    ∃ k, s.countErrors g c = { s with counters := k } ∧ s.counters.RaisedTo k g c.counted := by
  unfold State.countErrors State.countIf RxChar.counted
  by_cases bad : (c.parityErr || c.framingErr) = true <;> by_cases noisy : c.noise = true <;>
    simp only [bad, noisy, if_true, if_false, List.nil_append, List.append_nil, Bool.false_eq_true]
  · exact ⟨_, rfl, ((s.counters.raisedTo_nil g).more (a := .charErrors) (by simp)).more (a := .noiseChars) (by simp)⟩
  · exact ⟨_, rfl, (s.counters.raisedTo_nil g).more (a := .charErrors) (by simp)⟩
  · exact ⟨_, rfl, (s.counters.raisedTo_nil g).more (a := .noiseChars) (by simp)⟩
  · exact ⟨_, rfl, s.counters.raisedTo_nil g⟩

/-! ### Delivery (R62) -/

/-- A character read is delivered to the frame receiver, or with DE asserted to the echo compare (R62). -/
theorem State.Hears.delivered {s : State} {g : Seg} {edge : Nat} {taken : Bool} {x : Samples} {c : RxChar}
    (h : s.Hears g edge taken x c) : exec (.characterComplete g x) s = .next
      (if (s.lines.get g).de = true then (s.heard g edge x).echoCompare g (some c) else (s.heard g edge x).receiveChar g c) := by
  obtain ⟨free, rx, reads⟩ := h
  have reads' : verdict (s.settings.active.get g) x = .char c := reads
  simp [exec, execCharacterComplete, State.takeEvent, free, State.characterDue, reads', State.assembleDue, rx,
    State.characterComplete, State.heard, State.setRx, State.setLine, State.deliverChar, State.advance, State.active]

/-- A frame stored without error is handed on at the idle gap (R83, R86, R87). -/
theorem State.Silent.handedOn {s : State} {g : Seg} {since : Nat} (h : s.Silent g since) {cls : FrameClass} {a : Byte}
    {d : Fin Config.numDescs} {r : Option (Fin Config.numTxns)} {n : Nat} {x : Desc}
    (frame : s.receivers.get g = .store ⟨some cls, a, some d, r, n, none⟩) (used : s.store.desc d = some x)
    (good : x.error = false) : ∃ k, s.counters.RaisedTo k g [.framesReceived]
      ∧ exec (.idleGapExpiry g) s = .next (State.handOn
        { s.gapTaken g since with receivers := s.receivers.set g .hunt, counters := k } g
        ⟨some cls, a, some d, r, n, none⟩ d) := by
  obtain ⟨free, rx, de⟩ := h
  refine ⟨_, (s.counters.raisedTo_nil g).more (a := .framesReceived) (by simp), ?_⟩
  simp [exec, execIdleGapExpiry, State.idleGapDue, rx, State.takeEvent, free, State.idleGap, LineUnit.quietFor,
    LineUnit.expire, State.advance, State.setLine, State.gapTaken, de, State.active, State.endFrame, frame,
    State.endFrameOf, used, good, endingOf, State.count, State.countIf, State.setReceiver, State.placeIntent]

/-! ### Descriptors (R99, R100) -/

/-- A descriptor in use, changed. -/
theorem Store.modify_used {st : Store} {d : Fin Config.numDescs} {x : Desc} (h : st.desc d = some x) (f : Desc → Desc) :
    st.modify d f = st.putDesc d (some (f x)) := by simp [Store.modify, h]

/-- A Ready descriptor on no lane is released once its transaction gives it up (R99, R100). -/
theorem Store.dropTxn_released {st : Store} {d : Fin Config.numDescs} {x : Desc} (h : st.desc d = some x)
    (ready : x.state = .ready) (alone : x.pendingEgress = 0) : st.dropTxn d
      = { st.putDesc d none with freeCells := st.freeCells ++ x.chain, freeDescs := st.freeDescs ++ [d] } := by
  unfold Store.dropTxn
  rw [Store.modify_used h]
  simp [Store.releaseIfDone, ready, alone, Store.release]
  simp [Store.putDesc]

/-! ### Closing a transaction (R37) -/

/-- A notice touches the lanes of its segment and the counters, in a way that depends on them and on the settings alone
(R43, R109). -/
theorem State.notify_congr {a b : State} {o g : Seg} (c : NoticeCode) (st : Byte) (away : o ≠ g)
    (settings : a.settings = b.settings) (counters : a.counters = b.counters)
    (lanes : ∀ h, h ≠ g → a.egress.get h = b.egress.get h) :
    (a.notify o c st).counters = (b.notify o c st).counters
      ∧ (∀ h, h ≠ g → (a.notify o c st).egress.get h = (b.notify o c st).egress.get h)
      ∧ (a.notify o c st).egress.get g = a.egress.get g := by
  by_cases on : (b.settings.active.get o).notices = true <;>
    simp only [State.notify, State.active, settings, on, if_true, if_false, Bool.false_eq_true]
  · simp only [State.placeNotice, lanes o away]
    split
    · refine ⟨counters, fun h hg => ?_, by simp [State.setEgress, Ne.symm away]⟩
      simp [State.setEgress]
      split <;> simp_all
    · refine ⟨by simp [State.countNoticeLost, State.setEgress, counters], fun h hg => ?_,
        by simp [State.setEgress, State.countNoticeLost, Ne.symm away]⟩
      simp [State.setEgress, State.countNoticeLost]
      split <;> simp_all
  · exact ⟨counters, lanes, trivial⟩

/-- An open transaction with no copy out closes: its notice is placed where it is not superseded, and its record is free
(R37, R43). -/
theorem State.closeTxn_last {s : State} {r : Fin Config.numTxns} {t : Txn} (h : s.txn r = some t) (none_out : t.copies = 0)
    (unfixed : t.outcome = none) (o : TxnOutcome) :
    (o.notice = none ∨ t.superseded = true →
        s.closeTxn r o = (s.putTxn r (some { t with outcome := some o })).freeRecord r)
      ∧ ∀ code, o.notice = some code → t.superseded = false → s.closeTxn r o
        = ((s.putTxn r (some { t with outcome := some o })).notify t.origin code t.station).freeRecord r := by
  refine ⟨fun silent => ?_, fun code told shown => ?_⟩
  · rcases silent with quiet | gone
    · simp [State.closeTxn, h, none_out, unfixed, quiet]
    · cases told : o.notice <;> simp [State.closeTxn, h, none_out, unfixed, told, gone]
  · simp [State.closeTxn, h, none_out, unfixed, told, shown]

/-! ### The arbiter's sets (R31, R34) -/

/-- The members of a segment set are its segments. -/
theorem SegSet.mem_members (m : SegSet) (g : Seg) : g ∈ m.members ↔ m.has g = true := by
  simp [SegSet.members, Seg.mem_all]

/-- The arbiter's test for a free segment is R31's. -/
theorem State.segFree_iff (s : State) (g : Seg) : s.segFree g = true ↔ s.Free g := by
  simp [State.segFree, State.Free, and_assoc]

/-- A bypass is counted as the statements count it (R34). -/
theorem Txn.bypassed_eq (t : Txn) (limit : BitVec 3) : t.bypassed limit = t.passedBy limit := by
  have counts : ∀ b l : BitVec 3, (if b = 7 then 7 else b + 1) = BitVec.ofNat 3 (min 7 (b.toNat + 1))
      ∧ decide (l ≤ BitVec.ofNat 3 (min 7 (b.toNat + 1))) = decide (l.toNat ≤ min 7 (b.toNat + 1)) := by decide
  unfold Txn.bypassed Txn.passedBy
  simp only [(counts t.bypass limit).1, (counts t.bypass limit).2]

end Sys2Proof.Machine
end

