-- ==== Sys2Proof/Laws/FrameEnds.lean ====
section
/-!
SUPPORT. A frame that does not end intact, said once in the terms the statements use: placing a notice, releasing a
descriptor and closing a transaction are what `told`, `without` and `closed` say, and the end of the frame is what
`FrameEnds` says.
-/

namespace Sys2Proof.Machine

/-! ### Notices (R43, R109) -/

/-- The notice slot is in hand. -/
theorem Egress.slotInHand_iff (e : Egress) : e.slotInHand = true ↔ e.hand.map InHand.item = some .slotNotice := by
  unfold Egress.slotInHand
  cases e.hand <;> simp

/-- A notice is placed as `told` says, where the segment's notices are on (R43, R109). -/
theorem State.notify_told (s : State) (g : Seg) (c : NoticeCode) (a : Byte) :
    s.notify g c a = s.told g (s.called g (some ⟨c, a⟩)) := by
  unfold State.notify State.called
  split
  · unfold State.placeNotice State.told
    dsimp only
    cases (s.egress.get g).slot with
    | none => simp [State.setEgress]
    | some y => simp [Egress.slotInHand_iff, State.setEgress, State.countNoticeLost]
  · rfl

/-- What a notice changes does not depend on the lines and the time, and the two stay. -/
theorem State.told_moved (s : State) (g : Seg) (n : Option Notice) (l : PerSeg LineUnit) (t : Nat) :
    State.told { s with lines := l, time := t } g n = { s.told g n with lines := l, time := t } := by
  unfold State.told
  cases n <;> rfl

/-- A record freed before or after a notice is placed. -/
theorem State.recordFreed_told (s : State) (r : Fin Config.numTxns) (g : Seg) (n : Option Notice) :
    (s.told g n).recordFreed r = (s.recordFreed r).told g n := by
  unfold State.told
  cases n <;> rfl

/-- A notice leaves the lines, the time and the settings. -/
theorem State.told_keeps (s : State) (g : Seg) (n : Option Notice) :
    (s.told g n).lines = s.lines ∧ (s.told g n).time = s.time ∧ (s.told g n).settings = s.settings
      ∧ (s.told g n).receivers = s.receivers := by
  unfold State.told
  cases n <;> exact ⟨rfl, rfl, rfl, rfl⟩

/-! ### Descriptors and transactions (R37, R100) -/

/-- A descriptor released (R100). -/
theorem Store.release_without (st : Store) (d : Fin Config.numDescs) : st.release d = st.without (some d) := by
  unfold Store.release Store.without
  cases h : st.desc d <;> simp [h]

/-- A record written and then freed. -/
theorem State.recordFreed_putTxn (s : State) (r : Fin Config.numTxns) (t : Option Txn) :
    (s.putTxn r t).recordFreed r = s.recordFreed r := by simp [State.recordFreed, State.putTxn, Vector.set_set]

/-- An open transaction closes as `closed` says (R37, R43). -/
theorem State.closeTxn_closed {s : State} {r : Fin Config.numTxns} {t : Txn} (used : s.txn r = some t)
    (unfixed : t.outcome = none) {o : TxnOutcome} {c : NoticeCode} (calls : o.notice = some c) :
    s.closeTxn r o = s.closed r t o c := by
  have order : ∀ n, (if t.copies = 0
      then ((s.putTxn r (some { t with outcome := some o })).told t.origin n).recordFreed r
      else (s.putTxn r (some { t with outcome := some o })).told t.origin n)
        = (if t.copies = 0 then s.recordFreed r else s.putTxn r (some { t with outcome := some o })).told t.origin n := by
    intro n
    split
    · rw [State.recordFreed_told, State.recordFreed_putTxn]
    · rfl
  unfold State.closeTxn State.closed
  rw [used]
  simp only [unfixed, Option.isSome_none, Bool.false_eq_true, if_false, calls, State.notify_told]
  cases gone : t.superseded with
  | true =>
    have main := order none
    rw [gone] at main
    exact main
  | false =>
    have main := order (s.called t.origin (some ⟨c, t.station⟩))
    rw [gone] at main
    exact main

/-! ### Counters -/

/-- Every counter has its name. -/
theorem SegCounter.of_index (i : Fin 14) : ∃ c : SegCounter, i = c.index := by
  have named : ∀ i : Fin 14, ∃ c ∈ [SegCounter.framesReceived, .framesSent, .charErrors, .noiseChars, .orphans, .damaged,
    .noBuffer, .noRoute, .timeouts, .lateStray, .unsolicited, .collisions, .abandoned, .breaks], i = c.index := by decide
  obtain ⟨c, _, h⟩ := named i
  exact ⟨c, h⟩

/-- `RaisedTo` leaves no choice. -/
theorem Counters.RaisedTo.unique {c k k' : Counters} {g : Seg} {l : List SegCounter} (h : c.RaisedTo k g l)
    (h' : c.RaisedTo k' g l) : k = k' := by
  have same : ∀ u i, k.read u i = k'.read u i := by
    intro u i
    by_cases hu : u = g
    · subst hu
      obtain ⟨j, rfl⟩ := SegCounter.of_index i
      rw [h.1, h'.1]
    · rw [h.2.1 u i hu, h'.2.1 u i hu]
  have notices : k.noticesLost = k'.noticesLost := h.2.2.1.trans h'.2.2.1.symm
  have sweeps : k.sweepsSkipped = k'.sweepsSkipped := h.2.2.2.trans h'.2.2.2.symm
  obtain ⟨x, y, z⟩ := k
  obtain ⟨x', y', z'⟩ := k'
  subst notices sweeps
  congr
  exact PerSeg.ext_get fun u => Vector.ext fun i hi => same u ⟨i, hi⟩

/-! ### The end of the frame (R86) -/

/-- The end of frame f of g with an ending other than intact, read off its dispatch: the frame receiver, the store, the
counters, then what becomes of the transaction, and the intent (R86, R89). -/
theorem State.endFrameOf_notIntact {s w : State} {g : Seg} {cause : EndCause} {skip : Option SkipReason} {f : Frame}
    {error : Bool} {ending : Ending} {raised : List SegCounter} {k : Counters}
    (errs : error = match f.desc with
      | some d => match s.store.desc d with
        | some x => x.error
        | none => false
      | none => false)
    (ends : endingOf cause skip error = ending)
    (row : ending = .damaged ∧ raised = [.damaged] ∨ ending = .truncated ∧ raised = [.noBuffer]
      ∨ ending = .skipped ∧ raised = [] ∧ f.desc = none)
    (counted : s.counters.RaisedTo k g (.framesReceived :: raised))
    (result : w = { s with receivers := s.receivers.set g .hunt, store := s.store.without f.desc, counters := k }) :
    s.endFrameOf g cause skip f = (w.endUnkept g f (responseOutcome ending skip)).placeIntent g f cause := by
  have first := (s.counters.raisedTo_nil g).more (a := .framesReceived) (by simp)
  have released : ∀ m, State.releaseFrame { s with receivers := s.receivers.set g .hunt, counters := m } f
      = { s with receivers := s.receivers.set g .hunt, counters := m, store := s.store.without f.desc } := by
    intro m
    unfold State.releaseFrame State.mapStore
    cases f.desc with
    | none => rfl
    | some d => simp [Store.release_without]
  unfold State.endFrameOf
  dsimp only
  generalize shown : endingOf cause skip _ = e
  have : e = ending := by
    subst errs
    exact shown.symm.trans ends
  subst this result
  rcases row with ⟨kind, rfl⟩ | ⟨kind, rfl⟩ | ⟨kind, rfl, bare⟩
  · have := (first.more (a := .damaged) (by simp)).unique counted
    rw [kind]
    subst this
    exact congrArg (fun z => (State.endUnkept z g f (responseOutcome .damaged skip)).placeIntent g f cause) (released _)
  · have := (first.more (a := .noBuffer) (by simp)).unique counted
    rw [kind]
    subst this
    exact congrArg (fun z => (State.endUnkept z g f (responseOutcome .truncated skip)).placeIntent g f cause) (released _)
  · have := first.unique counted
    rw [kind, bare]
    subst this
    rfl

/-- The frame's intent, at its end, is placed as the notice it is (R44, R89). -/
theorem State.placeIntent_told {s y : State} {g : Seg} {f : Frame} {cause : EndCause} {cut : Bool}
    (cuts : cut = true ↔ cause = .aborted) (settings : y.settings = s.settings) :
    y.placeIntent g f cause
      = y.told g (if cut then none else s.called g (f.intent.map fun i => i.notice f.station)) := by
  have calls : ∀ n, y.called g n = s.called g n := by
    intro n
    unfold State.called State.active
    rw [settings]
  unfold State.placeIntent
  cases f.intent with
  | none => cases cut <;> simp [State.called, State.told]
  | some i =>
    cases cut with
    | true => simp [cuts.1 rfl, State.told]
    | false =>
      have open_ : cause ≠ .aborted := fun h => Bool.noConfusion (cuts.2 h)
      simp only [open_, if_false, State.notify_told, calls, Bool.false_eq_true, Option.map_some]
      cases i <;> rfl

/-- With the row of R86 told, the frame in assembly of g ends as `FrameEnds` says. -/
theorem State.endFrameOf_ends {s u : State} {g : Seg} {cut : Bool} {cause : EndCause} {skip : Option SkipReason}
    {f : Frame} {error : Bool} {ending : Ending} {raised : List SegCounter} {o : TxnOutcome} {c : NoticeCode} {k : Counters}
    (cuts : cut = true ↔ cause = .aborted)
    (errs : error = match f.desc with
      | some d => match s.store.desc d with
        | some x => x.error
        | none => false
      | none => false)
    (ends : endingOf cause skip error = ending)
    (row : ending = .damaged ∧ raised = [.damaged] ∨ ending = .truncated ∧ raised = [.noBuffer]
      ∨ ending = .skipped ∧ raised = [] ∧ f.desc = none)
    (fixes : f.txn = none ∨ responseOutcome ending skip = some o) (calls : o.notice = some c)
    (counted : s.counters.RaisedTo k g (.framesReceived :: raised))
    (follows : ∀ n v, n = (if cut then none else s.called g (f.intent.map fun i => i.notice f.station)) →
      v = { s with receivers := s.receivers.set g .hunt, store := s.store.without f.desc, counters := k } →
      (∃ r, (f.cls = some .request ∨ f.cls = some .broadcast ∨ f.cls = some .management) ∧ f.txn = some r
          ∧ u = (v.recordFreed r).told g n)
        ∨ (f.txn = none ∧ u = v.told g n)
        ∨ ∃ r t, f.cls = some .response ∧ f.txn = some r ∧ f.intent = none ∧ s.txn r = some t ∧ t.outcome = none
          ∧ u = State.closed { v with txns := { s.txns with holders := s.txns.holders.set g none } } r t o c) :
    s.endFrameOf g cause skip f = u := by
  obtain ⟨w, hw⟩ : ∃ w : State, w
    = { s with receivers := s.receivers.set g .hunt, store := s.store.without f.desc, counters := k } := ⟨_, rfl⟩
  rw [State.endFrameOf_notIntact errs ends row counted hw]
  rcases follows _ w rfl hw with ⟨r, bears, held, rfl⟩ | ⟨bare, rfl⟩ | ⟨r, t, response, held, quiet, used, unfixed, rfl⟩
  · have forming : f.formingRecord = some r := by
      rcases bears with h | h | h <;> simp [Frame.formingRecord, h, FrameClass.bearsRecord, held]
    have step : w.endUnkept g f (responseOutcome ending skip) = w.recordFreed r := by
      unfold State.endUnkept
      rw [forming]
      rfl
    rw [step]
    exact State.placeIntent_told cuts (by subst hw; rfl)
  · have forming : f.formingRecord = none := by
      unfold Frame.formingRecord
      rw [bare]
      split <;> simp
    have step : w.endUnkept g f (responseOutcome ending skip) = w := by
      unfold State.endUnkept
      rw [forming, bare]
      cases f.cls with
      | none => rfl
      | some c => cases c <;> rfl
    rw [step]
    exact State.placeIntent_told cuts (by subst hw; rfl)
  · have forming : f.formingRecord = none := by simp [Frame.formingRecord, response, FrameClass.bearsRecord]
    have fixed : responseOutcome ending skip = some o := by
      rcases fixes with h | h
      · exact absurd (held.symm.trans h) (Option.some_ne_none _)
      · exact h
    have step : w.endUnkept g f (responseOutcome ending skip) = (w.releaseGrant g).closeTxn r o := by
      unfold State.endUnkept
      rw [forming, response, held, fixed]
      rfl
    have still : ∀ y : State, y.placeIntent g f cause = y := fun y => by simp [State.placeIntent, quiet]
    rw [step, still, State.closeTxn_closed (t := t) (by subst hw; exact used) unfixed calls]
    subst hw
    rfl

/-- A frame that does not end intact ends as `FrameEnds` says, whatever ends it (R83 to R86). -/
theorem State.FrameEnds.endFrame {s u : State} {g : Seg} {cut : Bool} (h : s.FrameEnds u g cut) {cause : EndCause}
    (cuts : cut = true ↔ cause = .aborted) : s.endFrame g cause = u := by
  obtain ⟨f, raised, o, c, k, rows, counted, follows⟩ := h
  have whole : cut = false → cause ≠ .aborted := fun hf ha => by
    rw [cuts.2 ha] at hf
    exact Bool.noConfusion hf
  unfold State.endFrame
  rcases rows with ⟨rfl, rfl, rfl, ⟨broken, at_⟩ | ⟨calm, at_⟩⟩ | ⟨rfl, rfl, rfl, calm, at_⟩ | ⟨rfl, rfl, rfl, calm, bare, why, at_, h1, h2, h3⟩
  · have ends : ∀ skip b, endingOf cause skip b = .damaged := by simp [endingOf, cuts.1 broken]
    rcases at_ with at_ | ⟨why, at_⟩ <;> rw [at_] <;> dsimp only
    · exact State.endFrameOf_ends cuts rfl (ends _ _) (.inl ⟨rfl, rfl⟩) (.inr rfl) rfl counted follows
    · exact State.endFrameOf_ends cuts rfl (ends _ _) (.inl ⟨rfl, rfl⟩) (.inr rfl) rfl counted follows
  · rcases at_ with at_ | ⟨at_, d, x, stored, used, bad⟩ <;> rw [at_] <;> dsimp only
    · exact State.endFrameOf_ends cuts rfl (ending := .damaged) (by simp [endingOf, whole calm]) (.inl ⟨rfl, rfl⟩) (.inr rfl)
        rfl counted follows
    · exact State.endFrameOf_ends cuts (error := true) (by simp [stored, used, bad]) (ending := .damaged)
        (by simp [endingOf, whole calm]) (.inl ⟨rfl, rfl⟩) (.inr rfl) rfl counted follows
  · rw [at_]
    exact State.endFrameOf_ends cuts rfl (ending := .truncated) (by simp [endingOf, whole calm]) (.inr (.inl ⟨rfl, rfl⟩))
      (.inr rfl) rfl counted follows
  · rw [at_]
    refine State.endFrameOf_ends cuts rfl (ending := .skipped) (by cases why <;> simp_all [endingOf])
      (.inr (.inr ⟨rfl, rfl, bare⟩)) ?_ rfl counted follows
    exact h3.imp id fun h => by rw [h]; rfl

/-- What the end of a frame changes does not depend on the lines and the time. -/
theorem State.FrameEnds.moved {s u : State} {g : Seg} {cut : Bool} (h : s.FrameEnds u g cut) (l : PerSeg LineUnit)
    (t : Nat) : State.FrameEnds { s with lines := l, time := t } { u with lines := l, time := t } g cut := by
  have shut : ∀ (z : State) r tx o c, State.closed { z with lines := l, time := t } r tx o c
      = { z.closed r tx o c with lines := l, time := t } := by
    intro z r tx o c
    unfold State.closed
    rw [← State.told_moved]
    split <;> rfl
  obtain ⟨f, raised, o, c, k, rows, counted, follows⟩ := h
  refine ⟨f, raised, o, c, k, rows, counted, ?_⟩
  rintro _ _ rfl rfl
  rcases follows _ _ rfl rfl with ⟨r, bears, held, rfl⟩ | ⟨bare, rfl⟩ | ⟨r, tx, response, held, quiet, used, unfixed, rfl⟩
  · exact .inl ⟨r, bears, held, (State.told_moved _ g _ l t).symm⟩
  · exact .inr (.inl ⟨bare, (State.told_moved _ g _ l t).symm⟩)
  · exact .inr (.inr ⟨r, tx, response, held, quiet, used, unfixed, (shut _ _ _ _ _).symm⟩)

/-- The end of a frame leaves the lines, the time and the settings, and the frame receiver in HUNT. -/
theorem State.FrameEnds.keeps {s u : State} {g : Seg} {cut : Bool} (h : s.FrameEnds u g cut) :
    u.lines = s.lines ∧ u.time = s.time ∧ u.settings = s.settings ∧ u.receivers.get g = .hunt := by
  have told : ∀ z g' n, z.lines = s.lines ∧ z.time = s.time ∧ z.settings = s.settings ∧ z.receivers.get g = .hunt →
      (State.told z g' n).lines = s.lines ∧ (State.told z g' n).time = s.time ∧ (State.told z g' n).settings = s.settings
        ∧ (State.told z g' n).receivers.get g = .hunt := by
    intro z g' n hz
    obtain ⟨h1, h2, h3, h4⟩ := z.told_keeps g' n
    rw [h1, h2, h3, h4]
    exact hz
  obtain ⟨f, raised, o, c, k, rows, counted, follows⟩ := h
  have hunts : (s.receivers.set g FrState.hunt).get g = .hunt := by simp
  rcases follows _ _ rfl rfl with ⟨r, bears, held, rfl⟩ | ⟨bare, rfl⟩ | ⟨r, tx, response, held, quiet, used, unfixed, rfl⟩
  · exact told _ _ _ ⟨rfl, rfl, rfl, hunts⟩
  · exact told _ _ _ ⟨rfl, rfl, rfl, hunts⟩
  · unfold State.closed
    refine told _ _ _ ?_
    split <;> exact ⟨rfl, rfl, rfl, hunts⟩

end Sys2Proof.Machine
end

