-- ==== Sys2Proof/Laws/Origin.lean ====
section
/-!
SUPPORT. What a supersede or a break does to an origin, said once in the terms the statements use: the live transaction goes
as `LiveGone` says, and what waits in the scheduler as `OriginCleared` says.
-/

namespace Sys2Proof.Machine

/-! ### Counters -/

/-- Counters are equal when every counter reads the same. -/
theorem Counters.ext_read {c k : Counters} (same : ∀ u i, c.read u i = k.read u i)
    (notices : c.noticesLost = k.noticesLost) (sweeps : c.sweepsSkipped = k.sweepsSkipped) : c = k := by
  obtain ⟨x, y, z⟩ := c
  obtain ⟨x', y', z'⟩ := k
  subst notices sweeps
  congr
  exact PerSeg.ext_get fun u => Vector.ext fun i hi => same u ⟨i, hi⟩

/-- A counter raised n times: it stays at 4294967295 (R176). -/
def Counters.raisedBy (c : Counters) (g : Seg) (i : Fin 14) (n : Nat) : Counters :=
  c.write g i (BitVec.ofNat 32 (min 4294967295 ((c.read g i).toNat + n)))

/-- Raised by none. -/
theorem Counters.raisedBy_zero (c : Counters) (g : Seg) (i : Fin 14) : c.raisedBy g i 0 = c := by
  refine Counters.ext_read (fun u j => ?_) rfl rfl
  unfold Counters.raisedBy
  rw [Counters.read_write]
  split
  · rename_i at_
    obtain ⟨rfl, rfl⟩ := at_
    apply BitVec.eq_of_toNat_eq
    simp only [BitVec.toNat_ofNat, Nat.add_zero]
    omega
  · rfl

/-- Raised twice. -/
theorem Counters.raisedBy_add (c : Counters) (g : Seg) (i : Fin 14) (m n : Nat) :
    (c.raisedBy g i m).raisedBy g i n = c.raisedBy g i (m + n) := by
  refine Counters.ext_read (fun u j => ?_) rfl rfl
  unfold Counters.raisedBy
  simp only [Counters.read_write]
  split
  · simp only [and_self, if_true]
    apply BitVec.eq_of_toNat_eq
    simp only [BitVec.toNat_ofNat]
    omega
  · rfl

/-- A raise is a raise by 1. -/
theorem Counters.write_succ (c : Counters) (g : Seg) (i : Fin 14) :
    c.write g i (saturatingSucc (c.read g i)) = c.raisedBy g i 1 := by
  unfold Counters.raisedBy saturatingSucc
  congr 1
  apply BitVec.eq_of_toNat_eq
  have below := (c.read g i).isLt
  split
  · rename_i top
    rw [top]
    decide
  · rename_i top
    have : (c.read g i).toNat ≠ 4294967295 := fun h => top (BitVec.eq_of_toNat_eq (h.trans (by decide)))
    have one : (1 : Word32).toNat = 1 := rfl
    simp only [BitVec.toNat_ofNat, BitVec.toNat_add, one]
    omega

/-- Raises of two counters commute. -/
theorem Counters.raisedBy_comm (c : Counters) {g : Seg} {i j : Fin 14} (other : i ≠ j) (m n : Nat) :
    (c.raisedBy g i m).raisedBy g j n = (c.raisedBy g j n).raisedBy g i m := by
  refine Counters.ext_read (fun u k => ?_) rfl rfl
  unfold Counters.raisedBy
  simp only [Counters.read_write]
  by_cases hu : u = g <;> by_cases hi : k = i <;> by_cases hj : k = j <;> simp_all

/-- `RaisedTo` and one counter that is not raised: it reads as before. -/
theorem Counters.RaisedTo.read_other {c k : Counters} {g : Seg} {l : List SegCounter} (h : c.RaisedTo k g l)
    {a : SegCounter} (out : a ∉ l) : k.read g a.index = c.read g a.index := by rw [h.1, if_neg out]

/-! ### The live transaction (R27, R48) -/

/-- The live transaction of an origin is abandoned as `LiveGone` says. -/
theorem State.LiveGone.abandoned {s : State} {g : Seg} {l : Option (Fin Config.numTxns)} {after : Option Txn} {lost : Nat}
    {e : Option (Fin Config.numDescs)} (h : s.LiveGone g l after lost e) : ∃ x,
    s.abandonLive g = { s with
        txns := x, counters := s.counters.raisedBy g 12 lost, store := e.toList.foldl Store.dropTxn s.store }
      ∧ (∀ q, State.txn { s with txns := x } q = if l = some q then after else s.txn q)
      ∧ x.waiting = (if after = none then s.txns.waiting.filter fun q => l != some q else s.txns.waiting)
      ∧ x.holders = s.txns.holders ∧ x.lastTimedOut = s.txns.lastTimedOut := by
  rcases h with ⟨none_, rfl, rfl, rfl, rfl⟩ | ⟨r, t, live, used, rfl, row⟩
  · refine ⟨s.txns, ?_, fun q => rfl, (List.filter_eq_self.2 fun _ _ => rfl).symm, rfl, rfl⟩
    unfold State.abandonLive
    rw [none_, Counters.raisedBy_zero]
    rfl
  · have other : ∀ q, (some r = some q) = (q = r) := fun q => by
      rw [Option.some.injEq]
      exact propext eq_comm
    unfold State.abandonLive
    rw [live]
    dsimp only
    rw [used]
    rcases row with ⟨under, rfl, rfl, rfl⟩ | ⟨waits, unfixed, alone, rfl, rfl, rfl⟩
    · refine ⟨(s.putTxn r (some { t with superseded := true })).txns, ?_, fun q => ?_, rfl, rfl, rfl⟩
      · dsimp only
        rw [if_neg under]
        cases t.outcome with
        | none => simp only [Option.isNone_none, State.countIf, if_true, ← Counters.write_succ]; rfl
        | some o =>
          simp only [Option.isNone_some, State.countIf, Bool.false_eq_true, if_false, reduceCtorEq, Counters.raisedBy_zero]
          rfl
      · simp only [other]
        exact State.txn_putTxn s r q _
    · refine ⟨(s.freeRecord r).txns, ?_, fun q => ?_, ?_, rfl, rfl⟩
      · dsimp only
        rw [if_pos waits]
        unfold State.cancelWaiting
        rw [used]
        dsimp only
        have closes : ∀ st, State.closeTxn { s with store := st } r .cancelled = State.freeRecord { s with store := st } r := by
          intro st
          have used' : State.txn { s with store := st } r = some t := used
          rw [(State.closeTxn_last used' alone unfixed .cancelled).1 (.inl rfl)]
          exact State.recordFreed_putTxn { s with store := st } r _
        have dropped : s.dropRequest t = { s with store := t.reqDesc.toList.foldl Store.dropTxn s.store } := by
          unfold State.dropRequest
          cases t.reqDesc <;> rfl
        rw [dropped, closes, ← Counters.write_succ]
        rfl
      · simp only [other]
        exact State.txn_freeRecord s r q
      · rw [if_pos rfl]
        change s.txns.waiting.filter _ = _
        congr 1
        funext q
        by_cases same : q = r
        · subst same; simp
        · rw [(bne_iff_ne.2 same : (q != r) = true), (bne_iff_ne.2 fun h => same (Option.some.inj h).symm :
            (some r != some q) = true)]

/-! ### What waits in the scheduler (R27, R48) -/

/-- The replies not started leave the store and are counted. -/
theorem State.withdraw_fold (g : Seg) (l : List ReplyCopy) (s : State) :
    l.foldl (fun s c => (s.mapStore fun st => st.leave c.desc g).count g .abandoned) s = { s with
      store := l.foldl (fun st c => st.leave c.desc g) s.store, counters := s.counters.raisedBy g 12 l.length } := by
  induction l generalizing s with
  | nil => rw [List.length_nil, Counters.raisedBy_zero]; rfl
  | cons c l ih =>
    rw [List.foldl_cons, ih]
    have : ((s.mapStore fun st => st.leave c.desc g).count g .abandoned).counters = s.counters.raisedBy g 12 1 :=
      s.counters.write_succ g 12
    rw [this, Counters.raisedBy_add, List.length_cons, Nat.add_comm]
    rfl

/-- Replies withdrawn and the slot emptied, as `OriginCleared` says. -/
theorem State.cleared (s : State) (g : Seg) : ∃ e m, ((s.withdrawReplies g).emptySlot g) = { s with
      egress := e, mgmt := m
      store := ((s.egress.get g).replyLane.filter fun c => (s.egress.get g).startedReply != some c.desc).foldl
        (fun st c => st.leave c.desc g) s.store
      counters := s.counters.raisedBy g 12
        ((s.egress.get g).replyLane.filter fun c => (s.egress.get g).startedReply != some c.desc).length }
    ∧ m = { s.mgmt with pendingOwn := m.pendingOwn }
    ∧ ∀ u : State, u.egress = e → u.mgmt.pendingOwn = m.pendingOwn → s.OriginCleared u g false := by
  have armed : ∀ a b : State, (∀ h, (a.egress.get h).replyLane = (b.egress.get h).replyLane) → a.ownArmed = b.ownArmed :=
    fun a b h => by simp [State.ownArmed, h]
  unfold State.withdrawReplies
  dsimp only
  rw [State.withdraw_fold]
  have lanes : ∀ (a : State) (k : Option InHand), a.egress = s.egress.set g { s.egress.get g with
      replyLane := (s.egress.get g).replyLane.filter fun c => (s.egress.get g).startedReply == some c.desc, hand := k } →
      (if Egress.slotInHand { s.egress.get g with
        replyLane := (s.egress.get g).replyLane.filter fun c => (s.egress.get g).startedReply == some c.desc, hand := k }
        then none else k) = (s.egress.get g).handLeft false →
      (a.emptySlot g) = { a with egress := s.egress.set g { s.egress.get g with
        replyLane := (s.egress.get g).replyLane.filter fun c => (s.egress.get g).startedReply == some c.desc
        slot := none, hand := (s.egress.get g).handLeft false } } := by
    intro a k ha left
    unfold State.emptySlot State.setEgress
    dsimp only
    rw [ha, ← left]
    simp
  have settled : ∀ a : State, a.settlePendingOwn
      = { a with mgmt := { a.mgmt with pendingOwn := if a.ownArmed then a.mgmt.pendingOwn else none } } := by
    intro a
    unfold State.settlePendingOwn
    split <;> rfl
  rw [settled]
  refine ⟨_, _, (lanes _ _ rfl ?_).trans rfl, rfl, fun u he hm => ⟨he, ?_⟩⟩
  · unfold Egress.slotInHand Egress.handLeft
    rcases (s.egress.get g).hand with _ | ⟨i, started, n⟩
    · rfl
    · cases i <;> cases started <;> rfl
  rw [hm]
  change ite _ _ _ = _
  congr 1
  rw [armed u _ fun h => ?_]
  rw [he]
  change Egress.replyLane (PerSeg.get (PerSeg.set _ _ _) h) = Egress.replyLane (PerSeg.get (PerSeg.set _ _ _) h)
  rw [PerSeg.get_set, PerSeg.get_set]
  split <;> rfl

/-- What a supersede or a break does to an origin, whole. -/
theorem State.LiveGone.originAbandoned {s : State} {g : Seg} {l : Option (Fin Config.numTxns)} {after : Option Txn}
    {lost : Nat} {d : Option (Fin Config.numDescs)} (h : s.LiveGone g l after lost d) {gone : List ReplyCopy}
    (unstarted : gone = (s.egress.get g).replyLane.filter fun c => (s.egress.get g).startedReply != some c.desc) :
    ∃ x e m, s.abandonOrigin g = { s with
        txns := x, egress := e, mgmt := m
        counters := s.counters.raisedBy g 12 (lost + gone.length)
        store := gone.foldl (fun st c => st.leave c.desc g) (d.toList.foldl Store.dropTxn s.store) }
      ∧ (∀ q, State.txn { s with txns := x } q = if l = some q then after else s.txn q)
      ∧ x.waiting = (if after = none then s.txns.waiting.filter fun q => l != some q else s.txns.waiting)
      ∧ x.holders = s.txns.holders ∧ x.lastTimedOut = s.txns.lastTimedOut
      ∧ m = { s.mgmt with pendingOwn := m.pendingOwn }
      ∧ ∀ u : State, u.egress = e → u.mgmt.pendingOwn = m.pendingOwn → s.OriginCleared u g false := by
  obtain ⟨x, whole, records⟩ := h.abandoned
  obtain ⟨e, m, clear, only, says_⟩ := State.cleared (s.abandonLive g) g
  rw [whole] at clear only says_
  refine ⟨x, e, m, ?_, records.1, records.2.1, records.2.2.1, records.2.2.2, only, says_⟩
  unfold State.abandonOrigin
  rw [whole, clear, Counters.raisedBy_add, unstarted]

/-- A bulk copy in hand is set back as `OriginCleared` says (R112). -/
theorem State.OriginCleared.setBack {s x : State} {g : Seg} {back : Bool}
    (turns : back = true ↔ (s.active g).role = .upstream
      ∧ ((s.egress.get g).state = .quiet ∨ ∃ since, (s.egress.get g).state = .backoff since))
    (settings : x.settings = s.settings) (clear : s.OriginCleared x g false) :
    ∃ e, x.setBackBulk g = { x with egress := e }
      ∧ ∀ u : State, u.egress = e → u.mgmt.pendingOwn = x.mgmt.pendingOwn → s.OriginCleared u g back := by
  obtain ⟨lanes, own⟩ := clear
  have rests : (s.egress.get g).state.resting = true
      ↔ ((s.egress.get g).state = .quiet ∨ ∃ since, (s.egress.get g).state = .backoff since) := by
    cases (s.egress.get g).state <;> simp [EgState.resting]
  refine ⟨s.egress.set g { s.egress.get g with
      replyLane := (s.egress.get g).replyLane.filter fun c => (s.egress.get g).startedReply == some c.desc
      slot := none
      hand := (s.egress.get g).handLeft back }, ?_, fun u same pending => ⟨same, ?_⟩⟩
  · have active : x.active g = s.active g := by
      unfold State.active
      rw [settings]
    unfold State.setBackBulk
    dsimp only
    rw [active, lanes, PerSeg.get_set, if_pos rfl]
    dsimp only
    cases back with
    | true =>
      rw [if_pos ⟨(turns.1 rfl).1, rests.2 (turns.1 rfl).2⟩]
      have rows : ((s.egress.get g).handLeft false = (s.egress.get g).handLeft true
            ∧ ∀ d st n, (s.egress.get g).handLeft false ≠ some ⟨.bulk d, st, n⟩)
          ∨ (∃ d st n, (s.egress.get g).handLeft false = some ⟨.bulk d, st, n⟩)
            ∧ (s.egress.get g).handLeft true = none := by
        unfold Egress.handLeft
        rcases (s.egress.get g).hand with _ | ⟨i, st, n⟩
        · simp
        · cases i <;> cases st <;> simp
      rcases rows with ⟨same, other⟩ | ⟨⟨d, st, n, bulk⟩, gone⟩
      · split
        · rename_i h
          exact absurd h (other _ _ _)
        · rw [← same, ← lanes]
      · rw [bulk, gone]
        unfold State.setEgress
        rw [lanes]
        simp
    | false =>
      rw [if_neg fun h => Bool.noConfusion (turns.2 ⟨h.1, rests.1 h.2⟩), ← lanes]
  · have armed : x.ownArmed = u.ownArmed := by
      have each : ∀ h, (x.egress.get h).replyLane = (u.egress.get h).replyLane := by
        intro h
        rw [lanes, same, PerSeg.get_set, PerSeg.get_set]
        split <;> rfl
      simp [State.ownArmed, each]
    rw [pending, own, armed]

end Sys2Proof.Machine
end

