-- ==== Sys2Proof/Laws/PerInstr.lean ====
section
/-!
SUPPORT. Statements made for every command as syntax, one lemma per constructor.
-/

namespace Sys2Proof.Laws.Operands

/-- A command whose operands describe no event of its row is a character whose start bit reads high, or a read of several
entries or counters that makes no claim. -/
def Statement (i : Instr) : Prop :=
  i.wellFormed = true ∨ (∃ g x, i = .characterComplete g x ∧ x.bit 1 = true)
    ∨ i = .readStationRange 0 ∨ i = .readCounters 0 ∨ i = .readClearCounters 0

theorem characterComplete (g : Seg) (x : Samples) : Statement (.characterComplete g x) := by
  cases h : x.bit 1
  · exact .inl (by simp [Instr.wellFormed, h])
  · exact .inr (.inl ⟨g, x, rfl, h⟩)

theorem breakFound (g : Seg) : Statement (.breakFound g) := .inl rfl

theorem falseStart (g : Seg) : Statement (.falseStart g) := .inl rfl

theorem startWhileDriving (g : Seg) : Statement (.startWhileDriving g) := .inl rfl

theorem recoverEnd (g : Seg) : Statement (.recoverEnd g) := .inl rfl

theorem idleGapExpiry (g : Seg) : Statement (.idleGapExpiry g) := .inl rfl

theorem arbiterScan : Statement (.arbiterScan) := .inl rfl

theorem takeLine (g : Seg) : Statement (.takeLine g) := .inl rfl

theorem leadGuardEnd (g : Seg) : Statement (.leadGuardEnd g) := .inl rfl

theorem characterSent (g : Seg) : Statement (.characterSent g) := .inl rfl

theorem echoDeadline (g : Seg) : Statement (.echoDeadline g) := .inl rfl

theorem breakSent (g : Seg) : Statement (.breakSent g) := .inl rfl

theorem tailGuardEnd (g : Seg) (straps : Straps) : Statement (.tailGuardEnd g straps) := .inl rfl

theorem backoffEnd (g : Seg) : Statement (.backoffEnd g) := .inl rfl

theorem responseTimerExpiry (r : Fin 8) : Statement (.responseTimerExpiry r) := .inl rfl

theorem agingTick : Statement (.agingTick) := .inl rfl

theorem sweepVisit : Statement (.sweepVisit) := .inl rfl

theorem walkVisit : Statement (.walkVisit) := .inl rfl

theorem leaseExpiry : Statement (.leaseExpiry) := .inl rfl

theorem settingsApply (g : Seg) : Statement (.settingsApply g) := .inl rfl

theorem identify : Statement (.identify) := .inl rfl

theorem readStatus : Statement (.readStatus) := .inl rfl

theorem readStation : Statement (.readStation) := .inl rfl

theorem writeStation : Statement (.writeStation) := .inl rfl

theorem readStationRange (claims : Nat) : Statement (.readStationRange claims) := by
  cases claims
  · exact .inr (.inr (.inl rfl))
  · exact .inl (by simp [Instr.wellFormed])

theorem clearLearned : Statement (.clearLearned) := .inl rfl

theorem readSegment : Statement (.readSegment) := .inl rfl

theorem writeSegment : Statement (.writeSegment) := .inl rfl

theorem applySegment : Statement (.applySegment) := .inl rfl

theorem writeBridge : Statement (.writeBridge) := .inl rfl

theorem readBridge : Statement (.readBridge) := .inl rfl

theorem readCounters (claims : Nat) : Statement (.readCounters claims) := by
  cases claims
  · exact .inr (.inr (.inr (.inl rfl)))
  · exact .inl (by simp [Instr.wellFormed])

theorem readClearCounters (claims : Nat) : Statement (.readClearCounters claims) := by
  cases claims
  · exact .inr (.inr (.inr (.inr rfl)))
  · exact .inl (by simp [Instr.wellFormed])

theorem readEvents : Statement (.readEvents) := .inl rfl

theorem takeLease : Statement (.takeLease) := .inl rfl

theorem dropLease : Statement (.dropLease) := .inl rfl

theorem restart : Statement (.restart) := .inl rfl

theorem restartSegment : Statement (.restartSegment) := .inl rfl

theorem echo : Statement (.echo) := .inl rfl

theorem badCommand : Statement (.badCommand) := .inl rfl

theorem powerOnRestart (cause : HoldCause) : Statement (.powerOnRestart cause) := .inl rfl

theorem powerOnRestartEnd (straps : Straps) : Statement (.powerOnRestartEnd straps) := .inl rfl

theorem fallingEdge (g : Seg) : Statement (.fallingEdge g) := .inl rfl

end Sys2Proof.Laws.Operands
end

