-- ==== Sys2Proof/Tests/Slice0.lean ====
section
/-!
SUPPORT. Small tests: ill-formed commands that the check refuses, one step of each command on a small state, and for the
premises of each statement a state that meets them.
-/

namespace Sys2Proof.Tests

open Sys2Proof.Machine

set_option Elab.async false

/-! ### Builders -/

/-- The state a command leads to. -/
def after (c : Instr) (s : State) : State :=
  match exec c s with
  | .next t => t
  | .fault _ => s
  | .refused _ => s

/-- The bridge held in power-on restart. -/
def heldState : State := after (.powerOnRestart .resetPin) State.reset

/-- The default record of S0, of S1. -/
def rec0 : SegRecord := State.reset.active .s0

/-- After reset, with the receiver of g in a state. -/
def onRx (g : Seg) (rx : RxState) : State := State.reset.setRx g rx

/-- After reset, with the receiver of g in READY, RXD high since 0, and a frame receiver state. -/
def quiet (g : Seg) (f : FrState) : State := (onRx g (.ready 0 true false)).setReceiver g f

/-- After reset, with the receiver of g in the middle of a character, and a frame receiver state. -/
def hearing (g : Seg) (f : FrState) : State := (onRx g (.assemble 0 true)).setReceiver g f

/-- DE of g asserted, the frame receiver blind. -/
def driving (s : State) (g : Seg) : State :=
  (s.setLine g { s.lines.get g with de := true }).setReceiver g .blind

/-- The levels of a character as samples that agree. -/
def heard (r : SegRecord) (c : Ch) : Samples :=
  let w : BitVec 13 := (charLevels r c).foldr (fun b w => (w <<< 1) ||| if b then 1 else 0) 0
  ⟨w, w, w⟩

/-- A poll of station 0x11 from S0 toward S1. -/
def poll (st : TxnState) : Txn :=
  { kind := .poll, state := st, origin := .s0, station := 0x11, reqDesc := some 0, egress := 2, copies := 0, windows := 0
    cls := some 1, deadline := none, superseded := false, bypass := 0, guarded := false, copyOk := false, command := 0
    sequence := 0, outcome := none, responseSeg := none }

/-- A poll that waits for its response on S1. -/
def awaiting : Txn := { poll .awaiting with reqDesc := none, windows := 2, deadline := some 50 }

/-- A descriptor of two characters in cell 0. -/
def desc2 (st : DescState) (cls : FrameClass) (txn : Option (Fin 8)) : Desc :=
  { state := st, cls := cls, ingress := some .s0, station := 0x11, length := 2, chain := [0], error := false, txn := txn
    pendingEgress := 0 }

/-- The store with descriptor 0 in use. -/
def storeWith (x : Desc) (free : List (Fin 128)) : Store :=
  { State.reset.store with freeDescs := ascendingDescs.tail, freeCells := free }.putDesc 0 (some x)

/-- s with descriptor 0 in use, the other cells free. -/
def withDesc (s : State) (x : Desc) : State := { s with store := storeWith x ascendingCells.tail }

/-- A scheduler with something in hand. -/
def sending (s : State) (g : Seg) (st : EgState) (i : Item) (attempts : Nat) : State :=
  s.setEgress g { s.egress.get g with state := st, hand := some ⟨i, true, attempts⟩ }

/-- An attempt with echo check on, one character requested. -/
def attempt : Attempt := ⟨true, 0xF0, 1, 0⟩

/-- S0, in the middle of a character or quiet, with a request of station 0x11 in assembly in descriptor 0 and record 0. -/
def forming (s : State) (error : Bool) (f : FrState) : State :=
  ((withDesc s { desc2 .filling .request (some 0) with error := error }).putTxn 0 (some (poll .forming))).setReceiver .s0 f

/-- Its frame, with an intent. -/
def request (intent : NoticeIntent) : Frame := ⟨some .request, 0x11, some 0, some 0, 2, some intent⟩

/-- A poll of S0 that receives its response on S1. -/
def receiving : Txn := { poll .receiving with reqDesc := none, responseSeg := some .s1 }

/-- S1 with a response for record 3 passed over or in assembly. -/
def answering (s : State) (f : FrState) : State :=
  ((s.putTxn 3 (some receiving)).setHolder .s1 (some 3)).setReceiver .s1 f

/-- A Local of S0 whose request has a command, sequence 8 and arguments, at the head of the management queue; S0 holds the
lease. -/
def askTxn (cmd : Byte) : Txn :=
  { poll .executing with kind := .loc, station := 0xF0, egress := 0, cls := none, command := cmd, sequence := 8 }

/-- The state with a whole request frame at the head of the management queue. -/
def askFrame (cmd : Byte) (frame : List Byte) : State :=
  let s := match State.reset.store.allocReply frame with
    | some (d, st) => { State.reset with
        store := st.modify d fun x => { x with cls := .management, ingress := some .s0, txn := some 0 } }
    | none => State.reset
  { s.putTxn 0 (some (askTxn cmd)) with
    lease := some ⟨.s0, 60000⟩, mgmt := { s.mgmt with queue := [0] } }

/-- The frame of a request. -/
def requestFrame (cmd : Byte) (args : List Byte) : List Byte :=
  let body := [0xF0, cmd, 8] ++ args
  body ++ [checkByte body]

/-- The state with a request at the head of the management queue. -/
def ask (cmd : Byte) (args : List Byte) : State := askFrame cmd (requestFrame cmd args)

/-! ### Ill-formed commands are refused by the check, well-formed ones pass -/

theorem test_wellFormed_highStartBit : (Instr.characterComplete .s0 ⟨1, 1, 0⟩).wellFormed = false := by decide

theorem test_wellFormed_lowStartBit : (Instr.characterComplete .s0 ⟨1, 0x1FFE, 0⟩).wellFormed = true := by decide

theorem test_wellFormed_noClaims :
    (Instr.readStationRange 0).wellFormed = false ∧ (Instr.readCounters 0).wellFormed = false
      ∧ (Instr.readClearCounters 0).wellFormed = false := by decide

theorem test_wellFormed_oneClaim :
    (Instr.readStationRange 1).wellFormed = true ∧ (Instr.readCounters 1).wellFormed = true
      ∧ (Instr.readClearCounters 1).wellFormed = true := by decide

/-! ### One step of each kind of command -/

theorem test_noWordSpellsACommand : decodeTableWord 16 0x1234 = none := rfl

theorem test_step_idleLetsTimePass : State.reset.idle.time = 5 ∧ State.reset.idle.pending = [] := by decide +kernel

theorem test_recoverEnd : ((after (.recoverEnd .s0) State.reset).lines.get .s0).rx = .ready 7680 true false := by
  decide +kernel

theorem test_fallingEdge : ((after (.fallingEdge .s0) (quiet .s0 .hunt)).lines.get .s0).rx = .assemble 0 false := by
  decide +kernel

theorem test_falseStart : (after (.falseStart .s0) (onRx .s0 (.assemble 0 false))).counters.read .s0 3 = 1 := by
  decide +kernel

theorem test_characterComplete_orphan :
    (after (.characterComplete .s0 (heard rec0 ⟨0x41, false⟩)) (hearing .s0 .hunt)).counters.read .s0 4 = 1 := by
  decide +kernel

theorem test_characterComplete_request :
    (after (.characterComplete .s0 (heard rec0 ⟨0x11, true⟩)) (hearing .s0 .hunt)).receivers.get .s0
      = .store ⟨some .request, 0x11, some 0, some 0, 1, none⟩ := by decide +kernel

theorem test_breakFound : (after (.breakFound .s1) (hearing .s1 .hunt)).counters.read .s1 13 = 1 := by decide +kernel

theorem test_startWhileDriving :
    let s := sending (driving (onRx .s1 (.assemble 0 false)) .s1) .s1 (.lead 7680 true) (.bulk 0) 0
    ((after (.startWhileDriving .s1) s).egress.get .s1).state = .backoff 3840 := by decide +kernel

theorem test_idleGapExpiry :
    ((after (.idleGapExpiry .s0) (quiet .s0 .hunt)).time, ((after (.idleGapExpiry .s0) (quiet .s0 .hunt)).lines.get .s0).rx)
      = (3 * 11 * 7680, .ready 0 true true) := by decide +kernel

theorem test_takeLine :
    let s := quiet .s1 .hunt
    let s := s.setEgress .s1 { s.egress.get .s1 with bulkLane := [0] }
    ((after (.takeLine .s1) s).lines.get .s1).de = true := by decide +kernel

theorem test_backoffEnd :
    let s := sending State.reset .s2 (.backoff 0) (.bulk 0) 1
    ((after (.backoffEnd .s2) s).time, ((after (.backoffEnd .s2) s).egress.get .s2).state) = (6 * 11 * 7680, .quiet) := by
  decide +kernel

theorem test_breakSent :
    let s := (driving State.reset .s1).setLine .s1 { State.reset.lines.get .s1 with tx := .breaking 0, de := true }
    ((after (.breakSent .s1) s).time, ((after (.breakSent .s1) s).lines.get .s1).de) = (2 * 11 * 7680, false) := by
  decide +kernel

theorem test_agingTick :
    (after .agingTick State.reset).table.sweep = some ⟨60000, 0⟩ := by decide +kernel

theorem test_sweepVisit_ages :
    let s := State.reset.putEntry 0x00 (.learned .s1 1 false 3 2)
    let s := { s with table := { s.table with sweep := some ⟨0, 0⟩ } }
    (after .sweepVisit s).entry 0x00 = .learned .s1 1 false 4 2 := by decide +kernel

theorem test_leaseExpiry :
    (after .leaseExpiry { State.reset with lease := some ⟨.s0, 1000⟩ }).lease = none := by decide +kernel

theorem test_responseTimerExpiry :
    (after (.responseTimerExpiry 3) (State.reset.putTxn 3 (some awaiting))).counters.read .s0 8 = 1 := by decide +kernel

theorem test_settingsApply :
    let s := { State.reset with settings := { State.reset.settings with applyPending := 2 } }
    (after (.settingsApply .s1) s).settings.applyPending = 0 := by decide +kernel

/-- The worked exchange of spec/10: an Echo of two characters. -/
theorem test_echo :
    ((after .echo (ask 0x60 [0x41, 0x42])).mgmt.caches.get .s0).map CacheEntry.reply
      = some [0xF0, 0xE0, 8, 0, 0x41, 0x42, checkByte [0xF0, 0xE0, 8, 0, 0x41, 0x42]] := by decide +kernel

theorem test_writeStation :
    (after .writeStation (ask 0x11 [0x12, 1, 4, 2])).entry 0x12 = .static 4 2 0 false := by decide +kernel

theorem test_readStationRange_cut :
    ((after (.readStationRange 16) (ask 0x12 [0xFE, 16])).mgmt.caches.get .s0).map CacheEntry.reply
      = some (replyFrame 0xF0 0x12 8 .done [2, 0, 0, 0, 0, 0, 0, 0, 0]) := by decide +kernel

theorem test_readClearCounters :
    let s := ask 0x31 [0, 4, 1]
    (after (.readClearCounters 1) { s with counters := s.counters.write .s0 4 7 }).counters.read .s0 4 = 0 := by
  decide +kernel

theorem test_takeLease_refused :
    ((after .takeLease { ask 0x40 [9] with lease := some ⟨.s1, 1001⟩ }).mgmt.caches.get .s0).map CacheEntry.reply
      = some (replyFrame 0xF0 0x40 8 .leaseBusy [1, 2]) := by decide +kernel

theorem test_badCommand :
    ((after .badCommand (ask 0x7F [])).mgmt.caches.get .s0).map CacheEntry.reply
      = some (replyFrame 0xF0 0x7F 8 .badCommand []) := by decide +kernel

theorem test_restartSegment_conflict :
    ((after .restartSegment (ask 0x51 [0])).mgmt.caches.get .s0).map CacheEntry.reply
      = some (replyFrame 0xF0 0x51 8 .conflict []) := by decide +kernel

theorem test_straps :
    (after (.powerOnRestartEnd ⟨5, true, 3⟩) heldState).bridge.own = 0xF5
      ∧ ((after (.powerOnRestartEnd ⟨5, true, 3⟩) heldState).active .s1).role = .upstream := by decide +kernel

/-! ### A reset and a request that follows, whole: the queue in order -/

theorem test_queueInOrder :
    step { State.reset with pending := [.recoverEnd .s0, .recoverEnd .s1] }
      = exec (.recoverEnd .s0) { State.reset with pending := [.recoverEnd .s1] } := rfl

/-! ### States that meet the premises of the statements -/

theorem test_EmptyQueueLetsTimePass_premises :
    (heldState.pending = [] ∧ heldState.held = true)
      ∧ (State.reset.pending = [] ∧ State.reset.held = false ∧ State.reset.dueCommands = [])
      ∧ (let s := { sending State.reset .s0 (.backoff 0) (.bulk 0) 1 with time := 2 * 11 * 7680 }
        s.pending = [] ∧ s.held = false ∧ s.dueCommands = [.backoffEnd .s0])
      ∧ (let s := { sending (sending State.reset .s0 (.backoff 0) (.bulk 0) 1) .s1 (.backoff 0) (.bulk 0) 1 with
          time := 4 * 11 * 7680 }
        s.pending = [] ∧ s.held = false ∧ s.dueCommands.length = 2) := by decide +kernel

theorem test_PowerOnRestart_premises : heldState.held = true := by decide +kernel

theorem test_ReceiverEdges_premises :
    State.reset.held = false ∧ ((quiet .s0 .hunt).lines.get .s0).rx = .ready 0 true false
      ∧ (State.reset.lines.get .s3).rx = .recover 0
      ∧ ((onRx .s3 (.assemble 0 false)).lines.get .s3).rx = .assemble 0 false := by decide +kernel

theorem test_CharactersReadBack_premises :
    (∀ k, k < rec0.charBits → (heard rec0 ⟨0xFF, true⟩).a.getLsbD k = (charLevels rec0 ⟨0xFF, true⟩).getD k true)
      ∧ (∀ k, k < rec0.charBits → (heard rec0 ⟨0, false⟩).a.getLsbD k = (charLevels rec0 ⟨0, false⟩).getD k true)
      ∧ ∀ k, k < rec0.firstStop → (0x1800 : BitVec 13).getLsbD k = false := by decide +kernel

/-- Where a row of R86 is met, there is a state in which the frame has ended. -/
theorem frameEnds_exists {s : State} {g : Seg} {cut : Bool} {f : Frame} {raised : List SegCounter} {o : TxnOutcome}
    {c : NoticeCode} (rows : s.EndsAs g cut f raised o c)
    (kind : (∃ r, (f.cls = some .request ∨ f.cls = some .broadcast ∨ f.cls = some .management) ∧ f.txn = some r)
      ∨ f.txn = none
      ∨ ∃ r t, f.cls = some .response ∧ f.txn = some r ∧ f.intent = none ∧ s.txn r = some t ∧ t.outcome = none) :
    ∃ u, s.FrameEnds u g cut := by
  have counted : ∃ k, s.counters.RaisedTo k g (.framesReceived :: raised) := by
    have first := (s.counters.raisedTo_nil g).more (a := .framesReceived) (by simp)
    rcases rows with ⟨rfl, _⟩ | ⟨rfl, _⟩ | ⟨rfl, _⟩
    · exact ⟨_, first.more (a := .damaged) (by simp)⟩
    · exact ⟨_, first.more (a := .noBuffer) (by simp)⟩
    · exact ⟨_, first⟩
  obtain ⟨k, counted⟩ := counted
  rcases kind with ⟨r, bears, held⟩ | bare | ⟨r, t, response, held, quiet, used, unfixed⟩
  · exact ⟨_, f, raised, o, c, k, rows, counted, fun n v hn hv => .inl ⟨r, bears, held, by subst hn hv; rfl⟩⟩
  · exact ⟨_, f, raised, o, c, k, rows, counted, fun n v hn hv => .inr (.inl ⟨bare, by subst hn hv; rfl⟩)⟩
  · exact ⟨_, f, raised, o, c, k, rows, counted,
      fun n v hn hv => .inr (.inr ⟨r, t, response, held, quiet, used, unfixed, by subst hn hv; rfl⟩)⟩

/-- The rows of `LiveGone`: no live transaction, one under way, one under way with its outcome fixed, one that waits. -/
theorem test_LiveGone_premises :
    let s := hearing .s0 .hunt
    let done : Txn := { awaiting with copies := 1, outcome := some .timeout }
    let w : Txn := { poll .pending with reqDesc := some 1 }
    s.LiveGone .s0 none none 0 none
      ∧ (s.putTxn 7 (some awaiting)).LiveGone .s0 (some 7) (some { awaiting with superseded := true }) 1 none
      ∧ (s.putTxn 7 (some done)).LiveGone .s0 (some 7) (some { done with superseded := true }) 0 none
      ∧ (s.putTxn 7 (some w)).LiveGone .s0 (some 7) none 1 (some 1) := by
  refine ⟨.inl (by decide +kernel), .inr ⟨7, awaiting, ?_⟩, .inr ⟨7, { awaiting with copies := 1, outcome := some .timeout }, ?_⟩,
    .inr ⟨7, { poll .pending with reqDesc := some 1 }, ?_⟩⟩ <;> decide +kernel

/-- A break in HUNT: on a Downstream segment; on an Upstream one in the states of `LiveGone`, two replies in its lane, of which
one has started. -/
theorem test_BreakIsTaken_premises :
    (let s := hearing .s1 .hunt
     s.held = false ∧ (s.lines.get .s1).rx = .assemble 0 true ∧ (s.lines.get .s1).de = false
        ∧ s.receivers.get .s1 = .hunt ∧ (s.active .s1).role = .downstream)
      ∧ (let s := hearing .s0 .hunt
        let l := sending (s.setEgress .s0 { Egress.empty with replyLane := [⟨5, none⟩, ⟨6, none⟩] }) .s0 .quiet (.reply 5) 1
        (∀ u ∈ [s, s.putTxn 7 (some awaiting), s.putTxn 7 (some { poll .pending with reqDesc := some 1 }), l],
          u.held = false ∧ (u.lines.get .s0).rx = .assemble 0 true ∧ (u.lines.get .s0).de = false
            ∧ u.receivers.get .s0 = .hunt ∧ (u.active .s0).role = .upstream)
          ∧ l.liveOf .s0 = none
          ∧ ((l.egress.get .s0).replyLane.filter fun c => (l.egress.get .s0).startedReply != some c.desc)
            = [⟨6, none⟩]) := by
  decide +kernel

/-- A break in a request that is stored, and in one passed over; and in a response. -/
theorem test_BreakInAFrame_premises :
    (∀ x ∈ [FrState.store (request .damaged), .skip .truncated (request .busy)],
      let s := forming (hearing .s0 .hunt) false x
      s.held = false ∧ (s.lines.get .s0).rx = .assemble 0 true ∧ (s.lines.get .s0).de = false ∧ ∃ u, s.FrameEnds u .s0 true)
      ∧ (let s := answering (hearing .s1 .hunt) (.skip .noBuffer ⟨some .response, 0x11, none, some 3, 0, none⟩)
        s.held = false ∧ (s.lines.get .s1).rx = .assemble 0 true ∧ (s.lines.get .s1).de = false
          ∧ ∃ u, s.FrameEnds u .s1 true) := by
  refine ⟨?_, by decide +kernel, rfl, rfl, ?_⟩
  · intro x hx
    simp only [List.mem_cons, List.not_mem_nil, or_false] at hx
    rcases hx with rfl | rfl
    · exact ⟨by decide +kernel, rfl, rfl, frameEnds_exists (f := request .damaged)
        (.inl ⟨rfl, rfl, rfl, .inl ⟨rfl, .inl rfl⟩⟩) (.inl ⟨0, .inl rfl, rfl⟩)⟩
    · exact ⟨by decide +kernel, rfl, rfl, frameEnds_exists (f := request .busy)
        (.inl ⟨rfl, rfl, rfl, .inl ⟨rfl, .inr ⟨_, rfl⟩⟩⟩) (.inl ⟨0, .inl rfl, rfl⟩)⟩
  · exact frameEnds_exists (.inl ⟨rfl, rfl, rfl, .inl ⟨rfl, .inr ⟨_, rfl⟩⟩⟩)
      (.inr (.inr ⟨3, receiving, rfl, rfl, rfl, by decide +kernel, rfl⟩))

/-- A quiet period whose expiry has been taken; one whose expiry is to come, with DE asserted and with a frame passed over. -/
theorem test_IdleGapEndsTheFrame_premises :
    ((onRx .s0 (.ready 0 true true)).lines.get .s0).rx = .ready 0 true true
      ∧ (let s := driving (quiet .s0 .hunt) .s0
        s.held = false ∧ (s.lines.get .s0).rx = .ready 0 true false ∧ (s.lines.get .s0).de = true)
      ∧ (let s := quiet .s0 (.skip .blocked ⟨some .request, 0x11, none, none, 0, none⟩)
        s.held = false ∧ (s.lines.get .s0).rx = .ready 0 true false ∧ (s.lines.get .s0).de = false) := by decide +kernel

/-- At the idle gap and at the next address character: a request passed over for want of a route and of storage, one that
is truncated, oversize, and stored with an error; and a response passed over for want of storage, and oversize. -/
theorem test_FrameEnds_premises :
    (∀ x, x = FrState.skip .noRoute ⟨some .request, 0x11, none, none, 0, some .noRoute⟩
        ∨ x = .skip .noBuffer ⟨some .management, 0xF0, none, none, 0, some .busy⟩
        ∨ x = .skip .truncated (request .busy) ∨ x = .skip .oversize (request .damaged) ∨ x = .store (request .damaged) →
      (∃ u, (forming (quiet .s0 .hunt) true x).FrameEnds u .s0 false)
        ∧ ∃ u, (forming (hearing .s0 .hunt) true x).FrameEnds u .s0 false)
      ∧ (∀ why, why = SkipReason.noBuffer ∨ why = .oversize →
        (∃ u, (answering (quiet .s1 .hunt) (.skip why ⟨some .response, 0x11, none, some 3, 0, none⟩)).FrameEnds u .s1 false)
        ∧ ∃ u, (answering (hearing .s1 .hunt) (.skip why ⟨some .response, 0x11, none, some 3, 0, none⟩)).FrameEnds u .s1
          false) := by
  refine ⟨?_, ?_⟩
  · rintro x (rfl | rfl | rfl | rfl | rfl)
    · exact ⟨frameEnds_exists (.inr (.inr ⟨rfl, rfl, rfl, rfl, rfl, _, rfl, by decide, by decide, .inl rfl⟩)) (.inr (.inl rfl)),
        frameEnds_exists (.inr (.inr ⟨rfl, rfl, rfl, rfl, rfl, _, rfl, by decide, by decide, .inl rfl⟩)) (.inr (.inl rfl))⟩
    · exact ⟨frameEnds_exists (.inr (.inr ⟨rfl, rfl, rfl, rfl, rfl, _, rfl, by decide, by decide, .inl rfl⟩)) (.inr (.inl rfl)),
        frameEnds_exists (.inr (.inr ⟨rfl, rfl, rfl, rfl, rfl, _, rfl, by decide, by decide, .inl rfl⟩)) (.inr (.inl rfl))⟩
    · exact ⟨frameEnds_exists (.inr (.inl ⟨rfl, rfl, rfl, rfl, rfl⟩)) (.inl ⟨0, .inl rfl, rfl⟩),
        frameEnds_exists (.inr (.inl ⟨rfl, rfl, rfl, rfl, rfl⟩)) (.inl ⟨0, .inl rfl, rfl⟩)⟩
    · exact ⟨frameEnds_exists (.inl ⟨rfl, rfl, rfl, .inr ⟨rfl, .inl rfl⟩⟩) (.inl ⟨0, .inl rfl, rfl⟩),
        frameEnds_exists (.inl ⟨rfl, rfl, rfl, .inr ⟨rfl, .inl rfl⟩⟩) (.inl ⟨0, .inl rfl, rfl⟩)⟩
    · exact ⟨frameEnds_exists (.inl ⟨rfl, rfl, rfl, .inr ⟨rfl, .inr ⟨rfl, 0, _, rfl, rfl, rfl⟩⟩⟩) (.inl ⟨0, .inl rfl, rfl⟩),
        frameEnds_exists (.inl ⟨rfl, rfl, rfl, .inr ⟨rfl, .inr ⟨rfl, 0, _, rfl, rfl, rfl⟩⟩⟩) (.inl ⟨0, .inl rfl, rfl⟩)⟩
  · rintro why (rfl | rfl)
    · exact ⟨frameEnds_exists (.inr (.inr ⟨rfl, rfl, rfl, rfl, rfl, _, rfl, by decide, by decide, .inr rfl⟩))
          (.inr (.inr ⟨3, receiving, rfl, rfl, rfl, rfl, rfl⟩)),
        frameEnds_exists (.inr (.inr ⟨rfl, rfl, rfl, rfl, rfl, _, rfl, by decide, by decide, .inr rfl⟩))
          (.inr (.inr ⟨3, receiving, rfl, rfl, rfl, rfl, rfl⟩))⟩
    · exact ⟨frameEnds_exists (.inl ⟨rfl, rfl, rfl, .inr ⟨rfl, .inl rfl⟩⟩)
          (.inr (.inr ⟨3, receiving, rfl, rfl, rfl, rfl, rfl⟩)),
        frameEnds_exists (.inl ⟨rfl, rfl, rfl, .inr ⟨rfl, .inl rfl⟩⟩)
          (.inr (.inr ⟨3, receiving, rfl, rfl, rfl, rfl, rfl⟩))⟩

/-- Such states are silent, and such states hear an address character. -/
theorem test_FrameEndsIsHeard_premises :
    (forming (quiet .s0 .hunt) true (.store (request .damaged))).Silent .s0 0
      ∧ (let s := forming (hearing .s0 .hunt) true (.store (request .damaged))
        s.Hears .s0 0 true (heard rec0 ⟨0x11, true⟩) ⟨0x11, true, false, false, false⟩ ∧ (s.lines.get .s0).de = false)
      ∧ (answering (quiet .s1 .hunt) (.skip .noBuffer ⟨some .response, 0x11, none, some 3, 0, none⟩)).Silent .s1 0 := by
  unfold State.Silent State.Hears
  decide +kernel

theorem test_RouteDecision_premises :
    let s := ((State.reset.putEntry 1 .blocked).putEntry 2 (.static 1 3 0 false)).putEntry 0xFE (.learned .s3 0 true 255 15)
    let t := { s with settings := { s.settings with bridge := { s.bridge with flood := false } } }
    s.entry 1 = .blocked ∧ s.route 2 = .drop .noRoute ∧ s.route 0xFE = .carry 8 0 ∧ s.route 3 = .carry 14 2
      ∧ t.route 3 = .drop .noRoute := by decide +kernel

/-- A state with one Learned entry meets the laws of the table. -/
theorem test_TableLaws_premises :
    let s := State.reset.putEntry 0x11 (.learned .s1 1 true 0 0)
    s.TableLaws ∧ s.ResponsesDownstream ∧ s.ReservedUnassigned ∧ s.route 0x11 = .carry 2 1
      ∧ ∃ t, step s = .next t := by
  have entries : ∀ a, (State.reset.putEntry 0x11 (.learned .s1 1 true 0 0)).entry a
      = if a = 0x11 then .learned .s1 1 true 0 0 else .unassigned := by decide +kernel
  refine ⟨⟨?_, ?_⟩, ?_, ?_, ?_, ?_⟩
  · intro a g c used age miss h
    rw [entries] at h
    split at h
    · cases h
      rfl
    · cases h
  · intro a m c miss muted h
    rw [entries] at h
    split at h <;> cases h
  · intro g f h
    cases g <;> cases h
  · unfold State.ReservedUnassigned
    decide +kernel
  · decide +kernel
  · exact ⟨_, rfl⟩

/-- An address character in HUNT that opens a Request, a Broadcast (with one cell more than the reserve) and a Management
frame. -/
theorem test_RequestIsAdmitted_premises :
    let s := hearing .s0 .hunt
    let b := { s with store := { s.store with freeCells := ascendingCells.take 17 } }
    (∀ c ∈ [(0x11 : Byte), 0x00, 0xF0], s.Hears .s0 0 true (heard rec0 ⟨c, true⟩) ⟨c, true, false, false, false⟩)
      ∧ (s.lines.get .s0).de = false ∧ s.receivers.get .s0 = .hunt ∧ s.txn 0 = none
      ∧ s.store.freeDescs = 0 :: s.store.freeDescs.tail ∧ s.store.freeCells = 0 :: s.store.freeCells.tail
      ∧ b.bridge.reserve.toNat < b.store.freeCells.length
      ∧ s.Opens .s0 0x11 .request .poll 14 (some 2) ∧ b.Opens .s0 0 .broadcast .broadcast 14 none
      ∧ s.Opens .s0 0xF0 .management .loc 0 none := by
  unfold State.Hears
  refine ⟨by decide +kernel, by decide +kernel, by decide +kernel, by decide +kernel, by decide +kernel,
    by decide +kernel, by decide +kernel, ?_, ?_, ?_⟩
  · exact .inl ⟨by decide +kernel, by decide +kernel, .inl ⟨by decide, rfl, rfl, 2, rfl, by decide +kernel⟩⟩
  · exact .inl ⟨by decide +kernel, by decide +kernel, .inr ⟨rfl, rfl, rfl, by decide +kernel, by decide, rfl⟩⟩
  · exact .inr ⟨.inl (by decide +kernel), by decide +kernel, by decide +kernel, rfl, rfl, rfl, rfl⟩

/-- What refuses it: no record, no descriptor, no cell, and for a Broadcast as many cells as the reserve; and what passes it
over: MgmtOff, Blocked, NoRoute, and a Broadcast with no segment Downstream. -/
theorem test_RequestIsRefused_premises :
    let s := hearing .s0 .hunt
    let noRecord := ascendingTxns.foldl (fun s r => s.putTxn r (some awaiting)) s
    let noStore := { s with store := { s.store with freeDescs := [], freeCells := [] } }
    let few := { s with store := { s.store with freeCells := ascendingCells.take 16 } }
    let off := { s.settings with
      bridge := { s.bridge with flood := false }, active := PerSeg.const rec0 }
    let up := { s with settings := off }
    let m := hearing .s1 .hunt
    let x := s.putEntry 0x11 .blocked
    (∀ r, noRecord.txn r ≠ none) ∧ noStore.store.freeDescs = [] ∧ noStore.store.freeCells = []
      ∧ few.store.freeCells.length = few.bridge.reserve.toNat
      ∧ ((m.active .s1).role = .downstream ∧ m.windowOn .s1 = none ∧ (m.active .s1).mgmtAccess = false
        ∧ (m.active .s0).role = .upstream)
      ∧ (x.route 0x11 = .drop .blocked ∧ up.route 0x11 = .drop .noRoute ∧ up.downstream = 0
        ∧ (up.active .s0).role = .upstream) := by decide +kernel

/-- A data character in HUNT, in SKIP, and in a Request stored in descriptor 0: the longest frame, an exact number of cells
with none free, one place short of the longest, a cell newly taken; and one with a framing error. -/
theorem test_FrameGrows_premises :
    let f : FrState := .store ⟨some .request, 0x11, some 0, some 0, 2, none⟩
    let k : FrState := .skip .noBuffer ⟨some .request, 0x11, none, none, 0, some .busy⟩
    let w := (heard rec0 ⟨0x41, false⟩).a &&& 0x3FF
    let s := hearing .s0 f
    let y (n m : Nat) : Desc := { desc2 .filling .request (some 0) with length := n, chain := ascendingCells.take m }
    let full := { s with store := storeWith (y 256 16) (ascendingCells.drop 16) }
    let dry := { s with store := storeWith (y 16 1) [] }
    let last := { s with store := storeWith (y 255 16) (ascendingCells.drop 16) }
    let edge := { s with store := storeWith (y 240 15) (ascendingCells.drop 15) }
    s.Hears .s0 0 true (heard rec0 ⟨0x41, false⟩) ⟨0x41, false, false, false, false⟩
      ∧ s.Hears .s0 0 true ⟨w, w, w⟩ ⟨0x41, false, false, true, false⟩
      ∧ (s.lines.get .s0).de = false ∧ s.receivers.get .s0 = f
      ∧ (hearing .s0 .hunt).receivers.get .s0 = .hunt ∧ (hearing .s0 k).receivers.get .s0 = k
      ∧ full.store.desc 0 = some (y 256 16) ∧ dry.store.desc 0 = some (y 16 1) ∧ dry.store.freeCells = []
      ∧ last.store.desc 0 = some (y 255 16) ∧ (y 255 16).chain[255 / 16]? = some 15
      ∧ edge.store.desc 0 = some (y 240 15) ∧ (y 240 15).chain.length = 240 / 16
      ∧ edge.store.freeCells = 15 :: ascendingCells.drop 16 := by
  unfold State.Hears
  decide +kernel

/-- A stored Request without error: no transaction live, one under way, one that waits; replies of which one has started; a
scheduler that is not resting; none of its segments left Downstream. -/
theorem test_IntactRequestWaits_premises :
    let f : FrState := .store ⟨some .request, 0x11, some 0, some 0, 2, none⟩
    let x := desc2 .filling .request (some 0)
    let s := (withDesc (quiet .s0 f) x).putTxn 0 (some (poll .forming))
    let w := { poll .pending with reqDesc := some 1 }
    let n := s.putTxn 0 (some { poll .forming with egress := 1 })
    let lane (st : EgState) : State :=
      sending (s.setEgress .s0 { Egress.empty with replyLane := [⟨5, none⟩, ⟨6, none⟩] }) .s0 st (.reply 5) 1
    (∀ u ∈ [s, s.putTxn 7 (some awaiting), s.putTxn 7 (some w), lane .quiet, lane (.tail 0 attempt)],
      (u.held = false ∧ (u.lines.get .s0).rx = .ready 0 true false ∧ (u.lines.get .s0).de = false)
        ∧ u.receivers.get .s0 = f ∧ u.store.desc 0 = some x ∧ x.error = false ∧ u.txn 0 = some (poll .forming)
        ∧ (poll .forming).egress &&& u.downstream ≠ 0 ∧ (u.active .s0).role = .upstream)
      ∧ s.liveOf .s0 = none ∧ (s.egress.get .s0).state = .quiet
      ∧ (s.putTxn 7 (some awaiting)).liveOf .s0 = some 7 ∧ (s.putTxn 7 (some w)).liveOf .s0 = some 7
      ∧ (∀ st ∈ [EgState.quiet, .tail 0 attempt], (lane st).liveOf .s0 = none ∧ ((lane st).egress.get .s0).state = st
        ∧ (((lane st).egress.get .s0).replyLane.filter fun c => ((lane st).egress.get .s0).startedReply != some c.desc)
          = [⟨6, none⟩])
      ∧ (n.txn 0 = some { poll .forming with egress := 1 } ∧ (1 : SegSet) &&& n.downstream = 0 ∧ x.pendingEgress = 0) := by
  decide +kernel

/-- A stored Management frame: new, with no transaction live, with a poll under way, with a Local of another sequence, with
replies in the lane; and a repeat of the Local in execution. An Unsolicited frame, with room in the one Upstream lane and
with none. -/
theorem test_IntactManagement_premises :
    let f : FrState := .store ⟨some .management, 0xF0, some 0, some 1, 4, none⟩
    let b := askFrame 0x60 (requestFrame 0x60 [])
    let st := b.store.modify 0 fun x => { x with state := .filling, txn := some 1 }
    let s := { (quiet .s0 f).putTxn 1 (some { askTxn 0 with state := .forming, sequence := 0 }) with store := st }
    let older : Txn := { askTxn 0x60 with sequence := 7 }
    let l := s.setEgress .s0 { Egress.empty with replyLane := [⟨5, none⟩, ⟨6, none⟩] }
    let a := s.putTxn 7 (some (askTxn 0x60))
    let g : FrState := .store ⟨some .unsolicited, 0x11, some 0, none, 2, none⟩
    let y := { desc2 .filling .unsolicited none with ingress := some .s1 }
    let u := withDesc (quiet .s1 g) y
    let full := u.setEgress .s0 { Egress.empty with bulkLane := ascendingDescs.drop 40 }
    (∀ v ∈ [s, s.putTxn 7 (some awaiting), s.putTxn 7 (some older), l, a],
      (v.held = false ∧ (v.lines.get .s0).rx = .ready 0 true false ∧ (v.lines.get .s0).de = false)
        ∧ v.receivers.get .s0 = f ∧ (v.store.desc 0).map Desc.error = some false
        ∧ (v.txn 1).map Txn.state = some .forming)
      ∧ s.liveOf .s0 = none ∧ (s.putTxn 7 (some awaiting)).liveOf .s0 = some 7 ∧ awaiting.kind ≠ .loc
      ∧ (s.putTxn 7 (some older)).liveOf .s0 = some 7 ∧ (s.store.values 0)[2]? ≠ some older.sequence
      ∧ (l.liveOf .s0 = none ∧ (l.egress.get .s0).startedReply = none)
      ∧ (a.liveOf .s0 = some 7 ∧ a.txn 7 = some (askTxn 0x60)
        ∧ a.store.values 0 = [0xF0, 0x60, 8, checkByte [0xF0, 0x60, 8]]
        ∧ (a.store.desc 0).map Desc.pendingEgress = some 0)
      ∧ ((u.held = false ∧ (u.lines.get .s1).rx = .ready 0 true false ∧ (u.lines.get .s1).de = false)
        ∧ u.receivers.get .s1 = g ∧ u.store.desc 0 = some y ∧ y.txn = none ∧ y.pendingEgress = 0
        ∧ ∀ h ∈ Seg.all, SegSet.has 1 h = true ↔ (u.active h).role = .upstream ∧ (u.egress.get h).bulkLane.length < 8)
      ∧ ∀ h ∈ Seg.all, SegSet.has 0 h = true
          ↔ (full.active h).role = .upstream ∧ (full.egress.get h).bulkLane.length < 8 := by
  decide +kernel

/-- A window of the station, with the store free and with none; another address; no window: the last timed-out station, and
an unsolicited frame with forwarding off, on with one cell more than the reserve, and on with as many. -/
theorem test_ResponseIsMatched_premises :
    let h := hearing .s1 .hunt
    let s := (h.putTxn 2 (some awaiting)).setHolder .s1 (some 2)
    let late := h.setLastTimedOut .s1 (some 0x11)
    let on (n : Nat) := { h with
      settings := { h.settings with bridge := { h.bridge with unsolicited := true } }
      store := { h.store with freeCells := ascendingCells.take n } }
    (s.Hears .s1 0 true (heard rec0 ⟨0x11, true⟩) ⟨awaiting.station, true, false, false, false⟩
        ∧ s.Hears .s1 0 true (heard rec0 ⟨0x12, true⟩) ⟨0x12, true, false, false, false⟩
        ∧ (s.lines.get .s1).de = false ∧ s.receivers.get .s1 = .hunt ∧ (s.active .s1).role = .downstream
        ∧ s.holder .s1 = some 2 ∧ s.txn 2 = some awaiting ∧ awaiting.windows.has .s1 = true
        ∧ s.store.freeDescs = 0 :: s.store.freeDescs.tail ∧ s.store.freeCells = 0 :: s.store.freeCells.tail)
      ∧ (late.windowOn .s1 = none ∧ 0x11 ≠ late.bridge.own ∧ late.txns.lastTimedOut.get .s1 = some 0x11)
      ∧ (h.windowOn .s1 = none ∧ h.txns.lastTimedOut.get .s1 ≠ some 0x11 ∧ h.bridge.unsolicited = false)
      ∧ ((on 17).bridge.unsolicited = true ∧ (on 17).bridge.reserve.toNat < (on 17).store.freeCells.length
        ∧ (on 17).windowOn .s1 = none)
      ∧ (on 16).store.freeCells.length ≤ (on 16).bridge.reserve.toNat
      ∧ ({ s with store := { s.store with freeDescs := [] } } : State).store.freeDescs = [] := by
  unfold State.Hears
  decide +kernel

/-- A response without error on S1: the reply lane of its origin with room and without, the transaction superseded, a copy still
out. -/
theorem test_IntactResponseAnswers_premises :
    let f : FrState := .store ⟨some .response, 0x11, some 0, some 2, 2, none⟩
    let x := desc2 .filling .response (some 2)
    let t := { awaiting with state := .receiving, windows := 0, responseSeg := some .s1 }
    let s (t : Txn) (lane : List ReplyCopy) : State :=
      ((withDesc (quiet .s1 f) x).putTxn 2 (some t)).setEgress .s0 { Egress.empty with replyLane := lane }
    (∀ w ∈ [(t, [⟨9, none⟩]), (t, [⟨9, none⟩, ⟨8, none⟩]), ({ t with superseded := true }, []),
        ({ t with copies := 4 }, [])],
      (s w.1 w.2).held = false ∧ ((s w.1 w.2).lines.get .s1).rx = .ready 0 true false
        ∧ ((s w.1 w.2).lines.get .s1).de = false ∧ (s w.1 w.2).receivers.get .s1 = f
        ∧ (s w.1 w.2).store.desc 0 = some x ∧ x.error = false ∧ x.pendingEgress = 0 ∧ (s w.1 w.2).txn 2 = some w.1
        ∧ w.1.outcome = none ∧ ((s w.1 w.2).egress.get w.1.origin).replyLane = w.2)
      ∧ t.superseded = false ∧ t.copies = 0 := by
  decide +kernel

/-- An item in hand; a notice; a reply; a bulk copy on a Downstream and on an Upstream segment. -/
theorem test_TakeLineEntersLead_premises :
    let q := quiet .s1 .hunt
    let u := quiet .s0 .hunt
    let hand := sending q .s1 .quiet (.bulk 0) 1
    let notice := u.setEgress .s0 { Egress.empty with slot := some ⟨.timeout, 0x11⟩ }
    let reply := u.setEgress .s0 { Egress.empty with replyLane := [⟨0, none⟩] }
    let bulk := q.setEgress .s1 { Egress.empty with bulkLane := [0] }
    let up := u.setEgress .s0 { Egress.empty with bulkLane := [0] }
    (q.held = false ∧ (q.lines.get .s1).rx = .ready 0 true false ∧ (q.active .s1).role ≠ .off
        ∧ q.receivers.get .s1 = .hunt ∧ (q.egress.get .s1).state = .quiet ∧ (q.active .s1).leadGuard ≠ 0)
      ∧ ((hand.egress.get .s1).hand = some ⟨.bulk 0, true, 1⟩ ∧ (hand.egress.get .s1).state = .quiet)
      ∧ ((notice.egress.get .s0).slot = some ⟨.timeout, 0x11⟩ ∧ (notice.egress.get .s0).hand = none)
      ∧ ((reply.egress.get .s0).slot = none ∧ (reply.egress.get .s0).replyLane = [⟨0, none⟩])
      ∧ ((bulk.egress.get .s1).bulkLane = [0] ∧ (bulk.active .s1).role = .downstream)
      ∧ ((up.egress.get .s0).bulkLane = [0] ∧ (up.active .s0).role = .upstream ∧ up.liveOf .s0 = none) := by
  decide +kernel

theorem test_TransmitSendsTheItem_premises :
    let d := withDesc (driving State.reset .s1) (desc2 .ready .request none)
    let bulk := sending d .s1 (.lead 7680 true) (.bulk 0) 0
    let reply := sending d .s1 (.lead 7680 true) (.reply 0) 0
    let n := sending (d.setEgress .s1 { Egress.empty with slot := some ⟨.timeout, 0x11⟩ }) .s1 (.lead 0 true) .slotNotice 0
    let off := sending d .s1 (.lead 7680 false) (.bulk 0) 0
    (bulk.held = false ∧ (bulk.egress.get .s1).state = .lead 7680 true
        ∧ (bulk.egress.get .s1).hand = some ⟨.bulk 0, true, 0⟩ ∧ (bulk.lines.get .s1).tx = .marking
        ∧ (bulk.store.charAt 0 0).isSome = true ∧ (reply.egress.get .s1).hand = some ⟨.reply 0, true, 0⟩)
      ∧ ((n.egress.get .s1).hand = some ⟨.slotNotice, true, 0⟩ ∧ (n.egress.get .s1).slot = some ⟨.timeout, 0x11⟩)
      ∧ ((off.egress.get .s1).state = .lead 7680 false ∧ (off.store.charAt 0 0).isSome = true
        ∧ (off.store.charAt 0 1).isSome = true ∧ off.store.charAt 0 2 = none) := by decide +kernel

/-- A notice of four characters being sent: with no request held at its first and at its last character, with a character
held with echo check on and off, and with a break held after a collision. -/
theorem test_CharacterSent_premises :
    let i : Item := .sentNotice ⟨.timeout, 0x11⟩
    let s (q : Option TxRequest) (a : Attempt) (c : Bool) : State :=
      let s := sending (State.reset.setLine .s1 ⟨.recover 0, .shifting ⟨0xF0, true⟩ 0, q, true⟩) .s1 (.transmit a) i 0
      s.setEgress .s1 { s.egress.get .s1 with collision := c }
    (∀ k ∈ [0, 3], let t := s none ⟨true, 0xF0, k + 1, k⟩ false
      t.held = false ∧ (t.lines.get .s1).tx = .shifting ⟨0xF0, true⟩ 0 ∧ (t.lines.get .s1).held = none
        ∧ (t.egress.get .s1).state = .transmit ⟨true, 0xF0, k + 1, k⟩ ∧ (t.egress.get .s1).collision = false
        ∧ (t.egress.get .s1).hand = some ⟨i, true, 0⟩ ∧ t.itemLength i = 4)
      ∧ (let t := s (some (.char ⟨0xF0, true⟩)) ⟨true, 0xF0, 2, 0⟩ false
        (t.lines.get .s1).held = some (.char ⟨0xF0, true⟩) ∧ 0 + 1 < t.itemLength i)
      ∧ (let t := s (some (.char ⟨0xF0, true⟩)) ⟨false, 0xF0, 3, 2⟩ false
        (t.egress.get .s1).echoes = [] ∧ (t.lines.get .s1).held = some (.char ⟨0xF0, true⟩) ∧ 2 + 1 < t.itemLength i
          ∧ (t.itemChar 0xF0 3 i).isSome = true)
      ∧ (let t := s (some .brk) ⟨true, 0xF0, 2, 0⟩ true
        (t.egress.get .s1).collision = true ∧ (t.egress.get .s1).echoes = []
          ∧ (t.lines.get .s1).held = some .brk) := by decide +kernel

/-- The echo of a notice's first character heard in TRANSMIT, a character left and none, the transmitter shifting and
MARKING; in TAIL; and where nothing is judged. -/
theorem test_EchoCompare_premises :
    let i : Item := .sentNotice ⟨.timeout, 0x11⟩
    let e : Echo := ⟨0, ⟨0xF0, true⟩, none⟩
    let s (tx : TxState) (st : EgState) (l : List Echo) (c : Bool) : State :=
      let s := (State.reset.setLine .s1 ⟨.assemble 0 true, tx, none, true⟩).setReceiver .s1 .blind
      let s := sending s .s1 st i 0
      s.setEgress .s1 { s.egress.get .s1 with echoes := l, collision := c }
    let m := s .marking (.transmit ⟨true, 0xF0, 4, 3⟩) [e] false
    let t := s (.shifting ⟨0xF0, true⟩ 0) (.transmit ⟨true, 0xF0, 1, 0⟩) [e] false
    (m.Hears .s1 0 true (heard rec0 ⟨0xF0, true⟩) ⟨0xF0, true, false, false, false⟩ ∧ (m.lines.get .s1).de = true
        ∧ (m.egress.get .s1).echoes = [e] ∧ (m.egress.get .s1).collision = false ∧ m.itemChar 0xF0 4 i = none)
      ∧ (((t.heard .s1 0 (heard rec0 ⟨0xF0, true⟩)).lines.get .s1).tx = .shifting ⟨0xF0, true⟩ 0
        ∧ (t.itemChar 0xF0 1 i).isSome = true ∧ (t.egress.get .s1).hand = some ⟨i, true, 0⟩)
      ∧ (let u := s .marking (.transmit ⟨true, 0xF0, 3, 3⟩) [e] false
        ((u.heard .s1 0 (heard rec0 ⟨0xF0, true⟩)).lines.get .s1).tx = .marking ∧ (u.itemChar 0xF0 3 i).isSome = true)
      ∧ ((s .marking (.tail 7680 attempt) [e] false).egress.get .s1).state = .tail 7680 attempt
      ∧ (((s .marking (.transmit ⟨false, 0xF0, 1, 0⟩) [] false).egress.get .s1).state = .transmit ⟨false, 0xF0, 1, 0⟩
        ∧ ((s .marking (.transmit attempt) [] true).egress.get .s1).collision = true
        ∧ ((s .marking (.tail 7680 attempt) [] false).egress.get .s1).echoes = []) := by
  unfold State.Hears
  decide +kernel

/-- A missing echo; a character that does not match it, and a break, heard while MARKING and while shifting; a break sent. -/
theorem test_CollisionSendsABreak_premises :
    let e : Echo := ⟨0, ⟨0x11, true⟩, some 84480⟩
    let s := sending (driving State.reset .s1) .s1 (.transmit attempt) (.bulk 0) 0
    let s := s.setEgress .s1 { s.egress.get .s1 with echoes := [e] }
    let w (tx : TxState) := s.setLine .s1 ⟨.assemble 0 true, tx, none, true⟩
    let b := (sending State.reset .s1 (.transmit attempt) (.bulk 0) 1).setLine .s1 ⟨.recover 0, .breaking 0, none, true⟩
    let q := State.reset.setLine .s1 ⟨.recover 0, .breaking 0, none, true⟩
    (s.held = false ∧ (s.egress.get .s1).echoes = [e] ∧ (s.egress.get .s1).hand = some ⟨.bulk 0, true, 0⟩
        ∧ (s.lines.get .s1).tx = .marking)
      ∧ (∀ tx ∈ [TxState.marking, .shifting ⟨0x11, true⟩ 0],
        (w tx).Hears .s1 0 true (heard rec0 ⟨0x11, false⟩) ⟨0x11, false, false, false, false⟩
          ∧ ((w tx).lines.get .s1).tx = tx ∧ ((w tx).lines.get .s1).de = true
          ∧ ((w tx).egress.get .s1).state = .transmit attempt ∧ attempt.echoOn = true
          ∧ ((w tx).egress.get .s1).collision = false ∧ e.char.mark = true)
      ∧ (b.held = false ∧ (b.lines.get .s1).tx = .breaking 0 ∧ (b.lines.get .s1).held = none
        ∧ (b.egress.get .s1).state = .transmit attempt)
      ∧ ((q.lines.get .s1).tx = .breaking 0 ∧ (q.egress.get .s1).state = .quiet) := by
  unfold State.Hears
  decide +kernel

/-- The last attempt that backs off (retry limit 1, none failed yet), the one after it, and a start bit heard in
TRANSMIT. -/
theorem test_ContentionBacksOff_premises :
    let d := driving (onRx .s1 (.assemble 0 false)) .s1
    let s (n : Nat) := sending d .s1 (.lead 7680 true) (.bulk 0) n
    let t := sending d .s1 (.transmit attempt) (.bulk 0) 0
    (∀ n ∈ [0, 1], (s n).held = false ∧ ((s n).lines.get .s1).rx = .assemble 0 false ∧ ((s n).lines.get .s1).de = true
        ∧ ((s n).lines.get .s1).tx = .marking ∧ ((s n).egress.get .s1).state = .lead 7680 true
        ∧ ((s n).egress.get .s1).hand = some ⟨.bulk 0, true, n⟩)
      ∧ 0 + 1 ≤ (d.active .s1).retryLimit.toNat ∧ (d.active .s1).retryLimit.toNat < 1 + 1
      ∧ (t.egress.get .s1).state = .transmit attempt := by decide +kernel

/-- A notice and an Unsolicited copy that are sent; a collision with the retries just left and just spent; BACKOFF. -/
theorem test_SendsEnd_premises :
    let i : Item := .sentNotice ⟨.timeout, 0x11⟩
    let s := sending (driving State.reset .s0) .s0 (.tail 7680 attempt) i 0
    let u := sending (withDesc (driving State.reset .s0) (desc2 .ready .unsolicited none)) .s0 (.tail 7680 attempt) (.bulk 0) 0
    let c (n : Nat) : State :=
      let s := sending (driving State.reset .s0) .s0 (.tail 7680 attempt) i n
      s.setEgress .s0 { s.egress.get .s0 with collision := true }
    let r := sending ((driving State.reset .s0).setEgress .s0 { Egress.empty with replyLane := [⟨5, none⟩, ⟨6, none⟩] }) .s0
      (.tail 7680 attempt) (.reply 5) 1
    let b := sending State.reset .s3 (.backoff 0) (.bulk 0) 1
    (s.held = false ∧ (s.egress.get .s0).state = .tail 7680 attempt ∧ (s.egress.get .s0).echoes = []
        ∧ (s.lines.get .s0).tx = .marking ∧ (s.egress.get .s0).collision = false
        ∧ (s.egress.get .s0).hand = some ⟨i, true, 0⟩)
      ∧ ((u.egress.get .s0).hand = some ⟨.bulk 0, true, 0⟩
        ∧ u.store.desc 0 = some (desc2 .ready .unsolicited none))
      ∧ (r.held = false ∧ (r.egress.get .s0).state = .tail 7680 attempt ∧ (r.egress.get .s0).echoes = []
        ∧ (r.lines.get .s0).tx = .marking ∧ (r.egress.get .s0).collision = false
        ∧ (r.egress.get .s0).hand = some ⟨.reply 5, true, 1⟩
        ∧ ∀ c ∈ (r.egress.get .s0).replyLane, c.desc = 5 → c.armed = none)
      ∧ (((c 1).egress.get .s0).collision = true ∧ 1 ≤ ((c 1).active .s0).retryLimit.toNat
        ∧ ((c 2).egress.get .s0).hand = some ⟨i, true, 2⟩ ∧ ((c 2).active .s0).retryLimit.toNat < 2)
      ∧ (b.egress.get .s3).state = .backoff 0 := by decide +kernel

/-- What a lost send may be: a notice in the slot and one that has left it, a reply, an Unsolicited copy, and a copy of a
request: not the last; the last with a window open and with none; and the last of a broadcast. -/
theorem test_SendLost_premises :
    let n : Notice := ⟨.timeout, 0x11⟩
    let slot := State.reset.setEgress .s0 { Egress.empty with slot := some n, hand := some ⟨.slotNotice, false, 2⟩ }
    let s (cls : FrameClass) (t : Txn) : State := (withDesc State.reset (desc2 .ready cls none)).putTxn 0 (some t)
      |>.setHolder .s1 (some 0)
    let t (copies windows : SegSet) : Txn := { poll .sending with copies := copies, windows := windows }
    ((slot.egress.get .s0).slot = some n ∧ (s .reply (t 0 0)).store.desc 0 = some (desc2 .ready .reply none))
      ∧ (∀ x ∈ [t 6 0, t 2 4, t 2 0, { t 2 0 with kind := .broadcast, copyOk := true }],
        (s .request x).holder .s1 = some 0 ∧ (s .request x).txn 0 = some x ∧ x.outcome = none ∧ x.state = .sending
          ∧ x.origin ≠ .s1)
      ∧ (t 6 0).copies.erase .s1 ≠ 0 ∧ (t 2 4).copies.erase .s1 = 0 ∧ (t 2 4).windows ≠ 0
      ∧ (t 2 4).cls = some 1 := by decide +kernel

/-- Each row of R35, with the last copy and with another still out; and a descriptor free, and one released when its lane or
its transaction is done with it, and one that is not. -/
theorem test_LastCopyOpensTheWindow_premises :
    let y (c : FrameClass) : Desc := { desc2 .ready c none with pendingEgress := 2 }
    let s (c : FrameClass) (t : Txn) := ((sending (withDesc (driving State.reset .s1) (y c)) .s1 (.tail 7680 attempt)
      (.bulk 0) 0).putTxn 0 (some t)).setHolder .s1 (some 0)
    let out (t : Txn) (m : SegSet) : Txn := { t with copies := m }
    (∀ c ∈ [FrameClass.request, .broadcast], ∀ t ∈ [out (poll .sending) 2, out (poll .sending) 6, out receiving 2,
        out receiving 6, out { poll .sending with kind := .broadcast } 2, out { poll .sending with kind := .broadcast } 6,
        out { poll .sending with outcome := some .timeout } 2, out { poll .sending with outcome := some .timeout } 6],
      (s c t).held = false ∧ ((s c t).egress.get .s1).state = .tail 7680 attempt ∧ ((s c t).egress.get .s1).echoes = []
        ∧ ((s c t).lines.get .s1).tx = .marking ∧ ((s c t).egress.get .s1).collision = false
        ∧ ((s c t).egress.get .s1).hand = some ⟨.bulk 0, true, 0⟩ ∧ (s c t).store.desc 0 = some (y c)
        ∧ (s c t).holder .s1 = some 0 ∧ (s c t).txn 0 = some t ∧ t.cls = some 1)
      ∧ SegSet.erase 2 .s1 = 0 ∧ SegSet.erase 6 .s1 ≠ 0 ∧ State.reset.store.desc 0 = none
      ∧ (y .request).state = .ready ∧ (y .request).pendingEgress.erase .s1 = 0 ∧ (y .request).txn = none
      ∧ (desc2 .ready .request (some 3)).pendingEgress = 0 ∧ (desc2 .filling .request (some 3)).state ≠ .ready := by
  decide +kernel

theorem test_ArmedEffect_premises :
    let lane (e : Deferred) : List ReplyCopy := [⟨0, some ⟨e, 0x50, 8⟩⟩]
    let s (e : Deferred) := sending ((driving State.reset .s0).setEgress .s0 { Egress.empty with replyLane := lane e }) .s0
      (.tail 7680 attempt) (.reply 0) 0
    ∀ e ∈ [Deferred.restart .full, .restart .traffic, .ownAddress 0x10],
      (s e).held = false ∧ ((s e).egress.get .s0).state = .tail 7680 attempt ∧ ((s e).egress.get .s0).echoes = []
        ∧ ((s e).lines.get .s0).tx = .marking ∧ ((s e).egress.get .s0).collision = false
        ∧ ((s e).egress.get .s0).hand = some ⟨.reply 0, true, 0⟩ ∧ ((s e).egress.get .s0).replyLane = lane e := by
  decide +kernel

/-- One waiting transaction that is launched; one that waits behind an older protected one; two that share a segment, the
older held back and not protected; and two that share none. -/
theorem test_ScanLaunches_premises :
    let s := (withDesc State.reset (desc2 .ready .request (some 0))).putTxn 0 (some (poll .pending))
    let s := { s with txns := { s.txns with waiting := [0] } }
    let w := { poll .pending with guarded := true, egress := 6 }
    let b := (((State.reset.putTxn 0 (some w)).putTxn 1 (some (poll .pending))).setHolder .s2 (some 5))
    let b := { b with txns := { b.txns with waiting := [0, 1] } }
    let two (m : SegSet) (held : Option (Fin 8)) : State :=
      let t := withDesc State.reset (desc2 .ready .request (some 0))
      let t := { t with store := t.store.putDesc 1 (some { desc2 .ready .request (some 1) with chain := [1] }) }
      let t := (t.putTxn 0 (some { poll .pending with egress := m })).putTxn 1 (some { poll .pending with reqDesc := some 1 })
      { t.setHolder .s2 held with txns := { (t.setHolder .s2 held).txns with waiting := [0, 1] } }
    (s.held = false ∧ s.txns.waiting = [0] ∧ s.txn 0 = some (poll .pending)
        ∧ s.store.desc 0 = some (desc2 .ready .request (some 0)) ∧ s.Free .s1
        ∧ (poll .pending).egress = SegSet.one .s1)
      ∧ (b.txns.waiting = [0, 1] ∧ b.txn 0 = some w ∧ b.txn 1 = some (poll .pending) ∧ w.egress.has .s2 = true
        ∧ (b.holder .s2).isSome = true ∧ w.egress.has .s1 = true ∧ (poll .pending).egress.has .s1 = true)
      ∧ ((two 6 (some 5)).txns.waiting = [0, 1] ∧ (two 6 (some 5)).Free .s1 ∧ ¬ (two 6 (some 5)).Free .s2
        ∧ SegSet.has 6 .s1 = true ∧ SegSet.has 2 .s1 = true ∧ ((two 6 (some 5)).store.desc 1).isSome = true)
      ∧ ((two 4 none).Free .s2 ∧ ∀ g ∈ Seg.all, ¬ (SegSet.has 4 g = true ∧ SegSet.has 2 g = true)) := by
  unfold State.Free
  decide +kernel

theorem test_ResponseTimerExpires_premises :
    let s := State.reset.putTxn 7 (some awaiting)
    s.held = false ∧ s.txn 7 = some awaiting ∧ awaiting.state = .awaiting ∧ awaiting.deadline = some 50
      ∧ awaiting.copies = 0 ∧ awaiting.outcome = none ∧ (s.egress.get awaiting.origin).slot = none := by decide +kernel

/-- The entries a miss or a response finds: a Static one a miss below the limit, muted and not; one whose count stays at 15. -/
theorem test_TableStatements_premises :
    let s := ((State.reset.putEntry 1 (.learned .s1 3 false 255 15)).putEntry 2 (.static 8 0 2 true)).putEntry 3 .blocked
    let t := (s.putEntry 4 (.static 8 0 2 false)).putEntry 5 (.static 8 0 15 false)
    s.entry 1 = .learned .s1 3 false 255 15 ∧ s.entry 2 = .static 8 0 2 true ∧ s.entry 3 = .blocked
      ∧ s.entry 0xFE = .unassigned ∧ s.bridge.own = 0xF0 ∧ s.bridge.missLimit = 3
      ∧ t.entry 4 = .static 8 0 2 false ∧ t.entry 5 = .static 8 0 15 false := by decide +kernel

/-- R11: StationSilent is raised once on the way up: at the limit, not again when the limit is raised to the next count, nor
from a count the limit was lowered below; and from a count that stays at 15 where the limit has become 15. -/
theorem test_stationSilent :
    let limit (n : BitVec 4) (s : State) : State := s.storeBridge { s.bridge with missLimit := n }
    let s (k : BitVec 4) : State := State.reset.putEntry 2 (.static 8 0 k false)
    ((s 2).countMiss 2).events.queue.length = (s 2).events.queue.length + 1
      ∧ ((limit 4 ((s 2).countMiss 2)).countMiss 2).events.queue.length = (s 2).events.queue.length + 1
      ∧ ((limit 6 (limit 2 (s 5))).countMiss 2).events = (s 5).events
      ∧ ((limit 6 (s 5)).countMiss 2).events.queue.length = (s 5).events.queue.length + 1
      ∧ ((limit 15 (s 15)).countMiss 2).events.queue.length = (s 15).events.queue.length + 1 := by decide +kernel

theorem test_TimersFall_premises :
    State.reset.held = false ∧ State.reset.agingDue = some (60000 * 73728) ∧ State.reset.table.sweep = none
      ∧ (let s := { State.reset with table := { State.reset.table with sweep := some ⟨0, 9⟩ } }
        s.agingDue = some (60000 * 73728) ∧ s.table.sweep = some ⟨0, 9⟩)
      ∧ ({ State.reset with lease := some ⟨.s0, 1⟩ } : State).lease = some ⟨.s0, 1⟩ := by decide +kernel

/-- A visit to 0x01 that finds a used entry, one a step from the age limit, one at it; and the last visit. -/
theorem test_SweepVisit_premises :
    let s (e : Entry) (k : Byte) : State :=
      let s := State.reset.putEntry k e
      { s with table := { s.table with sweep := some ⟨0, k⟩ } }
    (s (.learned .s1 0 true 9 0) 1).held = false ∧ (s (.learned .s1 0 true 9 0) 1).table.sweep = some ⟨0, 1⟩
      ∧ (s (.learned .s1 0 true 9 0) 1).entry 1 = .learned .s1 0 true 9 0
      ∧ (s (.learned .s1 0 false 8 0) 1).entry 1 = .learned .s1 0 false 8 0 ∧ State.reset.bridge.ageLimit = 10
      ∧ (s (.learned .s1 0 false 9 0) 1).entry 1 = .learned .s1 0 false 9 0
      ∧ (s .blocked 0xFF).table.sweep = some ⟨0, 0xFF⟩ := by decide +kernel

theorem test_WalkVisit_premises :
    let s (k : Byte) : State :=
      let s := State.reset.putEntry 0x11 (.learned .s1 0 true 0 0)
      { s.putTxn 0 (some (askTxn 0x13)) with mgmt := { s.mgmt with engine := .busy 0 (.walk 0 k 2 254) } }
    (s 0).held = false ∧ (s 0).mgmt.engine = .busy 0 (.walk 0 0 2 254) ∧ (s 0).entry 0 = .unassigned
      ∧ (s 0x11).entry 0x11 = .learned .s1 0 true 0 0 ∧ SegSet.has 2 .s1 = true
      ∧ (s 0xFF).mgmt.engine = .busy 0 (.walk 0 0xFF 2 254) ∧ (s 0xFF).txn 0 = some (askTxn 0x13)
      ∧ (s 0xFF).entry 0xFF = .unassigned
      ∧ (let e : Entry := .learned .s1 0 false 3 2
        ((s 0xFF).putEntry 0xFF e).entry 0xFF = e ∧ SegSet.has 2 .s1 = true
          ∧ ((s 0xFF).putEntry 0xFF e).mgmt.engine = .busy 0 (.walk 0 0xFF 2 254))
      ∧ (let e : Entry := .learned .s2 0 false 3 2
        ((s 0xFF).putEntry 0xFF e).entry 0xFF = e ∧ SegSet.has 2 .s2 = false) := by decide +kernel

/-- S0 keeping its role, with access and without, as the holder of the lease and not; and S3 from Off to Downstream. -/
theorem test_SettingsApply_premises :
    let mk (g : Seg) (n : SegRecord) (l : Option Lease) : State := { State.reset with
      settings := { State.reset.settings with applyPending := 9, staged := State.reset.settings.staged.set g n
                                              active := State.reset.settings.active.set .s3 { rec0 with role := .off } }
      lease := l }
    let ready (s : State) (g : Seg) : Prop := s.held = false ∧ s.settings.applyPending.has g = true ∧ s.holder g = none
      ∧ s.receivers.get g = .hunt ∧ (s.egress.get g).state = .quiet ∧ (s.egress.get g).replyLane = []
      ∧ (s.egress.get g).slot = none ∧ (s.active .s0).role = .upstream
    (∀ a ∈ [true, false], ∀ l ∈ [none, some ⟨.s0, 9⟩, some ⟨.s1, 9⟩], let s := mk .s0 { rec0 with mgmtAccess := a } l
        ready s .s0 ∧ (s.settings.staged.get .s0).role = (s.active .s0).role
          ∧ (s.settings.staged.get .s0).mgmtAccess = a ∧ s.lease = l)
      ∧ (let s := mk .s3 { rec0 with role := .downstream } none
        ready s .s3 ∧ (s.active .s3).role = .off ∧ (s.settings.staged.get .s3).role = .downstream) := by
  dsimp only
  decide +kernel

/-- S1 leaving Downstream with nothing waiting, with a poll that waits for S1 and S2, and with one that waits for S1 alone;
S0 leaving Upstream, S1 being Upstream too, with a poll under way and with one that waits. -/
theorem test_RoleChange_premises :
    let off := { rec0 with role := .off }
    let d := { State.reset with settings := { State.reset.settings with
      applyPending := 2, staged := State.reset.settings.staged.set .s1 off } }
    let d2 (m : SegSet) := d.putTxn 3 (some { poll .pending with egress := m })
    let w (m : SegSet) := { d2 m with txns := { (d2 m).txns with waiting := [3] } }
    let u := { State.reset with settings := { State.reset.settings with
      applyPending := 1, staged := State.reset.settings.staged.set .s0 off
      active := State.reset.settings.active.set .s1 rec0 } }
    let u := (withDesc u (desc2 .ready .request (some 7))).setEgress .s0 { Egress.empty with bulkLane := [9] }
    (d.held = false ∧ d.quietPoint .s1 = true ∧ (d.active .s1).role = .downstream
        ∧ (d.settings.staged.get .s1).role ≠ .downstream ∧ d.lease = none ∧ d.txns.waiting = [])
      ∧ ((w 6).txns.waiting = [3] ∧ (w 6).quietPoint .s1 = true ∧ SegSet.has 6 .s1 = true ∧ SegSet.erase 6 .s1 ≠ 0
        ∧ (w 2).txn 3 = some { poll .pending with egress := 2 } ∧ SegSet.erase 2 .s1 = 0)
      ∧ (∀ x ∈ [awaiting, poll .pending], let v := u.putTxn 7 (some x)
        v.held = false ∧ v.quietPoint .s0 = true ∧ (v.active .s0).role = .upstream
          ∧ (v.settings.staged.get .s0).role ≠ .upstream ∧ v.liveOf .s0 = some 7 ∧ v.txn 7 = some x
          ∧ (v.egress.get .s0).bulkLane = [9])
      ∧ (let v : State := { u with lease := some ⟨.s0, 9⟩ }
        v.quietPoint .s0 = true ∧ v.liveOf .s0 = none ∧ (v.settings.staged.get .s0).role = .off
          ∧ v.lease = some ⟨.s0, 9⟩) := by decide +kernel

/-! ### Requests that stand ready -/

/-- Requests too short, with a wrong check, with a wrong number of arguments, of no command, without the lease and with another
segment's. -/
theorem test_RequestsNotCarriedOut_premises :
    (askFrame 0x60 [0xF0, 0x60, 8]).AtHead 0 (askTxn 0x60)
      ∧ ((askFrame 0x60 [0xF0, 0x60, 8]).requestOf (askTxn 0x60)).length < 4
      ∧ (askFrame 0x7F [0xF0, 0x7F, 8, 0]).AtHead 0 (askTxn 0x7F)
      ∧ wellChecked ((askFrame 0x7F [0xF0, 0x7F, 8, 0]).requestOf (askTxn 0x7F)) = false
      ∧ ((ask 0x38 []).Fresh 0 (askTxn 0x38) ∧ MgmtCommand.ofCode 0x38 = some .readEvents
        ∧ MgmtCommand.argCountOk .readEvents (argsOf ((ask 0x38 []).requestOf (askTxn 0x38))).length = false)
      ∧ MgmtCommand.ofCode 0x7F = none ∧ (ask 0x7F []).Fresh 0 (askTxn 0x7F)
      ∧ MgmtCommand.ofCode 0x11 = some .writeStation
      ∧ (let s := { ask 0x11 [0, 0, 0, 0] with lease := none }
        s.Fresh 0 (askTxn 0x11) ∧ (argsOf (s.requestOf (askTxn 0x11))).length = 4 ∧ s.lease = none)
      ∧ (let s := { ask 0x11 [0, 0, 0, 0] with lease := some ⟨.s1, 60000⟩ }
        s.Fresh 0 (askTxn 0x11) ∧ (argsOf (s.requestOf (askTxn 0x11))).length = 4 ∧ s.lease = some ⟨.s1, 60000⟩) := by
  unfold State.Fresh State.AtHead
  decide +kernel

/-- A Local whose request is in the cache: with no deferred effect, with a Restart, with an own address that may become pending,
is pending already, or may not be taken. -/
theorem test_CachedRequests_premises :
    let c (d : Option Deferred) : CacheEntry := ⟨0x50, 8, [0xF0, 0xD0, 8, 1, 0], d⟩
    let s (d : Option Deferred) : State := (ask 0x50 [1]).setCache .s0 (some (c d))
    let n := { State.reset.bridge with own := 0x10 }
    let w : State := ((ask 0x23 n.encode).setCache .s0 (some ⟨0x23, 8, [], some (.ownAddress 0x10)⟩)).putEntry 0x10 .blocked
    (∀ d ∈ [none, some (.restart .full), some (.ownAddress 0x10)],
      (s d).AtHead 0 (askTxn 0x50) ∧ (s d).store.Lawful ∧ 4 ≤ ((s d).requestOf (askTxn 0x50)).length
        ∧ wellChecked ((s d).requestOf (askTxn 0x50)) = true ∧ (s d).mgmt.caches.get .s0 = some (c d))
      ∧ ((0x10 : Byte) ≠ (s none).bridge.own ∧ (s none).entry 0x10 = .unassigned ∧ (s none).mgmt.pendingOwn = none
        ∧ ((s none).setPendingOwn (some 0x10)).mgmt.pendingOwn = some 0x10)
      ∧ w.AtHead 0 (askTxn 0x23) ∧ w.entry 0x10 ≠ .unassigned ∧ w.Carries 0 (askTxn 0x23) .writeBridge n.encode
      ∧ n.wf = true ∧ n.own = 0x10 := by
  unfold State.Carries State.Fresh State.AtHead Store.Lawful
  decide +kernel

/-- The lease check of a command that needs it: nobody's lease, the origin's, another's; and of one that does not. -/
theorem test_LeaseCheck_premises :
    (ask 0x50 [1]).lease = some ⟨.s0, 60000⟩ ∧ MgmtCommand.restart.needsLease = true
      ∧ MgmtCommand.echo.needsLease = false ∧ State.reset.lease = none
      ∧ ({ State.reset with lease := some ⟨.s1, 5⟩ } : State).lease = some ⟨.s1, 5⟩ ∧ Seg.s1 ≠ .s0 := by decide +kernel

theorem test_ReplyIsHandedOn_premises :
    (ask 0x01 []).Carries 0 (askTxn 0x01) .identify [] ∧ (askTxn 0x01).superseded = false
      ∧ ((ask 0x01 []).active .s0).role ≠ .off ∧ ((ask 0x01 []).egress.get .s0).replyLane.length < 2
      ∧ (ask 0x01 []).store.freeDescs ≠ [] ∧ 1 ≤ (ask 0x01 []).store.freeCells.length := by
  unfold State.Carries State.Fresh State.AtHead
  decide +kernel

theorem test_AllocatedReplyReadsBack_premises :
    State.reset.store.freeCells.Nodup ∧ (State.reset.store.allocReply (List.replicate 96 7)).isSome = true := by
  decide +kernel

theorem test_ReadCommands_premises :
    (ask 0x02 []).Carries 0 (askTxn 0x02) .readStatus [] ∧ (ask 0x10 [0xFF]).Carries 0 (askTxn 0x10) .readStation [0xFF]
      ∧ (ask 0x20 [3, 0]).Carries 0 (askTxn 0x20) .readSegment [Seg.byte .s3, 0]
      ∧ (ask 0x20 [0, 1]).Carries 0 (askTxn 0x20) .readSegment [Seg.byte .s0, 1]
      ∧ (ask 0x20 [4, 0]).Carries 0 (askTxn 0x20) .readSegment [4, 0]
      ∧ (ask 0x20 [3, 2]).Carries 0 (askTxn 0x20) .readSegment [3, 2]
      ∧ (ask 0x24 []).Carries 0 (askTxn 0x24) .readBridge [] := by
  unfold State.Carries State.Fresh State.AtHead
  and_intros <;> decide +kernel

/-- No argument, 88 of them, and 89. -/
theorem test_Echo_premises :
    (ask 0x60 []).Carries 0 (askTxn 0x60) .echo []
      ∧ (ask 0x60 (List.replicate 88 1)).Carries 0 (askTxn 0x60) .echo (List.replicate 88 1)
      ∧ (let s := ask 0x60 (List.replicate 89 1)
        s.Fresh 0 (askTxn 0x60) ∧ 88 < (argsOf (s.requestOf (askTxn 0x60))).length) := by
  unfold State.Carries State.Fresh State.AtHead
  decide +kernel

/-- Counts of 0, 1, 16 and 17, at the last entry and before it; and entries left, one or two. -/
theorem test_StationRange_premises :
    (∀ a ∈ [(0xFF : Byte), 0x10], ∀ n ∈ [(0 : Byte), 1, 16, 17],
      (ask 0x12 [a, n]).Carries 0 (askTxn 0x12) .readStationRange [a, n])
      ∧ ∀ n ∈ [1, 2], let w : Work := .stations 0xFE n [2]
        let s := (ask 0x12 [0xFE, 2]).dequeue
        let s := { s with mgmt := { s.mgmt with engine := .busy 0 w } }
        s.held = false ∧ s.mgmt.engine = .busy 0 w ∧ s.txn 0 = some (askTxn 0x12) := by
  unfold State.Carries State.Fresh State.AtHead
  refine ⟨?_, ?_⟩ <;> decide +kernel

/-- Each check of R20 and each kind, at the ends of its range; and a pending own address. -/
theorem test_StationIsWritten_premises :
    (∀ l ∈ [[0, 0, 0, 0], [0xF0, 0, 0, 0], [1, 0, 0, 0], [1, 3, 0, 0], [1, 1, 1, 0], [1, 1, 15, 3], [1, 1, 16, 0],
        [1, 1, 0, 0], [1, 1, 15, 4], [1, 2, 1, 0], [(0xFF : Byte), 4, 1, 0]],
      (ask 0x11 l).Carries 0 (askTxn 0x11) .writeStation l)
      ∧ (let s := (ask 0x11 [7, 0, 0, 0]).setPendingOwn (some 7)
        s.Carries 0 (askTxn 0x11) .writeStation [7, 0, 0, 0] ∧ s.mgmt.pendingOwn = some 7) := by
  unfold State.Carries State.Fresh State.AtHead
  decide +kernel

theorem test_MaskCommands_premises :
    (∀ n ∈ [(0 : Byte), 1, 15, 16], (ask 0x13 [n]).Carries 0 (askTxn 0x13) .clearLearned [n])
      ∧ ∀ n ∈ [(0 : Byte), 1, 15, 16], (ask 0x22 [n]).Carries 0 (askTxn 0x22) .applySegment [n] := by
  unfold State.Carries State.Fresh State.AtHead
  refine ⟨?_, ?_⟩ <;> decide +kernel

/-- A record that keeps S0 Upstream, and one that would leave no segment Upstream; the same for an apply of S0. -/
theorem test_SegmentRecords_premises :
    let off := { rec0 with role := .off }
    let s := ask 0x21 (3 :: rec0.encode)
    let t := ask 0x21 (0 :: off.encode)
    let a := ask 0x22 [1]
    let a := { a with settings := { a.settings with staged := a.settings.staged.set .s0 off } }
    (s.Carries 0 (askTxn 0x21) .writeSegment (Seg.byte .s3 :: rec0.encode) ∧ rec0.wf = true
        ∧ (s.active .s0).role = .upstream ∧ s.settings.applyPending = 0)
      ∧ (t.Carries 0 (askTxn 0x21) .writeSegment (Seg.byte .s0 :: off.encode) ∧ off.wf = true
        ∧ ∀ h ∈ Seg.all, (if h = .s0 then off.role else (t.active h).role) ≠ .upstream)
      ∧ (a.Carries 0 (askTxn 0x22) .applySegment [1]
        ∧ ∀ h ∈ Seg.all, (if SegSet.has 1 h then (a.settings.staged.get h).role else (a.active h).role) ≠ .upstream) := by
  unfold State.Carries State.Fresh State.AtHead
  decide +kernel

/-- Records out of their ranges: a segment number of 4, a role of 3, an own address of 0. -/
theorem test_RecordsOutOfRange_premises :
    (ask 0x21 (4 :: rec0.encode)).Carries 0 (askTxn 0x21) .writeSegment (4 :: rec0.encode)
      ∧ (let l : List Byte := 3 :: rec0.encode.tail
        (ask 0x21 (0 :: l)).Carries 0 (askTxn 0x21) .writeSegment (0 :: l)
          ∧ ∀ r : SegRecord, r.wf = true → l ≠ r.encode)
      ∧ (let l : List Byte := 0 :: State.reset.bridge.encode.tail
        (ask 0x23 l).Carries 0 (askTxn 0x23) .writeBridge l ∧ ∀ b : BridgeRecord, b.wf = true → l ≠ b.encode) := by
  unfold State.Carries State.Fresh State.AtHead
  refine ⟨by decide +kernel, ⟨by decide +kernel, ?_⟩, by decide +kernel, ?_⟩
  · intro r _ h
    have h : (3 : Byte) = r.role.code := (List.cons.inj h).1
    revert h
    cases r.role <;> decide
  · intro b hb h
    have h : (0 : Byte) = b.own := (List.cons.inj h).1
    simp [BridgeRecord.wf, ← h] at hb

/-- The same own address, a new one that is free, and one whose entry is not Unassigned. -/
theorem test_BridgeIsWritten_premises :
    let b := State.reset.bridge
    let n := { b with own := 0x10 }
    (ask 0x23 b.encode).Carries 0 (askTxn 0x23) .writeBridge b.encode ∧ b.wf = true
      ∧ (ask 0x23 n.encode).Carries 0 (askTxn 0x23) .writeBridge n.encode ∧ n.wf = true
      ∧ (ask 0x23 n.encode).entry 0x10 = .unassigned
      ∧ (let s := (ask 0x23 n.encode).putEntry 0x10 .blocked
        s.Carries 0 (askTxn 0x23) .writeBridge n.encode ∧ s.entry 0x10 ≠ .unassigned)
      ∧ (let l := { b with missLimit := 2 }
        let s := (ask 0x23 l.encode).putEntry 0x20 (.static 8 0 5 false)
        s.Carries 0 (askTxn 0x23) .writeBridge l.encode ∧ l.wf = true ∧ s.entry 0x20 = .static 8 0 5 false
          ∧ 2 < s.bridge.missLimit.toNat) := by
  unfold State.Carries State.Fresh State.AtHead
  decide +kernel

/-- All 14 counters, the last alone, one beyond the last, none; both bridge-wide ones, the second alone, one beyond; the code
after the last. -/
theorem test_CountersAreRead_premises :
    (∀ l ∈ [[0, 0, 14], [3, 13, 1], [0, 14, 1], [0, 0, 0], [4, 0, 2], [4, 1, 1], [4, 2, 1], [(5 : Byte), 0, 1]],
      (ask 0x30 l).Carries 0 (askTxn 0x30) .readCounters l
        ∧ (ask 0x31 l).Carries 0 (askTxn 0x31) .readClearCounters l)
      ∧ ∀ clear ∈ [false, true], ∀ w ∈ [Work.counters clear 3 12 2 [7], .counters clear 4 1 1 []],
        let s := (ask 0x30 [4, 0, 2]).dequeue
        let s := { s with mgmt := { s.mgmt with engine := .busy 0 w } }
        s.held = false ∧ s.mgmt.engine = .busy 0 w ∧ s.txn 0 = some (askTxn 0x30) := by
  unfold State.Carries State.Fresh State.AtHead
  refine ⟨?_, ?_⟩ <;> decide +kernel

/-- The counters of S3, and the bridge-wide ones, as a walk over them reads them. -/
theorem test_CountersHold_premises (c : Counters) :
    c.Holds 3 14 (fun i => c.read .s3 (Fin.ofNat 14 i))
      ∧ c.Holds 4 2 fun i => if i = 0 then c.noticesLost else c.sweepsSkipped :=
  ⟨.inl ⟨.s3, rfl, rfl, fun _ => rfl⟩, .inr ⟨rfl, rfl, fun _ => rfl⟩⟩

theorem test_EventsAreRead_premises :
    ∀ n ∈ [(0 : Byte), 1, 8, 9], (ask 0x38 [n]).Carries 0 (askTxn 0x38) .readEvents [n] := by
  unfold State.Carries State.Fresh State.AtHead
  decide +kernel

/-- A time of 0, 1 and 255; no access; the lease free, the origin's, another's. -/
theorem test_Lease_premises :
    (∀ n ∈ [(0 : Byte), 1, 255], (ask 0x40 [n]).Carries 0 (askTxn 0x40) .takeLease [n])
      ∧ ((ask 0x40 [1]).active .s0).mgmtAccess = true ∧ (ask 0x40 [1]).lease = some ⟨.s0, 60000⟩
      ∧ (let s := { ask 0x40 [1] with settings := { State.reset.settings with
          active := State.reset.settings.active.set .s0 { rec0 with mgmtAccess := false } } }
        s.Carries 0 (askTxn 0x40) .takeLease [1] ∧ (s.active .s0).mgmtAccess = false)
      ∧ (∀ l ∈ [none, some ⟨.s1, 5⟩],
        State.Carries { ask 0x40 [1] with lease := l } 0 (askTxn 0x40) .takeLease [1]
          ∧ State.Carries { ask 0x41 [] with lease := l } 0 (askTxn 0x41) .dropLease [])
      ∧ (ask 0x41 []).Carries 0 (askTxn 0x41) .dropLease [] := by
  unfold State.Carries State.Fresh State.AtHead
  refine ⟨?_, ?_, ?_, ?_, ?_, ?_⟩ <;> decide +kernel

/-- An expiry reached and not yet taken, and one as far ahead as it can be. -/
theorem test_LeaseSeconds_premises :
    ((⟨.s1, 0⟩ : Lease).expiry - State.reset.nowMs).toNat ≤ 255000
      ∧ ((⟨.s1, 255000⟩ : Lease).expiry - State.reset.nowMs).toNat ≤ 255000
      ∧ State.reset.leaseSeconds ⟨.s1, 0⟩ = 1 ∧ State.reset.leaseSeconds ⟨.s1, 255000⟩ = 255 := by decide +kernel

theorem test_Restarts_premises :
    (∀ n ∈ [(0 : Byte), 1, 2, 3], (ask 0x50 [n]).Carries 0 (askTxn 0x50) .restart [n])
      ∧ (∀ n ∈ [(0 : Byte), 1, 3, 4], (ask 0x51 [n]).Carries 0 (askTxn 0x51) .restartSegment [n])
      ∧ (ask 0x51 [3]).holder .s3 ≠ some 0 ∧ Seg.s3 ≠ (askTxn 0x51).origin
      ∧ ((ask 0x51 [3]).receivers.get .s3).frame = none := by
  unfold State.Carries State.Fresh State.AtHead
  refine ⟨?_, ?_, ?_, ?_, ?_⟩ <;> decide +kernel

/-- A segment that shifts a character, is the origin of a poll and holds the lease. -/
theorem test_SegmentRestartClears_premises :
    let s := (State.reset.setLine .s0 ⟨.recover 0, .shifting ⟨0x11, true⟩ 0, none, true⟩).putTxn 3 (some awaiting)
    let s := { s.setHolder .s1 (some 3) with lease := some ⟨.s0, 9⟩ }
    (s.lines.get .s0).tx = .shifting ⟨0x11, true⟩ 0 ∧ s.txn 3 = some awaiting ∧ awaiting.origin = .s0
      ∧ s.holder .s0 ≠ some 3 ∧ awaiting.state ≠ .forming ∧ awaiting.state ≠ .pending
      ∧ (s.receivers.get .s0).frame = none ∧ s.holder .s0 = none ∧ s.lease = some ⟨.s0, 9⟩
      ∧ (State.reset.lines.get .s0).tx = .marking ∧ State.reset.lease = none := by decide +kernel

/-- A poll and a broadcast on S1 as it is restarted: with its copy there the last and not, a window elsewhere and not; one
that awaits; one that receives its response there, and elsewhere; one whose outcome is fixed. -/
theorem test_RestartedHolder_premises :
    let s (t : Txn) := (State.reset.putTxn 3 (some t)).setHolder .s1 (some 3)
    (∀ t ∈ [{ poll .sending with copies := 2 }, { poll .sending with copies := 6 },
        { poll .sending with copies := 2, windows := 4 }, { poll .sending with kind := .broadcast, copies := 6 }, awaiting,
        receiving],
      (s t).holder .s1 = some 3 ∧ (s t).txn 3 = some t ∧ t.origin ≠ .s1 ∧ ((s t).receivers.get .s1).frame = none
        ∧ t.outcome = none
        ∧ (t.state = .sending ∨ t.state = .awaiting ∨ t.state = .receiving ∧ t.responseSeg = some .s1))
      ∧ (∀ t ∈ [{ poll .sending with outcome := some .timeout, copies := 2 },
          { poll .sending with outcome := some .timeout, copies := 6 }],
        (s t).holder .s1 = some 3 ∧ (s t).txn 3 = some t ∧ t.origin ≠ .s1 ∧ t.outcome ≠ none)
      ∧ (∀ m ∈ [(2 : SegSet), 6], let t := { receiving with responseSeg := some .s2, copies := m }
        (s t).holder .s1 = some 3 ∧ (s t).txn 3 = some t ∧ t.origin ≠ .s1 ∧ t.outcome = none ∧ t.kind = .poll
          ∧ t.state = .receiving ∧ t.responseSeg ≠ some .s1)
      ∧ SegSet.erase 2 .s1 = 0 ∧ SegSet.erase 6 .s1 ≠ 0 := by decide +kernel

/-- S0 as it is restarted with a request in assembly, a poll that waits, a reply in hand and copies in both lanes. -/
theorem test_RestartedStore_premises :
    let s := forming State.reset false (.store (request .damaged))
    let s := s.putTxn 4 (some { poll .pending with reqDesc := some 9 })
    let s := { s with txns := { s.txns with waiting := [4] } }
    let s := s.setEgress .s0 { Egress.empty with
      hand := some ⟨.reply 5, true, 0⟩, replyLane := [⟨5, none⟩, ⟨6, none⟩], bulkLane := [7] }
    (s.receivers.get .s0).frame = some (request .damaged) ∧ (request .damaged).txn = some 0
      ∧ (request .damaged).cls = some .request ∧ s.txn 0 = some (poll .forming) ∧ (poll .forming).state ≠ .pending
      ∧ ((s.egress.get .s0).hand.map InHand.item) = some (.reply 5) ∧ s.holder .s0 = none
      ∧ (∃ t, s.txn 4 = some t ∧ t.origin = .s0 ∧ t.state = .pending ∧ t.outcome = none ∧ t.copies = 0
        ∧ t.reqDesc = some 9) := by
  refine ⟨rfl, rfl, rfl, rfl, by decide, rfl, rfl, _, rfl, rfl, rfl, rfl, rfl, rfl⟩

/-- A kind that is off, one that is on with room for one record more, and one at a full queue. -/
theorem test_EventIsRaised_premises :
    let r : EventRecord := ⟨0, 0, .restarted, none, none, 0⟩
    let s (n : Nat) : State := { State.reset with events := ⟨List.replicate n r, 9, 0⟩ }
    State.reset.bridge.eventMask.getLsbD (EventKind.code .timeout) = false
      ∧ (s 31).bridge.eventMask.getLsbD (EventKind.code .learned) = true ∧ (s 31).events.queue.length < 32
      ∧ (s 32).bridge.eventMask.getLsbD (EventKind.code .learned) = true ∧ 32 ≤ (s 32).events.queue.length := by
  decide +kernel

theorem test_RecordsReadBack_premises :
    rec0.wf = true ∧ SegRecord.decode rec0.encode = some rec0 ∧ State.reset.bridge.wf = true
      ∧ BridgeRecord.decode State.reset.bridge.encode = some State.reset.bridge := by decide +kernel

/-! ### Laws of the device: a state that meets each, with a step from it -/

theorem test_ConfigurationLaws_premises :
    let s := { State.reset with lease := some ⟨.s0, 9⟩, freeChoice := 1 }
    s.LeaseLaw ∧ s.SettingsLawful ∧ ∃ t, step s = .next t := by
  refine ⟨?_, ⟨?_, ?_, ⟨.s0, rfl⟩, ?_, ?_⟩, ?_⟩
  · intro l h
    cases h
    rfl
  · intro g
    cases g <;> exact ⟨rfl, rfl⟩
  · decide +kernel
  · intro g c x a hc
    cases g <;> cases hc
  · intro g c a hc
    cases g <;> cases hc
  · exact ⟨_, rfl⟩

theorem test_Capacities_premises :
    let s := State.reset.setEgress .s0 { Egress.empty with replyLane := [⟨0, none⟩, ⟨1, none⟩] }
    s.EventsBounded ∧ s.ReplyLanesBounded ∧ ∃ t, step s = .next t := by
  refine ⟨?_, ?_, ?_⟩
  · unfold State.EventsBounded
    decide +kernel
  · intro g
    cases g <;> decide
  · exact ⟨_, rfl⟩

theorem test_Blindness_premises :
    let s := driving State.reset .s2
    s.BlindWhileDriving ∧ ∃ t, step s = .next t := by
  refine ⟨?_, ?_⟩
  · intro g
    cases g <;> decide
  · exact ⟨_, rfl⟩

theorem test_StoreLaw_premises :
    let s := withDesc State.reset (desc2 .ready .request none)
    s.store.Lawful ∧ ∃ t, step s = .next t := by
  refine ⟨?_, _, rfl⟩
  unfold Store.Lawful
  decide +kernel

/-- A poll under way to S1, its copy in S1's bulk lane. -/
def sentPoll : State :=
  let s := withDesc State.reset { desc2 .ready .request none with pendingEgress := 2 }
  let s := (s.putTxn 7 (some { poll .sending with copies := 2 })).setHolder .s1 (some 7)
  s.setEgress .s1 { Egress.empty with bulkLane := [0] }

theorem sentPoll_txn : ∀ r, sentPoll.txn r = if r = 7 then some { poll .sending with copies := 2 } else none := by
  decide +kernel

theorem sentPoll_desc : ∀ d, sentPoll.store.desc d
    = if d = 0 then some { desc2 .ready .request none with pendingEgress := 2 } else none := by decide +kernel

theorem test_TransactionLaws_premises : sentPoll.TransactionLaws ∧ ∃ t, step sentPoll = .next t := by
  refine ⟨⟨?_, ⟨by decide +kernel, ?_⟩, ?_, ?_, ?_, ⟨by decide +kernel, ?_, ?_⟩⟩, _, rfl⟩
  · intro r t h
    rw [sentPoll_txn] at h
    split at h <;> cases h
    exact ⟨by decide, by decide, by decide⟩
  · intro r
    have h : sentPoll.txns.waiting = [] := by decide +kernel
    rw [h, sentPoll_txn]
    split <;> simp [poll]
  · intro g r h
    have holder : ∀ g r, sentPoll.holder g = some r → g = .s1 ∧ r = 7 := by
      intro g
      cases g <;> decide +kernel
    obtain ⟨rfl, rfl⟩ := holder g r h
    exact ⟨_, sentPoll_txn 7, by decide, by decide, .inl (by decide)⟩
  · intro r q t w hr hq _ _ _
    rw [sentPoll_txn] at hr hq
    split at hr
    · split at hq
      · simp_all
      · cases hq
    · cases hr
  · intro g f r h
    cases g <;> cases h
  · rintro r ⟨w, h⟩
    cases h
  · intro r
    have h : sentPoll.mgmt.queue = [] := by decide +kernel
    rw [h, sentPoll_txn]
    constructor
    · rintro (h | ⟨w, h⟩)
      · cases h
      · cases h
    · rintro ⟨t, h, hs⟩
      split at h <;> cases h
      cases hs

theorem test_LaneLaws_premises : sentPoll.store.Lawful ∧ sentPoll.LaneLaws ∧ ∃ t, step sentPoll = .next t := by
  refine ⟨?_, ⟨⟨?_, ?_, ?_⟩, ?_, ?_, ?_⟩, _, rfl⟩
  · unfold Store.Lawful
    decide +kernel
  · intro g
    cases g <;> decide +kernel
  · intro g d
    rw [sentPoll_desc]
    have lane : ∀ g d, d ∈ (sentPoll.egress.get g).copies ↔ g = .s1 ∧ d = 0 := by
      intro g
      cases g <;> decide +kernel
    have has : ∀ g, SegSet.has 2 g = true ↔ g = .s1 := by
      intro g
      cases g <;> decide
    rw [lane]
    split <;> simp_all
  · intro g h d hh
    cases g <;> cases hh
  · intro d x h hs
    rw [sentPoll_desc] at h
    split at h <;> cases h
    cases hs
  · intro g f d h
    cases g <;> cases h
  · intro r t d h _
    rw [sentPoll_txn] at h
    split at h <;> cases h
    refine ⟨?_, ?_⟩
    · intro h
      cases h
    · rintro (h | h) <;> cases h

end Sys2Proof.Tests
end

