-- ==== Sys2Proof/Proofs/StationLaws.lean ====
section
/-!
The laws of the station table are kept by every step (R2, R3, R11, R75). What a step does to the table is said by a
preorder on states, `CarriesLaws`: nearly every operation leaves the entries as they are (`LeavesStations`), and the few
that write an entry are dealt with one by one.
-/

namespace Sys2Proof.Machine

/-! ### States that leave the stations as they are -/

/-- t has the entries, the active records and the own address of s, and a response in assembly only on a segment that is
Downstream or had one in s (R75). -/
def State.LeavesStations (s t : State) : Prop :=
  t.table.entries = s.table.entries ∧ t.settings.active = s.settings.active ∧ t.bridge.own = s.bridge.own
    ∧ ∀ g f, (t.receivers.get g).frame = some f → f.cls = some .response →
      (s.active g).role = .downstream ∨ ∃ f', (s.receivers.get g).frame = some f' ∧ f'.cls = some .response

/-- The laws of the station table (R2, R3, R11, R75) pass from s to t. -/
def State.CarriesLaws (s t : State) : Prop :=
  (s.TableLaws → s.ResponsesDownstream → t.TableLaws ∧ t.ResponsesDownstream)
    ∧ (s.ReservedUnassigned → t.ReservedUnassigned)

theorem State.CarriesLaws.refl (s : State) : s.CarriesLaws s := ⟨fun table responses => ⟨table, responses⟩, id⟩

theorem State.CarriesLaws.trans {s t u : State} (first : s.CarriesLaws t) (next : t.CarriesLaws u) : s.CarriesLaws u :=
  ⟨fun table responses => next.1 (first.1 table responses).1 (first.1 table responses).2, fun h => next.2 (first.2 h)⟩

theorem State.LeavesStations.refl (s : State) : s.LeavesStations s := ⟨rfl, rfl, rfl, fun _ f h c => .inr ⟨f, h, c⟩⟩

theorem State.LeavesStations.trans {s t u : State} (first : s.LeavesStations t) (next : t.LeavesStations u) :
    s.LeavesStations u := by
  obtain ⟨entries, active, own, responses⟩ := first
  obtain ⟨entries', active', own', responses'⟩ := next
  refine ⟨entries'.trans entries, active'.trans active, own'.trans own, fun g f frame cls => ?_⟩
  rcases responses' g f frame cls with role | ⟨f', frame', cls'⟩
  · rw [State.active, active] at role
    exact .inl role
  · exact responses g f' frame' cls'

/-- A state with the same entries reads the same entry of every address. -/
theorem State.entry_of_entries {s t : State} (entries : t.table.entries = s.table.entries) (a : Byte) :
    t.entry a = s.entry a := by
  simp only [State.entry, StationTable.entry, entries]

theorem State.LeavesStations.carriesLaws {s t : State} (leaves : s.LeavesStations t) : s.CarriesLaws t := by
  obtain ⟨entries, active, own, responses⟩ := leaves
  have entry := State.entry_of_entries entries
  have role : ∀ g, t.active g = s.active g := fun g => by rw [State.active, active]; rfl
  refine ⟨fun ⟨learned, static⟩ downstream => ⟨⟨?_, ?_⟩, ?_⟩, fun reserved => ?_⟩
  · intro a g cls used age miss h
    rw [role]
    exact learned a g cls used age miss (entry a ▸ h)
  · intro a segs cls miss muted h
    exact static a segs cls miss muted (entry a ▸ h)
  · intro g f frame cls
    rw [role]
    rcases responses g f frame cls with down | ⟨f', frame', cls'⟩
    · exact down
    · exact downstream g f' frame' cls'
  · unfold State.ReservedUnassigned
    rw [entry, entry, own]
    exact reserved

/-- A state with the same entries, settings and frame receivers. -/
theorem State.LeavesStations.of_eq {s t : State} (entries : t.table.entries = s.table.entries)
    (settings : t.settings = s.settings) (receivers : t.receivers = s.receivers) : s.LeavesStations t := by
  refine ⟨entries, by rw [settings], by rw [State.bridge, settings]; rfl, fun g f frame cls => .inr ⟨f, ?_, cls⟩⟩
  rwa [receivers] at frame

/-- A state with the same entries and settings, in which one frame receiver has changed. -/
theorem State.LeavesStations.of_set {s t : State} {g : Seg} {x : FrState} (entries : t.table.entries = s.table.entries)
    (settings : t.settings = s.settings) (receivers : t.receivers = s.receivers.set g x)
    (responses : ∀ f, x.frame = some f → f.cls = some .response → (s.active g).role = .downstream
      ∨ ∃ f', (s.receivers.get g).frame = some f' ∧ f'.cls = some .response) : s.LeavesStations t := by
  refine ⟨entries, by rw [settings], by rw [State.bridge, settings]; rfl, fun u f frame cls => ?_⟩
  rw [receivers, PerSeg.get_set] at frame
  split at frame
  next same => exact same ▸ responses f frame cls
  next => exact .inr ⟨f, frame, cls⟩

/-- A frame receiver that ends up with no frame in assembly. -/
theorem State.LeavesStations.of_empty {s t : State} {g : Seg} {x : FrState} (entries : t.table.entries = s.table.entries)
    (settings : t.settings = s.settings) (receivers : t.receivers = s.receivers.set g x) (empty : x.frame = none) :
    s.LeavesStations t :=
  .of_set entries settings receivers fun f frame => by rw [empty] at frame; cases frame

/-- Nothing in assembly and every entry Unassigned: the laws hold, whatever came before. -/
theorem State.CarriesLaws.of_cleared (s : State) {t : State} (entries : ∀ a, t.entry a = .unassigned)
    (receivers : ∀ g, (t.receivers.get g).frame = none) : s.CarriesLaws t := by
  refine ⟨fun _ _ => ⟨⟨fun a _ _ _ _ _ h => ?_, fun a _ _ _ _ h => ?_⟩, fun g f frame => ?_⟩,
    fun _ => ⟨entries _, entries _⟩⟩
  · rw [entries] at h; cases h
  · rw [entries] at h; cases h
  · rw [receivers] at frame; cases frame

/-! ### Entries written -/

/-- An entry that breaks neither law of R2, nor that of R11, where `downstream` says which segments are Downstream. -/
def Entry.Lawful (downstream : Seg → Prop) : Entry → Prop
  | .unassigned => True
  | .static segs _ miss muted => segs ≠ 0 ∧ (muted = true → miss ≠ 0)
  | .learned g _ _ _ _ => downstream g
  | .blocked => True

/-- The laws of the table, entry by entry. -/
theorem State.tableLaws_iff (s : State) :
    s.TableLaws ↔ ∀ a, (s.entry a).Lawful fun g => (s.active g).role = .downstream := by
  constructor
  · intro ⟨learned, static⟩ a
    cases h : s.entry a with
    | unassigned => trivial
    | static segs cls miss muted => exact static a segs cls miss muted h
    | learned g cls used age miss => exact learned a g cls used age miss h
    | blocked => trivial
  · intro lawful
    refine ⟨fun a g cls used age miss h => ?_, fun a segs cls miss muted h => ?_⟩
    · have := lawful a
      rwa [h] at this
    · have := lawful a
      rwa [h] at this

/-- One entry is replaced by a lawful one. -/
theorem State.TableLaws.putEntry {s : State} (table : s.TableLaws) {a : Byte} {e : Entry}
    (lawful : e.Lawful fun g => (s.active g).role = .downstream) : (s.putEntry a e).TableLaws := by
  rw [State.tableLaws_iff] at table ⊢
  intro b
  rw [State.entry_putEntry]
  split
  · exact lawful
  · exact table b

/-- One entry is replaced at an address that is none of R3's, or made Unassigned. -/
theorem State.ReservedUnassigned.putEntry {s : State} (reserved : s.ReservedUnassigned) {a : Byte} {e : Entry}
    (free : e = .unassigned ∨ a ≠ 0 ∧ a ≠ s.bridge.own) : (s.putEntry a e).ReservedUnassigned := by
  have kept : ∀ b, b = 0 ∨ b = s.bridge.own → s.entry b = .unassigned → (s.putEntry a e).entry b = .unassigned := by
    intro b names before
    rw [State.entry_putEntry]
    split
    next same =>
      rcases free with unassigned | ⟨notZero, notOwn⟩
      · exact unassigned
      · rcases names with zero | own
        · exact absurd (same.symm.trans zero) notZero
        · exact absurd (same.symm.trans own) notOwn
    next => exact before
  exact ⟨kept _ (.inl rfl) reserved.1, kept _ (.inr rfl) reserved.2⟩

/-- One entry is replaced: the laws pass where the new entry is lawful and the address is none of R3's. -/
theorem State.putEntry_carriesLaws {s : State} {a : Byte} {e : Entry}
    (lawful : s.TableLaws → e.Lawful fun g => (s.active g).role = .downstream)
    (free : e = .unassigned ∨ (s.ReservedUnassigned → a ≠ 0 ∧ a ≠ s.bridge.own)) :
    s.CarriesLaws (s.putEntry a e) :=
  ⟨fun table responses => ⟨table.putEntry (lawful table), responses⟩,
    fun reserved => reserved.putEntry (free.imp id fun h => h reserved)⟩

/-- An entry made Unassigned. -/
theorem State.forget_carriesLaws (s : State) (a : Byte) : s.CarriesLaws (s.putEntry a .unassigned) :=
  s.putEntry_carriesLaws (fun _ => trivial) (.inl rfl)

/-- An event raised leaves the stations. -/
theorem State.raise_leaves (s : State) (k : EventKind) (g : Option Seg) (a : Option Byte) (d : Byte) :
    s.LeavesStations (s.raise k g a d) := .of_eq rfl rfl rfl

/-- An address whose entry is not Unassigned is none of R3's. -/
theorem State.ReservedUnassigned.free {s : State} (reserved : s.ReservedUnassigned) {a : Byte}
    (used : s.entry a ≠ .unassigned) : a ≠ 0 ∧ a ≠ s.bridge.own :=
  ⟨fun same => used (same ▸ reserved.1), fun same => used (same ▸ reserved.2)⟩

/-- The entry of an address is lawful where the laws hold. -/
theorem State.TableLaws.entry {s : State} (table : s.TableLaws) {a : Byte} {e : Entry} (h : s.entry a = e) :
    e.Lawful fun g => (s.active g).role = .downstream := h ▸ s.tableLaws_iff.1 table a

/-- What a learning step can do (R8, R3): nothing, or one entry that is none of R3's is written, and is lawful where the one
before was and the segment is Downstream. -/
theorem State.learn_cases (s : State) (a : Byte) (g : Seg) :
    s.learn a g = s ∨ (a ≠ 0 ∧ a ≠ s.bridge.own) ∧ ∃ e, (s.putEntry a e).LeavesStations (s.learn a g)
      ∧ ∀ down : Seg → Prop, down g → (s.entry a).Lawful down → e.Lawful down := by
  unfold State.learn
  split
  · exact .inl rfl
  next named =>
    have free : a ≠ 0 ∧ a ≠ s.bridge.own := ⟨fun h => named (.inr h), fun h => named (.inl h)⟩
    split
    · exact .inr ⟨free, _, State.raise_leaves _ _ _ _ _, fun _ here _ => here⟩
    next u c used age miss h =>
      split
      · exact .inr ⟨free, _, .refl _, fun _ _ before => by rwa [h] at before⟩
      · exact .inr ⟨free, _, State.raise_leaves _ _ _ _ _, fun _ here _ => here⟩
    next m c miss muted h =>
      refine .inr ⟨free, _, .refl _, fun _ _ before => ?_⟩
      rw [h] at before
      exact ⟨before.1, nofun⟩
    · exact .inl rfl

/-- A learning step on a Downstream segment keeps the laws of the table. -/
theorem State.TableLaws.learn {s : State} (table : s.TableLaws) (responses : s.ResponsesDownstream) (a : Byte) {g : Seg}
    (down : (s.active g).role = .downstream) : (s.learn a g).TableLaws ∧ (s.learn a g).ResponsesDownstream := by
  rcases s.learn_cases a g with same | ⟨_, e, leaves, lawful⟩
  · rw [same]
    exact ⟨table, responses⟩
  · exact leaves.carriesLaws.1 (table.putEntry (lawful _ down (s.tableLaws_iff.1 table a))) responses

/-- A learning step keeps the entries of R3 Unassigned. -/
theorem State.ReservedUnassigned.learn {s : State} (reserved : s.ReservedUnassigned) (a : Byte) (g : Seg) :
    (s.learn a g).ReservedUnassigned := by
  rcases s.learn_cases a g with same | ⟨free, e, leaves, _⟩
  · rwa [same]
  · exact leaves.carriesLaws.2 (reserved.putEntry (.inr free))

/-- A miss count just raised is not 0. -/
theorem missSucc_ne_zero (m : BitVec 4) : missSucc m ≠ 0 := by
  revert m
  decide

/-- A miss counted (R10, R11). -/
theorem State.countMiss_carriesLaws (s : State) (a : Byte) : s.CarriesLaws (s.countMiss a) := by
  unfold State.countMiss
  split
  · exact .refl s
  · exact .refl s
  next g c used age miss h =>
    have free (reserved : s.ReservedUnassigned) := reserved.free (a := a) (by rw [h]; nofun)
    dsimp only
    split
    · exact (s.forget_carriesLaws a).trans (State.raise_leaves _ _ _ _ _).carriesLaws
    · exact s.putEntry_carriesLaws (fun table => (table.entry h :)) (.inr free)
  next segs c miss muted h =>
    have free (reserved : s.ReservedUnassigned) := reserved.free (a := a) (by rw [h]; nofun)
    have missed : ∀ q, s.CarriesLaws (s.putEntry a (.static segs c (missSucc miss) q)) := fun q =>
      s.putEntry_carriesLaws (fun table => ⟨(table.entry h).1, fun _ => missSucc_ne_zero miss⟩) (.inr free)
    dsimp only
    split
    · exact (missed true).trans (State.raise_leaves _ _ _ _ _).carriesLaws
    · exact missed muted

/-- A sweep visit's work on an entry (R15). -/
theorem State.sweepEntry_carriesLaws (s : State) (a : Byte) : s.CarriesLaws (s.sweepEntry a) := by
  unfold State.sweepEntry
  split
  next g c used age miss h =>
    have kept : ∀ u n, s.CarriesLaws (s.putEntry a (.learned g c u n miss)) := fun u n =>
      s.putEntry_carriesLaws (fun table => (table.entry h :))
        (.inr fun reserved => reserved.free (by rw [h]; nofun))
    split
    · exact kept false 0
    · split
      · exact (s.forget_carriesLaws a).trans (State.raise_leaves _ _ _ _ _).carriesLaws
      · exact kept false _
  · exact .refl s
  · exact .refl s
  · exact .refl s

/-- The own address change (R4, R156). -/
theorem State.changeOwn_carriesLaws (s : State) (own : Byte) : s.CarriesLaws (s.changeOwn own) := by
  have entry : ∀ a, (s.changeOwn own).entry a = if a = own then .unassigned else s.entry a := fun a =>
    StationTable.entry_put s.table own a .unassigned
  refine ⟨fun table responses => ⟨?_, responses⟩, fun reserved => ⟨?_, ?_⟩⟩
  · rw [State.tableLaws_iff] at table ⊢
    intro a
    rw [entry]
    split
    · trivial
    · exact table a
  · rw [entry, reserved.1, ite_self]
  · rw [entry]
    exact if_pos rfl

end Sys2Proof.Machine
end

