-- ==== Sys2Proof/Proofs/StationLawsReception.lean ====
section
/-!
The laws of the station table at the frame receivers: only an intact Response has a station learned, and a Response is in
assembly on a Downstream segment only (R38, R42, R74, R75).
-/

namespace Sys2Proof.Machine

/-! ### Frames and responses (R38, R74, R75, R86) -/

/-- t is s after at most one learning step on g, and otherwise leaves the stations. -/
def State.LearnsAtMost (s t : State) (g : Seg) : Prop :=
  s.LeavesStations t ∨ ∃ m a, s.LeavesStations m ∧ (m.learn a g).LeavesStations t

theorem State.LearnsAtMost.after {s t u : State} {g : Seg} (first : s.LeavesStations t) (next : t.LearnsAtMost u g) :
    s.LearnsAtMost u g := by
  rcases next with leaves | ⟨m, a, before, learned⟩
  · exact .inl (first.trans leaves)
  · exact .inr ⟨m, a, first.trans before, learned⟩

theorem State.LearnsAtMost.before {s t u : State} {g : Seg} (first : s.LearnsAtMost t g) (next : t.LeavesStations u) :
    s.LearnsAtMost u g := by
  rcases first with leaves | ⟨m, a, before, learned⟩
  · exact .inl (leaves.trans next)
  · exact .inr ⟨m, a, before, learned.trans next⟩

/-- At most one learning step on a segment that is Downstream wherever the laws hold. -/
theorem State.LearnsAtMost.carriesLaws {s t : State} {g : Seg} (learns : s.LearnsAtMost t g)
    (down : s.ResponsesDownstream → (s.active g).role = .downstream) : s.CarriesLaws t := by
  rcases learns with leaves | ⟨m, a, before, after⟩
  · exact leaves.carriesLaws
  · refine ⟨fun table responses => ?_, fun reserved => after.carriesLaws.2 ((before.carriesLaws.2 reserved).learn a g)⟩
    have role : (m.active g).role = .downstream := by
      rw [State.active, before.2.1]
      exact down responses
    obtain ⟨table', responses'⟩ := before.carriesLaws.1 table responses
    obtain ⟨table'', responses''⟩ := table'.learn responses' a role
    exact after.carriesLaws.1 table'' responses''

/-- A response that ended intact (R42): its station is learned. -/
theorem State.responseIntact_learns (s : State) (r : Fin Config.numTxns) (g : Seg) (d : Fin Config.numDescs) :
    s.LearnsAtMost (s.responseIntact r g d) g := by
  have closed : ∀ (m : State) (a : Byte), s.LeavesStations m →
      s.LearnsAtMost (((m.releaseGrant g).closeTxn r .answered).learn a g) g := by
    intro m a leaves
    obtain ⟨x, e, k, h⟩ := (m.releaseGrant g).closeTxn_only r .answered
    refine .inr ⟨_, a, leaves.trans ?_, .refl _⟩
    rw [h]
    exact .of_eq rfl rfl rfl
  unfold State.responseIntact
  split
  · exact .inl (.of_eq rfl rfl rfl)
  · dsimp only
    split
    · exact closed _ _ (.of_eq rfl rfl rfl)
    · obtain ⟨e, st, k, h⟩ := State.offerReply_only
        (s.mapStore fun st => st.modify d fun x => { x with txn := none }) _ d none
      rw [h]
      exact closed _ _ (.of_eq rfl rfl rfl)

/-- A frame handed on (R87): only a Response has its station learned. -/
theorem State.handOn_learns (s : State) (g : Seg) (f : Frame) (d : Fin Config.numDescs) :
    s.LeavesStations (s.handOn g f d) ∨ f.cls = some .response ∧ s.LearnsAtMost (s.handOn g f d) g := by
  have service : ∀ (cls : FrameClass) (r : Fin Config.numTxns) (st : Store),
      s.LeavesStations (State.enterService { s with store := st } g cls r d) := by
    intro cls r st
    obtain ⟨x, e, k, st', m, h⟩ := State.enterService_only { s with store := st } g cls r d
    rw [h]
    exact .of_eq rfl rfl rfl
  unfold State.handOn
  dsimp only
  split
  · exact .inl (service _ _ _)
  · exact .inl (service _ _ _)
  · exact .inl (service _ _ _)
  next response _ => exact .inr ⟨response, .after (.of_eq rfl rfl rfl) (State.responseIntact_learns _ _ g d)⟩
  · obtain ⟨e, k, st, h⟩ := State.forwardUnsolicited_only
      (s.mapStore fun st => st.modify d fun x => { x with state := .ready }) d
    rw [h]
    exact .inl (.of_eq rfl rfl rfl)
  · exact .inl (.of_eq rfl rfl rfl)

/-- A frame that did not end intact learns nothing (R86). -/
theorem State.endUnkept_leaves (s : State) (g : Seg) (f : Frame) (o : Option TxnOutcome) :
    s.LeavesStations (s.endUnkept g f o) := by
  unfold State.endUnkept
  split
  · exact .of_eq rfl rfl rfl
  · split
    · obtain ⟨x, e, k, h⟩ := s.responseFailed_only _ g _
      rw [h]
      exact .of_eq rfl rfl rfl
    · exact .refl s

theorem State.releaseFrame_leaves (s : State) (f : Frame) : s.LeavesStations (s.releaseFrame f) := by
  unfold State.releaseFrame
  split <;> exact .of_eq rfl rfl rfl

theorem State.placeIntent_leaves (s : State) (g : Seg) (f : Frame) (cause : EndCause) :
    s.LeavesStations (s.placeIntent g f cause) := by
  unfold State.placeIntent
  split
  · split
    · exact .refl s
    · obtain ⟨e, k, h⟩ := s.notify_only g _ f.station
      rw [h]
      exact .of_eq rfl rfl rfl
  · exact .refl s

theorem State.countIf_leaves (s : State) (b : Bool) (g : Seg) (c : SegCounter) : s.LeavesStations (s.countIf b g c) := by
  obtain ⟨k, h⟩ := s.countIf_only b g c
  rw [h]
  exact .of_eq rfl rfl rfl

/-- The end of a frame (R86): only a Response has its station learned. -/
theorem State.endFrameOf_learns (s : State) (g : Seg) (cause : EndCause) (skip : Option SkipReason) (f : Frame) :
    s.LeavesStations (s.endFrameOf g cause skip f)
      ∨ f.cls = some .response ∧ s.LearnsAtMost (s.endFrameOf g cause skip f) g := by
  unfold State.endFrameOf
  dsimp only
  generalize endingOf cause skip _ = ending
  have counted : s.LeavesStations ((((s.setReceiver g .hunt).count g .framesReceived).countIf (ending == .damaged) g
      .damaged).countIf (ending == .truncated) g .noBuffer) :=
    .trans (t := (s.setReceiver g .hunt).count g .framesReceived) (.of_empty rfl rfl rfl rfl)
      ((State.countIf_leaves _ _ _ _).trans (State.countIf_leaves _ _ _ _))
  have placed : ∀ m : State, (s.LeavesStations m ∨ f.cls = some .response ∧ s.LearnsAtMost m g) →
      s.LeavesStations (m.placeIntent g f cause)
        ∨ f.cls = some .response ∧ s.LearnsAtMost (m.placeIntent g f cause) g := by
    rintro m (leaves | ⟨response, learns⟩)
    · exact .inl (leaves.trans (m.placeIntent_leaves g f cause))
    · exact .inr ⟨response, learns.before (m.placeIntent_leaves g f cause)⟩
  refine placed _ ?_
  generalize State.countIf _ (ending == .truncated) g .noBuffer = m at counted ⊢
  split
  · split
    next d _ =>
      rcases m.handOn_learns g f d with leaves | ⟨response, learns⟩
      · exact .inl (counted.trans leaves)
      · exact .inr ⟨response, .after counted learns⟩
    next => exact .inl counted
  · exact .inl (counted.trans ((m.releaseFrame_leaves f).trans (State.endUnkept_leaves _ g f _)))
  · exact .inl (counted.trans ((m.releaseFrame_leaves f).trans (State.endUnkept_leaves _ g f _)))
  · exact .inl (counted.trans (m.endUnkept_leaves g f _))

/-- The end of the frame in assembly keeps the laws: a Response is on a Downstream segment (R75). -/
theorem State.endFrame_carriesLaws (s : State) (g : Seg) (cause : EndCause) : s.CarriesLaws (s.endFrame g cause) := by
  have ends : ∀ (skip : Option SkipReason) (f : Frame), (s.receivers.get g).frame = some f →
      s.CarriesLaws (s.endFrameOf g cause skip f) := by
    intro skip f frame
    rcases s.endFrameOf_learns g cause skip f with leaves | ⟨response, learns⟩
    · exact leaves.carriesLaws
    · exact learns.carriesLaws fun responses => responses g f frame response
  unfold State.endFrame
  split
  next f h => exact ends none f (by rw [h]; rfl)
  next reason f h => exact ends (some reason) f (by rw [h]; rfl)
  · exact .refl s
  · exact .refl s

/-- A frame passed over leaves the stations where it is no Response outside Downstream. -/
theorem State.skipFrame_leaves {s : State} {g : Seg} {cls : Option FrameClass}
    (lawful : cls = some .response → (s.active g).role = .downstream) (reason : SkipReason) (a : Byte)
    (txn : Option (Fin Config.numTxns)) (intent : Option NoticeIntent) :
    s.LeavesStations (s.skipFrame g cls reason a txn intent) := by
  refine .of_set rfl rfl rfl fun f frame response => .inl (lawful ?_)
  cases frame
  exact response

/-- A frame refused at admission (R76). -/
theorem State.refuseFrame_leaves {s : State} {g : Seg} {cls : FrameClass}
    (lawful : cls = .response → (s.active g).role = .downstream) (a : Byte) (txn : Option (Fin Config.numTxns)) :
    s.LeavesStations (s.refuseFrame g cls a txn) :=
  (s.skipFrame_leaves (fun h => lawful (Option.some.inj h)) _ _ _ _).trans (.of_eq rfl rfl rfl)

/-- Admission of a frame with no record (R76). -/
theorem State.admitPlain_leaves {s : State} {g : Seg} {cls : FrameClass}
    (lawful : cls = .response → (s.active g).role = .downstream) (txn : Option (Fin Config.numTxns)) (c : RxChar) :
    s.LeavesStations (s.admitPlain g cls txn c) := by
  unfold State.admitPlain
  dsimp only
  split
  · exact s.refuseFrame_leaves lawful _ _
  · split
    · exact s.refuseFrame_leaves lawful _ _
    · refine .of_set rfl rfl rfl fun f frame response => .inl (lawful ?_)
      cases frame
      exact Option.some.inj response

/-- Admission of a frame with a record (R76). -/
theorem State.admitRecord_leaves {s : State} {g : Seg} {cls : FrameClass}
    (lawful : cls = .response → (s.active g).role = .downstream) (kind : TxnKind) (m : SegSet)
    (tc : Option TimeoutClass) (c : RxChar) : s.LeavesStations (s.admitRecord g cls kind m tc c) := by
  unfold State.admitRecord
  dsimp only
  split
  · exact s.refuseFrame_leaves lawful _ _
  · split
    · exact s.refuseFrame_leaves lawful _ _
    · split
      · exact s.refuseFrame_leaves lawful _ _
      · refine .of_set rfl rfl rfl fun f frame response => .inl (lawful ?_)
        cases frame
        exact Option.some.inj response

/-- The class of the frame that a classification begins. -/
def Classed.cls : Classed → Option FrameClass
  | .record cls _ _ _ => some cls
  | .response _ _ => some .response
  | .unsolicited => some .unsolicited
  | .skip cls _ => cls

/-- On an Upstream segment no frame is a Response (R74). -/
theorem State.classifyUpstream_cls (s : State) (g : Seg) (a : Byte) : (s.classifyUpstream g a).cls ≠ some .response := by
  unfold State.classifyUpstream
  split
  · split <;> exact nofun
  · split
    · split <;> exact nofun
    · split <;> exact nofun

/-- A Response is on a Downstream segment (R75). -/
theorem State.classify_response {s : State} {g : Seg} {a : Byte} {c : Classed} (classed : s.classify g a = some c)
    (response : c.cls = some .response) : (s.active g).role = .downstream := by
  unfold State.classify at classed
  split at classed
  · cases classed
    exact absurd response (s.classifyUpstream_cls g a)
  next down => exact down
  · cases classed

/-- An address character begins a frame (R73 to R78). -/
theorem State.beginFrame_leaves (s : State) (g : Seg) (c : RxChar) : s.LeavesStations (s.beginFrame g c) := by
  unfold State.beginFrame
  split
  · exact .refl s
  next cls kind egress timeout classed =>
    exact s.admitRecord_leaves (fun h => State.classify_response classed (congrArg some h)) _ _ _ _
  next r t classed =>
    have down : (s.active g).role = .downstream := State.classify_response classed rfl
    obtain ⟨x, h⟩ := s.matchWindow_only r t g
    rw [h]
    exact .trans (t := { s with txns := x }) (.of_eq rfl rfl rfl)
      (State.admitPlain_leaves (s := { s with txns := x }) (fun _ => down) _ _)
  next =>
    exact .trans (t := s.count g .unsolicited) (.of_eq rfl rfl rfl)
      (State.admitPlain_leaves (cls := .unsolicited) nofun _ _)
  next cls reason classed =>
    have skipped : ∀ reason intent, s.LeavesStations (s.skipFrame g cls reason c.value none intent) :=
      fun _ _ => s.skipFrame_leaves (State.classify_response classed) _ _ _ _
    split
    · exact (skipped _ _).trans (.of_eq rfl rfl rfl)
    · exact (skipped _ _).trans (.of_eq rfl rfl rfl)
    · exact (skipped _ _).trans (.of_eq rfl rfl rfl)
    · exact (skipped _ _).trans (.of_eq rfl rfl rfl)
    all_goals exact skipped _ _

/-- An intent set leaves the class of a frame. -/
theorem Frame.intend_cls (f : Frame) (i : NoticeIntent) : (f.intend i).cls = f.cls := by
  unfold Frame.intend
  split <;> rfl

/-- A data character stored, or turning its frame to SKIP, leaves the class of the frame (R79 to R82). -/
theorem State.growFrame_leaves {s : State} {g : Seg} {f : Frame} (stored : s.receivers.get g = .store f) (c : RxChar) :
    s.LeavesStations (s.growFrame g f c) := by
  have same : ∀ (x : FrState) (f' : Frame) (st : Store), x.frame = some f' → f'.cls = f.cls →
      s.LeavesStations (State.setReceiver { s with store := st } g x) := by
    intro x f' st frame cls
    refine .of_set rfl rfl rfl fun y at_ response => .inr ⟨f, by rw [stored]; rfl, ?_⟩
    rw [frame] at at_
    cases at_
    rwa [← cls]
  have kept : ∀ (st : Store) (bad : Bool), s.LeavesStations (State.setReceiver { s with store := st } g
      (.store (if bad then Frame.intend { f with taken := f.taken + 1 } .damaged else { f with taken := f.taken + 1 }))) := by
    intro st bad
    refine same _ _ _ rfl ?_
    cases bad
    · rfl
    · exact Frame.intend_cls _ _
  unfold State.growFrame
  split
  · exact .refl s
  · split
    · exact .refl s
    · dsimp only
      split
      · exact same _ _ s.store rfl (f.intend_cls _)
      · split
        · split
          · exact same _ _ s.store rfl (f.intend_cls _)
          · exact kept _ _
        · exact kept _ _

/-- A character delivered to a frame receiver (R73, R79, R84). -/
theorem State.receiveChar_carriesLaws (s : State) (g : Seg) (c : RxChar) : s.CarriesLaws (s.receiveChar g c) := by
  obtain ⟨k, counted⟩ := s.countErrors_only g c
  have errors : s.CarriesLaws { s with counters := k } := (State.LeavesStations.of_eq rfl rfl rfl).carriesLaws
  have next : s.CarriesLaws ((State.endFrame { s with counters := k } g .nextAddress).beginFrame g c) :=
    errors.trans ((State.endFrame_carriesLaws _ g _).trans (State.beginFrame_leaves _ g c).carriesLaws)
  unfold State.receiveChar
  rw [counted]
  split
  · exact .refl s
  · split
    · exact errors.trans (State.beginFrame_leaves _ g c).carriesLaws
    · exact (State.LeavesStations.of_eq rfl rfl rfl).carriesLaws
  next stored =>
    split
    · exact next
    · exact errors.trans (State.growFrame_leaves (s := { s with counters := k }) stored c).carriesLaws
  · split
    · exact next
    · exact errors

/-- A break delivered to a frame receiver (R48, R85). -/
theorem State.receiveBreak_carriesLaws (s : State) (g : Seg) : s.CarriesLaws (s.receiveBreak g) := by
  have counted : s.CarriesLaws ((s.endFrame g .aborted).count g .breaks) :=
    (s.endFrame_carriesLaws g .aborted).trans (State.LeavesStations.of_eq rfl rfl rfl).carriesLaws
  have broken : s.CarriesLaws (if (((s.endFrame g .aborted).count g .breaks).active g).role = .upstream then
      ((s.endFrame g .aborted).count g .breaks).abandonOrigin g else (s.endFrame g .aborted).count g .breaks) := by
    split
    · obtain ⟨x, e, k, st, m, h⟩ := ((s.endFrame g .aborted).count g .breaks).abandonOrigin_only g
      rw [h]
      exact counted.trans (State.LeavesStations.of_eq rfl rfl rfl).carriesLaws
    · exact counted
  unfold State.receiveBreak
  split
  · exact .refl s
  all_goals exact broken

/-- What the echo compare does leaves the stations (R117). -/
theorem State.echoCompare_leaves (s : State) (g : Seg) (i : EchoItem) : s.LeavesStations (s.echoCompare g i) := by
  obtain ⟨e, l, k, h⟩ := s.echoCompare_only g i
  rw [h]
  exact .of_eq rfl rfl rfl

/-- A break found (R60). -/
theorem State.breakFound_carriesLaws (s : State) (g : Seg) : s.CarriesLaws (s.breakFound g) := by
  have recovers : s.CarriesLaws (s.setRx g (.recover s.time)) := (State.LeavesStations.of_eq rfl rfl rfl).carriesLaws
  unfold State.breakFound State.deliverBreak
  split
  · exact recovers.trans (State.echoCompare_leaves _ g none).carriesLaws
  · exact recovers.trans (State.receiveBreak_carriesLaws _ g)

/-- The verdict on a character period acts (R57 to R60). -/
theorem State.characterComplete_carriesLaws (s : State) (g : Seg) (x : Samples) :
    s.CarriesLaws (s.characterComplete g x) := by
  unfold State.characterComplete
  dsimp only
  split
  · exact (State.LeavesStations.of_eq rfl rfl rfl).carriesLaws
  · exact s.breakFound_carriesLaws g
  next c _ =>
    have ready : s.CarriesLaws (s.setRx g (.ready s.time (endsHigh (s.active g) x) false)) :=
      (State.LeavesStations.of_eq rfl rfl rfl).carriesLaws
    unfold State.deliverChar
    split
    · exact ready.trans (State.echoCompare_leaves _ g _).carriesLaws
    · exact ready.trans (State.receiveChar_carriesLaws _ g c)

/-- An idle-gap expiry (R83). -/
theorem State.idleGap_carriesLaws (s : State) (g : Seg) : s.CarriesLaws (s.idleGap g) := by
  have taken : ∀ u, s.CarriesLaws (s.setLine g u) := fun _ => (State.LeavesStations.of_eq rfl rfl rfl).carriesLaws
  unfold State.idleGap
  dsimp only
  split
  · exact taken _
  · exact (taken _).trans (State.endFrame_carriesLaws _ g _)

end Sys2Proof.Machine
end

