-- ==== Sys2Proof/Proofs/StationLawsCommands.lean ====
section
/-!
The laws of the station table at the egress schedulers and under every management command (R20, R114 to R122, R130 to R152).
-/

namespace Sys2Proof.Machine

/-! ### Sending (R114 to R122) -/

/-- A released line has no frame in assembly (R72). -/
theorem State.releaseLine_leaves (s : State) (g : Seg) : s.LeavesStations (s.releaseLine g) :=
  .of_empty rfl rfl rfl rfl

theorem State.takeLine_leaves (s : State) (g : Seg) : s.LeavesStations (s.takeLine g) := by
  unfold State.takeLine
  dsimp only
  split
  · obtain ⟨l, e, h⟩ := State.enterTransmit_only (State.setEgress _ g _) g (s.active g).echoCheck
    rw [h]
    exact .of_empty rfl rfl rfl rfl
  · exact .of_empty rfl rfl rfl rfl

theorem State.breakSent_leaves (s : State) (g : Seg) : s.LeavesStations (s.breakSent g) := by
  unfold State.breakSent
  dsimp only
  split
  · exact .of_eq rfl rfl rfl
  · exact .of_eq rfl rfl rfl
  · exact .of_empty rfl rfl rfl rfl
  · exact .of_eq rfl rfl rfl
  · exact .of_empty rfl rfl rfl rfl

theorem State.backOff_leaves (s : State) (g : Seg) : s.LeavesStations (s.backOff g) := by
  obtain ⟨e, st, x, k, m, v, h⟩ := s.backOff_only g
  rw [h]
  exact .of_eq rfl rfl rfl

theorem State.startHeard_leaves (s : State) (g : Seg) : s.LeavesStations (s.startHeard g) := by
  have taken : s.LeavesStations (s.takeStart g) := by
    unfold State.takeStart
    dsimp only
    split <;> exact .of_eq rfl rfl rfl
  unfold State.startHeard
  dsimp only
  split
  · exact taken.trans (((State.releaseLine_leaves _ g).trans (.of_eq rfl rfl rfl)).trans (State.backOff_leaves _ g))
  all_goals exact taken

theorem State.setEgress_leaves (s : State) (g : Seg) (e : Egress) : s.LeavesStations (s.setEgress g e) :=
  .of_eq rfl rfl rfl

theorem State.settlePendingOwn_leaves (s : State) : s.LeavesStations s.settlePendingOwn := by
  obtain ⟨m, h⟩ := s.settlePendingOwn_only
  rw [h]
  exact .of_eq rfl rfl rfl

/-- Every entry of a cleared table is Unassigned (R22). -/
theorem StationTable.cleared_entry (a : Byte) : StationTable.cleared.entry a = .unassigned := by
  simp [StationTable.entry, StationTable.cleared]

/-- A power-on or Full restart clears the table and every frame receiver (R22, R164). -/
theorem State.clearAll_carriesLaws (s x : State) : s.CarriesLaws x.clearAll :=
  .of_cleared s StationTable.cleared_entry fun g => by
    rw [State.clearAll, PerSeg.get_const]
    rfl

/-- A reply's armed effect taken (R135, R156, R164, R165). -/
theorem State.takeDeferred_carriesLaws (s : State) (g : Seg) (a : Armed) : s.CarriesLaws (s.takeDeferred g a) := by
  unfold State.takeDeferred
  dsimp only
  split
  · exact (State.clearAll_carriesLaws s _).trans (State.raise_leaves _ _ _ _ _).carriesLaws
  · refine State.LeavesStations.carriesLaws ⟨rfl, rfl, rfl, fun u f frame => ?_⟩
    change ((PerSeg.const FrState.hunt).get u).frame = some f at frame
    rw [PerSeg.get_const] at frame
    cases frame
  · exact .trans (State.LeavesStations.of_eq rfl rfl rfl).carriesLaws (State.changeOwn_carriesLaws _ _)

/-- A send that completes (R122, R135). -/
theorem State.sendCompleted_carriesLaws (s : State) (g : Seg) : s.CarriesLaws (s.sendCompleted g) := by
  unfold State.sendCompleted
  split
  · exact .refl s
  next h _ =>
    have sent : s.LeavesStations (if s.isRequestCopy h.item = true then
        ((s.dropItem g h.item).count g .framesSent).copyCompleted g else (s.dropItem g h.item).count g .framesSent) := by
      obtain ⟨e, st, dropped⟩ := s.dropItem_only g h.item
      rw [dropped]
      split
      · obtain ⟨x, e, k, copied⟩ := State.copyCompleted_only
          (State.count { s with egress := e, store := st } g .framesSent) g
        rw [copied]
        exact .of_eq rfl rfl rfl
      · exact .of_eq rfl rfl rfl
    dsimp only
    split
    · exact sent.carriesLaws.trans ((State.takeDeferred_carriesLaws _ g _).trans
        (State.settlePendingOwn_leaves _).carriesLaws)
    · exact sent.carriesLaws

/-- TAIL ends (R119). -/
theorem State.endTail_carriesLaws (s : State) (g : Seg) : s.CarriesLaws (s.endTail g) := by
  have released := (s.releaseLine_leaves g).carriesLaws
  unfold State.endTail
  dsimp only
  split
  · exact released.trans (State.backOff_leaves _ g).carriesLaws
  · exact released.trans ((State.setEgress_leaves _ g _).carriesLaws.trans (State.sendCompleted_carriesLaws _ g))

/-! ### Management (R130 to R152) -/

/-- The state in which a command has been carried out. -/
def Carried.state : Carried → State
  | .replied s _ => s
  | .working s _ => s

theorem State.dequeue_leaves (s : State) : s.LeavesStations s.dequeue := .of_eq rfl rfl rfl

theorem State.finishCached_leaves (s : State) (r : Fin Config.numTxns) (t : Txn) (p : Reply) :
    s.LeavesStations (s.finishCached r t p) := by
  obtain ⟨e, st, k, x, m, h⟩ := s.finishCached_only r t p
  rw [h]
  exact .of_eq rfl rfl rfl

theorem State.refuseUncached_leaves (s : State) (r : Fin Config.numTxns) (t : Txn) (st : Status) :
    s.LeavesStations (s.refuseUncached r t st) := by
  obtain ⟨e, q, k, x, m, h⟩ := s.refuseUncached_only r t st
  rw [h]
  exact .of_eq rfl rfl rfl

/-- Steps 1 to 3 of R131, and what follows them. -/
theorem State.checked_carriesLaws {s : State} {after : State → List Byte → State}
    (carries : ∀ args, s.CarriesLaws (after s args)) (r : Fin Config.numTxns) (t : Txn) :
    s.CarriesLaws (s.checked r t after) := by
  unfold State.checked
  dsimp only
  split
  · exact (s.refuseUncached_leaves r t _).carriesLaws
  · split
    · exact (s.refuseUncached_leaves r t _).carriesLaws
    · split
      next c _ =>
        obtain ⟨e, q, k, x, m, h⟩ := s.answerCached_only r c
        rw [h]
        exact (State.LeavesStations.of_eq rfl rfl rfl).carriesLaws
      · exact carries _

/-- Steps 4 to 8 of R131. -/
theorem State.carryOut_carriesLaws {s : State} {carry : Carry}
    (carries : ∀ g args, s.CarriesLaws (carry s g args).state) (r : Fin Config.numTxns) (t : Txn) (args : List Byte)
    (c : MgmtCommand) : s.CarriesLaws (s.carryOut r t args c carry) := by
  have carried := carries t.origin args
  unfold State.carryOut
  split
  · split
    · exact (s.finishCached_leaves r t _).carriesLaws
    · split
      next u p h =>
        rw [h] at carried
        exact carried.trans (State.finishCached_leaves u r t p).carriesLaws
      next u w h =>
        rw [h] at carried
        exact carried.trans (State.LeavesStations.of_eq rfl rfl rfl).carriesLaws
  · exact (s.refuseUncached_leaves r t _).carriesLaws

/-- The engine takes a Local (R130, R131). -/
theorem State.takeLocal_carriesLaws {carry : Carry} (carries : ∀ (s : State) g args, s.CarriesLaws (carry s g args).state)
    (s : State) (c : MgmtCommand) : s.CarriesLaws (s.takeLocal c carry) := by
  unfold State.takeLocal
  split
  · exact .refl s
  · exact s.dequeue_leaves.carriesLaws.trans
      (State.checked_carriesLaws (fun args => State.carryOut_carriesLaws (carries _) _ _ args c) _ _)

/-! Commands that carry out nothing but checks and reads leave the state as it is. -/

theorem carryReadStationRange_state (s : State) (g : Seg) (args : List Byte) :
    (carryReadStationRange s g args).state = s := by
  unfold carryReadStationRange
  dsimp only
  split <;> rfl

theorem carryClearLearned_state (s : State) (g : Seg) (args : List Byte) : (carryClearLearned s g args).state = s := by
  unfold carryClearLearned
  split
  · rfl
  · split <;> rfl

theorem carryReadSegment_state (s : State) (g : Seg) (args : List Byte) : (carryReadSegment s g args).state = s := by
  unfold carryReadSegment
  split
  · rfl
  · split
    · rfl
    · split <;> rfl

theorem carryCounters_state (clear : Bool) (s : State) (g : Seg) (args : List Byte) :
    (carryCounters clear s g args).state = s := by
  unfold carryCounters
  dsimp only
  split <;> rfl

theorem carryRestart_state (s : State) (g : Seg) (args : List Byte) : (carryRestart s g args).state = s := by
  unfold carryRestart
  split
  · rfl
  · split <;> rfl

/-- WriteStation writes a lawful entry at an address that is none of R3's (R20). -/
theorem carryWriteStation_carriesLaws (s : State) (g : Seg) (args : List Byte) :
    s.CarriesLaws (carryWriteStation s g args).state := by
  unfold carryWriteStation
  split
  · exact .refl s
  next e written =>
    unfold State.writtenEntry at written
    dsimp only at written
    split at written
    · cases written
    next notZero =>
      split at written
      · cases written
      next notOwn =>
        refine s.putEntry_carriesLaws (fun _ => ?_) (.inr fun _ => ⟨notZero, fun own => notOwn (.inl own)⟩)
        split at written
        · cases written; trivial
        · split at written
          · cases written; trivial
          · split at written
            · split at written
              · cases written
              · split at written
                · cases written
                next some_ =>
                  split at written
                  · cases written; exact ⟨some_, nofun⟩
                  · cases written
            · cases written

/-- A bridge record stored leaves the own address; of the entries it only mutes Static ones that have missed (R11, R144). -/
theorem State.storeBridge_carriesLaws (s : State) (b : BridgeRecord) : s.CarriesLaws (s.storeBridge b) := by
  have entry : ∀ a, (s.storeBridge b).entry a = (s.entry a).limitChanged s.bridge.missLimit b.missLimit := by
    intro a
    simp [State.entry, StationTable.entry, State.storeBridge, State.disarmOwn]
  have lowered : ∀ before after miss : BitVec 4, limitLowered before after miss = true → miss ≠ 0 := by
    intro before after miss h zero
    simp [limitLowered, zero] at h
  refine ⟨fun table responses => ⟨?_, responses⟩, fun reserved => ⟨?_, ?_⟩⟩
  · rw [State.tableLaws_iff] at table ⊢
    intro a
    have before := table a
    rw [entry]
    cases h : s.entry a with
    | static segs cls miss muted =>
      rw [h] at before
      refine ⟨before.1, fun mutes => ?_⟩
      rcases Bool.or_eq_true_iff.1 mutes with was | now
      · exact before.2 was
      · exact lowered _ _ _ now
    | unassigned => trivial
    | learned u cls used age miss => rwa [h] at before
    | blocked => trivial
  · rw [entry, reserved.1]
    rfl
  · change (s.storeBridge b).entry s.bridge.own = _
    rw [entry, reserved.2]
    rfl

theorem carryWriteBridge_carriesLaws (s : State) (g : Seg) (args : List Byte) :
    s.CarriesLaws (carryWriteBridge s g args).state := by
  have stored : ∀ b a, s.CarriesLaws ((s.storeBridge b).setPendingOwn a) := fun b a =>
    (s.storeBridge_carriesLaws b).trans (State.LeavesStations.of_eq rfl rfl rfl).carriesLaws
  unfold carryWriteBridge
  split
  · exact .refl s
  · split
    · exact stored _ _
    · split
      · exact stored _ _
      · exact .refl s

/-- Staging a segment record touches no active record. -/
theorem carryWriteSegment_leaves (s : State) (g : Seg) (args : List Byte) :
    s.LeavesStations (carryWriteSegment s g args).state := by
  unfold carryWriteSegment
  split
  · split
    · exact ⟨rfl, rfl, rfl, fun _ f frame cls => .inr ⟨f, frame, cls⟩⟩
    · exact .refl s
  · exact .refl s

/-- Marking segments for an apply touches no active record. -/
theorem carryApplySegment_leaves (s : State) (g : Seg) (args : List Byte) :
    s.LeavesStations (carryApplySegment s g args).state := by
  unfold carryApplySegment
  split
  · exact .refl s
  · split
    · exact .refl s
    · split
      · exact ⟨rfl, rfl, rfl, fun _ f frame cls => .inr ⟨f, frame, cls⟩⟩
      · exact .refl s

theorem carryReadEvents_leaves (s : State) (g : Seg) (args : List Byte) :
    s.LeavesStations (carryReadEvents s g args).state := by
  unfold carryReadEvents
  dsimp only
  split <;> exact .of_eq rfl rfl rfl

theorem carryTakeLease_leaves (s : State) (g : Seg) (args : List Byte) :
    s.LeavesStations (carryTakeLease s g args).state := by
  unfold carryTakeLease
  dsimp only
  split
  · exact .refl s
  · split
    · exact .refl s
    · split
      · exact .of_eq rfl rfl rfl
      · split <;> exact .of_eq rfl rfl rfl

theorem State.dropLeaseOf_leaves (s : State) (g : Seg) (d : Byte) : s.LeavesStations (s.dropLeaseOf g d) := by
  obtain ⟨l, v, h⟩ := s.dropLeaseOf_only g d
  rw [h]
  exact .of_eq rfl rfl rfl

theorem carryDropLease_leaves (s : State) (g : Seg) (args : List Byte) :
    s.LeavesStations (carryDropLease s g args).state := by
  unfold carryDropLease
  split
  · exact .refl s
  · split
    · exact s.dropLeaseOf_leaves g 0
    · exact .refl s

/-- A Segment restart has no frame in assembly on its segment, and leaves the table (R166). -/
theorem State.segmentRestart_leaves (s : State) (g : Seg) : s.LeavesStations (s.segmentRestart g) := by
  obtain ⟨e, k, st, x, m, v, l, h⟩ := s.segmentRestart_only g
  rw [h]
  refine .of_empty rfl rfl rfl ?_
  split <;> rfl

theorem carryRestartSegment_leaves (s : State) (g : Seg) (args : List Byte) :
    s.LeavesStations (carryRestartSegment s g args).state := by
  unfold carryRestartSegment
  split
  · exact .refl s
  · split
    · exact .refl s
    · exact s.segmentRestart_leaves _

theorem State.readStations_leaves (s : State) (n : Nat) : s.LeavesStations (s.readStations n) := by
  unfold State.readStations
  split
  · dsimp only
    split
    · split
      · exact s.finishCached_leaves _ _ _
      · exact .of_eq rfl rfl rfl
    · exact .of_eq rfl rfl rfl
  all_goals exact .refl s

theorem State.readCounterBlock_leaves (s : State) (n : Nat) : s.LeavesStations (s.readCounterBlock n) := by
  unfold State.readCounterBlock
  split
  next r clear code first left acc _ =>
    have read : s.LeavesStations (if clear = true then
        { s with counters := s.counters.zeroBlock code first (min n left) } else s) := by
      split <;> exact .of_eq rfl rfl rfl
    dsimp only
    split
    · split
      · exact read.trans (State.finishCached_leaves _ _ _ _)
      · exact read.trans (.of_eq rfl rfl rfl)
    · exact read.trans (.of_eq rfl rfl rfl)
  all_goals exact .refl s

theorem State.takeUnknown_carriesLaws (s : State) : s.CarriesLaws s.takeUnknown := by
  unfold State.takeUnknown
  split
  · exact .refl s
  · exact s.dequeue_leaves.carriesLaws.trans
      (State.checked_carriesLaws (fun _ => (State.finishCached_leaves _ _ _ _).carriesLaws) _ _)

/-- A walk visit makes its entry Unassigned or leaves it (R17). -/
theorem State.walkVisit_carriesLaws (s : State) : s.CarriesLaws s.walkVisit := by
  unfold State.walkVisit
  split
  next r start cursor mask cleared _ =>
    have visited : s.CarriesLaws (if (s.entry cursor).learnedIn mask then s.putEntry cursor .unassigned else s) := by
      split
      · exact s.forget_carriesLaws cursor
      · exact .refl s
    dsimp only
    split
    · split
      · exact visited.trans (.trans (State.raise_leaves _ _ _ _ _).carriesLaws
          (State.finishCached_leaves _ _ _ _).carriesLaws)
      · exact visited.trans (State.LeavesStations.of_eq rfl rfl rfl).carriesLaws
    · exact visited.trans (State.LeavesStations.of_eq rfl rfl rfl).carriesLaws
  all_goals exact .refl s

end Sys2Proof.Machine
end

