-- ==== Sys2Proof/Proofs/StationLawsSteps.lean ====
section
/-!
The laws of the station table at the timers and at a settings apply, and with them under every command and every step (R2, R3,
R11, R75).
-/

namespace Sys2Proof.Machine

/-! ### Timers (R12 to R15, R41, R161) -/

/-- A response timer's expiry counts a miss (R10, R41). -/
theorem State.timeOut_carriesLaws (s : State) (r : Fin Config.numTxns) (t : Txn) : s.CarriesLaws (s.timeOut r t) := by
  unfold State.timeOut
  dsimp only
  obtain ⟨x, released⟩ := (s.putTxn r (some { t with windows := 0, deadline := none })).releaseGrants_only t.windows
  rw [released]
  obtain ⟨y, told⟩ := State.setLastTimedOutAll_only (some t.station) t.windows.members
    { s.putTxn r (some { t with windows := 0, deadline := none }) with txns := x }
  rw [told]
  have before : s.CarriesLaws { s with txns := y } := (State.LeavesStations.of_eq rfl rfl rfl).carriesLaws
  have missed := before.trans (State.countMiss_carriesLaws { s with txns := y } t.station)
  refine missed.trans (State.LeavesStations.carriesLaws ?_)
  obtain ⟨x, e, k, h⟩ := State.closeTxn_only (((State.countMiss { s with txns := y } t.station).count t.origin
    .timeouts).raise .timeout (some t.origin) (some t.station) 0) r .timeout
  exact h ▸ .of_eq rfl rfl rfl

theorem State.responseTimer_carriesLaws (s : State) (r : Fin Config.numTxns) : s.CarriesLaws (s.responseTimer r) := by
  unfold State.responseTimer
  split
  · exact .refl s
  · exact s.timeOut_carriesLaws r _

theorem State.agingTick_leaves (s : State) : s.LeavesStations s.agingTick := by
  unfold State.agingTick
  dsimp only
  split <;> exact .of_eq rfl rfl rfl

theorem State.sweepVisit_carriesLaws (s : State) : s.CarriesLaws s.sweepVisit := by
  unfold State.sweepVisit
  split
  · exact .refl s
  · exact (s.sweepEntry_carriesLaws _).trans (State.LeavesStations.of_eq rfl rfl rfl).carriesLaws

theorem State.expireLease_leaves (s : State) : s.LeavesStations s.expireLease := by
  unfold State.expireLease
  split <;> exact .of_eq rfl rfl rfl

theorem State.scan_leaves (s : State) : s.LeavesStations s.scan := by
  obtain ⟨x, e, st, h⟩ := State.scanFrom_only s.txns.waiting s []
  rw [State.scan, h]
  exact .of_eq rfl rfl rfl

/-! ### Settings apply (R21, R159, R160) -/

/-- An entry once the stations Learned on g are unlearned (R21). -/
def Entry.unlearned (g : Seg) : Entry → Entry
  | .learned u cls used age miss => if u = g then .unassigned else .learned u cls used age miss
  | .unassigned => .unassigned
  | .static m cls miss muted => .static m cls miss muted
  | .blocked => .blocked

/-- Unlearning a segment acts on each entry by itself (R21). -/
theorem StationTable.unlearnSegment_entry (t : StationTable) (g : Seg) (a : Byte) :
    (t.unlearnSegment g).entry a = (t.entry a).unlearned g := by
  simp only [StationTable.unlearnSegment, StationTable.entry, Vector.getElem_map]
  cases t.entries[a.toNat] <;> rfl

/-- Copies leaving a list of descriptors: the store alone. -/
theorem State.leaveAll_eq (g : Seg) (l : List (Fin Config.numDescs)) (s : State) :
    l.foldl (fun s d => s.mapStore fun st => st.leave d g) s
      = { s with store := l.foldl (fun st d => st.leave d g) s.store } := by
  induction l generalizing s with
  | nil => rfl
  | cons d l ih => exact ih _

/-- The bulk lane flushed (R105, R124): the lane, a bulk copy in hand, and the descriptors' egress sets, oldest first. -/
theorem State.flushBulk_eq (s : State) (g : Seg) : s.flushBulk g = { s with
    egress := s.egress.set g
      { s.egress.get g with bulkLane := [], hand := (s.egress.get g).hand.bind InHand.withoutBulk }
    store := (s.egress.get g).bulkLane.foldl (fun st d => st.leave d g) s.store } :=
  State.leaveAll_eq _ _ _

/-- A role change unlearns a segment's stations where it leaves Downstream (R21, R160), and else leaves the table. -/
theorem State.changeRole_table (s : State) (g : Seg) (before after : Role) : (s.changeRole g before after).table
    = if before = .downstream ∧ after ≠ .downstream then s.table.unlearnSegment g else s.table := by
  unfold State.changeRole
  split
  next same => rw [if_neg fun h => h.2 (same ▸ h.1)]
  next differs =>
    cases before with
    | downstream =>
      rw [if_pos ⟨rfl, fun h => differs h.symm⟩]
      dsimp only
      obtain ⟨x, e, k, st, h⟩ := (s.unlearnSegment g).pruneWaiting_only g
      rw [h]
      rfl
    | upstream =>
      rw [if_neg nofun]
      dsimp only
      obtain ⟨x, e, k, st, h⟩ := s.abandonLive_only g
      rw [h, State.flushBulk_eq]
    | off =>
      rw [if_neg nofun]

/-- What a lease dropped at an apply changes: the lease and the event unit (R162). -/
theorem State.applyLease_only (s : State) (g : Seg) (after : SegRecord) :
    ∃ l v, s.applyLease g after = { s with lease := l, events := v } := by
  unfold State.applyLease
  split
  · exact s.dropLeaseOf_only g 1
  · exact ⟨_, _, rfl⟩

/-- The table after an apply (R21, R159). -/
theorem State.applySettings_table (s : State) (g : Seg) : (s.applySettings g).table
    = if (s.active g).role = .downstream ∧ (s.settings.staged.get g).role ≠ .downstream
      then s.table.unlearnSegment g else s.table := by
  unfold State.applySettings
  dsimp only
  obtain ⟨l, v, h⟩ := State.applyLease_only (State.changeRole (State.setLine { s with settings := s.settings.apply g } g
    ((s.lines.get g).applied (s.active g) (s.settings.staged.get g) s.time)) g (s.active g).role
    (s.settings.staged.get g).role) g (s.settings.staged.get g)
  exact (congrArg State.table h).trans (State.changeRole_table _ _ _ _)

/-- An apply whose segment has no frame in assembly keeps the laws: where it leaves Downstream nothing stays Learned on it
(R2, R21, R75, R158). -/
theorem State.applySettings_carriesLaws {s : State} {g : Seg} (hunts : s.receivers.get g = .hunt) :
    s.CarriesLaws (s.applySettings g) := by
  obtain ⟨x, e, k, st, t, v, l, only⟩ := s.applySettings_only g
  have active : ∀ u, (s.applySettings g).active u = if u = g then s.settings.staged.get g else s.active u := by
    intro u
    rw [only]
    exact PerSeg.get_set _ _ _ _
  have own : (s.applySettings g).bridge.own = s.bridge.own := by rw [only]; rfl
  have receivers : (s.applySettings g).receivers = s.receivers := by rw [only]
  have entry : ∀ a, (s.applySettings g).entry a
      = if (s.active g).role = .downstream ∧ (s.settings.staged.get g).role ≠ .downstream
        then (s.entry a).unlearned g else s.entry a := by
    intro a
    unfold State.entry
    rw [State.applySettings_table]
    split
    · exact StationTable.unlearnSegment_entry _ _ _
    · rfl
  have reserved : ∀ a, s.entry a = .unassigned → (s.applySettings g).entry a = .unassigned := by
    intro a h
    rw [entry, h]
    split <;> rfl
  refine ⟨fun table responses => ⟨?_, ?_⟩, fun both => ⟨reserved _ both.1, ?_⟩⟩
  · rw [State.tableLaws_iff] at table ⊢
    intro a
    have before := table a
    rw [entry]
    cases h : s.entry a with
    | unassigned => split <;> trivial
    | blocked => split <;> trivial
    | static segs cls miss muted =>
      rw [h] at before
      split <;> exact before
    | learned u cls used age miss =>
      rw [h] at before
      have down : (s.active u).role = .downstream := before
      by_cases here : u = g
      · subst here
        by_cases stays : (s.settings.staged.get u).role = .downstream
        · rw [if_neg fun left => left.2 stays]
          change ((s.applySettings u).active u).role = _
          rw [active, if_pos rfl, stays]
        · rw [if_pos ⟨down, stays⟩, Entry.unlearned, if_pos rfl]
          trivial
      · have same : (if (s.active g).role = .downstream ∧ (s.settings.staged.get g).role ≠ .downstream
            then Entry.unlearned g (.learned u cls used age miss) else .learned u cls used age miss)
            = .learned u cls used age miss := by
          rw [Entry.unlearned, if_neg here, ite_self]
        rw [same]
        change ((s.applySettings g).active u).role = _
        rw [active, if_neg here, down]
  · intro u f frame response
    rw [receivers] at frame
    have other : u ≠ g := by
      rintro rfl
      rw [hunts] at frame
      cases frame
    rw [active, if_neg other]
    exact responses u f frame response
  · rw [own]
    exact reserved _ both.2

/-! ### Every command -/

/-- What an event of the bridge comes to: nothing, or its effect at a moment at which it is due (log 2, log 3). -/
theorem State.takeEvent_cases {s t : State} {due : Option Nat} {effect : State → State}
    (taken : s.takeEvent due effect = .next t) : t = s ∨ ∃ m, due = some m ∧ t = effect (s.advance m) := by
  unfold State.takeEvent at taken
  have result := Host.Outcome.next.inj taken
  split at result
  · exact .inl result.symm
  · split at result
    · exact .inl result.symm
    · exact .inr ⟨_, rfl, result.symm⟩

/-- An event whose effect carries the laws. -/
theorem State.takeEvent_carriesLaws {s t : State} {due : Option Nat} {effect : State → State}
    (taken : s.takeEvent due effect = .next t)
    (carries : ∀ m, due = some m → (s.advance m).CarriesLaws (effect (s.advance m))) : s.CarriesLaws t := by
  rcases State.takeEvent_cases taken with rfl | ⟨m, falls, rfl⟩
  · exact .refl _
  · exact (State.LeavesStations.of_eq rfl rfl rfl).carriesLaws.trans (carries m falls)

/-- An event whose effect leaves the stations. -/
theorem State.takeEvent_leaves {s t : State} {due : Option Nat} {effect : State → State}
    (taken : s.takeEvent due effect = .next t) (leaves : ∀ u : State, u.LeavesStations (effect u)) : s.CarriesLaws t :=
  State.takeEvent_carriesLaws taken fun _ _ => (leaves _).carriesLaws

/-- A management row whose command carries the laws. -/
theorem State.command_carriesLaws {s t : State} {c : MgmtCommand} {carry : Carry}
    (taken : s.command c carry = .next t) (carries : ∀ (s : State) g args, s.CarriesLaws (carry s g args).state) :
    s.CarriesLaws t :=
  State.takeEvent_carriesLaws taken fun _ _ => State.takeLocal_carriesLaws carries _ c

/-- A management row whose command leaves the stations. -/
theorem State.command_leaves {s t : State} {c : MgmtCommand} {carry : Carry}
    (taken : s.command c carry = .next t) (leaves : ∀ (s : State) g args, s.LeavesStations (carry s g args).state) :
    s.CarriesLaws t :=
  State.command_carriesLaws taken fun s g args => (leaves s g args).carriesLaws

/-- A state that is the same leaves the stations. -/
theorem State.LeavesStations.of_same {s t : State} (same : t = s) : s.LeavesStations t := same ▸ .refl s

/-- Every command carries the laws of the station table. -/
theorem exec_carriesLaws {c : Instr} {s t : State} (taken : exec c s = .next t) : s.CarriesLaws t := by
  unfold exec at taken
  cases c with
  | characterComplete g x => exact State.takeEvent_carriesLaws taken fun _ _ => State.characterComplete_carriesLaws _ g x
  | breakFound g => exact State.takeEvent_carriesLaws taken fun _ _ => State.breakFound_carriesLaws _ g
  | falseStart g => exact State.takeEvent_leaves taken fun _ => .of_eq rfl rfl rfl
  | startWhileDriving g => exact State.takeEvent_leaves taken fun u => u.startHeard_leaves g
  | recoverEnd g => exact State.takeEvent_leaves taken fun _ => .of_eq rfl rfl rfl
  | idleGapExpiry g => exact State.takeEvent_carriesLaws taken fun _ _ => State.idleGap_carriesLaws _ g
  | arbiterScan => exact State.takeEvent_leaves taken State.scan_leaves
  | takeLine g => exact State.takeEvent_leaves taken fun u => u.takeLine_leaves g
  | leadGuardEnd g =>
    refine State.takeEvent_leaves taken fun u => ?_
    obtain ⟨l, e, h⟩ := u.endLead_only g
    exact h ▸ .of_eq rfl rfl rfl
  | characterSent g =>
    refine State.takeEvent_leaves taken fun u => ?_
    obtain ⟨l, e, h⟩ := u.characterSent_only g
    exact h ▸ .of_eq rfl rfl rfl
  | echoDeadline g => exact State.takeEvent_leaves taken fun _ => .of_eq rfl rfl rfl
  | breakSent g => exact State.takeEvent_leaves taken fun u => u.breakSent_leaves g
  | tailGuardEnd g straps =>
    exact State.takeEvent_carriesLaws taken fun m _ =>
      .trans (t := { s.advance m with straps := straps }) (State.LeavesStations.of_eq rfl rfl rfl).carriesLaws
        (State.endTail_carriesLaws _ g)
  | backoffEnd g => exact State.takeEvent_leaves taken fun _ => .of_eq rfl rfl rfl
  | responseTimerExpiry r => exact State.takeEvent_carriesLaws taken fun _ _ => State.responseTimer_carriesLaws _ r
  | agingTick => exact State.takeEvent_leaves taken State.agingTick_leaves
  | sweepVisit => exact State.takeEvent_carriesLaws taken fun _ _ => State.sweepVisit_carriesLaws _
  | walkVisit => exact State.takeEvent_carriesLaws taken fun _ _ => State.walkVisit_carriesLaws _
  | leaseExpiry => exact State.takeEvent_leaves taken State.expireLease_leaves
  | settingsApply g =>
    refine State.takeEvent_carriesLaws taken fun m falls => State.applySettings_carriesLaws ?_
    unfold State.applyDue at falls
    split at falls
    next quiet =>
      simp only [State.quietPoint, Bool.and_eq_true, beq_iff_eq] at quiet
      exact quiet.1.1.1.1.2
    next => cases falls
  | identify => exact State.command_leaves taken fun s _ _ => .refl s
  | readStatus => exact State.command_leaves taken fun s _ _ => .refl s
  | readStation => exact State.command_leaves taken fun s _ _ => .refl s
  | writeStation => exact State.command_carriesLaws taken carryWriteStation_carriesLaws
  | readStationRange claims =>
    refine State.takeEvent_carriesLaws taken fun m _ => ?_
    exact (State.takeLocal_carriesLaws (fun s g args =>
      (State.LeavesStations.of_same (carryReadStationRange_state s g args)).carriesLaws) _ _).trans
        (State.readStations_leaves _ claims).carriesLaws
  | clearLearned => exact State.command_leaves taken fun s g args => .of_same (carryClearLearned_state s g args)
  | readSegment => exact State.command_leaves taken fun s g args => .of_same (carryReadSegment_state s g args)
  | writeSegment => exact State.command_leaves taken carryWriteSegment_leaves
  | applySegment => exact State.command_leaves taken carryApplySegment_leaves
  | writeBridge => exact State.command_carriesLaws taken carryWriteBridge_carriesLaws
  | readBridge => exact State.command_leaves taken fun s _ _ => .refl s
  | readCounters claims =>
    refine State.takeEvent_carriesLaws taken fun m _ => ?_
    exact (State.takeLocal_carriesLaws (fun s g args =>
      (State.LeavesStations.of_same (carryCounters_state false s g args)).carriesLaws) _ _).trans
        (State.readCounterBlock_leaves _ claims).carriesLaws
  | readClearCounters claims =>
    refine State.takeEvent_carriesLaws taken fun m _ => ?_
    exact (State.takeLocal_carriesLaws (fun s g args =>
      (State.LeavesStations.of_same (carryCounters_state true s g args)).carriesLaws) _ _).trans
        (State.readCounterBlock_leaves _ claims).carriesLaws
  | readEvents => exact State.command_leaves taken carryReadEvents_leaves
  | takeLease => exact State.command_leaves taken carryTakeLease_leaves
  | dropLease => exact State.command_leaves taken carryDropLease_leaves
  | restart => exact State.command_leaves taken fun s g args => .of_same (carryRestart_state s g args)
  | restartSegment => exact State.command_leaves taken carryRestartSegment_leaves
  | echo => exact State.command_leaves taken fun s _ _ => .refl s
  | badCommand => exact State.takeEvent_carriesLaws taken fun _ _ => State.takeUnknown_carriesLaws _
  | powerOnRestart cause =>
    have result := Host.Outcome.next.inj taken
    have cleared : s.CarriesLaws s.clearAll := State.clearAll_carriesLaws s s
    subst result
    cases cause <;> exact cleared.trans (State.LeavesStations.of_eq rfl rfl rfl).carriesLaws
  | powerOnRestartEnd straps =>
    have result := Host.Outcome.next.inj taken
    split at result
    · subst result
      exact (State.clearAll_carriesLaws s { s with straps := straps }).trans
        (State.LeavesStations.of_eq rfl rfl rfl).carriesLaws
    · subst result
      exact .refl _
  | fallingEdge g => exact State.takeEvent_leaves taken fun _ => .of_eq rfl rfl rfl

/-- What the bridge does on an empty queue leaves the stations (log 4). -/
theorem State.idle_leaves (s : State) : s.LeavesStations s.idle := by
  unfold State.idle
  split
  · exact .refl s
  · split <;> exact .of_eq rfl rfl rfl

/-- Every step carries the laws of the station table. -/
theorem step_carriesLaws {s t : State} (stepped : step s = .next t) : s.CarriesLaws t := by
  unfold step at stepped
  split at stepped
  · cases stepped
    exact s.idle_leaves.carriesLaws
  next c rest _ =>
    exact .trans (t := { s with pending := rest }) (State.LeavesStations.of_eq rfl rfl rfl).carriesLaws
      (exec_carriesLaws stepped)

/-- Settles O54: every step carries the laws, by the commands one by one. -/
theorem tableLawsAreKept : Obligations.TableLawsAreKept :=
  ⟨fun _ _ table responses stepped => (step_carriesLaws stepped).1 table responses,
    fun _ _ reserved stepped => (step_carriesLaws stepped).2 reserved⟩

end Sys2Proof.Machine
end

