-- ==== Sys2Proof/Proofs/StationOperations.lean ====
section
/-!
The station table's operations, each said of every state: the route decision (R5), learning (R8), misses (R10, R11), the
timers, sweep and walk (R12 to R17), and WriteStation (R20).
-/

namespace Sys2Proof.Machine

/-! ### The route decision (R5) -/

/-- The Downstream segments, as a set. -/
theorem State.has_downstream (s : State) (g : Seg) : s.downstream.has g = true ↔ (s.active g).role = .downstream := by
  rw [State.downstream, SegSet.has_ofPred, beq_iff_eq]

/-- A set of one is not empty. -/
theorem SegSet.one_ne_zero (g : Seg) : SegSet.one g ≠ 0 := by cases g <;> decide

/-- A route that carries, carries to a set that is not empty. -/
theorem Route.ofSet_carry {m n : SegSet} {c k : TimeoutClass} (h : Route.ofSet m c = .carry n k) : n = m ∧ m ≠ 0 := by
  unfold Route.ofSet at h
  split at h
  · cases h
  next some_ =>
    cases h
    exact ⟨rfl, some_⟩

/-- Every segment a route carries to is Downstream, and there is one: of a Learned entry by the law of R2. -/
theorem State.route_downstream {s : State} {a : Byte} (table : s.TableLaws) {m : SegSet} {c : TimeoutClass}
    (route : s.route a = .carry m c) : m ≠ 0 ∧ ∀ g, m.has g = true → (s.active g).role = .downstream := by
  unfold State.route at route
  split at route
  · cases route
  · obtain ⟨rfl, some_⟩ := Route.ofSet_carry route
    refine ⟨some_, fun g here => ?_⟩
    rw [SegSet.has_and, Bool.and_eq_true] at here
    exact (s.has_downstream g).1 here.2
  next g cls used age miss h =>
    cases route
    refine ⟨SegSet.one_ne_zero g, fun u here => ?_⟩
    rw [SegSet.has_one, decide_eq_true_eq] at here
    exact here ▸ table.1 a g _ used age miss h
  · split at route
    · obtain ⟨rfl, some_⟩ := Route.ofSet_carry route
      exact ⟨some_, fun g here => (s.has_downstream g).1 here⟩
    · cases route

/-- Settles O9. -/
theorem routeDecision : Obligations.RouteDecision := by
  intro s a
  refine ⟨fun h => ?_, fun m c k q h => ?_, fun g c used age k h => ?_, fun h flood => ?_, fun h flood => ?_,
    s.has_downstream, fun table _ _ route => State.route_downstream table route⟩
  · rw [State.route, h]
  · rw [State.route, h]
    rfl
  · rw [State.route, h]
  · rw [State.route, h]
    exact if_pos flood
  · rw [State.route, h]
    exact if_neg (by rw [flood]; exact Bool.false_ne_true)

/-! ### Learning and misses (R8, R10, R11) -/

/-- Settles O25: the rows of R8. -/
theorem learningStep : Obligations.LearningStep := by
  intro s a t notZero
  refine ⟨fun own => if_pos (.inl own), fun notOwn => ?_⟩
  have step : s.learn a t = match s.entry a with
      | .unassigned => (s.putEntry a (.learned t s.bridge.learnClass true 0 0)).raise .learned (some t) (some a) 0
      | .learned u c _ age _ =>
        if u = t then s.putEntry a (.learned u c true age 0)
        else (s.putEntry a (.learned t s.bridge.learnClass true 0 0)).raise .moved (some t) (some a) u.byte
      | .static m c _ _ => s.putEntry a (.static m c 0 false)
      | .blocked => s := (if_neg (not_or.2 ⟨notOwn, notZero⟩)).trans (by rfl)
  refine ⟨fun h => ?_, fun c used age k h => ?_, fun v c used age k h moved => ?_, fun m c k q h => ?_, fun h => ?_⟩
  · rw [step, h]
  · rw [step, h]
    exact if_pos rfl
  · rw [step, h]
    exact if_neg moved
  · rw [step, h]
  · rw [step, h]

/-- A miss count raised by 1, staying at 15, as a number (R10). -/
theorem missSucc_eq (m : BitVec 4) : missSucc m = BitVec.ofNat 4 (min 15 (m.toNat + 1)) := by
  revert m
  decide

/-- The raised miss count against the limit (R10, R11). -/
theorem missSucc_limit (m limit : BitVec 4) :
    (limit ≠ 0 ↔ limit.toNat ≠ 0) ∧ (limit ≤ missSucc m ↔ limit.toNat ≤ min 15 (m.toNat + 1))
      ∧ (missSucc m = limit ↔ min 15 (m.toNat + 1) = limit.toNat) := by
  revert m limit
  decide

/-- Settles O26: the two kinds of entry that count misses. -/
theorem missCounting : Obligations.MissCounting := by
  intro s a
  refine ⟨?_, fun g c used age k h => ?_, fun m c k q h => ?_⟩
  · rintro (h | h) <;> rw [State.countMiss, h]
  · obtain ⟨on, reached, _⟩ := missSucc_limit k s.bridge.missLimit
    rw [State.countMiss, h, ← missSucc_eq]
    exact if_congr (and_congr on reached) rfl rfl
  · obtain ⟨on, _, met⟩ := missSucc_limit k s.bridge.missLimit
    rw [State.countMiss, h, ← missSucc_eq]
    dsimp only
    simp only [← on, ← met]
    split
    next at_ => rw [at_.2.1]
    next => rfl

/-! ### Timers (R12 to R15, R161) -/

/-- An event that is due, taken. -/
theorem State.advance_eq (s : State) (m : Nat) : s.advance m = { s with time := max s.time m } := rfl

/-- Settles O27: AGING_TICK with and without a sweep in flight, and LEASE_EXPIRY. -/
theorem timersFall : Obligations.TimersFall := by
  refine ⟨fun s m free due => ⟨fun still => ?_, fun w sweeps => ?_⟩, fun s l free held => ?_⟩
  · change s.takeEvent s.agingDue State.agingTick = _
    rw [due, State.takeEvent_due free, State.advance_eq]
    unfold State.agingTick
    dsimp only
    rw [still]
    rfl
  · change s.takeEvent s.agingDue State.agingTick = _
    rw [due, State.takeEvent_due free, State.advance_eq]
    unfold State.agingTick
    dsimp only
    rw [sweeps]
    rfl
  · have due : s.leaseDue = some (s.momentOf l.expiry) := by rw [State.leaseDue, held]; rfl
    change s.takeEvent s.leaseDue State.expireLease = _
    rw [due, State.takeEvent_due free, State.advance_eq]
    unfold State.expireLease
    dsimp only
    rw [held]
    rfl

/-- An entry written back changes nothing. -/
theorem StationTable.put_entry (t : StationTable) (a : Byte) : t.put a (t.entry a) = t := by
  simp [StationTable.put, StationTable.entry]

/-- What a sweep visit can do (R15): it writes its one entry e, and v are the events after it. -/
theorem State.sweepEntry_visits (s : State) (a : Byte) : ∃ e v,
    s.sweepEntry a = { s with table := s.table.put a e, events := v }
      ∧ (∀ g c age k, s.entry a = .learned g c true age k → e = .learned g c false 0 k ∧ v = s.events)
      ∧ (∀ g c age k, s.entry a = .learned g c false age k →
          (age.toNat + 1 < s.bridge.ageLimit.toNat → e = .learned g c false (age + 1) k ∧ v = s.events)
          ∧ (s.bridge.ageLimit.toNat ≤ age.toNat + 1 → e = .unassigned
            ∧ v = s.events.raise s.bridge.eventMask s.nowMs .unlearned (some g) (some a) 1))
      ∧ ((∀ g c used age k, s.entry a ≠ .learned g c used age k) → e = s.entry a ∧ v = s.events) := by
  have stays : { s with table := s.table.put a (s.entry a) } = s := by rw [State.entry, StationTable.put_entry]
  unfold State.sweepEntry
  cases h : s.entry a with
  | learned g c used age k =>
    cases used with
    | true =>
      refine ⟨_, _, rfl, fun _ _ _ _ same => ?_, nofun, fun none_ => absurd rfl (none_ _ _ _ _ _)⟩
      cases same
      exact ⟨rfl, rfl⟩
    | false =>
      by_cases old : s.bridge.ageLimit.toNat ≤ age.toNat + 1
      · refine ⟨.unassigned, s.events.raise s.bridge.eventMask s.nowMs .unlearned (some g) (some a) 1, if_pos old,
          nofun, fun _ _ _ _ same => ?_, fun none_ => absurd rfl (none_ _ _ _ _ _)⟩
        cases same
        exact ⟨fun young => absurd old (Nat.not_le.2 young), fun _ => ⟨rfl, rfl⟩⟩
      · refine ⟨.learned g c false (age + 1) k, s.events, if_neg old,
          nofun, fun _ _ _ _ same => ?_, fun none_ => absurd rfl (none_ _ _ _ _ _)⟩
        cases same
        exact ⟨fun _ => ⟨rfl, rfl⟩, fun old' => absurd old' old⟩
  | unassigned =>
    rw [h] at stays
    exact ⟨_, _, stays.symm, nofun, nofun, fun _ => ⟨rfl, rfl⟩⟩
  | static m c k q =>
    rw [h] at stays
    exact ⟨_, _, stays.symm, nofun, nofun, fun _ => ⟨rfl, rfl⟩⟩
  | blocked =>
    rw [h] at stays
    exact ⟨_, _, stays.symm, nofun, nofun, fun _ => ⟨rfl, rfl⟩⟩

/-- Settles O28: the visit writes the entry of the cursor, and the cursor moves on. -/
theorem sweepVisit : Obligations.SweepVisit := by
  intro s w free sweeps
  have due : s.sweepDue = some (s.momentOf (w.start + 4 * (w.cursor.setWidth 32 + 1))) := by
    rw [State.sweepDue, sweeps]
    rfl
  obtain ⟨e, v, visits, used, unused, other⟩ := State.sweepEntry_visits
    { s with time := max s.time (s.momentOf (w.start + 4 * (w.cursor.setWidth 32 + 1))) } w.cursor
  have visited : exec .sweepVisit s = .next { s with
      time := max s.time (s.momentOf (w.start + 4 * (w.cursor.setWidth 32 + 1)))
      table := { s.table.put w.cursor e with
        sweep := if w.cursor = 0xFF then none else some { w with cursor := w.cursor + 1 } }
      events := v } := by
    change s.takeEvent s.sweepDue State.sweepVisit = _
    rw [due, State.takeEvent_due free, State.advance_eq]
    unfold State.sweepVisit
    dsimp only
    rw [sweeps]
    dsimp only
    rw [visits]
  have entry : ∀ a, (s.table.put w.cursor e).entry a = if a = w.cursor then e else s.entry a :=
    fun a => StationTable.entry_put s.table w.cursor a e
  have here : (s.table.put w.cursor e).entry w.cursor = e := (entry _).trans (if_pos rfl)
  refine ⟨_, visited, rfl, rfl, fun a away => (entry a).trans (if_neg away), fun g c age k h => ?_,
    fun g c age k h => ⟨fun young => ?_, fun old => ?_⟩, fun h => ?_, rfl, rfl, rfl, rfl, rfl, rfl, rfl, rfl, rfl, rfl,
    rfl, rfl, rfl, rfl, rfl⟩
  · obtain ⟨new, quiet⟩ := used g c age k h
    exact ⟨here.trans new, quiet⟩
  · obtain ⟨new, quiet⟩ := (unused g c age k h).1 young
    exact ⟨here.trans new, quiet⟩
  · obtain ⟨new, raised⟩ := (unused g c age k h).2 old
    exact ⟨here.trans new, raised⟩
  · obtain ⟨new, quiet⟩ := other h
    exact ⟨here.trans new, quiet⟩

/-- A visit hits exactly a Learned entry on a masked segment (R17). -/
theorem Entry.learnedIn_iff (e : Entry) (m : SegSet) :
    e.learnedIn m = true ↔ ∃ g c used age k, e = .learned g c used age k ∧ m.has g = true := by
  cases e with
  | learned g c used age k =>
    refine ⟨fun h => ⟨g, c, used, age, k, rfl, h⟩, ?_⟩
    rintro ⟨_, _, _, _, _, same, masked⟩
    cases same
    exact masked
  | unassigned => simp [Entry.learnedIn]
  | static => simp [Entry.learnedIn]
  | blocked => simp [Entry.learnedIn]

/-- A walk visit before the last (R17). -/
theorem State.walkVisit_more {s : State} {r : Fin Config.numTxns} {start : Word32} {k : Byte} {m : SegSet} {n : Byte}
    {hit : Bool} (walks : s.mgmt.engine = .busy r (.walk start k m n)) (more : k ≠ 0xFF)
    (hits : (s.entry k).learnedIn m = hit) : s.walkVisit = { s with
      table := if hit then s.table.put k .unassigned else s.table
      mgmt := { s.mgmt with engine := .busy r (.walk start (k + 1) m (if hit then n + 1 else n)) } } := by
  unfold State.walkVisit
  rw [walks]
  dsimp only
  rw [hits, if_neg more]
  cases hit <;> rfl

/-- The last visit of a walk (R17, R141). -/
theorem State.walkVisit_last {s : State} {r : Fin Config.numTxns} {t : Txn} {start : Word32} {m : SegSet} {n : Byte}
    {hit : Bool} (walks : s.mgmt.engine = .busy r (.walk start 0xFF m n)) (used : s.txn r = some t)
    (hits : (s.entry 0xFF).learnedIn m = hit) : s.walkVisit
      = (State.raise { s with table := if hit then s.table.put 0xFF .unassigned else s.table } .bulkUnlearn none none
          (if hit then n + 1 else n)).finishCached r t ⟨.done, [if hit then n + 1 else n], none⟩ := by
  have cleared : (if hit = true then s.putEntry 0xFF .unassigned else s)
      = { s with table := if hit then s.table.put 0xFF .unassigned else s.table } := by
    cases hit <;> rfl
  have used' : ∀ b d, (State.raise { s with table := b } .bulkUnlearn none none d).txn r = some t := fun _ _ => used
  unfold State.walkVisit
  rw [walks]
  dsimp only
  rw [hits, if_pos rfl, cleared, used']

/-- Settles O29: a visit before the last, passing over its entry or clearing it, and the last. -/
theorem walkVisit : Obligations.WalkVisit := by
  have visit : ∀ (s : State) (r : Fin 8) (start : Word32) (k : Byte) (m : SegSet) (n : Byte), s.held = false →
      s.mgmt.engine = .busy r (.walk start k m n) → exec .walkVisit s
        = .next (State.walkVisit { s with time := max s.time (s.momentOf (start + (k.setWidth 32 + 1))) }) := by
    intro s r start k m n free walks
    have due : s.walkDue = some (s.momentOf (start + (k.setWidth 32 + 1))) := by rw [State.walkDue, walks]
    change s.takeEvent s.walkDue State.walkVisit = _
    rw [due, State.takeEvent_due free, State.advance_eq]
  refine ⟨fun s r start k m n free walks more => ⟨fun passes => ?_, fun g c used age x h masked => ?_⟩,
    fun s r t start m n total hit free walks used hits counted => ?_⟩
  · have miss : (s.entry k).learnedIn m = false := by
      refine Bool.eq_false_iff.2 fun hit => ?_
      obtain ⟨g, c, used, age, x, h, masked⟩ := (Entry.learnedIn_iff _ _).1 hit
      rw [passes g c used age x h] at masked
      cases masked
    exact (visit s r start k m n free walks).trans (congrArg _ (State.walkVisit_more (hit := false) walks more miss))
  · have clears : (s.entry k).learnedIn m = true := (Entry.learnedIn_iff _ _).2 ⟨g, c, used, age, x, h, masked⟩
    exact (visit s r start k m n free walks).trans (congrArg _ (State.walkVisit_more (hit := true) walks more clears))
  · have clears : (s.entry 0xFF).learnedIn m = hit := by
      rw [Bool.eq_iff_iff, Entry.learnedIn_iff, hits]
    refine ⟨_, (visit s r start 0xFF m n free walks).trans (congrArg _ (State.walkVisit_last walks used clears)), ?_⟩
    rw [← counted]
    exact State.finishCached_answered _ r t ⟨.done, [total], none⟩ used

/-- The checks of R20 in their order, for the four arguments of WriteStation. -/
theorem State.writtenEntry_checks (s : State) (a kind mask cls : Byte) : s.writtenEntry [a, kind, mask, cls]
    = if a = 0 then .error .badArgument
      else if a = s.bridge.own ∨ s.mgmt.pendingOwn = some a then .error .conflict
      else if kind = 0 then .ok .unassigned
      else if kind = 3 then .ok .blocked
      else if kind = 1 ∧ 1 ≤ mask.toNat ∧ mask.toNat < 16 ∧ cls.toNat < 4 then
        .ok (.static (mask.setWidth 4) (cls.setWidth 2) 0 false)
      else .error .badArgument := by
  have empty : ∀ m : Byte, m.toNat < 16 → (m.setWidth 4 = 0 ↔ ¬ 1 ≤ m.toNat) := by decide
  have args : arg [a, kind, mask, cls] 0 = a ∧ arg [a, kind, mask, cls] 1 = kind ∧ arg [a, kind, mask, cls] 2 = mask
      ∧ arg [a, kind, mask, cls] 3 = cls := ⟨rfl, rfl, rfl, rfl⟩
  unfold State.writtenEntry
  simp only [args]
  refine if_congr Iff.rfl rfl (if_congr Iff.rfl rfl (if_congr Iff.rfl rfl (if_congr Iff.rfl rfl ?_)))
  by_cases static : kind = 1
  · rw [if_pos static, maskOf]
    by_cases named : mask.toNat < 16
    · rw [if_pos named]
      dsimp only
      by_cases some_ : 1 ≤ mask.toNat
      · rw [if_neg fun none_ => (empty mask named).1 none_ some_]
        exact if_congr ⟨fun h => ⟨static, some_, named, Nat.lt_succ_of_le h⟩, fun h => Nat.le_of_lt_succ h.2.2.2⟩ rfl rfl
      · rw [if_pos ((empty mask named).2 some_), if_neg fun h => some_ h.2.1]
    · rw [if_neg named, if_neg fun h => named h.2.2.1]
  · rw [if_neg static, if_neg fun h => static h.1]

/-- WRITE_STATION answers with the status of the first failing check, or Done once the entry is written. -/
theorem State.Carries.writesStation {s : State} {r : Fin Config.numTxns} {t : Txn} {args : List Byte}
    (carries : s.Carries r t .writeStation args) : ∃ u, exec .writeStation s = .next u
      ∧ (∀ st, s.dequeue.writtenEntry args = .error st → s.dequeue.Answered u r t st [] none)
      ∧ ∀ e, s.dequeue.writtenEntry args = .ok e →
        (s.dequeue.putEntry (arg args 0) e).Answered u r t .done [] none := by
  have taken : exec .writeStation s = .next _ :=
    (carries.command carryWriteStation).trans (congrArg _ (carries.takes carryWriteStation))
  obtain ⟨⟨⟨_, _, _, used⟩, _⟩, _⟩ := carries
  unfold carryWriteStation at taken
  cases written : s.dequeue.writtenEntry args with
  | error st =>
    rw [written] at taken
    refine ⟨_, taken, fun st' same => ?_, nofun⟩
    cases same
    exact State.finishCached_answered s.dequeue r t ⟨st, [], none⟩ used
  | ok e =>
    rw [written] at taken
    refine ⟨_, taken, nofun, fun e' same => ?_⟩
    cases same
    exact State.finishCached_answered (s.dequeue.putEntry (arg args 0) e) r t ⟨.done, [], none⟩ used

/-- Settles O38: the checks of R20 in their order, and the answer of each. -/
theorem stationIsWritten : Obligations.StationIsWritten := by
  intro s r t a kind mask cls carries
  obtain ⟨u, taken, refused, wrote⟩ := carries.writesStation
  have checks := s.dequeue.writtenEntry_checks a kind mask cls
  refine ⟨u, taken, ?_⟩
  split
  next zero => exact refused _ (checks.trans (if_pos zero))
  next notZero =>
    replace checks := checks.trans (if_neg notZero)
    split
    next own => exact refused _ (checks.trans (if_pos own))
    next notOwn =>
      replace checks := checks.trans (if_neg notOwn)
      split
      next unassigned => exact wrote _ (checks.trans (if_pos unassigned))
      next notUnassigned =>
        replace checks := checks.trans (if_neg notUnassigned)
        split
        next blocked => exact wrote _ (checks.trans (if_pos blocked))
        next notBlocked =>
          replace checks := checks.trans (if_neg notBlocked)
          split
          next static => exact wrote _ (checks.trans (if_pos static))
          next bad => exact refused _ (checks.trans (if_neg bad))

end Sys2Proof.Machine
end

