-- ==== Sys2Proof/Proofs/OwnAddressChange.lean ====
section
/-!
An own address change taken at the send completion of the reply that carries it (R4, R135, R136, R156).
-/

namespace Sys2Proof.Machine

/-- With no own address pending there is nothing to settle (R4). -/
theorem State.settlePendingOwn_none {s : State} (none_ : s.mgmt.pendingOwn = none) : s.settlePendingOwn = s := by
  unfold State.settlePendingOwn
  split
  · rfl
  · rw [← none_]

/-- The send of a reply whose copy, at the head of its lane, has an effect armed completes (R122, R135). -/
theorem State.sendCompleted_armed {s : State} {g : Seg} {h : InHand} {d : Fin Config.numDescs} {a : Armed}
    {l : List ReplyCopy} (inHand : (s.egress.get g).hand = some h) (reply : h.item = .reply d)
    (lane : (s.egress.get g).replyLane = ⟨d, some a⟩ :: l) : s.sendCompleted g
      = (((s.dropItem g (.reply d)).count g .framesSent).takeDeferred g a).settlePendingOwn := by
  have armed : (s.egress.get g).armedOn (.reply d) = some a := by
    simp [Egress.armedOn, lane]
  unfold State.sendCompleted
  rw [inHand]
  dsimp only
  rw [reply, armed]
  rfl

/-- An own address change taken: no address is pending afterwards (R156). -/
theorem State.takeDeferred_ownAddress (s : State) (g : Seg) (own cmd seq : Byte) :
    (s.takeDeferred g ⟨.ownAddress own, cmd, seq⟩).settlePendingOwn
      = s.takeDeferred g ⟨.ownAddress own, cmd, seq⟩ :=
  State.settlePendingOwn_none rfl

/-- TAIL ends with no collision found (R119): DE is released, the scheduler is QUIET and the send completes. -/
theorem State.endTail_completes {s : State} {g : Seg} (clear : (s.egress.get g).collision = false) : s.endTail g
    = ((s.releaseLine g).setEgress g { s.egress.get g with state := .quiet }).sendCompleted g := by
  have clear' : ¬ ((s.releaseLine g).egress.get g).collision = true := by
    change ¬ (s.egress.get g).collision = true
    rw [clear]
    exact Bool.false_ne_true
  exact if_neg clear'

/-- Settles O22: the send completes, and the effect on its copy is taken. -/
theorem ownAddressChangeIsTaken : Obligations.OwnAddressChangeIsTaken := by
  intro s g x ends a h d own cmd seq l free tail silent marking clear inHand reply lane
  have due : s.tailGuardDue g = some ends := by
    unfold State.tailGuardDue
    rw [tail]
    exact if_pos ⟨silent, marking⟩
  obtain ⟨p, hp⟩ : ∃ p : State, p = { s with time := max s.time ends, straps := x } := ⟨_, rfl⟩
  have egress : p.egress = s.egress := by rw [hp]
  obtain ⟨v, hv⟩ : ∃ v, v = (p.releaseLine g).setEgress g { s.egress.get g with state := .quiet } := ⟨_, rfl⟩
  have lanes : v.egress = s.egress.set g { s.egress.get g with state := .quiet } := by
    rw [hv, ← egress]
    rfl
  have here : v.egress.get g = { s.egress.get g with state := .quiet } := by
    rw [lanes, PerSeg.get_set, if_pos rfl]
  have others : ∀ q, q ≠ g → v.egress.get q = s.egress.get q := by
    intro q away
    rw [lanes, PerSeg.get_set, if_neg away]
  have completes : p.endTail g
      = ((v.dropItem g (.reply d)).count g .framesSent).takeDeferred g ⟨.ownAddress own, cmd, seq⟩ := by
    rw [State.endTail_completes (by rw [egress, clear]), egress, ← hv, ← State.takeDeferred_ownAddress]
    exact State.sendCompleted_armed (by rw [here]; exact inHand) reply (by rw [here]; exact lane)
  have taken : exec (.tailGuardEnd g x) s
      = .next (((v.dropItem g (.reply d)).count g .framesSent).takeDeferred g ⟨.ownAddress own, cmd, seq⟩) := by
    rw [← completes, hp]
    change s.takeEvent (s.tailGuardDue g) (fun s => State.endTail { s with straps := x } g) = _
    rw [due, State.takeEvent_due free]
    rfl
  have dropped : ∀ q, q ≠ g → ((v.dropItem g (.reply d)).egress.get q).replyLane = (s.egress.get q).replyLane := by
    intro q away
    rw [← others q away]
    exact congrArg Egress.replyLane ((PerSeg.get_set _ _ _ _).trans (if_neg away))
  have disarmed : ∀ q, ((((v.dropItem g (.reply d)).count g .framesSent).takeDeferred g
      ⟨.ownAddress own, cmd, seq⟩).egress.get q).replyLane
        = ((v.dropItem g (.reply d)).egress.get q).replyLane.map fun c => { c with armed := none } :=
    fun q => congrArg Egress.replyLane (PerSeg.get_tabulate _ q)
  subst hv hp
  refine ⟨_, taken, rfl, ?_, fun b away => ?_, rfl, fun q => PerSeg.get_const _ q, rfl, rfl, rfl, fun q c present => ?_,
    fun q away => ?_, rfl, rfl, rfl, rfl, ?_, rfl, rfl, rfl, rfl, rfl⟩
  · exact (StationTable.entry_put s.table own own .unassigned).trans (if_pos rfl)
  · exact (StationTable.entry_put s.table own b .unassigned).trans (if_neg away)
  · rw [disarmed, List.mem_map] at present
    obtain ⟨c', _, rfl⟩ := present
    rfl
  · rw [disarmed, dropped q away, List.map_map]
    rfl
  · exact (s.counters.raisedTo_nil g).more (a := .framesSent) (by simp)

end Sys2Proof.Machine
end

