-- ==== Sys2Proof/Proofs/SettingsApply.lean ====
section
/-!
A settings apply that takes a segment out of the Downstream or the Upstream role (R21, R49, R159, R160): what it does to the
line unit and the lease, to the transaction that waits for the segment, and to the live transaction and the bulk lane.
-/

namespace Sys2Proof.Machine

/-! ### The apply itself (R55, R159, R162) -/

/-- The line unit at an apply on a segment that was not Off, by the table of R55: only its receiver may change. -/
theorem LineUnit.applied_on (u : LineUnit) {before : SegRecord} (on : before.role ≠ .off) (after : SegRecord) (now : Nat) :
    u.applied before after now = { u with
      rx := if after.role = .off then .off
        else if before.rate = after.rate ∧ before.parity = after.parity ∧ before.stopBits = after.stopBits then u.rx
        else .recover now } := by
  unfold LineUnit.applied
  rw [if_neg on]
  split
  · rfl
  · split <;> rfl

/-- The lease at an apply: dropped with LeaseDropped, detail 1, where g holds it and may not keep it (R159, R162). -/
theorem State.applyLease_dropped {s : State} {g : Seg} {after : SegRecord} {dropped : Bool}
    (drops : dropped = true ↔ (∃ l, s.lease = some l ∧ l.holder = g) ∧ (after.mgmtAccess = false ∨ after.role = .off)) :
    s.applyLease g after = { s with
      lease := if dropped then none else s.lease
      events := if dropped then s.events.raise s.bridge.eventMask s.nowMs .leaseDropped (some g) none 1 else s.events } := by
  unfold State.applyLease
  cases dropped with
  | true =>
    obtain ⟨⟨l, held, holds⟩, unfit⟩ := drops.1 rfl
    rw [if_pos unfit, State.dropLeaseOf, held]
    exact if_pos holds
  | false =>
    split
    next unfit =>
      unfold State.dropLeaseOf
      split
      · rfl
      next l held => exact if_neg fun holds => Bool.false_ne_true (drops.2 ⟨⟨l, held, holds⟩, unfit⟩)
    · rfl

/-- SETTINGS_APPLY at the quiet point of a segment that was not Off (R158, R159): v is s with the record, the mark and the line
unit changed; the consequences of the role change follow, then the lease, then SegmentApplied. -/
theorem exec_settingsApply {s v : State} {g : Seg} {new : SegRecord} {dropped : Bool} (free : s.held = false)
    (quiet : s.quietPoint g = true) (on : (s.active g).role ≠ .off) (staged : new = s.settings.staged.get g)
    (drops : dropped = true ↔ (∃ l, s.lease = some l ∧ l.holder = g) ∧ (new.mgmtAccess = false ∨ new.role = .off))
    (record : v = { s with
      settings := { s.settings with
        active := s.settings.active.set g new, applyPending := s.settings.applyPending.erase g }
      lines := s.lines.set g { s.lines.get g with
        rx := if new.role = .off then .off
          else if (s.active g).rate = new.rate ∧ (s.active g).parity = new.parity ∧ (s.active g).stopBits = new.stopBits
            then (s.lines.get g).rx
          else .recover s.time } })
    {m : State} (changed : v.changeRole g (s.active g).role new.role = m) : exec (.settingsApply g) s = .next { m with
      lease := if dropped then none else s.lease
      events := (if dropped then m.events.raise s.bridge.eventMask s.nowMs .leaseDropped (some g) none 1
        else m.events).raise s.bridge.eventMask s.nowMs .segmentApplied (some g) none new.role.code } := by
  have due : s.applyDue g = some s.time := if_pos quiet
  have applied : s.applySettings g = (m.applyLease g new).raise .segmentApplied (some g) none new.role.code := by
    subst staged
    rw [← changed, record, ← LineUnit.applied_on _ on]
    rfl
  obtain ⟨x, e, k, st, t, y, keeps⟩ := v.changeRole_only g (s.active g).role new.role
  rw [changed, record] at keeps
  have lease : m.lease = s.lease := by rw [keeps]
  have mask : m.bridge.eventMask = s.bridge.eventMask := by rw [keeps]; rfl
  have now : m.nowMs = s.nowMs := by rw [keeps]; rfl
  change s.takeEvent (s.applyDue g) (fun s => s.applySettings g) = _
  rw [due, State.takeEvent_due free, State.advance_time, applied, State.applyLease_dropped (lease ▸ drops), lease, mask, now]
  unfold State.raise
  rw [← mask, ← now]
  rfl

/-! ### The records a closed transaction leaves (R37) -/

/-- Only record r, the pending list and nothing else of the transaction engine may differ between s and u. -/
def State.OtherRecords (s u : State) (r : Fin Config.numTxns) : Prop :=
  u.txns.holders = s.txns.holders ∧ u.txns.lastTimedOut = s.txns.lastTimedOut ∧ ∀ q, q ≠ r → u.txn q = s.txn q

theorem State.OtherRecords.of_txns {s u : State} {r : Fin Config.numTxns} (same : u.txns = s.txns) :
    s.OtherRecords u r := by
  refine ⟨by rw [same], by rw [same], fun q _ => ?_⟩
  rw [State.txn, same]
  rfl

theorem State.OtherRecords.trans {s t u : State} {r : Fin Config.numTxns} (first : s.OtherRecords t r)
    (next : t.OtherRecords u r) : s.OtherRecords u r :=
  ⟨next.1.trans first.1, next.2.1.trans first.2.1, fun q other => (next.2.2 q other).trans (first.2.2 q other)⟩

theorem State.putTxn_others (s : State) (r : Fin Config.numTxns) (t : Option Txn) : s.OtherRecords (s.putTxn r t) r :=
  ⟨rfl, rfl, fun q other => (s.txn_putTxn r q t).trans (if_neg other)⟩

theorem State.freeRecord_others (s : State) (r : Fin Config.numTxns) : s.OtherRecords (s.freeRecord r) r :=
  ⟨rfl, rfl, fun q other => (s.txn_freeRecord r q).trans (if_neg other)⟩

theorem State.closeTxn_others (s : State) (r : Fin Config.numTxns) (o : TxnOutcome) :
    s.OtherRecords (s.closeTxn r o) r := by
  unfold State.closeTxn
  split
  · exact .of_txns rfl
  next t _ =>
    dsimp only
    split
    · exact .of_txns rfl
    · have noticed : s.OtherRecords (match o.notice with
          | some code => if t.superseded = true then s.putTxn r (some { t with outcome := some o })
            else (s.putTxn r (some { t with outcome := some o })).notify t.origin code t.station
          | none => s.putTxn r (some { t with outcome := some o })) r := by
        have put := s.putTxn_others r (some { t with outcome := some o })
        split
        · split
          · exact put
          next code _ _ =>
            obtain ⟨e, k, h⟩ := (s.putTxn r (some { t with outcome := some o })).notify_only t.origin code t.station
            rw [h]
            exact put.trans (.of_txns rfl)
        · exact put
      split
      · exact noticed.trans (State.freeRecord_others _ r)
      · exact noticed

theorem State.dropRequest_others (s : State) (t : Txn) (r : Fin Config.numTxns) :
    s.OtherRecords (s.dropRequest t) r := by
  obtain ⟨st, h⟩ := s.dropRequest_only t
  rw [h]
  exact .of_txns rfl

theorem State.cancelWaiting_others (s : State) (r : Fin Config.numTxns) (o : TxnOutcome) :
    s.OtherRecords (s.cancelWaiting r o) r := by
  unfold State.cancelWaiting
  split
  · exact .of_txns rfl
  · exact (s.dropRequest_others _ r).trans (State.closeTxn_others _ r o)

/-! ### The transaction that waits for the segment (R49) -/

/-- One waiting transaction and a segment that leaves Downstream (R49). -/
theorem State.pruneWaiting_one {s : State} {r : Fin Config.numTxns} {t : Txn} (waits : s.txns.waiting = [r])
    (used : s.txn r = some t) (g : Seg) : s.pruneWaiting g
      = if t.egress.has g = true then
          if t.egress.erase g = 0 then
            (s.putTxn r (some { t with egress := t.egress.erase g })).cancelWaiting r .noRoute
          else s.putTxn r (some { t with egress := t.egress.erase g })
        else s := by
  unfold State.pruneWaiting
  rw [waits, List.foldl_cons, List.foldl_nil, used]

/-- With nothing waiting, nothing is pruned. -/
theorem State.pruneWaiting_nil {s : State} (none_ : s.txns.waiting = []) (g : Seg) : s.pruneWaiting g = s := by
  rw [State.pruneWaiting, none_, List.foldl_nil]

/-- What a notice does to the lanes and the counters depends on them alone (R109). -/
theorem State.told_congr {a b : State} (lanes : a.egress = b.egress) (counters : a.counters = b.counters) (g : Seg)
    (n : Option Notice) : (a.told g n).egress = (b.told g n).egress ∧ (a.told g n).counters = (b.told g n).counters := by
  unfold State.told
  cases n with
  | none => exact ⟨lanes, counters⟩
  | some x =>
    dsimp only
    rw [lanes, counters]
    exact ⟨rfl, rfl⟩

/-- A notice leaves the transaction engine and the store. -/
theorem State.told_leaves (s : State) (g : Seg) (n : Option Notice) :
    (s.told g n).txns = s.txns ∧ (s.told g n).store = s.store := by
  unfold State.told
  cases n <;> exact ⟨rfl, rfl⟩

/-- A waiting transaction with no copy out, cancelled with a notice (R37, R43, R49): its request is dropped, its record is
free, and the notice is placed unless it is superseded. -/
theorem State.cancelWaiting_told {s : State} {r : Fin Config.numTxns} {t : Txn} (used : s.txn r = some t)
    (none_out : t.copies = 0) (unfixed : t.outcome = none) {o : TxnOutcome} {c : NoticeCode} (calls : o.notice = some c) :
    s.cancelWaiting r o = ((s.dropRequest t).recordFreed r).told t.origin
      (if t.superseded then none else s.called t.origin (some ⟨c, t.station⟩)) := by
  have called : (s.dropRequest t).called t.origin (some ⟨c, t.station⟩) = s.called t.origin (some ⟨c, t.station⟩) := by
    rw [State.dropRequest_store]
    rfl
  have used' : (s.dropRequest t).txn r = some t := by
    rw [State.dropRequest_store]
    exact used
  unfold State.cancelWaiting
  rw [used]
  dsimp only
  rw [State.closeTxn_closed used' unfixed calls, State.closed, if_pos none_out, called]

/-! ### The live transaction of an origin (R49, R160) -/

/-- A waiting transaction cancelled without a notice: the records and the store alone. -/
theorem State.cancelWaiting_silent (s : State) (r : Fin Config.numTxns) {o : TxnOutcome} (silent : o.notice = none) :
    ∃ x st, s.cancelWaiting r o = { s with txns := x, store := st } := by
  unfold State.cancelWaiting
  split
  · exact ⟨_, _, rfl⟩
  next t _ =>
    obtain ⟨st, h⟩ := s.dropRequest_only t
    rw [h]
    obtain ⟨x, h⟩ := State.closeTxn_silent { s with store := st } r silent
    exact ⟨x, st, h⟩

/-- The live transaction abandoned: the records, the store and the counters alone. -/
theorem State.abandonLive_silent (s : State) (g : Seg) :
    ∃ x k st, s.abandonLive g = { s with txns := x, counters := k, store := st } := by
  unfold State.abandonLive
  split
  · exact ⟨_, _, _, rfl⟩
  next r _ =>
    split
    · exact ⟨_, _, _, rfl⟩
    next t _ =>
      split
      · obtain ⟨x, st, h⟩ := s.cancelWaiting_silent r (o := .cancelled) rfl
        rw [h]
        exact ⟨_, _, _, rfl⟩
      · obtain ⟨k, h⟩ := (s.putTxn r (some { t with superseded := true })).countIf_only t.outcome.isNone g .abandoned
        rw [h]
        exact ⟨_, _, _, rfl⟩

/-- With no live transaction there is nothing to abandon. -/
theorem State.abandonLive_none {s : State} {g : Seg} (none_ : s.liveOf g = none) : s.abandonLive g = s := by
  rw [State.abandonLive, none_]

/-- Of the transaction engine only the record of the live transaction, and the pending list, are touched. -/
theorem State.abandonLive_others {s : State} {g : Seg} {l : Fin Config.numTxns} (live : s.liveOf g = some l) :
    s.OtherRecords (s.abandonLive g) l := by
  unfold State.abandonLive
  rw [live]
  dsimp only
  split
  · exact .of_txns rfl
  next t _ =>
    split
    · exact (s.cancelWaiting_others l .cancelled).trans (.of_txns rfl)
    · obtain ⟨k, h⟩ := (s.putTxn l (some { t with superseded := true })).countIf_only t.outcome.isNone g .abandoned
      rw [h]
      exact (s.putTxn_others l _).trans (.of_txns rfl)

end Sys2Proof.Machine
end

