-- ==== Sys2Proof/Proofs/RoleChange.lean ====
section
/-!
Leaving the Downstream and the Upstream role at a settings apply (R21, R49, R105, R160).
-/

namespace Sys2Proof.Machine

/-! ### Leaving Downstream (R21, R49, R160) -/

/-- A role change out of Downstream: the stations are unlearned, the waiting transactions pruned, and no station has timed out
last on the segment (R160). -/
theorem State.changeRole_downstream (s : State) (g : Seg) {before after : Role} (down : before = .downstream)
    (leaves : after ≠ .downstream) :
    s.changeRole g before after = ((s.unlearnSegment g).pruneWaiting g).setLastTimedOut g none := by
  subst down
  exact if_neg fun same => leaves same.symm

/-- A request dropped, its record freed and a notice placed, field by field. -/
theorem State.freedTold_fields (s : State) (r : Fin Config.numTxns) (t : Txn) (g : Seg) (n : Option Notice) :
    (((s.dropRequest t).recordFreed r).told g n).txn r = none
      ∧ (((s.dropRequest t).recordFreed r).told g n).txns.waiting = (s.txns.waiting.filter fun q => q != r)
      ∧ (((s.dropRequest t).recordFreed r).told g n).store = s.storeWithout t
      ∧ (((s.dropRequest t).recordFreed r).told g n).egress = (s.told g n).egress
      ∧ (((s.dropRequest t).recordFreed r).told g n).counters = (s.told g n).counters := by
  obtain ⟨txns, store⟩ := ((s.dropRequest t).recordFreed r).told_leaves g n
  obtain ⟨lanes, counts⟩ := State.told_congr (a := (s.dropRequest t).recordFreed r) (b := s)
    (by rw [State.dropRequest_store]; rfl) (by rw [State.dropRequest_store]; rfl) g n
  refine ⟨?_, ?_, ?_, lanes, counts⟩
  · rw [State.txn, txns]
    exact ((s.dropRequest t).txn_freeRecord r r).trans (if_pos rfl)
  · rw [txns, State.dropRequest_store]
    rfl
  · rw [store, State.dropRequest_store]
    rfl

/-- The only waiting transaction, left with no segment and with no copy out (R49): its request is dropped, its record is free,
and its notice is placed unless it is superseded. -/
theorem State.pruneWaiting_closes {s : State} {r : Fin Config.numTxns} {t : Txn} {g : Seg} (waits : s.txns.waiting = [r])
    (used : s.txn r = some t) (has : t.egress.has g = true) (left : t.egress.erase g = 0) (alone : t.copies = 0)
    (unfixed : t.outcome = none) : s.pruneWaiting g = ((s.dropRequest t).recordFreed r).told t.origin
      (if t.superseded then none else s.called t.origin (some ⟨.noRoute, t.station⟩)) := by
  rw [State.pruneWaiting_one waits used, if_pos has, if_pos left,
    State.cancelWaiting_told (t := { t with egress := t.egress.erase g })
      ((s.txn_putTxn r r _).trans (if_pos rfl)) alone unfixed rfl]
  rw [State.dropRequest_store, State.dropRequest_store]
  exact congrArg (State.told · t.origin _)
    (State.recordFreed_putTxn { s with store := s.storeWithout t } r (some { t with egress := t.egress.erase g }))

/-- What pruning leaves of the transaction engine besides the waiting transactions, where at most one waits (R49). -/
theorem State.pruneWaiting_engine {s : State}
    (waits : s.txns.waiting = [] ∨ ∃ r t, s.txns.waiting = [r] ∧ s.txn r = some t) (g : Seg) :
    (s.pruneWaiting g).txns.holders = s.txns.holders
      ∧ (s.pruneWaiting g).txns.lastTimedOut = s.txns.lastTimedOut
      ∧ ∀ r, s.txns.waiting = [r] → ∀ q, q ≠ r → (s.pruneWaiting g).txn q = s.txn q := by
  rcases waits with empty | ⟨r, t, one, used⟩
  · rw [State.pruneWaiting_nil empty]
    exact ⟨rfl, rfl, fun _ _ _ _ => rfl⟩
  · have others : s.OtherRecords (s.pruneWaiting g) r := by
      have put := s.putTxn_others r (some { t with egress := t.egress.erase g })
      rw [State.pruneWaiting_one one used]
      split
      · split
        · exact put.trans (State.cancelWaiting_others _ r .noRoute)
        · exact put
      · exact .of_txns rfl
    obtain ⟨holders, lastTimedOut, records⟩ := others
    refine ⟨holders, lastTimedOut, fun r' one' => ?_⟩
    rw [one] at one'
    cases one'
    exact records

/-- The only waiting transaction, where it keeps some segment (R49): at most its egress set changes. -/
theorem State.pruneWaiting_keeps {s : State} {r : Fin Config.numTxns} {t : Txn} {g : Seg} (waits : s.txns.waiting = [r])
    (used : s.txn r = some t) (keeps : t.egress.has g = false ∨ t.egress.erase g ≠ 0) : s.pruneWaiting g
      = if t.egress.has g = true then s.putTxn r (some { t with egress := t.egress.erase g }) else s := by
  rw [State.pruneWaiting_one waits used]
  split
  next has =>
    rcases keeps with out | some_
    · exact absurd has (by rw [out]; exact Bool.false_ne_true)
    · exact if_neg some_
  next => rfl

/-! ### Leaving Upstream (R49, R105, R160) -/

/-- A role change out of Upstream: the live transaction is abandoned and the bulk lane flushed (R160). -/
theorem State.changeRole_upstream (s : State) (g : Seg) {before after : Role} (up : before = .upstream)
    (leaves : after ≠ .upstream) : s.changeRole g before after = (s.abandonLive g).flushBulk g := by
  subst up
  exact if_neg fun same => leaves same.symm

/-- What is left in hand once the bulk lane is flushed (R124): anything but a bulk copy. -/
theorem InHand.withoutBulk_iff (h : Option InHand) (i : InHand) :
    h.bind InHand.withoutBulk = some i ↔ h = some i ∧ ∀ d, i.item ≠ .bulk d := by
  rcases h with _ | ⟨item, started, n⟩
  · exact ⟨nofun, nofun⟩
  · cases item with
    | bulk d => exact ⟨nofun, fun ⟨same, other⟩ => by cases same; exact absurd rfl (other d)⟩
    | slotNotice => exact ⟨fun same => by cases same; exact ⟨rfl, nofun⟩, And.left⟩
    | sentNotice => exact ⟨fun same => by cases same; exact ⟨rfl, nofun⟩, And.left⟩
    | reply => exact ⟨fun same => by cases same; exact ⟨rfl, nofun⟩, And.left⟩

/-- Abandoned raised where a condition holds. -/
theorem Counters.raisedTo_abandoned (c : Counters) (g : Seg) (p : Prop) [Decidable p] :
    c.RaisedTo (c.raisedBy g 12 (if p then 1 else 0)) g (if p then [.abandoned] else []) := by
  split
  · rw [← Counters.write_succ]
    exact (c.raisedTo_nil g).more (a := .abandoned) (by simp)
  · rw [Counters.raisedBy_zero]
    exact c.raisedTo_nil g

/-- Abandoning leaves the grants and the stations that timed out last. -/
theorem State.abandonLive_engine (s : State) (g : Seg) : (s.abandonLive g).txns.holders = s.txns.holders
    ∧ (s.abandonLive g).txns.lastTimedOut = s.txns.lastTimedOut := by
  cases live : s.liveOf g with
  | none =>
    rw [State.abandonLive_none live]
    exact ⟨rfl, rfl⟩
  | some l =>
    obtain ⟨holders, lastTimedOut, _⟩ := State.abandonLive_others live
    exact ⟨holders, lastTimedOut⟩

/-- A live transaction that does not wait is superseded, and counted while its outcome is open (R49). -/
theorem State.abandonLive_supersedes {s : State} {g : Seg} {l : Fin Config.numTxns} {w : Txn} (live : s.liveOf g = some l)
    (used : s.txn l = some w) (under : w.state ≠ .pending) :
    (s.abandonLive g).txn l = some { w with superseded := true }
      ∧ (s.abandonLive g).txns.waiting = s.txns.waiting
      ∧ s.OnlyCounted (s.abandonLive g) g (if w.outcome = none then [.abandoned] else [])
      ∧ (s.abandonLive g).store = s.store := by
  have gone : s.LiveGone g (some l) (some { w with superseded := true }) (if w.outcome = none then 1 else 0) none :=
    .inr ⟨l, w, live, used, rfl, .inl ⟨under, rfl, rfl, rfl⟩⟩
  obtain ⟨x, whole, each, waiting, _⟩ := gone.abandoned
  rw [whole]
  exact ⟨(each l).trans (if_pos rfl), waiting.trans (if_neg nofun), Counters.raisedTo_abandoned _ g _, rfl⟩

/-- A live transaction that waits, with no copy out, is cancelled and counted, and its request dropped (R49). -/
theorem State.abandonLive_cancels {s : State} {g : Seg} {l : Fin Config.numTxns} {w : Txn} {e : Fin Config.numDescs}
    (live : s.liveOf g = some l) (used : s.txn l = some w) (pending : w.state = .pending) (unfixed : w.outcome = none)
    (alone : w.copies = 0) (request : w.reqDesc = some e) :
    (s.abandonLive g).txn l = none ∧ (s.abandonLive g).txns.waiting = (s.txns.waiting.filter fun q => q != l)
      ∧ s.OnlyCounted (s.abandonLive g) g [.abandoned] ∧ (s.abandonLive g).store = s.store.dropTxn e := by
  have gone : s.LiveGone g (some l) none 1 (some e) :=
    .inr ⟨l, w, live, used, rfl, .inr ⟨pending, unfixed, alone, rfl, rfl, request.symm⟩⟩
  obtain ⟨x, whole, each, waiting, _⟩ := gone.abandoned
  rw [whole]
  refine ⟨(each l).trans (if_pos rfl), (waiting.trans (if_pos rfl)).trans ?_, Counters.raisedTo_abandoned _ g True, rfl⟩
  exact List.filter_congr fun q _ => by
    rw [Bool.eq_iff_iff, bne_iff_ne, bne_iff_ne, ne_eq, Option.some.injEq, eq_comm]

/-- Settles O31: leaving Downstream, clause by clause of what the pruning leaves, and leaving Upstream, clause by clause of what
the abandonment leaves. -/
theorem leavingDownstreamUnlearns : Obligations.LeavingDownstreamUnlearns := by
  intro s g new dropped free quiet staged drops v record
  have txns : v.txns = s.txns := by rw [record]
  have records : ∀ q, v.txn q = s.txn q := fun q => by rw [State.txn, txns]; rfl
  have store : v.store = s.store := by rw [record]
  refine ⟨fun down leaves waits => ?_, fun up leaves => ?_⟩
  · have taken := exec_settingsApply free quiet (by rw [down]; nofun) staged drops record
      (State.changeRole_downstream v g down leaves)
    obtain ⟨p, hp⟩ : ∃ p, p = v.unlearnSegment g := ⟨_, rfl⟩
    have txns : p.txns = s.txns := by rw [hp, ← txns]; rfl
    have records : ∀ q, p.txn q = s.txn q := fun q => by rw [State.txn, txns]; rfl
    have egress : p.egress = s.egress := by rw [hp, record]; rfl
    have store : p.store = s.store := by rw [hp, ← store]; rfl
    have counters : p.counters = s.counters := by rw [hp, record]; rfl
    obtain ⟨holders, lastTimedOut, others⟩ := p.pruneWaiting_engine (by simpa only [txns, records] using waits) g
    obtain ⟨x, e, k, st, keeps⟩ := p.pruneWaiting_only g
    rw [← hp] at taken
    refine ⟨_, taken, fun a => ?_, ?_, ?_, ?_, ?_, holders.trans (by rw [txns]), ?_, ?_, ?_, rfl, ?_, ?_, fun empty => ?_,
      fun r t one used => ?_⟩
    · have table : (p.pruneWaiting g).table = s.table.unlearnSegment g := by rw [keeps, hp, record]; rfl
      refine (congrArg (StationTable.entry · a) table).trans ((s.table.unlearnSegment_entry g a).trans ?_)
      change (s.entry a).unlearned g = _
      cases s.entry a <;> rfl
    · rintro w rfl
      rw [keeps, hp, record]
      rfl
    · exact congrArg (PerSeg.set · g none) (lastTimedOut.trans (by rw [txns]))
    · rw [keeps, hp]; rfl
    · rw [keeps, hp, record]; rfl
    · rw [keeps, hp]; rfl
    · rw [keeps, hp, record]; rfl
    · rw [keeps, hp, record]; rfl
    · rw [keeps, hp, record]; rfl
    · rw [keeps, hp, record]; exact ⟨rfl, rfl, rfl, rfl, rfl⟩
    · rw [State.pruneWaiting_nil (by rw [txns, empty])]
      exact ⟨records, by rw [← empty, ← txns]; rfl, egress, store, counters⟩
    · have one' : p.txns.waiting = [r] := by rw [txns, one]
      have used' : p.txn r = some t := (records r).trans used
      refine ⟨fun q other => (others r one' q other).trans (records q), fun out => ?_, fun has some_ => ?_, fun stays => ?_,
        fun has left alone unfixed => ?_⟩
      · rw [State.pruneWaiting_keeps one' used' (.inl out), out]
        exact used'
      · rw [State.pruneWaiting_keeps one' used' (.inr some_), if_pos has]
        exact (p.txn_putTxn r r _).trans (if_pos rfl)
      · rw [State.pruneWaiting_keeps one' used' stays]
        split <;> exact ⟨one', egress, store, counters⟩
      · obtain ⟨freed, waiting, dropsRequest, lanes, counts⟩ := p.freedTold_fields r t t.origin
          (if t.superseded then none else p.called t.origin (some ⟨.noRoute, t.station⟩))
        rw [State.pruneWaiting_closes one' used' has left alone unfixed]
        refine ⟨freed, waiting.trans (by rw [one']; simp), fun d y request held ready idle => ?_, ?_⟩
        · refine dropsRequest.trans ?_
          rw [State.storeWithout, request, store]
          exact Store.dropTxn_released held ready idle
        · rintro w rfl
          have notice : (if t.superseded = true then v else v.notify t.origin .noRoute t.station)
              = v.told t.origin (if t.superseded then none else p.called t.origin (some ⟨.noRoute, t.station⟩)) := by
            rw [State.notify_told, hp]
            cases t.superseded <;> rfl
          obtain ⟨lanes', counts'⟩ := State.told_congr (a := p) (b := v) (by rw [hp]; rfl) (by rw [hp]; rfl) t.origin
            (if t.superseded then none else p.called t.origin (some ⟨.noRoute, t.station⟩))
          rw [notice]
          exact ⟨lanes.trans lanes', counts.trans counts'⟩
  · have taken := exec_settingsApply free quiet (by rw [up]; nofun) staged drops record
      (State.changeRole_upstream v g up leaves)
    obtain ⟨x, k, st, keeps⟩ := v.abandonLive_silent g
    obtain ⟨holders, lastTimedOut⟩ := v.abandonLive_engine g
    have egress : (v.abandonLive g).egress = s.egress := by rw [keeps, record]
    have counters : v.counters = s.counters := by rw [record]
    have live : ∀ l, s.liveOf g = l → v.liveOf g = l := fun l h => by rw [record]; exact h
    rw [State.flushBulk_eq, egress] at taken
    refine ⟨_, taken, ?_, ?_, ?_, ?_, holders.trans (by rw [txns]), lastTimedOut.trans (by rw [txns]), ?_, ?_, rfl, ?_, ?_,
      fun h away => ?_, ?_, fun none_ => ?_, fun l w isLive used => ?_⟩
    · rw [keeps, record]
    · rw [keeps]
    · rw [keeps]
    · rw [keeps, record]
    · rw [keeps, record]
    · rw [keeps, record]
    · rw [keeps, record]
    · rw [keeps, record]
      exact ⟨rfl, rfl, rfl, rfl, rfl⟩
    · exact (PerSeg.get_set _ _ _ _).trans (if_neg away)
    · exact ⟨_, (PerSeg.get_set _ _ _ _).trans (if_pos rfl), InHand.withoutBulk_iff _⟩
    · rw [State.abandonLive_none (live none none_)]
      exact ⟨txns, counters, by rw [← store]⟩
    · have used' : v.txn l = some w := (records l).trans used
      obtain ⟨_, _, others⟩ := State.abandonLive_others (live _ isLive)
      refine ⟨fun q other => (others q other).trans (records q), fun under => ?_,
        fun pending unfixed alone e request => ?_⟩
      · obtain ⟨superseded, waiting, counted, same⟩ := State.abandonLive_supersedes (live _ isLive) used' under
        rw [State.OnlyCounted, counters] at counted
        exact ⟨superseded, waiting.trans (by rw [txns]), counted, by rw [same, store]⟩
      · obtain ⟨freed, waiting, counted, dropsRequest⟩ :=
          State.abandonLive_cancels (live _ isLive) used' pending unfixed alone request
        rw [State.OnlyCounted, counters] at counted
        exact ⟨freed, waiting.trans (by rw [txns]), counted, by rw [dropsRequest, store]⟩

end Sys2Proof.Machine
end

