-- ==== Sys2Proof/Proofs/TransactionRules.lean ====
section
/-!
The laws of the transactions (R23, R27, R30, R31, R71, R130) and the moves every operation is made of: a record written, a
record freed, a grant released, a frame receiver replaced. The Local in execution is said apart from the engine's state, so that
the laws can be followed through the execution of a command.
-/

namespace Sys2Proof.Machine

/-! ### Reads after the moves -/

@[simp] theorem State.holder_setHolder (s : State) (g u : Seg) (h : Option (Fin Config.numTxns)) :
    (s.setHolder g h).holder u = if u = g then h else s.holder u := by simp [State.holder]

@[simp] theorem State.holder_releaseGrant (s : State) (g u : Seg) :
    (s.releaseGrant g).holder u = if u = g then none else s.holder u := s.holder_setHolder g u none

/-- The grants on a set of segments released: the holders there, and nothing else. -/
theorem State.releaseGrants_holders (s : State) (m : SegSet) : ∃ h,
    s.releaseGrants m = { s with txns := { s.txns with holders := h } }
      ∧ ∀ g, h.get g = if m.has g = true then none else s.holder g := by
  have fold : ∀ (l : List Seg) (s : State), ∃ h, l.foldl State.releaseGrant s
      = { s with txns := { s.txns with holders := h } } ∧ ∀ g, h.get g = if g ∈ l then none else s.holder g := by
    intro l
    induction l with
    | nil => exact fun s => ⟨s.txns.holders, rfl, fun g => by simp [State.holder]⟩
    | cons u l ih =>
      intro s
      obtain ⟨h, released, held⟩ := ih (s.releaseGrant u)
      refine ⟨h, released, fun g => ?_⟩
      rw [held, State.holder_releaseGrant]
      by_cases here : g = u <;> simp [here]
  obtain ⟨h, released, held⟩ := fold m.members s
  exact ⟨h, released, fun g => by simp [held]⟩

/-- Grants released and a record written: the order makes no difference. -/
theorem State.putTxn_releaseGrants (s : State) (r : Fin Config.numTxns) (t : Option Txn) (m : SegSet) :
    (s.putTxn r t).releaseGrants m = (s.releaseGrants m).putTxn r t := by
  obtain ⟨h, released, held⟩ := s.releaseGrants_holders m
  obtain ⟨h', released', held'⟩ := (s.putTxn r t).releaseGrants_holders m
  have same : h' = h := PerSeg.ext_get fun u => (held' u).trans (held u).symm
  rw [released', same, released]
  rfl

/-- A record written twice. -/
theorem State.putTxn_putTxn (s : State) (r : Fin Config.numTxns) (t u : Option Txn) :
    (s.putTxn r t).putTxn r u = s.putTxn r u := by simp [State.putTxn, Vector.set_set]

/-- A frame with a FORMING record has it as its transaction (R71). -/
theorem Frame.formingRecord_txn {f : Frame} {r : Fin Config.numTxns} (forming : f.formingRecord = some r) :
    f.txn = some r := by
  unfold Frame.formingRecord at forming
  split at forming
  · split at forming
    · exact forming
    · cases forming
  · cases forming

/-- The FORMING record depends on class and transaction alone. -/
theorem Frame.formingRecord_congr {f f' : Frame} (cls : f'.cls = f.cls) (txn : f'.txn = f.txn) :
    f'.formingRecord = f.formingRecord := by rw [Frame.formingRecord, Frame.formingRecord, cls, txn]

/-! ### What the laws say of one record -/

/-- The part of its life a transaction is in: FORMING, PENDING, EXECUTING, or carried, from the launch on. -/
def TxnState.stage : TxnState → TxnState
  | .forming => .forming
  | .pending => .pending
  | .executing => .executing
  | .sending | .awaiting | .receiving => .sending

/-- A FORMING, PENDING or EXECUTING record is so by its part of life alone. -/
theorem TxnState.stage_congr {a b : TxnState} (same : a.stage = b.stage) :
    (a = .forming ↔ b = .forming) ∧ (a = .pending ↔ b = .pending) ∧ (a = .executing ↔ b = .executing) := by
  cases a <;> cases b <;> simp_all [TxnState.stage]

/-- Before its launch a transaction has no copy out, no window open and no outcome. -/
theorem Txn.Lawful.unlaunched {t : Txn} (lawful : t.Lawful) (early : t.state.stage ≠ .sending) :
    t.copies = 0 ∧ t.windows = 0 ∧ t.outcome = none := by
  obtain ⟨_, row⟩ := lawful
  cases state : t.state <;> simp_all [TxnState.stage]

/-- A transaction that needs a segment is carried (R31). -/
theorem Txn.Lawful.carried {t : Txn} (lawful : t.Lawful) {g : Seg} (needs : t.Needs g) : t.state.stage = .sending := by
  by_contra early
  obtain ⟨copies, windows, _⟩ := lawful.unlaunched early
  obtain copy | window | ⟨receiving, _⟩ := needs
  · rw [copies, SegSet.has_zero] at copy
    cases copy
  · rw [windows, SegSet.has_zero] at window
    cases window
  · simp [receiving, TxnState.stage] at early

/-- A carried Local is none. -/
theorem Txn.Lawful.not_local {t : Txn} (lawful : t.Lawful) (carried : t.state.stage = .sending) : t.kind ≠ .loc := by
  obtain ⟨_, row⟩ := lawful
  cases state : t.state <;> simp_all [TxnState.stage]

/-- u may stand in t's place: it is lawful, in the same part of its life, of the same origin and kind, and live only where t
is. -/
structure Txn.Continues (t u : Txn) : Prop where
  lawful : u.Lawful
  stage : u.state.stage = t.state.stage
  origin : u.origin = t.origin
  kind : u.kind = t.kind
  live : u.live = true → t.live = true

/-! ### The laws -/

/-- R71, R38: what frame f in assembly on g has is its own. -/
def State.Fits (s : State) (g : Seg) (f : Frame) : Prop :=
  ∀ r, (f.formingRecord = some r → ∃ t, s.txn r = some t ∧ t.state = .forming ∧ t.origin = g
      ∧ (t.kind = .loc ↔ f.cls = some .management))
    ∧ (f.cls = some .response → f.txn = some r → ∃ t, s.txn r = some t ∧ t.state = .receiving ∧ t.outcome = none
      ∧ t.responseSeg = some g)
    ∧ (f.txn = some r → f.formingRecord = some r ∨ f.cls = some .response)

/-- The laws of the transactions in a state whose engine is in state `e`, the Local `taken`, where there is one, being the one in
execution. -/
structure State.LawsIn (s : State) (e : EngineState) (taken : Option (Fin Config.numTxns)) : Prop where
  records : ∀ r t, s.txn r = some t → t.Lawful
  waiting : s.WaitingLaw
  holders : s.HolderLaw
  origins : s.OneLivePerOrigin
  frames : ∀ g f, (s.receivers.get g).frame = some f → s.Fits g f
  engine : s.mgmt.engine = e
  queued : s.mgmt.queue.Nodup
  apart : ∀ r, taken = some r → r ∉ s.mgmt.queue
  executing : ∀ r, (r ∈ s.mgmt.queue ∨ taken = some r) ↔ ∃ t, s.txn r = some t ∧ t.state = .executing

/-- The Local an engine state has in execution (R130). -/
def EngineState.taken : EngineState → Option (Fin Config.numTxns)
  | .idle => none
  | .busy r _ => some r

theorem State.executing_iff (s : State) (r : Fin Config.numTxns) : s.Executing r ↔ s.mgmt.engine.taken = some r := by
  unfold State.Executing
  cases s.mgmt.engine <;> simp [EngineState.taken]

/-- The laws of the transaction engine are those laws, with the Local in execution the engine's. -/
theorem State.transactionLaws_iff (s : State) :
    s.TransactionLaws ↔ s.LawsIn s.mgmt.engine s.mgmt.engine.taken := by
  constructor
  · rintro ⟨records, waiting, holders, origins, frames, queued, apart, executing⟩
    exact ⟨records, waiting, holders, origins, fun g f framed r => frames g f r framed, rfl, queued,
      fun r taken => apart r ((s.executing_iff r).2 taken), fun r => by rw [← s.executing_iff]; exact executing r⟩
  · intro laws
    exact ⟨laws.records, laws.waiting, laws.holders, laws.origins, fun g f r framed => laws.frames g f framed r,
      laws.queued, fun r running => laws.apart r ((s.executing_iff r).1 running),
      fun r => by rw [s.executing_iff]; exact laws.executing r⟩

/-- Laws whose Local in execution is the engine's are the laws of the transaction engine. -/
theorem State.LawsIn.transactionLaws {s : State} {e : EngineState} (laws : s.LawsIn e e.taken) : s.TransactionLaws := by
  have engine := laws.engine
  subst engine
  exact s.transactionLaws_iff.2 laws

/-- t has the records, the pending list, the grants, the frame receivers and the management work of s. -/
structure State.LeavesEngine (s t : State) : Prop where
  records : t.txns.records = s.txns.records
  waiting : t.txns.waiting = s.txns.waiting
  holders : t.txns.holders = s.txns.holders
  receivers : t.receivers = s.receivers
  queue : t.mgmt.queue = s.mgmt.queue
  engine : t.mgmt.engine = s.mgmt.engine

theorem State.LeavesEngine.refl (s : State) : s.LeavesEngine s := ⟨rfl, rfl, rfl, rfl, rfl, rfl⟩

theorem State.LeavesEngine.of_same {s t : State} (same : t = s) : s.LeavesEngine t := same ▸ .refl s

theorem State.LeavesEngine.trans {s t u : State} (first : s.LeavesEngine t) (next : t.LeavesEngine u) :
    s.LeavesEngine u :=
  ⟨next.records.trans first.records, next.waiting.trans first.waiting, next.holders.trans first.holders,
    next.receivers.trans first.receivers, next.queue.trans first.queue, next.engine.trans first.engine⟩

theorem State.LeavesEngine.txn {s t : State} (leaves : s.LeavesEngine t) (r : Fin Config.numTxns) :
    t.txn r = s.txn r := by rw [State.txn, leaves.records]; rfl

theorem State.LeavesEngine.holder {s t : State} (leaves : s.LeavesEngine t) (g : Seg) : t.holder g = s.holder g := by
  rw [State.holder, leaves.holders]; rfl

section
variable {s : State} {e : EngineState} {x : Option (Fin Config.numTxns)}

/-- What leaves the engine leaves its laws. -/
theorem State.LawsIn.of_leaves {t : State} (laws : s.LawsIn e x) (leaves : s.LeavesEngine t) : t.LawsIn e x where
  records r w used := laws.records r w (by rw [← leaves.txn, used])
  waiting := by
    simp only [State.WaitingLaw, leaves.waiting, leaves.txn]
    exact laws.waiting
  holders := by
    simp only [State.HolderLaw, leaves.holder, leaves.txn]
    exact laws.holders
  origins := by
    simp only [State.OneLivePerOrigin, leaves.txn]
    exact laws.origins
  frames g f framed := by
    simp only [State.Fits, leaves.txn]
    exact laws.frames g f (by rw [← leaves.receivers, framed])
  engine := leaves.engine.trans laws.engine
  queued := leaves.queue ▸ laws.queued
  apart r taken := leaves.queue ▸ laws.apart r taken
  executing r := by
    rw [leaves.queue, leaves.txn]
    exact laws.executing r

/-! ### A record written -/

/-- No frame in assembly has record r. -/
def State.Unframed (s : State) (r : Fin Config.numTxns) : Prop :=
  ∀ g f, (s.receivers.get g).frame = some f → f.txn ≠ some r

/-- A frame has a FORMING record or one whose response is coming in. -/
theorem State.LawsIn.unframed (laws : s.LawsIn e x) {r : Fin Config.numTxns} {t : Txn} (used : s.txn r = some t)
    (formed : t.state ≠ .forming) (unanswered : t.state = .receiving → t.outcome ≠ none) : s.Unframed r := by
  intro g f framed own
  obtain ⟨forming, response, either⟩ := laws.frames g f framed r
  obtain has | cls := either own
  · obtain ⟨w, used', state, _⟩ := forming has
    rw [used, Option.some.injEq] at used'
    exact formed (used' ▸ state)
  · obtain ⟨w, used', state, outcome, _⟩ := response cls own
    rw [used, Option.some.injEq] at used'
    exact unanswered (used' ▸ state) (used' ▸ outcome)

/-- A record is written (R23): the laws stand where the new one continues the old, still needs the segments it holds, and is
still the response's of a frame in assembly as one. -/
theorem State.LawsIn.putTxn (laws : s.LawsIn e x) {r : Fin Config.numTxns} {t u : Txn} (used : s.txn r = some t)
    (goes : t.Continues u)
    (needs : ∀ g, s.holder g = some r → t.egress.has g = true → t.Needs g → u.egress.has g = true ∧ u.Needs g)
    (response : ∀ g f, (s.receivers.get g).frame = some f → f.cls = some .response → f.txn = some r →
      u.state = .receiving ∧ u.outcome = none ∧ u.responseSeg = some g) :
    (s.putTxn r (some u)).LawsIn e x where
  records q w h := by
    rw [State.txn_putTxn] at h
    split at h
    · cases h; exact goes.lawful
    · exact laws.records q w h
  waiting := by
    obtain ⟨nodup, exact_⟩ := laws.waiting
    refine ⟨nodup, fun q => (exact_ q).trans ?_⟩
    rw [State.txn_putTxn]
    split
    next same => simp [same, used, (TxnState.stage_congr goes.stage).2.1]
    next => rfl
  holders g q held := by
    obtain ⟨w, usedq, kind, egress, need⟩ := laws.holders g q held
    rw [State.txn_putTxn]
    split
    next same =>
      subst same
      rw [used, Option.some.injEq] at usedq
      subst usedq
      obtain ⟨egress', need'⟩ := needs g held egress need
      exact ⟨u, rfl, goes.kind ▸ kind, egress', need'⟩
    next => exact ⟨w, usedq, kind, egress, need⟩
  origins q q' w w' h h' live live' same := by
    have before : ∀ p y, (s.putTxn r (some u)).txn p = some y → y.live = true →
        ∃ z, s.txn p = some z ∧ z.live = true ∧ z.origin = y.origin := by
      intro p y hp hl
      rw [State.txn_putTxn] at hp
      split at hp
      next eq => cases hp; exact ⟨t, eq ▸ used, goes.live hl, goes.origin.symm⟩
      next => exact ⟨y, hp, hl, rfl⟩
    obtain ⟨z, hz, lz, oz⟩ := before q w h live
    obtain ⟨z', hz', lz', oz'⟩ := before q' w' h' live'
    exact laws.origins q q' z z' hz hz' lz lz' (by rw [oz, oz', same])
  frames g f framed q := by
    obtain ⟨forming, resp, either⟩ := laws.frames g f framed q
    rw [State.txn_putTxn]
    split
    next same =>
      subst same
      refine ⟨fun has => ?_, fun cls own => ⟨u, rfl, response g f framed cls own⟩, either⟩
      obtain ⟨w, usedq, state, origin, kind⟩ := forming has
      rw [used, Option.some.injEq] at usedq
      subst usedq
      exact ⟨u, rfl, (TxnState.stage_congr goes.stage).1.2 state, goes.origin.trans origin, goes.kind ▸ kind⟩
    next => exact ⟨forming, resp, either⟩
  engine := laws.engine
  queued := laws.queued
  apart := laws.apart
  executing q := by
    refine (laws.executing q).trans ?_
    rw [State.txn_putTxn]
    split
    next same => simp [same, used, (TxnState.stage_congr goes.stage).2.2]
    next => rfl

/-! ### A record freed -/

/-- A record is freed (R24): the laws stand where it holds no segment and no frame has it; the Local in execution may be the
one. -/
theorem State.LawsIn.freeRecord (laws : s.LawsIn e x) {r : Fin Config.numTxns} (unheld : ∀ g, s.holder g ≠ some r)
    (unframed : s.Unframed r) (unqueued : r ∉ s.mgmt.queue) :
    (s.freeRecord r).LawsIn e (if x = some r then none else x) where
  records q w h := by
    rw [State.txn_freeRecord] at h
    split at h
    · cases h
    · exact laws.records q w h
  waiting := by
    obtain ⟨nodup, exact_⟩ := laws.waiting
    refine ⟨nodup.filter _, fun q => ?_⟩
    have filtered : q ∈ (s.freeRecord r).txns.waiting ↔ q ∈ s.txns.waiting ∧ q ≠ r := by simp
    rw [filtered, exact_, State.txn_freeRecord]
    split <;> simp_all
  holders g q held := by
    have other : q ≠ r := fun same => unheld g (same ▸ held)
    obtain ⟨w, usedq, rest⟩ := laws.holders g q held
    exact ⟨w, by rw [State.txn_freeRecord, if_neg other, usedq], rest⟩
  origins q q' w w' h h' := by
    rw [State.txn_freeRecord] at h h'
    split at h
    · cases h
    · split at h'
      · cases h'
      · exact laws.origins q q' w w' h h'
  frames g f framed q := by
    obtain ⟨forming, resp, either⟩ := laws.frames g f framed q
    rw [State.txn_freeRecord]
    split
    next same =>
      subst same
      exact ⟨fun has => absurd (Frame.formingRecord_txn has) (unframed g f framed),
        fun _ own => absurd own (unframed g f framed), either⟩
    next => exact ⟨forming, resp, either⟩
  engine := laws.engine
  queued := laws.queued
  apart q taken := laws.apart q (by split at taken <;> simp_all)
  executing q := by
    have before := laws.executing q
    rw [State.txn_freeRecord]
    by_cases same : q = r
    · subst same
      have left : ¬ (if x = some q then none else x) = some q := by split <;> simp_all
      simp only [reduceIte, reduceCtorEq, false_and, exists_false, iff_false, not_or]
      exact ⟨unqueued, left⟩
    · have kept : (if x = some r then none else x) = some q ↔ x = some q := by
        split
        next taken => simp [taken, Ne.symm same]
        next => rfl
      rw [if_neg same, kept]
      exact before

/-- A record that is not EXECUTING is not in the hands of the management engine (R130). -/
theorem State.LawsIn.not_executing (laws : s.LawsIn e x) {r : Fin Config.numTxns} {t : Txn} (used : s.txn r = some t)
    (state : t.state ≠ .executing) : r ∉ s.mgmt.queue ∧ x ≠ some r := by
  have none_ : ¬ (r ∈ s.mgmt.queue ∨ x = some r) := by
    rw [laws.executing r]
    rintro ⟨w, used', executing⟩
    rw [used, Option.some.injEq] at used'
    exact state (used' ▸ executing)
  exact not_or.1 none_

/-- A record that holds no segment, that no frame has and that is not EXECUTING, is freed. -/
theorem State.LawsIn.free (laws : s.LawsIn e x) {r : Fin Config.numTxns} {t : Txn} (used : s.txn r = some t)
    (unheld : ∀ g, s.holder g ≠ some r) (unframed : s.Unframed r) (state : t.state ≠ .executing) :
    (s.freeRecord r).LawsIn e x := by
  obtain ⟨unqueued, other⟩ := laws.not_executing used state
  have freed := laws.freeRecord unheld unframed unqueued
  rwa [if_neg other] at freed

/-- A record not yet launched holds no segment (R31). -/
theorem State.LawsIn.unheld (laws : s.LawsIn e x) {r : Fin Config.numTxns} {t : Txn} (used : s.txn r = some t)
    (early : t.state.stage ≠ .sending) (g : Seg) : s.holder g ≠ some r := by
  intro held
  obtain ⟨w, used', _, _, needs⟩ := laws.holders g r held
  rw [used, Option.some.injEq] at used'
  subst used'
  exact early ((laws.records r t used).carried needs)

/-! ### Grants and frame receivers -/

/-- Grants are given up (R31). -/
theorem State.LawsIn.setHolders (laws : s.LawsIn e x) {h : PerSeg (Option (Fin Config.numTxns))}
    (fewer : ∀ g r, h.get g = some r → s.holder g = some r) :
    State.LawsIn { s with txns := { s.txns with holders := h } } e x where
  records := laws.records
  waiting := laws.waiting
  holders g r held := laws.holders g r (fewer g r held)
  origins := laws.origins
  frames := laws.frames
  engine := laws.engine
  queued := laws.queued
  apart := laws.apart
  executing := laws.executing

theorem State.LawsIn.releaseGrant (laws : s.LawsIn e x) (g : Seg) : (s.releaseGrant g).LawsIn e x :=
  laws.setHolders fun h r held => by
    have held' : (s.releaseGrant g).holder h = some r := held
    rw [State.holder_releaseGrant] at held'
    split at held'
    · cases held'
    · exact held'

theorem State.LawsIn.releaseGrants (laws : s.LawsIn e x) (m : SegSet) : (s.releaseGrants m).LawsIn e x := by
  obtain ⟨h, released, held⟩ := s.releaseGrants_holders m
  rw [released]
  refine laws.setHolders fun g r here => ?_
  rw [held] at here
  split at here
  · cases here
  · exact here

/-- A frame receiver is replaced by one whose frame, where it has one, is its own. -/
theorem State.LawsIn.setReceiver (laws : s.LawsIn e x) {g : Seg} {z : FrState} (fits : ∀ f, z.frame = some f → s.Fits g f) :
    (s.setReceiver g z).LawsIn e x where
  records := laws.records
  waiting := laws.waiting
  holders := laws.holders
  origins := laws.origins
  frames h f framed := by
    simp only [State.setReceiver_fields, PerSeg.get_set] at framed
    split at framed
    next here => exact here ▸ fits f framed
    next => exact laws.frames h f framed
  engine := laws.engine
  queued := laws.queued
  apart := laws.apart
  executing := laws.executing

/-- A frame with no transaction is its own. -/
theorem State.Fits.of_none {g : Seg} {f : Frame} (none_ : f.txn = none) : s.Fits g f := fun r =>
  ⟨fun forming => by simp [Frame.formingRecord_txn forming] at none_, fun _ own => by simp [own] at none_,
    fun own => by simp [own] at none_⟩

/-- A frame of the same class and transaction as one in assembly there is its own. -/
theorem State.Fits.congr {g : Seg} {f f' : Frame} (fits : s.Fits g f) (cls : f'.cls = f.cls) (txn : f'.txn = f.txn) :
    s.Fits g f' := by
  simp only [State.Fits, Frame.formingRecord_congr cls txn, cls, txn]
  exact fits

end

end Sys2Proof.Machine
end

