-- ==== Sys2Proof/Proofs/TransactionLaws.lean ====
section
/-!
The operations of the transaction engine keep the laws of the transactions (R23 to R51), each from the moves it is made of.
-/

namespace Sys2Proof.Machine

/-! ### Operations that leave the engine -/

theorem State.raise_leavesEngine (s : State) (k : EventKind) (g : Option Seg) (a : Option Byte) (d : Byte) :
    s.LeavesEngine (s.raise k g a d) := ⟨rfl, rfl, rfl, rfl, rfl, rfl⟩

theorem State.mapStore_leavesEngine (s : State) (f : Store → Store) : s.LeavesEngine (s.mapStore f) :=
  ⟨rfl, rfl, rfl, rfl, rfl, rfl⟩

theorem State.count_leavesEngine (s : State) (g : Seg) (c : SegCounter) : s.LeavesEngine (s.count g c) :=
  ⟨rfl, rfl, rfl, rfl, rfl, rfl⟩

theorem State.countIf_leavesEngine (s : State) (b : Bool) (g : Seg) (c : SegCounter) :
    s.LeavesEngine (s.countIf b g c) := by
  obtain ⟨k, h⟩ := s.countIf_only b g c
  exact h ▸ ⟨rfl, rfl, rfl, rfl, rfl, rfl⟩

theorem State.setEgress_leavesEngine (s : State) (g : Seg) (e : Egress) : s.LeavesEngine (s.setEgress g e) :=
  ⟨rfl, rfl, rfl, rfl, rfl, rfl⟩

theorem State.dropRequest_leavesEngine (s : State) (t : Txn) : s.LeavesEngine (s.dropRequest t) := by
  obtain ⟨st, h⟩ := s.dropRequest_only t
  exact h ▸ ⟨rfl, rfl, rfl, rfl, rfl, rfl⟩

theorem State.notify_leavesEngine (s : State) (g : Seg) (c : NoticeCode) (a : Byte) :
    s.LeavesEngine (s.notify g c a) := by
  obtain ⟨e, k, h⟩ := s.notify_only g c a
  exact h ▸ ⟨rfl, rfl, rfl, rfl, rfl, rfl⟩

theorem State.learn_leavesEngine (s : State) (a : Byte) (g : Seg) : s.LeavesEngine (s.learn a g) := by
  obtain ⟨t, v, h⟩ := s.learn_only a g
  exact h ▸ ⟨rfl, rfl, rfl, rfl, rfl, rfl⟩

theorem State.settlePendingOwn_leavesEngine (s : State) : s.LeavesEngine s.settlePendingOwn := by
  unfold State.settlePendingOwn
  split <;> exact ⟨rfl, rfl, rfl, rfl, rfl, rfl⟩

theorem State.withdrawReplies_leavesEngine (s : State) (g : Seg) : s.LeavesEngine (s.withdrawReplies g) := by
  unfold State.withdrawReplies
  dsimp only
  rw [State.withdraw_fold]
  refine State.LeavesEngine.trans ?_ (State.settlePendingOwn_leavesEngine _)
  exact ⟨rfl, rfl, rfl, rfl, rfl, rfl⟩

theorem State.emptySlot_leavesEngine (s : State) (g : Seg) : s.LeavesEngine (s.emptySlot g) :=
  ⟨rfl, rfl, rfl, rfl, rfl, rfl⟩

theorem State.setBackBulk_leavesEngine (s : State) (g : Seg) : s.LeavesEngine (s.setBackBulk g) := by
  obtain ⟨e, h⟩ := s.setBackBulk_only g
  exact h ▸ ⟨rfl, rfl, rfl, rfl, rfl, rfl⟩

theorem State.forwardUnsolicited_leavesEngine (s : State) (d : Fin Config.numDescs) :
    s.LeavesEngine (s.forwardUnsolicited d) := by
  obtain ⟨e, k, st, h⟩ := s.forwardUnsolicited_only d
  exact h ▸ ⟨rfl, rfl, rfl, rfl, rfl, rfl⟩

/-! ### Outcomes (R37) -/

/-- An open transaction closes with its notice (R37, R43): the record holds the outcome, or is free where no copy is out. -/
theorem State.closeTxn_leavesEngine (s : State) {r : Fin Config.numTxns} {t : Txn} (used : s.txn r = some t)
    (unfixed : t.outcome = none) (o : TxnOutcome) :
    State.LeavesEngine (if t.copies = 0 then s.freeRecord r else s.putTxn r (some { t with outcome := some o }))
      (s.closeTxn r o) := by
  have told : ∀ u : State, (s.putTxn r (some { t with outcome := some o })).LeavesEngine u →
      State.LeavesEngine (if t.copies = 0 then s.freeRecord r else s.putTxn r (some { t with outcome := some o }))
        (if t.copies = 0 then u.freeRecord r else u) := by
    intro u leaves
    split
    · refine ⟨?_, ?_, leaves.holders, leaves.receivers, leaves.queue, leaves.engine⟩
      · simp [leaves.records, Vector.set_set]
      · simp [leaves.waiting]
    · exact leaves
  unfold State.closeTxn
  simp only [used, unfixed, Option.isSome_none, Bool.false_eq_true, reduceIte]
  refine told _ ?_
  split
  · split
    · exact .refl _
    · exact State.notify_leavesEngine _ _ _ _
  · exact .refl _

/-- A transaction cancelled before its launch leaves what freeing its record leaves (R27, R49). -/
theorem State.cancelWaiting_leavesEngine (s : State) {r : Fin Config.numTxns} {t : Txn} (used : s.txn r = some t)
    (unfixed : t.outcome = none) (alone : t.copies = 0) (o : TxnOutcome) :
    (s.freeRecord r).LeavesEngine (s.cancelWaiting r o) := by
  have leaves := s.dropRequest_leavesEngine t
  have closes := (s.dropRequest t).closeTxn_leavesEngine ((leaves.txn r).trans used) unfixed o
  rw [if_pos alone] at closes
  simp only [State.cancelWaiting, used]
  refine State.LeavesEngine.trans ?_ closes
  exact ⟨by simp [leaves.records], by simp [leaves.waiting], leaves.holders, leaves.receivers, leaves.queue, leaves.engine⟩

section
variable {s : State} {e : EngineState} {x : Option (Fin Config.numTxns)} {r : Fin Config.numTxns} {t : Txn}

/-- An outcome is fixed (R37): the transaction needs its segments for copies alone by then. -/
theorem State.LawsIn.closeTxn (laws : s.LawsIn e x) (used : s.txn r = some t) (closed : t.windows = 0)
    (held : ∀ g, s.holder g = some r → t.copies.has g = true) (unframed : s.Unframed r) (state : t.state ≠ .executing)
    (o : TxnOutcome) : (s.closeTxn r o).LawsIn e x := by
  by_cases unfixed : t.outcome = none
  · refine State.LawsIn.of_leaves ?_ (s.closeTxn_leavesEngine used unfixed o)
    split
    next last =>
      refine laws.free used (fun g here => ?_) unframed state
      have copy := held g here
      rw [last, SegSet.has_zero] at copy
      cases copy
    next out =>
      have lawful := laws.records r t used
      have carried : t.state.stage = .sending := by
        by_contra early
        exact out (lawful.unlaunched early).1
      refine laws.putTxn used ⟨⟨fun _ => closed, ?_⟩, rfl, rfl, rfl, id⟩
        (fun g here egress _ => ⟨egress, .inl (held g here)⟩)
        (fun g f framed _ own => absurd own (unframed g f framed))
      obtain ⟨_, row⟩ := lawful
      cases st : t.state <;> simp_all [TxnState.stage]
  · unfold State.closeTxn
    simp only [used, Option.isSome_iff_ne_none, ne_eq, unfixed, not_false_eq_true, reduceIte]
    exact laws

/-- A transaction that waits is closed (R27, R49). -/
theorem State.LawsIn.cancelWaiting (laws : s.LawsIn e x) (waits : ∀ t, s.txn r = some t → t.state = .pending)
    (o : TxnOutcome) : (s.cancelWaiting r o).LawsIn e x := by
  cases used : s.txn r with
  | none =>
    simp only [State.cancelWaiting, used]
    exact laws
  | some t =>
    have state := waits t used
    have early : t.state.stage ≠ .sending := by simp [state, TxnState.stage]
    obtain ⟨copies, _, outcome⟩ := (laws.records r t used).unlaunched early
    exact (laws.free used (laws.unheld used early) (laws.unframed used (by simp [state]) (by simp [state]))
      (by simp [state])).of_leaves (s.cancelWaiting_leavesEngine used outcome copies o)

/-- A transaction is superseded (R27). -/
theorem State.LawsIn.supersede (laws : s.LawsIn e x) (used : s.txn r = some t) :
    (s.putTxn r (some { t with superseded := true })).LawsIn e x := by
  refine laws.putTxn used ⟨laws.records r t used, rfl, rfl, rfl, fun live => by simp [Txn.live] at live⟩
    (fun _ _ egress needs => ⟨egress, needs⟩) fun g f framed cls own => ?_
  obtain ⟨w, used', response⟩ := (laws.frames g f framed r).2.1 cls own
  rw [used, Option.some.injEq] at used'
  exact used' ▸ response

/-- The live transaction of an origin is one in use, live, of that origin. -/
theorem State.liveOf_some {s : State} {g : Seg} {r : Fin Config.numTxns} (live : s.liveOf g = some r) :
    ∃ t, s.txn r = some t ∧ t.live = true ∧ t.origin = g := by
  have found := List.find?_some live
  split at found
  next t used => exact ⟨t, used, by simpa using found⟩
  · cases found

theorem mem_ascendingTxns (r : Fin Config.numTxns) : r ∈ ascendingTxns := by revert r; decide

/-- Where an origin has no live transaction, none in use is live and of that origin. -/
theorem State.liveOf_none {s : State} {g : Seg} (none_ : s.liveOf g = none) {q : Fin Config.numTxns} {w : Txn}
    (used : s.txn q = some w) (origin : w.origin = g) : w.live = false := by
  have unfound := List.find?_eq_none.1 none_ q (mem_ascendingTxns q)
  simp only [used, origin, beq_self_eq_true, Bool.and_true, Bool.not_eq_true] at unfound
  exact unfound

/-- The live transaction of an origin is abandoned (R27, R48). -/
theorem State.LawsIn.abandonLive (laws : s.LawsIn e x) (g : Seg) : (s.abandonLive g).LawsIn e x := by
  unfold State.abandonLive
  split
  · exact laws
  next r _ =>
    split
    · exact laws
    next t used =>
      split
      next pending =>
        refine State.LawsIn.of_leaves ?_ (State.count_leavesEngine _ g .abandoned)
        exact laws.cancelWaiting (fun w h => by rw [used, Option.some.injEq] at h; exact h ▸ pending) _
      · exact (laws.supersede used).of_leaves (State.countIf_leavesEngine _ _ g .abandoned)

/-- An origin is abandoned (R27, R48). -/
theorem State.LawsIn.abandonOrigin (laws : s.LawsIn e x) (g : Seg) : (s.abandonOrigin g).LawsIn e x :=
  (laws.abandonLive g).of_leaves
    ((State.withdrawReplies_leavesEngine _ g).trans (State.emptySlot_leavesEngine _ g))

/-- Once its live transaction is abandoned, an origin has none (R27). -/
theorem State.LawsIn.abandonLive_dead (laws : s.LawsIn e x) {g : Seg} {q : Fin Config.numTxns} {w : Txn}
    (used : (s.abandonLive g).txn q = some w) (origin : w.origin = g) : w.live = false := by
  cases found : s.liveOf g with
  | none =>
    rw [State.abandonLive_none found] at used
    exact State.liveOf_none found used origin
  | some r =>
    obtain ⟨t, usedr, live, origin'⟩ := State.liveOf_some found
    obtain ⟨_, _, others⟩ := State.abandonLive_others found
    by_cases same : q = r
    · subst same
      unfold State.abandonLive at used
      simp only [found, usedr] at used
      split at used
      next pending =>
        have early : t.state.stage ≠ .sending := by simp [pending, TxnState.stage]
        obtain ⟨copies, _, outcome⟩ := (laws.records q t usedr).unlaunched early
        have gone : (s.cancelWaiting q .cancelled).txn q = none := by
          rw [(s.cancelWaiting_leavesEngine usedr outcome copies .cancelled).txn, State.txn_freeRecord, if_pos rfl]
        rw [(State.count_leavesEngine _ g .abandoned).txn, gone] at used
        cases used
      · rw [(State.countIf_leavesEngine _ _ g .abandoned).txn, State.txn_putTxn, if_pos rfl] at used
        cases used
        simp [Txn.live]
    · rw [others q same] at used
      by_contra alive
      rw [Bool.not_eq_false] at alive
      exact same (laws.origins q r w t used usedr alive live (origin.trans origin'.symm))

end

end Sys2Proof.Machine
end

