-- ==== Sys2Proof/Proofs/TransactionLawsService.lean ====
section
/-!
A frame's record entering service, the launch, copies and their ends, responses and timeouts keep the laws of the transactions
(R27 to R42, R49).
-/

namespace Sys2Proof.Machine

section
variable {s : State} {e : EngineState} {x : Option (Fin Config.numTxns)} {r : Fin Config.numTxns} {t : Txn}

/-! ### Becoming PENDING or EXECUTING (R27, R49) -/

/-- A FORMING record of an origin with nothing live joins the pending list or the management queue (R27, R30, R130). -/
theorem State.LawsIn.enters (laws : s.LawsIn e x) (used : s.txn r = some t) (forming : t.state = .forming)
    (unframed : s.Unframed r) (dead : ∀ q w, s.txn q = some w → w.origin = t.origin → w.live = false) {u : Txn}
    (lawful : u.Lawful) (origin : u.origin = t.origin) {v : State}
    (records : v.txns.records = (s.putTxn r (some u)).txns.records) (holders : v.txns.holders = s.txns.holders)
    (receivers : v.receivers = s.receivers) (engine : v.mgmt.engine = s.mgmt.engine)
    (joins : u.state = .pending ∧ v.txns.waiting = s.txns.waiting ++ [r] ∧ v.mgmt.queue = s.mgmt.queue
      ∨ u.state = .executing ∧ v.txns.waiting = s.txns.waiting ∧ v.mgmt.queue = s.mgmt.queue ++ [r]) :
    v.LawsIn e x := by
  have txn : ∀ q, v.txn q = if q = r then some u else s.txn q := fun q => by
    rw [State.txn, records]
    exact s.txn_putTxn r q (some u)
  have holder : ∀ g, v.holder g = s.holder g := fun g => by rw [State.holder, holders]; rfl
  have early : t.state.stage ≠ .sending := by simp [forming, TxnState.stage]
  have notWaiting : r ∉ s.txns.waiting := by
    rw [laws.waiting.2 r]
    rintro ⟨w, usedw, pending⟩
    rw [used, Option.some.injEq] at usedw
    simp [← usedw, forming] at pending
  obtain ⟨notQueued, notTaken⟩ := laws.not_executing used (by simp [forming])
  have others : ∀ (q : Fin Config.numTxns) (st : TxnState), q ≠ r →
      ((∃ w, v.txn q = some w ∧ w.state = st) ↔ ∃ w, s.txn q = some w ∧ w.state = st) := fun q st other => by
    rw [txn, if_neg other]
  have own : ∀ st : TxnState, (∃ w, v.txn r = some w ∧ w.state = st) ↔ u.state = st := fun st => by simp [txn]
  refine ⟨fun q w h => ?_, ⟨?_, fun q => ?_⟩, fun g q held => ?_, fun q q' w w' h h' live live' same => ?_,
    fun g f framed q => ?_, engine.trans laws.engine, ?_, fun q taken => ?_, fun q => ?_⟩
  · rw [txn] at h
    split at h
    · cases h; exact lawful
    · exact laws.records q w h
  · obtain ⟨_, joined, _⟩ | ⟨_, same, _⟩ := joins
    · rw [joined]
      exact List.nodup_append_comm.1 (List.nodup_cons.2 ⟨notWaiting, laws.waiting.1⟩)
    · exact same ▸ laws.waiting.1
  · by_cases same : q = r
    · subst same
      rw [own]
      obtain ⟨state, joined, _⟩ | ⟨state, same, _⟩ := joins
      · simp [joined, state]
      · simp [same, state, notWaiting]
    · rw [others q _ same, ← laws.waiting.2 q]
      obtain ⟨_, joined, _⟩ | ⟨_, unchanged, _⟩ := joins
      · simp [joined, same]
      · rw [unchanged]
  · rw [holder] at held
    have other : q ≠ r := fun same => laws.unheld used early g (same ▸ held)
    rw [txn, if_neg other]
    exact laws.holders g q held
  · have alone : ∀ p y, v.txn p = some y → p ≠ r → s.txn p = some y := fun p y h other => by
      rwa [txn, if_neg other] at h
    have mine : ∀ y, v.txn r = some y → y.origin = t.origin := fun y h => by
      rw [txn, if_pos rfl, Option.some.injEq] at h
      exact h ▸ origin
    by_cases here : q = r
    · subst here
      by_cases there : q' = q
      · exact there.symm
      · have gone := dead q' w' (alone q' w' h' there) (same.symm.trans (mine w h))
        simp [gone] at live'
    · by_cases there : q' = r
      · subst there
        have gone := dead q w (alone q w h here) (same.trans (mine w' h'))
        simp [gone] at live
      · exact laws.origins q q' w w' (alone q w h here) (alone q' w' h' there) live live' same
  · rw [receivers] at framed
    obtain ⟨formed, response, either⟩ := laws.frames g f framed q
    by_cases same : q = r
    · subst same
      have apart := unframed g f framed
      exact ⟨fun has => absurd (Frame.formingRecord_txn has) apart, fun _ owns => absurd owns apart, either⟩
    · rw [txn, if_neg same]
      exact ⟨formed, response, either⟩
  · obtain ⟨_, _, same⟩ | ⟨_, _, joined⟩ := joins
    · exact same ▸ laws.queued
    · rw [joined]
      exact List.nodup_append_comm.1 (List.nodup_cons.2 ⟨notQueued, laws.queued⟩)
  · have other : q ≠ r := fun same => notTaken (same ▸ taken)
    obtain ⟨_, _, same⟩ | ⟨_, _, joined⟩ := joins
    · exact same ▸ laws.apart q taken
    · simp [joined, other, laws.apart q taken]
  · by_cases same : q = r
    · subst same
      rw [own]
      obtain ⟨state, _, same⟩ | ⟨state, _, joined⟩ := joins
      · simp [same, state, notQueued, notTaken]
      · simp [joined, state]
    · rw [others q _ same, ← laws.executing q]
      obtain ⟨_, _, unchanged⟩ | ⟨_, _, joined⟩ := joins
      · rw [unchanged]
      · simp [joined, same]

/-- A Poll's or Broadcast's frame has ended intact: its record becomes PENDING, or closes NoRoute (R27, R49). -/
theorem State.LawsIn.becomePending (laws : s.LawsIn e x) (used : s.txn r = some t) (forming : t.state = .forming)
    (unframed : s.Unframed r) (dead : ∀ q w, s.txn q = some w → w.origin = t.origin → w.live = false)
    (kind : t.kind ≠ .loc) : (s.becomePending r).LawsIn e x := by
  have early : t.state.stage ≠ .sending := by simp [forming, TxnState.stage]
  obtain ⟨copies, windows, outcome⟩ := (laws.records r t used).unlaunched early
  unfold State.becomePending
  simp only [used]
  split
  · have leaves := State.cancelWaiting_leavesEngine
      (s.putTxn r (some { t with state := .pending, egress := t.egress &&& s.downstream })) (r := r)
      ((s.txn_putTxn r r _).trans (if_pos rfl)) outcome copies .noRoute
    refine (laws.free used (laws.unheld used early) unframed (by simp [forming])).of_leaves (.trans ?_ leaves)
    exact ⟨by simp [Vector.set_set], rfl, rfl, rfl, rfl, rfl⟩
  · exact laws.enters used forming unframed dead
      (u := { t with state := .pending, egress := t.egress &&& s.downstream })
      ⟨fun fixed => absurd outcome fixed, kind, copies, windows, outcome⟩ rfl rfl rfl rfl rfl (.inl ⟨rfl, rfl, rfl⟩)

/-- A Management frame has ended intact: its record becomes EXECUTING (R27, R45). -/
theorem State.LawsIn.becomeExecuting (laws : s.LawsIn e x) (used : s.txn r = some t) (forming : t.state = .forming)
    (unframed : s.Unframed r) (dead : ∀ q w, s.txn q = some w → w.origin = t.origin → w.live = false)
    (kind : t.kind = .loc) (command sequence : Byte) : (s.becomeExecuting r command sequence).LawsIn e x := by
  have early : t.state.stage ≠ .sending := by simp [forming, TxnState.stage]
  obtain ⟨copies, windows, outcome⟩ := (laws.records r t used).unlaunched early
  unfold State.becomeExecuting
  simp only [used]
  exact laws.enters used forming unframed dead
    (u := { t with state := .executing, command := command, sequence := sequence })
    ⟨fun fixed => absurd outcome fixed, kind, copies, windows, outcome⟩ rfl rfl rfl rfl rfl (.inr ⟨rfl, rfl, rfl⟩)

/-- A frame's record enters service, or is adopted (R27, R28). -/
theorem State.LawsIn.enterService (laws : s.LawsIn e x) {g : Seg} {cls : FrameClass} (used : s.txn r = some t)
    (forming : t.state = .forming) (origin : t.origin = g) (kind : t.kind = .loc ↔ cls = .management)
    (unframed : s.Unframed r) (d : Fin Config.numDescs) : (s.enterService g cls r d).LawsIn e x := by
  have early : t.state.stage ≠ .sending := by simp [forming, TxnState.stage]
  unfold State.enterService
  dsimp only
  split
  · exact (laws.free used (laws.unheld used early) unframed (by simp [forming])).of_leaves
      (State.mapStore_leavesEngine _ _)
  · have leaves := (State.withdrawReplies_leavesEngine (s.abandonLive g) g).trans (State.emptySlot_leavesEngine _ g)
    have same : (s.abandonOrigin g).txn r = some t := by
      refine (leaves.txn r).trans ?_
      cases live : s.liveOf g with
      | none => rw [State.abandonLive_none live, used]
      | some q =>
        obtain ⟨w, usedq, alive, _⟩ := State.liveOf_some live
        have other : r ≠ q := by
          rintro rfl
          rw [used, Option.some.injEq] at usedq
          simp [← usedq, Txn.live, forming] at alive
        exact ((State.abandonLive_others live).2.2 r other).trans used
    have dead : ∀ q w, (s.abandonOrigin g).txn q = some w → w.origin = t.origin → w.live = false := fun q w h o =>
      laws.abandonLive_dead ((leaves.txn q).symm.trans h) (o.trans origin)
    have clear : (s.abandonOrigin g).Unframed r := fun h f framed => by
      obtain ⟨x, e, k, st, m, only⟩ := s.abandonOrigin_only g
      rw [only] at framed
      exact unframed h f framed
    refine State.LawsIn.of_leaves ?_ (State.setBackBulk_leavesEngine _ g)
    split
    next management => exact (laws.abandonOrigin g).becomeExecuting same forming clear dead (kind.2 management) _ _
    next other => exact (laws.abandonOrigin g).becomePending same forming clear dead fun l => other (kind.1 l)

end

end Sys2Proof.Machine
end

