-- ==== Sys2Proof/Proofs/Arbiter.lean ====
section
/-!
The grant arbiter (R31 to R34): what a launch and a bypass leave, said once, and that a scan keeps the laws of the transactions.
-/

namespace Sys2Proof.Machine

/-! ### A launch (R33) -/

theorem SegSet.members_nodup (m : SegSet) : m.members.Nodup :=
  (show Seg.all.Nodup by decide).filter _

/-- A request granted on a list of segments: r holds them, and each has a copy at the tail of its bulk lane (R33). -/
theorem State.grants_eq (r : Fin Config.numTxns) (d : Option (Fin Config.numDescs)) {l : List Seg} (once : l.Nodup)
    (s : State) : ∃ h e, l.foldl (State.grant r d) s = { s with txns := { s.txns with holders := h }, egress := e }
      ∧ (∀ g, h.get g = if g ∈ l then some r else s.holder g)
      ∧ ∀ g, e.get g = if g ∈ l then { s.egress.get g with bulkLane := (s.egress.get g).bulkLane ++ d.toList }
        else s.egress.get g := by
  induction l generalizing s with
  | nil => exact ⟨s.txns.holders, s.egress, rfl, fun g => by simp [State.holder], fun g => by simp⟩
  | cons u l ih =>
    obtain ⟨new, once⟩ := List.nodup_cons.1 once
    obtain ⟨h, e, granted, held, lanes⟩ := ih once (State.grant r d s u)
    refine ⟨h, e, granted, fun g => ?_, fun g => ?_⟩
    · have one : (State.grant r d s u).holder g = if g = u then some r else s.holder g := s.holder_setHolder u g (some r)
      rw [held, one]
      by_cases here : g = u <;> simp [here]
    · have one : (State.grant r d s u).egress.get g
          = if g = u then { s.egress.get u with bulkLane := (s.egress.get u).bulkLane ++ d.toList } else s.egress.get g :=
        s.egress.get_set u g _
      rw [lanes, one]
      by_cases here : g = u
      · simp [here, new]
      · simp [here]

/-- The records once those of `older` that share a segment with m are bypassed (R34). -/
theorem State.raiseBypass_eq (older : List (Fin Config.numTxns)) (m : SegSet) (s : State) : ∃ k,
    s.raiseBypass older m = { s with txns := { s.txns with records := k } } := by
  induction older generalizing s with
  | nil => exact ⟨s.txns.records, rfl⟩
  | cons o l ih =>
    unfold State.raiseBypass at ih ⊢
    rw [List.foldl_cons]
    split
    next u used =>
      split
      · exact ih s
      · obtain ⟨k, h⟩ := ih (s.putTxn o (some (u.bypassed s.bridge.bypassLimit)))
        exact ⟨k, h⟩
    · exact ih s

/-- A launch (R33), up to the bypass it causes: the record, the pending list, the grants, the bulk lanes and the descriptor. -/
theorem State.launch_eq (s : State) (older : List (Fin Config.numTxns)) {r : Fin Config.numTxns} {t : Txn}
    (used : s.txn r = some t) : ∃ v h e, s.launch older r = v.raiseBypass older t.egress
      ∧ v = { s with
        txns := { s.txns with
          records := (s.putTxn r (some t.launched)).txns.records
          waiting := s.txns.waiting.filter fun q => q != r
          holders := h }
        egress := e
        store := match t.reqDesc with
          | some d => s.store.modify d fun x => { x with txn := none, pendingEgress := t.egress }
          | none => s.store }
      ∧ (∀ g, h.get g = if t.egress.has g = true then some r else s.holder g)
      ∧ ∀ g, e.get g = if t.egress.has g = true
        then { s.egress.get g with bulkLane := (s.egress.get g).bulkLane ++ t.reqDesc.toList } else s.egress.get g := by
  obtain ⟨h, e, granted, held, lanes⟩ := State.grants_eq r t.reqDesc (SegSet.members_nodup t.egress)
    { s with txns := { s.txns with waiting := s.txns.waiting.filter fun q => q != r } }
  refine ⟨_, h, e, ?_, rfl, fun g => (held g).trans (by simp only [SegSet.mem_members]; rfl),
    fun g => (lanes g).trans (by simp only [SegSet.mem_members])⟩
  unfold State.launch
  simp only [used]
  rw [granted, show some { t with state := .sending, copies := t.egress } = some t.launched from rfl]
  generalize t.launched = u
  cases t.reqDesc <;> rfl

/-- What becomes of a Free segment, the record and the waiting list at a launch of another. -/
theorem State.launch_waiting (s : State) (older : List (Fin Config.numTxns)) {r : Fin Config.numTxns} {t : Txn}
    (used : s.txn r = some t) : (s.launch older r).txns.waiting = s.txns.waiting.filter fun q => q != r := by
  obtain ⟨v, h, e, launched, result, _⟩ := s.launch_eq older used
  obtain ⟨k, bypassed⟩ := v.raiseBypass_eq older t.egress
  rw [launched, bypassed, result]

/-! ### The laws -/

section
variable {s : State} {e : EngineState} {x : Option (Fin Config.numTxns)}

/-- A bypass keeps the laws (R34). -/
theorem State.LawsIn.raiseBypass (laws : s.LawsIn e x) (older : List (Fin Config.numTxns)) (m : SegSet) :
    (s.raiseBypass older m).LawsIn e x := by
  induction older generalizing s with
  | nil => exact laws
  | cons o l ih =>
    unfold State.raiseBypass at ih ⊢
    rw [List.foldl_cons]
    split
    next u used =>
      split
      · exact ih laws
      · refine ih (laws.putTxn used ⟨laws.records o u used, rfl, rfl, rfl, id⟩ (fun _ _ egress needs => ⟨egress, needs⟩)
          fun g f framed cls own => ?_)
        obtain ⟨w, usedw, response⟩ := (laws.frames g f framed o).2.1 cls own
        rw [used, Option.some.injEq] at usedw
        subst usedw
        exact response
    · exact ih laws

/-- A launch keeps the laws (R31, R33): the segments it takes are the transaction's own. -/
theorem State.LawsIn.launch (laws : s.LawsIn e x) {r : Fin Config.numTxns} (waits : r ∈ s.txns.waiting)
    (older : List (Fin Config.numTxns)) : (s.launch older r).LawsIn e x := by
  obtain ⟨t, used, pending⟩ := (laws.waiting.2 r).1 waits
  have early : t.state.stage ≠ .sending := by simp [pending, TxnState.stage]
  have lawful := laws.records r t used
  obtain ⟨_, windows, outcome⟩ := lawful.unlaunched early
  have kind : t.kind ≠ .loc := by
    obtain ⟨_, row⟩ := lawful
    rw [pending] at row
    exact row.1
  obtain ⟨v, h, lanes, launched, result, held, _⟩ := s.launch_eq older used
  rw [launched]
  refine State.LawsIn.raiseBypass ?_ older t.egress
  have txn : ∀ q, v.txn q = if q = r then some t.launched else s.txn q := fun q => by
    rw [result]
    exact s.txn_putTxn r q (some t.launched)
  have unframed := laws.unframed used (by simp [pending]) (by simp [pending])
  obtain ⟨unqueued, untaken⟩ := laws.not_executing used (by simp [pending])
  refine ⟨fun q w usedq => ?_, ⟨result ▸ laws.waiting.1.filter _, fun q => ?_⟩, fun g q heldBy => ?_,
    fun q q' w w' usedq usedq' live live' same => ?_, fun g f framed q => ?_, result ▸ laws.engine, result ▸ laws.queued,
    result ▸ laws.apart, fun q => ?_⟩
  · rw [txn] at usedq
    split at usedq
    · cases usedq
      exact ⟨fun fixed => absurd outcome fixed, kind, fun _ => windows⟩
    · exact laws.records q w usedq
  · have filtered : q ∈ v.txns.waiting ↔ q ∈ s.txns.waiting ∧ q ≠ r := by simp [result]
    rw [filtered, laws.waiting.2, txn]
    split
    next same => simp [same, Txn.launched]
    next other => simp [other]
  · have heldBy' : (if t.egress.has g = true then some r else s.holder g) = some q := by
      rw [← held, ← heldBy, result]
      rfl
    rw [txn]
    split at heldBy'
    next has =>
      cases heldBy'
      rw [if_pos rfl]
      exact ⟨t.launched, rfl, kind, has, .inl has⟩
    next =>
      have other : q ≠ r := fun same => laws.unheld used early g (same ▸ heldBy')
      rw [if_neg other]
      exact laws.holders g q heldBy'
  · have before : ∀ p y, v.txn p = some y → y.live = true →
        ∃ z, s.txn p = some z ∧ z.live = true ∧ z.origin = y.origin := by
      intro p y usedp lives
      rw [txn] at usedp
      split at usedp
      next here =>
        cases usedp
        refine ⟨t, here ▸ used, ?_, rfl⟩
        simpa [Txn.live, Txn.launched, pending] using lives
      next => exact ⟨y, usedp, lives, rfl⟩
    obtain ⟨z, usedz, liveZ, originZ⟩ := before q w usedq live
    obtain ⟨z', usedz', liveZ', originZ'⟩ := before q' w' usedq' live'
    exact laws.origins q q' z z' usedz usedz' liveZ liveZ' (by rw [originZ, originZ', same])
  · have framed' : (s.receivers.get g).frame = some f := by rw [← framed, result]
    obtain ⟨forming, response, either⟩ := laws.frames g f framed' q
    rw [txn]
    split
    next same =>
      subst same
      exact ⟨fun has => absurd (Frame.formingRecord_txn has) (unframed g f framed'),
        fun _ own => absurd own (unframed g f framed'), either⟩
    next => exact ⟨forming, response, either⟩
  · have queue : v.mgmt.queue = s.mgmt.queue := by rw [result]
    rw [queue, laws.executing, txn]
    split
    next same => simp [same, used, pending, Txn.launched]
    next => rfl

/-- A scan keeps the laws (R32): it launches what waits. -/
theorem State.LawsIn.scanFrom {l : List (Fin Config.numTxns)} (laws : s.LawsIn e x) (once : l.Nodup)
    (wait : ∀ r ∈ l, r ∈ s.txns.waiting) (older : List (Fin Config.numTxns)) : (s.scanFrom older l).LawsIn e x := by
  induction l generalizing s older with
  | nil => exact laws
  | cons r l ih =>
    obtain ⟨new, once⟩ := List.nodup_cons.1 once
    have waits := wait r List.mem_cons_self
    unfold State.scanFrom
    split
    · obtain ⟨t, used, _⟩ := (laws.waiting.2 r).1 waits
      refine ih (laws.launch waits older) once (fun q mem => ?_) older
      have other : q ≠ r := fun same => new (same ▸ mem)
      simp [s.launch_waiting older used, wait q (List.mem_cons_of_mem r mem), other]
    · exact ih laws once (fun q mem => wait q (List.mem_cons_of_mem r mem)) (older ++ [r])

theorem State.LawsIn.scan (laws : s.LawsIn e x) : s.scan.LawsIn e x :=
  laws.scanFrom laws.waiting.1 (fun _ mem => mem) []

end

end Sys2Proof.Machine
end

