-- ==== Sys2Proof/Proofs/TransactionLawsCopies.lean ====
section
/-!
Copies and their ends, responses, timeouts, and segments leaving Downstream keep the laws of the transactions (R35 to R42, R49).
-/

namespace Sys2Proof.Machine

section
variable {s : State} {e : EngineState} {x : Option (Fin Config.numTxns)} {r : Fin Config.numTxns} {t : Txn}

/-! ### Copies (R35, R36) -/

/-- A holder's record is in use, carried, of the segment's egress set (R31). -/
theorem State.LawsIn.holds (laws : s.LawsIn e x) {g : Seg} (held : s.holder g = some r) (used : s.txn r = some t) :
    t.kind ≠ .loc ∧ t.egress.has g = true ∧ t.Needs g ∧ t.state.stage = .sending := by
  obtain ⟨w, used', kind, egress, needs⟩ := laws.holders g r held
  rw [used, Option.some.injEq] at used'
  subst used'
  exact ⟨kind, egress, needs, (laws.records r t used).carried needs⟩

/-- A record in use whose transaction a frame's response belongs to is receiving it (R38). -/
theorem State.LawsIn.receives (laws : s.LawsIn e x) (used : s.txn r = some t) {g : Seg} {f : Frame}
    (framed : (s.receivers.get g).frame = some f) (cls : f.cls = some .response) (own : f.txn = some r) :
    t.state = .receiving ∧ t.outcome = none ∧ t.responseSeg = some g := by
  obtain ⟨w, used', response⟩ := (laws.frames g f framed r).2.1 cls own
  rw [used, Option.some.injEq] at used'
  exact used' ▸ response

/-- With no copy out and no window open, a transaction that is receiving no response holds no segment (R31). -/
theorem State.LawsIn.unheld_of_idle (laws : s.LawsIn e x) (used : s.txn r = some t) (copies : t.copies = 0)
    (windows : t.windows = 0) (idle : t.state = .receiving → t.outcome ≠ none) (g : Seg) : s.holder g ≠ some r := by
  intro held
  obtain ⟨_, _, copy | window | ⟨receiving, outcome, _⟩, _⟩ := laws.holds held used
  · rw [copies, SegSet.has_zero] at copy
    cases copy
  · rw [windows, SegSet.has_zero] at window
    cases window
  · exact idle receiving outcome

/-- What follows the last copy keeps the laws (R36, R37). -/
theorem State.LawsIn.copiesDone (laws : s.LawsIn e x) (used : s.txn r = some t) (carried : t.state.stage = .sending) :
    (s.copiesDone r).LawsIn e x := by
  have lawful := laws.records r t used
  have formed : t.state ≠ .forming ∧ t.state ≠ .executing := by
    constructor <;> intro state <;> simp [state, TxnState.stage] at carried
  unfold State.copiesDone
  simp only [used]
  split
  · exact laws
  next last =>
    have copies : t.copies = 0 := not_not.1 last
    have given : State.LawsIn (s.putTxn r (some { t with reqDesc := none })) e x :=
      laws.putTxn used ⟨lawful, rfl, rfl, rfl, id⟩ (fun _ _ egress needs => ⟨egress, needs⟩)
        fun g f framed cls own => laws.receives used framed cls own
    have now : (s.putTxn r (some { t with reqDesc := none })).txn r = some { t with reqDesc := none } :=
      (s.txn_putTxn r r _).trans (if_pos rfl)
    have close : ∀ o, t.windows = 0 → (t.state = .receiving → t.outcome ≠ none) →
        (State.closeTxn (s.putTxn r (some { t with reqDesc := none })) r o).LawsIn e x := fun o windows idle =>
      given.closeTxn now windows (fun g held => absurd held (given.unheld_of_idle now copies windows idle g))
        (given.unframed now formed.1 idle) formed.2 o
    split
    next fixed =>
      have outcome : t.outcome ≠ none := Option.isSome_iff_ne_none.1 fixed
      exact given.free now (given.unheld_of_idle now copies (lawful.1 outcome) fun _ => outcome)
        (given.unframed now formed.1 fun _ => outcome) formed.2
    next unfixed =>
      have outcome : t.outcome = none := by simpa using unfixed
      split
      next kind state =>
        split
        next windows => exact close .collision windows (by simp [state])
        next windows =>
          refine given.putTxn now ⟨?_, by simp [state, TxnState.stage], rfl, rfl, fun live => ?_⟩
            (fun g _ egress needs => ⟨egress, ?_⟩) fun g f framed cls own => ?_
          · exact ⟨fun fixed => absurd outcome fixed, kind, copies, outcome⟩
          · simpa [Txn.live, state] using live
          · obtain copy | window | ⟨receiving, _⟩ := needs
            · exact .inl copy
            · exact .inr (.inl window)
            · simp [state] at receiving
          · have receiving := (laws.receives used framed cls own).1
            simp [state] at receiving
      · exact given
      next kind =>
        obtain ⟨_, row⟩ := lawful
        have sending : t.state = .sending ∧ t.windows = 0 := by
          cases state : t.state <;> simp_all [TxnState.stage]
        exact close _ sending.2 (by simp [sending.1])
      · exact given

/-- A copy on g is out no more, where its segment is given up or has its window open now (R35, R36). -/
theorem State.LawsIn.copyGone (laws : s.LawsIn e x) (used : s.txn r = some t) {g : Seg} {u : Txn} (goes : t.Continues u)
    (gone : u.copies = t.copies.erase g) (egress : u.egress = t.egress) (state : u.state = t.state)
    (outcome : u.outcome = t.outcome) (response : u.responseSeg = t.responseSeg)
    (windows : ∀ h, h ≠ g → t.windows.has h = true → u.windows.has h = true)
    (here : s.holder g = some r → u.windows.has g = true) : (s.putTxn r (some u)).LawsIn e x := by
  refine laws.putTxn used goes (fun h held has needs => ⟨egress ▸ has, ?_⟩) fun h f framed cls own => ?_
  · by_cases same : h = g
    · exact .inr (.inl (same ▸ here (same ▸ held)))
    · obtain copy | window | receiving := needs
      · exact .inl (by simp [gone, same, copy])
      · exact .inr (.inl (windows h same window))
      · rw [← state, ← outcome, ← response] at receiving
        exact .inr (.inr receiving)
  · rw [state, outcome, response]
    exact laws.receives used framed cls own

/-- One copy fewer is lawful. -/
theorem Txn.Lawful.fewerCopies (lawful : t.Lawful) (g : Seg) : Txn.Lawful { t with copies := t.copies.erase g } := by
  have zero : t.copies = 0 → t.copies.erase g = 0 := fun none_ => by rw [none_]; cases g <;> rfl
  obtain ⟨closed, row⟩ := lawful
  refine ⟨closed, ?_⟩
  cases state : t.state <;> simp_all

/-- A segment given up and a record written: the order makes no difference. -/
theorem State.putTxn_releaseGrant (s : State) (r : Fin Config.numTxns) (t : Option Txn) (g : Seg) :
    (s.putTxn r t).releaseGrant g = (s.releaseGrant g).putTxn r t := rfl

/-- A copy gone and its segment given up. -/
theorem State.LawsIn.copyReleased (laws : s.LawsIn e x) (used : s.txn r = some t) (g : Seg) (ok : Bool) :
    ((s.putTxn r (some { t with copies := t.copies.erase g, copyOk := ok })).releaseGrant g).LawsIn e x := by
  rw [State.putTxn_releaseGrant]
  exact (laws.releaseGrant g).copyGone used ⟨(laws.records r t used).fewerCopies g, rfl, rfl, rfl, id⟩ rfl rfl rfl rfl rfl
    (fun _ _ window => window) fun held => by simp at held

/-- A last timed-out station is none of the laws' matter. -/
theorem State.setLastTimedOut_leavesEngine (s : State) (g : Seg) (a : Option Byte) :
    s.LeavesEngine (s.setLastTimedOut g a) := ⟨rfl, rfl, rfl, rfl, rfl, rfl⟩

/-- A request copy that has reached send completion keeps the laws (R35). -/
theorem State.LawsIn.copyCompleted (laws : s.LawsIn e x) (g : Seg) : (s.copyCompleted g).LawsIn e x := by
  unfold State.copyCompleted
  split
  · exact laws
  next r held =>
    split
    · exact laws
    next t used =>
      obtain ⟨_, _, _, carried⟩ := laws.holds held used
      have released : ∀ ok, ((((s.putTxn r (some { t with copies := t.copies.erase g, copyOk := ok })).releaseGrant
          g).copiesDone r)).LawsIn e x := fun ok =>
        (laws.copyReleased used g ok).copiesDone ((s.txn_putTxn r r _).trans (if_pos rfl)) carried
      dsimp only
      split
      · exact released t.copyOk
      next unfixed =>
        have outcome : t.outcome = none := by simpa using unfixed
        split
        next kind state =>
          have lawful : Txn.Lawful { t with copies := t.copies.erase g, windows := t.windows.insert g } := by
            refine ⟨fun fixed => absurd outcome fixed, ?_⟩
            simp [state, kind]
          have opened : (State.LawsIn (s.putTxn r (some
              { t with copies := t.copies.erase g, windows := t.windows.insert g })) e x) :=
            laws.copyGone used ⟨lawful, rfl, rfl, rfl, id⟩ rfl rfl rfl rfl rfl
              (fun h _ window => by simp [window]) fun _ => by simp
          have leaves := State.setLastTimedOut_leavesEngine (s.putTxn r (some
            { t with copies := t.copies.erase g, windows := t.windows.insert g })) g none
          exact (opened.of_leaves leaves).copiesDone
            ((leaves.txn r).trans ((s.txn_putTxn r r _).trans (if_pos rfl))) carried
        · exact released true
        · exact released t.copyOk

/-- A request copy lost to a collision keeps the laws (R36). -/
theorem State.LawsIn.copyFailed (laws : s.LawsIn e x) (g : Seg) : (s.copyFailed g).LawsIn e x := by
  unfold State.copyFailed
  split
  · exact laws
  next r held =>
    split
    · exact laws
    next t used =>
      exact (laws.copyReleased used g t.copyOk).copiesDone ((s.txn_putTxn r r _).trans (if_pos rfl))
        (laws.holds held used).2.2.2

/-! ### Responses and timeouts (R38, R41, R42) -/

/-- The transaction with an open window on a segment is its holder (R38). -/
theorem State.windowOn_some {g : Seg} (window : s.windowOn g = some (r, t)) :
    s.holder g = some r ∧ s.txn r = some t ∧ t.windows.has g = true := by
  unfold State.windowOn at window
  split at window
  · cases window
  next q held =>
    split at window
    · cases window
    next w used =>
      split at window
      next has => cases window; exact ⟨held, used, has⟩
      · cases window

/-- A transaction with an open window is a Poll with no outcome, still to get its response (R36 to R38). -/
theorem Txn.Lawful.windowed (lawful : t.Lawful) {g : Seg} (window : t.windows.has g = true) :
    t.kind = .poll ∧ t.outcome = none ∧ t.state ≠ .receiving ∧ t.state.stage = .sending := by
  have carried := lawful.carried (.inr (.inl window))
  have open_ : t.windows ≠ 0 := fun none_ => by rw [none_, SegSet.has_zero] at window; cases window
  obtain ⟨closed, row⟩ := lawful
  refine ⟨?_, not_not.1 fun fixed => open_ (closed fixed), fun receiving => ?_, carried⟩
  · cases state : t.state <;> cases kind : t.kind <;> simp_all [TxnState.stage]
  · rw [receiving] at row
    exact open_ row.2

/-- An address character matched keeps the laws, and its transaction is receiving the response there (R38). -/
theorem State.LawsIn.matchWindow (laws : s.LawsIn e x) {g : Seg} (window : s.windowOn g = some (r, t)) :
    (s.matchWindow r t g).LawsIn e x ∧ (s.matchWindow r t g).txn r
      = some { t with state := .receiving, deadline := none, windows := 0, responseSeg := some g } := by
  obtain ⟨_, used, has⟩ := State.windowOn_some window
  obtain ⟨kind, outcome, waiting, carried⟩ := (laws.records r t used).windowed has
  obtain ⟨h, released, held⟩ := s.releaseGrants_holders (t.windows.erase g)
  have order : s.matchWindow r t g = (s.releaseGrants (t.windows.erase g)).putTxn r
      (some { t with state := .receiving, deadline := none, windows := 0, responseSeg := some g }) :=
    s.putTxn_releaseGrants r _ _
  have fewer := laws.releaseGrants (t.windows.erase g)
  have used' : (s.releaseGrants (t.windows.erase g)).txn r = some t := by rw [released]; exact used
  rw [order]
  refine ⟨fewer.putTxn used' ⟨⟨fun _ => rfl, kind, rfl⟩, carried.symm, rfl, rfl, fun live => ?_⟩
    (fun u heldBy egress needs => ⟨egress, ?_⟩) (fun u f framed cls own => ?_),
    (State.txn_putTxn _ r r _).trans (if_pos rfl)⟩
  · have formed : t.state ≠ .forming := fun forming => by simp [forming, TxnState.stage] at carried
    simpa [Txn.live, formed] using live
  · obtain copy | open_ | ⟨receiving, _⟩ := needs
    · exact .inl copy
    · refine .inr (.inr ⟨rfl, outcome, ?_⟩)
      have kept : h.get u = some r := by rw [released] at heldBy; exact heldBy
      rw [held u] at kept
      by_contra other
      have away : u ≠ g := fun same => other (by rw [same])
      simp [away, open_] at kept
    · exact absurd receiving waiting
  · exact absurd (fewer.receives used' framed cls own).1 waiting

/-- A response that ends fixes the outcome of the transaction that was receiving it, its segment given up (R37, R42). -/
theorem State.LawsIn.responseEnds (laws : s.LawsIn e x) (used : s.txn r = some t) {g : Seg}
    (receiving : t.state = .receiving) (segment : t.responseSeg = some g) (unframed : s.Unframed r) (o : TxnOutcome) :
    ((s.releaseGrant g).closeTxn r o).LawsIn e x := by
  have lawful := laws.records r t used
  have windows : t.windows = 0 := by
    obtain ⟨_, row⟩ := lawful
    rw [receiving] at row
    exact row.2
  have released := laws.releaseGrant g
  refine released.closeTxn used windows (fun h held => ?_) unframed (by simp [receiving]) o
  obtain ⟨_, _, copy | window | ⟨_, _, there⟩, _⟩ := released.holds held used
  · exact copy
  · rw [windows, SegSet.has_zero] at window
    cases window
  · rw [segment, Option.some.injEq] at there
    simp [← there] at held

/-- A response that ended intact keeps the laws (R42, R104). -/
theorem State.LawsIn.responseIntact (laws : s.LawsIn e x) (used : s.txn r = some t) {g : Seg}
    (receiving : t.state = .receiving) (segment : t.responseSeg = some g) (unframed : s.Unframed r)
    (d : Fin Config.numDescs) : (s.responseIntact r g d).LawsIn e x := by
  unfold State.responseIntact
  simp only [used]
  have ends : ∀ u : State, s.LeavesEngine u → (((u.releaseGrant g).closeTxn r .answered).learn t.station g).LawsIn e x := by
    intro u leaves
    refine State.LawsIn.of_leaves ?_ (State.learn_leavesEngine _ _ _)
    exact (laws.of_leaves leaves).responseEnds ((leaves.txn r).trans used) receiving segment
      (fun h f framed => unframed h f (by rw [← leaves.receivers, framed])) .answered
  refine ends _ ?_
  split
  · exact s.mapStore_leavesEngine _
  · obtain ⟨eg, st, k, h⟩ := State.offerReply_only (s.mapStore fun st => st.modify d fun x => { x with txn := none })
      t.origin d none
    exact h ▸ ⟨rfl, rfl, rfl, rfl, rfl, rfl⟩

theorem State.setLastTimedOutAll_leavesEngine (a : Option Byte) (l : List Seg) (s : State) :
    s.LeavesEngine (l.foldl (fun s g => s.setLastTimedOut g a) s) := by
  induction l generalizing s with
  | nil => exact .refl s
  | cons g l ih => exact .trans (s.setLastTimedOut_leavesEngine g a) (ih (s.setLastTimedOut g a))

/-- A response timer's expiry keeps the laws (R41). -/
theorem State.LawsIn.timeOut (laws : s.LawsIn e x) (used : s.txn r = some t) (awaiting : t.state = .awaiting) :
    (s.timeOut r t).LawsIn e x := by
  have lawful := laws.records r t used
  obtain ⟨kind, copies, outcome⟩ : t.kind = .poll ∧ t.copies = 0 ∧ t.outcome = none := by
    obtain ⟨_, row⟩ := lawful
    rw [awaiting] at row
    exact row
  obtain ⟨h, released, held⟩ := s.releaseGrants_holders t.windows
  have unheld : ∀ g, (s.releaseGrants t.windows).holder g ≠ some r := fun g heldBy => by
    have kept : h.get g = some r := by rw [released] at heldBy; exact heldBy
    rw [held g] at kept
    split at kept
    · cases kept
    next closed =>
      obtain ⟨_, _, copy | window | ⟨receiving, _⟩, _⟩ := laws.holds kept used
      · rw [copies, SegSet.has_zero] at copy
        cases copy
      · exact closed window
      · simp [awaiting] at receiving
  have used' : (s.releaseGrants t.windows).txn r = some t := by rw [released]; exact used
  have fewer := laws.releaseGrants t.windows
  have closed : State.LawsIn ((s.releaseGrants t.windows).putTxn r
      (some { t with windows := 0, deadline := none })) e x := by
    refine fewer.putTxn used' ⟨⟨fun _ => rfl, ?_⟩, rfl, rfl, rfl, id⟩ (fun g heldBy _ _ => absurd heldBy (unheld g))
      fun g f framed cls own => fewer.receives used' framed cls own
    simp [awaiting, kind, copies, outcome]
  unfold State.timeOut
  dsimp only
  rw [State.putTxn_releaseGrants]
  set v := (s.releaseGrants t.windows).putTxn r (some { t with windows := 0, deadline := none }) with result
  have leaves : v.LeavesEngine (((((t.windows.members.foldl (fun s g => s.setLastTimedOut g (some t.station)) v).countMiss
      t.station).count t.origin .timeouts).raise .timeout (some t.origin) (some t.station) 0)) := by
    refine (State.setLastTimedOutAll_leavesEngine (some t.station) t.windows.members v).trans ?_
    obtain ⟨b, k, h⟩ := State.countMiss_only
      (t.windows.members.foldl (fun s g => s.setLastTimedOut g (some t.station)) v) t.station
    rw [h]
    exact ⟨rfl, rfl, rfl, rfl, rfl, rfl⟩
  have now : v.txn r = some { t with windows := 0, deadline := none } := (State.txn_putTxn _ r r _).trans (if_pos rfl)
  refine (closed.of_leaves leaves).closeTxn ((leaves.txn r).trans now) rfl (fun g heldBy => ?_)
    ((closed.of_leaves leaves).unframed ((leaves.txn r).trans now) (by simp [awaiting]) (by simp [awaiting]))
    (by simp [awaiting]) .timeout
  rw [leaves.holder] at heldBy
  exact absurd heldBy (unheld g)

/-! ### A segment leaving Downstream (R49) -/

/-- The waiting transactions lose a segment, those left with none close: the laws are kept (R49). -/
theorem State.LawsIn.pruneWaiting (laws : s.LawsIn e x) (g : Seg) : (s.pruneWaiting g).LawsIn e x := by
  unfold State.pruneWaiting
  have wait : ∀ q ∈ s.txns.waiting, ∀ w, s.txn q = some w → w.state = .pending := by
    intro q mem w used
    obtain ⟨w', used', pending⟩ := (laws.waiting.2 q).1 mem
    rw [used, Option.some.injEq] at used'
    exact used' ▸ pending
  generalize s.txns.waiting = l at wait
  induction l generalizing s with
  | nil => exact laws
  | cons q l ih =>
    rw [List.foldl_cons]
    have rest := fun p mem => wait p (List.mem_cons_of_mem q mem)
    split
    · exact ih laws rest
    next t used =>
      have pending := wait q List.mem_cons_self t used
      have erased : (s.putTxn q (some { t with egress := t.egress.erase g })).LawsIn e x :=
        laws.putTxn used ⟨laws.records q t used, rfl, rfl, rfl, id⟩
          (fun h held _ _ => absurd held (laws.unheld used (by simp [pending, TxnState.stage]) h))
          fun h f framed cls own => laws.receives used framed cls own
      have stillWait : ∀ p ∈ l, ∀ w, (s.putTxn q (some { t with egress := t.egress.erase g })).txn p = some w →
          w.state = .pending := by
        intro p mem w usedp
        rw [State.txn_putTxn] at usedp
        split at usedp
        · cases usedp; exact pending
        · exact rest p mem w usedp
      dsimp only
      split
      · split
        · refine ih (erased.cancelWaiting (fun w usedw => ?_) .noRoute) fun p mem w usedp => ?_
          · rw [State.txn_putTxn, if_pos rfl, Option.some.injEq] at usedw
            exact usedw ▸ pending
          · by_cases same : p = q
            · subst same
              obtain ⟨copies, _, outcome⟩ := (laws.records p t used).unlaunched (by simp [pending, TxnState.stage])
              have leaves := State.cancelWaiting_leavesEngine (s.putTxn p (some { t with egress := t.egress.erase g }))
                ((s.txn_putTxn p p _).trans (if_pos rfl)) outcome copies .noRoute
              rw [leaves.txn, State.txn_freeRecord, if_pos rfl] at usedp
              cases usedp
            · rw [(State.cancelWaiting_others _ q .noRoute).2.2 p same] at usedp
              exact stillWait p mem w usedp
        · exact ih erased stillWait
      · exact ih laws rest

end

end Sys2Proof.Machine
end

