-- ==== Sys2Proof/Proofs/TransactionLawsReception.lean ====
section
/-!
The frame receivers keep the laws of the transactions (R25, R71, R73 to R90).
-/

namespace Sys2Proof.Machine

section
variable {s : State} {e : EngineState} {x : Option (Fin Config.numTxns)} {r : Fin Config.numTxns} {t : Txn} {g : Seg}
  {f : Frame}

/-! ### A frame and its transaction -/

/-- The record of a frame whose class bears one is its transaction (R71). -/
theorem Frame.formingRecord_of_bears {c : FrameClass} (cls : f.cls = some c) (bears : c.bearsRecord = true) :
    f.formingRecord = f.txn := by simp [Frame.formingRecord, cls, bears]

/-- What leaves the engine leaves a frame its own. -/
theorem State.Fits.of_leaves {u : State} (fits : s.Fits g f) (leaves : s.LeavesEngine u) : u.Fits g f := by
  simp only [State.Fits, leaves.txn]
  exact fits

/-- The transaction of a frame taken from its receiver is no other frame's: its record is FORMING for that segment, or receives
there (R71, R38). -/
theorem State.LawsIn.unframed_of_fits (laws : s.LawsIn e x) (fits : s.Fits g f) (own : f.txn = some r)
    (clear : (s.receivers.get g).frame = none) : s.Unframed r := by
  intro h f' framed own'
  have away : h ≠ g := fun same => by rw [same, clear] at framed; cases framed
  obtain ⟨forming, response, either⟩ := fits r
  obtain ⟨forming', response', either'⟩ := laws.frames h f' framed r
  obtain has | cls := either own
  · obtain ⟨w, used, state, origin, _⟩ := forming has
    obtain has' | cls' := either' own'
    · obtain ⟨w', used', _, origin', _⟩ := forming' has'
      rw [used, Option.some.injEq] at used'
      subst used'
      exact away (origin'.symm.trans origin)
    · obtain ⟨w', used', state', _⟩ := response' cls' own'
      rw [used, Option.some.injEq] at used'
      simp [← used', state] at state'
  · obtain ⟨w, used, state, _, segment⟩ := response cls own
    obtain has' | cls' := either' own'
    · obtain ⟨w', used', state', _⟩ := forming' has'
      rw [used, Option.some.injEq] at used'
      simp [← used', state] at state'
    · obtain ⟨w', used', _, _, segment'⟩ := response' cls' own'
      rw [used, Option.some.injEq] at used'
      subst used'
      exact away (Option.some.inj (segment'.symm.trans segment))

/-- A frame receiver that loses its frame. -/
theorem State.LawsIn.emptyReceiver (laws : s.LawsIn e x) (g : Seg) {z : FrState} (empty : z.frame = none) :
    (s.setReceiver g z).LawsIn e x :=
  laws.setReceiver fun f framed => by rw [empty] at framed; cases framed

/-! ### Admission (R25, R76) -/

/-- A record is reserved for a frame (R25). -/
theorem State.LawsIn.reserve (laws : s.LawsIn e x) (free : s.txn r = none) (forming : t.state = .forming)
    (lawful : t.Lawful) : (s.putTxn r (some t)).LawsIn e x := by
  have unheld : ∀ g, s.holder g ≠ some r := fun g held => by
    obtain ⟨w, used, _⟩ := laws.holders g r held
    rw [free] at used
    cases used
  have unused : ∀ st : TxnState, st ≠ .forming → ∀ q, (∃ w, (s.putTxn r (some t)).txn q = some w ∧ w.state = st)
      ↔ ∃ w, s.txn q = some w ∧ w.state = st := by
    intro st other q
    rw [State.txn_putTxn]
    split
    next same => simp [same, free, forming, Ne.symm other]
    next => rfl
  refine ⟨fun q w used => ?_, ⟨laws.waiting.1, fun q => (laws.waiting.2 q).trans (unused _ (by simp) q).symm⟩,
    fun h q held => ?_, fun q q' w w' used used' live live' => ?_, fun h f framed q => ?_, laws.engine, laws.queued,
    laws.apart, fun q => (laws.executing q).trans (unused _ (by simp) q).symm⟩
  · rw [State.txn_putTxn] at used
    split at used
    · cases used; exact lawful
    · exact laws.records q w used
  · have other : q ≠ r := fun same => unheld h (same ▸ held)
    rw [State.txn_putTxn, if_neg other]
    exact laws.holders h q held
  · have before : ∀ p y, (s.putTxn r (some t)).txn p = some y → y.live = true → s.txn p = some y := by
      intro p y usedp lives
      rw [State.txn_putTxn] at usedp
      split at usedp
      · cases usedp
        simp [Txn.live, forming] at lives
      · exact usedp
    exact laws.origins q q' w w' (before q w used live) (before q' w' used' live') live live'
  · obtain ⟨formed, response, either⟩ := laws.frames h f framed q
    rw [State.txn_putTxn]
    split
    next same =>
      subst same
      have none_ : f.txn ≠ some q := fun own => by
        obtain has | cls := either own
        · obtain ⟨w, used, _⟩ := formed has
          rw [free] at used
          cases used
        · obtain ⟨w, used, _⟩ := response cls own
          rw [free] at used
          cases used
      exact ⟨fun has => absurd (Frame.formingRecord_txn has) none_, fun _ own => absurd own none_, either⟩
    next => exact ⟨formed, response, either⟩

/-- The lowest free record is free (R25). -/
theorem State.lowestFree_free (lowest : s.lowestFree = some r) : s.txn r = none := by
  have found := List.find?_some lowest
  exact Option.isNone_iff_eq_none.1 found

/-- A frame passed over with a transaction that is its own, or with none, keeps the laws. -/
theorem State.LawsIn.skipFrame (laws : s.LawsIn e x) {cls : Option FrameClass} {txn : Option (Fin Config.numTxns)}
    {reason : SkipReason} {a : Byte} {intent : Option NoticeIntent}
    (fits : s.Fits g ⟨cls, a, none, txn, 0, intent⟩) : (s.skipFrame g cls reason a txn intent).LawsIn e x :=
  laws.setReceiver fun _ framed => by cases framed; exact fits

theorem State.LawsIn.refuseFrame (laws : s.LawsIn e x) {cls : FrameClass} {txn : Option (Fin Config.numTxns)} {a : Byte}
    (fits : ∀ intent, s.Fits g ⟨some cls, a, none, txn, 0, intent⟩) : (s.refuseFrame g cls a txn).LawsIn e x :=
  (laws.skipFrame (fits _)).of_leaves (State.count_leavesEngine _ _ _)

/-- Admission with a record keeps the laws (R25, R76). -/
theorem State.LawsIn.admitRecord (laws : s.LawsIn e x) {cls : FrameClass} (bears : cls.bearsRecord = true) {kind : TxnKind}
    (kinds : kind = .loc ↔ cls = .management) (m : SegSet) (tc : Option TimeoutClass) (c : RxChar) :
    (s.admitRecord g cls kind m tc c).LawsIn e x := by
  have refused : (s.refuseFrame g cls c.value none).LawsIn e x := laws.refuseFrame fun _ => .of_none rfl
  unfold State.admitRecord
  dsimp only
  split
  · exact refused
  · split
    · exact refused
    next r lowest =>
      split
      · exact refused
      next d st _ =>
        have stored : State.LawsIn { s with store := st } e x := laws.of_leaves ⟨rfl, rfl, rfl, rfl, rfl, rfl⟩
        have reserved := stored.reserve (State.lowestFree_free lowest)
          (t := reservedTxn kind g c.value d m tc) rfl ⟨fun _ => rfl, rfl, rfl, rfl⟩
        refine reserved.setReceiver fun f framed q => ?_
        cases framed
        have record : Frame.formingRecord ⟨some cls, c.value, some d, some r, 1,
            if erroneous (s.active g).noisePolicy c = true then some .damaged else none⟩ = some r :=
          Frame.formingRecord_of_bears rfl bears
        refine ⟨fun has => ?_, fun response => ?_, fun own => .inl (record.trans own)⟩
        · rw [record, Option.some.injEq] at has
          subst has
          exact ⟨_, (State.txn_putTxn _ r r _).trans (if_pos rfl), rfl, rfl, by simpa [reservedTxn] using kinds⟩
        · cases response
          cases bears

/-- Admission without a record keeps the laws where the frame's transaction is its own (R76). -/
theorem State.LawsIn.admitPlain (laws : s.LawsIn e x) {cls : FrameClass} {txn : Option (Fin Config.numTxns)} {c : RxChar}
    (fits : ∀ d n intent, s.Fits g ⟨some cls, c.value, d, txn, n, intent⟩) : (s.admitPlain g cls txn c).LawsIn e x := by
  have refused : (s.refuseFrame g cls c.value txn).LawsIn e x := laws.refuseFrame fun i => fits none 0 i
  unfold State.admitPlain
  dsimp only
  split
  · exact refused
  · split
    · exact refused
    next d st _ =>
      have stored : State.LawsIn { s with store := st } e x := laws.of_leaves ⟨rfl, rfl, rfl, rfl, rfl, rfl⟩
      exact stored.setReceiver fun f framed => by cases framed; exact fits _ _ _

/-- What classification to a record gives (R74, R75): a class that bears one, a Local exactly for Management. -/
theorem State.classify_record {a : Byte} {cls : FrameClass} {kind : TxnKind} {m : SegSet} {tc : Option TimeoutClass}
    (classed : s.classify g a = some (.record cls kind m tc)) :
    cls.bearsRecord = true ∧ (kind = .loc ↔ cls = .management) := by
  unfold State.classify at classed
  split at classed
  · simp only [State.classifyUpstream, Option.some.injEq] at classed
    split at classed
    · split at classed <;> cases classed
      exact ⟨rfl, by simp⟩
    · split at classed
      · split at classed <;> cases classed
        exact ⟨rfl, by simp⟩
      · split at classed <;> cases classed
        exact ⟨rfl, by simp⟩
  · simp only [State.classifyDownstream, Option.some.injEq] at classed
    split at classed
    · split at classed <;> cases classed
    · split at classed
      · split at classed <;> cases classed
        exact ⟨rfl, by simp⟩
      · split at classed
        · cases classed
        · split at classed <;> cases classed
  · cases classed

/-- A Response is classified by the open window (R38, R75). -/
theorem State.classify_window {a : Byte} (classed : s.classify g a = some (.response r t)) :
    s.windowOn g = some (r, t) := by
  unfold State.classify at classed
  split at classed
  · simp only [State.classifyUpstream, Option.some.injEq] at classed
    split at classed
    · split at classed <;> cases classed
    · split at classed
      · split at classed <;> cases classed
      · split at classed <;> cases classed
  · simp only [State.classifyDownstream, Option.some.injEq] at classed
    split at classed
    next window =>
      split at classed <;> cases classed
      exact window
    · split at classed
      · split at classed <;> cases classed
      · split at classed
        · cases classed
        · split at classed <;> cases classed
  · cases classed

/-- A frame's beginning keeps the laws (R73). -/
theorem State.LawsIn.beginFrame (laws : s.LawsIn e x) (g : Seg) (c : RxChar) : (s.beginFrame g c).LawsIn e x := by
  have skipped : ∀ cls reason intent, (s.skipFrame g cls reason c.value none intent).LawsIn e x := fun cls reason intent =>
    laws.skipFrame (.of_none rfl)
  unfold State.beginFrame
  split
  · exact laws
  next classed => exact laws.admitRecord (State.classify_record classed).1 (State.classify_record classed).2 _ _ c
  next r t classed =>
    have window := State.classify_window classed
    obtain ⟨matched, receives⟩ := laws.matchWindow window
    have outcome := ((laws.records r t (State.windowOn_some window).2.1).windowed (State.windowOn_some window).2.2).2.1
    refine matched.admitPlain fun d n intent q => ⟨fun has => ?_, fun _ own => ?_, fun _ => .inr rfl⟩
    · simp [Frame.formingRecord, FrameClass.bearsRecord] at has
    · cases own
      exact ⟨_, receives, rfl, outcome, rfl⟩
  · exact (laws.of_leaves (s.count_leavesEngine g .unsolicited)).admitPlain fun d n intent => .of_none rfl
  · split
    · exact (skipped _ _ _).of_leaves (State.count_leavesEngine _ _ _)
    · exact (skipped _ _ _).of_leaves (State.count_leavesEngine _ _ _)
    · exact (skipped _ _ _).of_leaves ((State.count_leavesEngine _ _ _).trans (State.raise_leavesEngine _ _ _ _ _))
    · exact (skipped _ _ _).of_leaves (State.count_leavesEngine _ _ _)
    all_goals exact skipped _ _ _

/-! ### Growth (R79 to R82) -/

/-- Setting an intent changes neither class nor transaction (R89). -/
theorem Frame.intend_txn (f : Frame) (i : NoticeIntent) : (f.intend i).txn = f.txn := by
  unfold Frame.intend
  split <;> rfl

/-- A data character taken keeps the laws: the frame stays whose it is (R79). -/
theorem State.LawsIn.growFrame (laws : s.LawsIn e x) (stored : s.receivers.get g = .store f) (c : RxChar) :
    (s.growFrame g f c).LawsIn e x := by
  have fits : s.Fits g f := laws.frames g f (by rw [stored]; rfl)
  have turned : ∀ reason i, (s.setReceiver g (.skip reason (f.intend i))).LawsIn e x := fun reason i =>
    laws.setReceiver fun f' framed => by
      cases framed
      exact fits.congr (f.intend_cls i) (f.intend_txn i)
  have kept : ∀ st b, (State.setReceiver { s with store := st } g (.store
      (if erroneous (s.active g).noisePolicy c = true then Frame.intend { f with taken := b } .damaged
        else { f with taken := b }))).LawsIn e x := fun st b => by
    refine State.LawsIn.setReceiver (s := { s with store := st }) (laws.of_leaves ⟨rfl, rfl, rfl, rfl, rfl, rfl⟩)
      fun f' framed => ?_
    cases framed
    split
    · exact fits.congr (Frame.intend_cls _ _) (Frame.intend_txn _ _)
    · exact fits.congr rfl rfl
  unfold State.growFrame
  split
  · exact laws
  · split
    · exact laws
    · dsimp only
      split
      · exact turned _ _
      · split
        · split
          · exact turned _ _
          · exact kept _ _
        · exact kept _ _

/-! ### Frame end (R83 to R89) -/

/-- A frame that did not end intact keeps the laws (R42, R86). -/
theorem State.LawsIn.endUnkept (laws : s.LawsIn e x) (fits : s.Fits g f) (clear : (s.receivers.get g).frame = none)
    (o : Option TxnOutcome) : (s.endUnkept g f o).LawsIn e x := by
  unfold State.endUnkept
  split
  next r has =>
    obtain ⟨t, used, forming, _⟩ := (fits r).1 has
    exact laws.free used (laws.unheld used (by simp [forming, TxnState.stage]))
      (laws.unframed_of_fits fits (Frame.formingRecord_txn has) clear) (by simp [forming])
  · split
    next r o cls own =>
      obtain ⟨t, used, receiving, _, segment⟩ := (fits r).2.1 cls own
      exact laws.responseEnds used receiving segment (laws.unframed_of_fits fits own clear) o
    · exact laws

/-- A frame handed on keeps the laws (R87). -/
theorem State.LawsIn.handOn (laws : s.LawsIn e x) (fits : s.Fits g f) (clear : (s.receivers.get g).frame = none)
    (d : Fin Config.numDescs) : (s.handOn g f d).LawsIn e x := by
  have leaves := s.mapStore_leavesEngine fun st => st.modify d fun x => { x with state := .ready }
  have ready := laws.of_leaves leaves
  have serves : ∀ (c : FrameClass) (r : Fin Config.numTxns), c.bearsRecord = true → f.cls = some c → f.txn = some r →
      State.LawsIn ((s.mapStore fun st => st.modify d fun x => { x with state := .ready }).enterService g c r d) e x := by
    intro c r bears cls own
    obtain ⟨t, used, forming, origin, kind⟩ := (fits r).1 ((Frame.formingRecord_of_bears cls bears).trans own)
    exact ready.enterService used forming origin (by simp [kind, cls]) (laws.unframed_of_fits fits own clear) d
  unfold State.handOn
  dsimp only
  split
  next r cls own => exact serves .request r rfl cls own
  next r cls own => exact serves .broadcast r rfl cls own
  next r cls own => exact serves .management r rfl cls own
  next r cls own =>
    obtain ⟨t, used, receiving, _, segment⟩ := (fits r).2.1 cls own
    exact ready.responseIntact used receiving segment (laws.unframed_of_fits fits own clear) d
  · exact ready.of_leaves (State.forwardUnsolicited_leavesEngine _ d)
  · exact ready

theorem State.releaseFrame_leavesEngine (s : State) (f : Frame) : s.LeavesEngine (s.releaseFrame f) := by
  unfold State.releaseFrame
  split
  · exact s.mapStore_leavesEngine _
  · exact .refl s

theorem State.placeIntent_leavesEngine (s : State) (g : Seg) (f : Frame) (cause : EndCause) :
    s.LeavesEngine (s.placeIntent g f cause) := by
  unfold State.placeIntent
  split
  · split
    · exact .refl s
    · exact s.notify_leavesEngine _ _ _
  · exact .refl s

/-- The end of a frame keeps the laws (R86). -/
theorem State.LawsIn.endFrameOf (laws : s.LawsIn e x) (fits : s.Fits g f) (cause : EndCause) (skip : Option SkipReason) :
    (s.endFrameOf g cause skip f).LawsIn e x := by
  unfold State.endFrameOf
  dsimp only
  generalize endingOf cause skip _ = ending
  refine State.LawsIn.of_leaves ?_ (State.placeIntent_leavesEngine _ g f cause)
  have counts : (s.setReceiver g .hunt).LeavesEngine ((((s.setReceiver g .hunt).count g .framesReceived).countIf
      (ending == .damaged) g .damaged).countIf (ending == .truncated) g .noBuffer) :=
    ((State.count_leavesEngine _ g .framesReceived).trans (State.countIf_leavesEngine _ _ g .damaged)).trans
      (State.countIf_leavesEngine _ _ g .noBuffer)
  generalize ((((s.setReceiver g .hunt).count g .framesReceived).countIf (ending == .damaged) g .damaged).countIf
    (ending == .truncated) g .noBuffer) = u at counts
  have now : u.LawsIn e x := (laws.emptyReceiver g rfl).of_leaves counts
  have still : u.Fits g f := State.Fits.of_leaves (s := s.setReceiver g .hunt) fits counts
  have clear : (u.receivers.get g).frame = none := by simp [counts.receivers, FrState.frame]
  have released : ∀ o, ((u.releaseFrame f).endUnkept g f o).LawsIn e x := fun o => by
    have leaves := u.releaseFrame_leavesEngine f
    exact (now.of_leaves leaves).endUnkept (still.of_leaves leaves) (by rw [leaves.receivers]; exact clear) o
  split
  · split
    · exact now.handOn still clear _
    · exact now
  · exact released _
  · exact released _
  · exact now.endUnkept still clear _

theorem State.LawsIn.endFrame (laws : s.LawsIn e x) (g : Seg) (cause : EndCause) : (s.endFrame g cause).LawsIn e x := by
  unfold State.endFrame
  split
  next f stored => exact laws.endFrameOf (laws.frames g f (by rw [stored]; rfl)) cause none
  next reason f skipped => exact laws.endFrameOf (laws.frames g f (by rw [skipped]; rfl)) cause (some reason)
  · exact laws
  · exact laws

/-! ### Items delivered (R62, R73, R79, R84, R85) -/

theorem State.countErrors_leavesEngine (s : State) (g : Seg) (c : RxChar) : s.LeavesEngine (s.countErrors g c) :=
  (s.countIf_leavesEngine _ g .charErrors).trans (State.countIf_leavesEngine _ _ g .noiseChars)

/-- A character delivered to a frame receiver keeps the laws (R73, R79, R84). -/
theorem State.LawsIn.receiveChar (laws : s.LawsIn e x) (g : Seg) (c : RxChar) : (s.receiveChar g c).LawsIn e x := by
  have leaves := s.countErrors_leavesEngine g c
  have counted := laws.of_leaves leaves
  unfold State.receiveChar
  split
  · exact laws
  · split
    · exact counted.beginFrame g c
    · exact counted.of_leaves (State.count_leavesEngine _ g .orphans)
  next f stored =>
    split
    · exact (counted.endFrame g .nextAddress).beginFrame g c
    · exact counted.growFrame (by rw [leaves.receivers]; exact stored) c
  · split
    · exact (counted.endFrame g .nextAddress).beginFrame g c
    · exact counted

/-- A break delivered to a frame receiver keeps the laws (R48, R85). -/
theorem State.LawsIn.receiveBreak (laws : s.LawsIn e x) (g : Seg) : (s.receiveBreak g).LawsIn e x := by
  have ended : (((s.endFrame g .aborted).count g .breaks)).LawsIn e x :=
    (laws.endFrame g .aborted).of_leaves (State.count_leavesEngine _ g .breaks)
  have served : State.LawsIn (if (((s.endFrame g .aborted).count g .breaks).active g).role = .upstream
      then ((s.endFrame g .aborted).count g .breaks).abandonOrigin g else (s.endFrame g .aborted).count g .breaks) e x := by
    split
    · exact ended.abandonOrigin g
    · exact ended
  unfold State.receiveBreak
  split
  · exact laws
  all_goals exact served

theorem State.echoCompare_leavesEngine (s : State) (g : Seg) (i : EchoItem) : s.LeavesEngine (s.echoCompare g i) := by
  obtain ⟨eg, l, k, h⟩ := s.echoCompare_only g i
  exact h ▸ ⟨rfl, rfl, rfl, rfl, rfl, rfl⟩

theorem State.setRx_leavesEngine (s : State) (g : Seg) (rx : RxState) : s.LeavesEngine (s.setRx g rx) :=
  ⟨rfl, rfl, rfl, rfl, rfl, rfl⟩

/-- A break found keeps the laws (R60, R62). -/
theorem State.LawsIn.breakFound (laws : s.LawsIn e x) (g : Seg) : (s.breakFound g).LawsIn e x := by
  have heard := laws.of_leaves (s.setRx_leavesEngine g (.recover s.time))
  unfold State.breakFound State.deliverBreak
  split
  · exact heard.of_leaves (State.echoCompare_leavesEngine _ g none)
  · exact heard.receiveBreak g

theorem State.falseStart_leavesEngine (s : State) (g : Seg) : s.LeavesEngine (s.falseStart g) :=
  ⟨rfl, rfl, rfl, rfl, rfl, rfl⟩

/-- The receiver's verdict on a character period keeps the laws (R57 to R62). -/
theorem State.LawsIn.characterComplete (laws : s.LawsIn e x) (g : Seg) (v : Samples) :
    (s.characterComplete g v).LawsIn e x := by
  unfold State.characterComplete
  dsimp only
  split
  · exact laws.of_leaves (s.falseStart_leavesEngine g)
  · exact laws.breakFound g
  next c _ =>
    have heard := laws.of_leaves (s.setRx_leavesEngine g (.ready s.time (endsHigh (s.active g) v) false))
    unfold State.deliverChar
    split
    · exact heard.of_leaves (State.echoCompare_leavesEngine _ g (some c))
    · exact heard.receiveChar g c

/-- An idle-gap expiry keeps the laws (R61, R83). -/
theorem State.LawsIn.idleGap (laws : s.LawsIn e x) (g : Seg) : (s.idleGap g).LawsIn e x := by
  have taken : ∀ u, (s.setLine g u).LawsIn e x := fun u => laws.of_leaves ⟨rfl, rfl, rfl, rfl, rfl, rfl⟩
  unfold State.idleGap
  dsimp only
  split
  · exact taken _
  · exact (taken _).endFrame g .idleGap

end

end Sys2Proof.Machine
end

