-- ==== Sys2Proof/Proofs/TransactionLawsSending.lean ====
section
/-!
The egress schedulers, the restarts and the settings applies keep the laws of the transactions (R49 to R51, R121, R122, R135, R156,
R160, R164 to R166).
-/

namespace Sys2Proof.Machine

section
variable {s : State} {e : EngineState} {x : Option (Fin Config.numTxns)} {r : Fin Config.numTxns} {t : Txn} {g : Seg}
  {f : Frame}

/-! ### Restarts that clear (R163 to R165) -/

/-- With every record free, no grant, no frame and no management work, the laws hold (R52). -/
theorem State.LawsIn.of_empty (txns : s.txns = TxnEngine.allFree) (receivers : s.receivers = PerSeg.const .hunt)
    (queue : s.mgmt.queue = []) (engine : s.mgmt.engine = .idle) : s.LawsIn .idle none := by
  have free : ∀ r, s.txn r = none := fun r => by simp [State.txn, txns, TxnEngine.allFree]
  have unheld : ∀ g, s.holder g = none := fun g => by simp [State.holder, txns, TxnEngine.allFree]
  refine ⟨fun r t used => ?_, ⟨?_, fun r => ?_⟩, fun g r held => ?_, fun r q t w used => ?_, fun g f framed => ?_, engine,
    queue ▸ List.nodup_nil, fun r taken => ?_, fun r => ?_⟩
  · simp [free] at used
  · simp [txns, TxnEngine.allFree]
  · simp [txns, free, TxnEngine.allFree]
  · simp [unheld] at held
  · simp [free] at used
  · simp [receivers, FrState.frame] at framed
  · cases taken
  · simp [queue, free]

theorem State.clearAll_laws (s : State) : s.clearAll.LawsIn .idle none := .of_empty rfl rfl rfl rfl

theorem State.trafficRestart_laws (s : State) : s.trafficRestart.LawsIn .idle none := .of_empty rfl rfl rfl rfl

/-! ### How a send ends (R121, R122, R135) -/

theorem State.dropItem_leavesEngine (s : State) (g : Seg) (i : Item) : s.LeavesEngine (s.dropItem g i) := by
  obtain ⟨eg, st, h⟩ := s.dropItem_only g i
  exact h ▸ ⟨rfl, rfl, rfl, rfl, rfl, rfl⟩

/-- A send that ends Collision keeps the laws (R36, R121). -/
theorem State.LawsIn.sendCollided (laws : s.LawsIn e x) (g : Seg) : (s.sendCollided g).LawsIn e x := by
  have ends : ∀ (request notice : Bool) (v : State), s.LeavesEngine v → State.LawsIn
      (if request = true then (if notice = true then v.countNoticeLost else v).copyFailed g
        else if notice = true then v.countNoticeLost else v) e x := by
    intro request notice v leaves
    have counted : State.LawsIn (if notice = true then v.countNoticeLost else v) e x := by
      split
      · exact laws.of_leaves (leaves.trans ⟨rfl, rfl, rfl, rfl, rfl, rfl⟩)
      · exact laws.of_leaves leaves
    split
    · exact counted.copyFailed g
    · exact counted
  unfold State.sendCollided
  split
  · exact laws
  next h _ =>
    exact (ends (s.isRequestCopy h.item) h.item.isNotice _ (s.dropItem_leavesEngine g h.item)).of_leaves
      ((State.settlePendingOwn_leavesEngine _).trans (State.raise_leavesEngine _ _ _ _ _))

/-- BACKOFF's beginning keeps the laws (R116, R119). -/
theorem State.LawsIn.backOff (laws : s.LawsIn e x) (g : Seg) : (s.backOff g).LawsIn e x := by
  unfold State.backOff
  dsimp only
  refine State.LawsIn.of_leaves ?_ (State.setEgress_leavesEngine _ g _)
  split
  · exact laws.sendCollided g
  · exact laws

theorem State.disarmAll_leavesEngine (s : State) : s.LeavesEngine s.disarmAll := ⟨rfl, rfl, rfl, rfl, rfl, rfl⟩

theorem State.disarmOwn_leavesEngine (s : State) : s.LeavesEngine s.disarmOwn := ⟨rfl, rfl, rfl, rfl, rfl, rfl⟩

/-- An effect taken keeps the laws (R135, R156, R164, R165). -/
theorem State.LawsIn.takeDeferred (laws : s.LawsIn e e.taken) (g : Seg) (a : Armed) :
    (s.takeDeferred g a).TransactionLaws := by
  unfold State.takeDeferred
  dsimp only
  split
  · exact ((State.clearAll_laws _).of_leaves (State.raise_leavesEngine _ _ _ _ _)).transactionLaws
  · exact (State.trafficRestart_laws _).transactionLaws
  · exact (laws.of_leaves (t := State.changeOwn _ _) ⟨rfl, rfl, rfl, rfl, rfl, rfl⟩).transactionLaws

/-- A send completed keeps the laws (R35, R122). -/
theorem State.LawsIn.sendCompleted (laws : s.LawsIn e e.taken) (g : Seg) : (s.sendCompleted g).TransactionLaws := by
  unfold State.sendCompleted
  split
  · exact laws.transactionLaws
  next h _ =>
    have dropped := laws.of_leaves ((s.dropItem_leavesEngine g h.item).trans (State.count_leavesEngine _ g .framesSent))
    have reported : State.LawsIn (if s.isRequestCopy h.item = true
        then ((s.dropItem g h.item).count g .framesSent).copyCompleted g
        else (s.dropItem g h.item).count g .framesSent) e e.taken := by
      split
      · exact dropped.copyCompleted g
      · exact dropped
    dsimp only
    split
    next a _ =>
      exact ((State.transactionLaws_iff _).1 (reported.takeDeferred g a)).of_leaves
        (State.settlePendingOwn_leavesEngine _) |>.transactionLaws
    · exact reported.transactionLaws

theorem State.LawsIn.releaseLine (laws : s.LawsIn e x) (g : Seg) : (s.releaseLine g).LawsIn e x :=
  State.LawsIn.emptyReceiver (s := s.setLine g _) (laws.of_leaves ⟨rfl, rfl, rfl, rfl, rfl, rfl⟩) g rfl

/-- TAIL's end keeps the laws (R119, R121, R122). -/
theorem State.LawsIn.endTail (laws : s.LawsIn e e.taken) (g : Seg) : (s.endTail g).TransactionLaws := by
  have released := laws.releaseLine g
  unfold State.endTail
  dsimp only
  split
  · exact (released.backOff g).transactionLaws
  · exact (released.of_leaves (State.setEgress_leavesEngine _ g _)).sendCompleted g

theorem State.failAttempt_leavesEngine (s : State) (g : Seg) : s.LeavesEngine (s.failAttempt g) :=
  ⟨rfl, rfl, rfl, rfl, rfl, rfl⟩

/-- Contention and a start bit heard keep the laws (R57, R116). -/
theorem State.LawsIn.startHeard (laws : s.LawsIn e x) (g : Seg) : (s.startHeard g).LawsIn e x := by
  have taken : s.LeavesEngine (s.takeStart g) := by
    unfold State.takeStart
    dsimp only
    split
    · exact ⟨rfl, rfl, rfl, rfl, rfl, rfl⟩
    all_goals exact .refl s
  have heard := laws.of_leaves taken
  unfold State.startHeard
  dsimp only
  split
  · exact ((heard.releaseLine g).of_leaves (State.failAttempt_leavesEngine _ g)).backOff g
  all_goals exact heard

theorem State.enterTransmit_leavesEngine (s : State) (g : Seg) (b : Bool) : s.LeavesEngine (s.enterTransmit g b) := by
  obtain ⟨l, eg, h⟩ := s.enterTransmit_only g b
  exact h ▸ ⟨rfl, rfl, rfl, rfl, rfl, rfl⟩

/-- Taking the line keeps the laws: the frame receiver is in BLIND (R114). -/
theorem State.LawsIn.takeLine (laws : s.LawsIn e x) (g : Seg) : (s.takeLine g).LawsIn e x := by
  have blinded : ∀ u eg, (State.setEgress ((s.setLine g u).setReceiver g .blind) g eg).LawsIn e x := fun u eg =>
    State.LawsIn.of_leaves (State.LawsIn.emptyReceiver (s := s.setLine g u)
      (laws.of_leaves ⟨rfl, rfl, rfl, rfl, rfl, rfl⟩) g rfl) (State.setEgress_leavesEngine _ g eg)
  unfold State.takeLine
  dsimp only
  split
  · exact (blinded _ _).of_leaves (State.enterTransmit_leavesEngine _ g _)
  · exact blinded _ _

/-- A break sent keeps the laws (R69, R118). -/
theorem State.LawsIn.breakSent (laws : s.LawsIn e x) (g : Seg) : (s.breakSent g).LawsIn e x := by
  have sent : ∀ u, (s.setLine g u).LawsIn e x := fun u => laws.of_leaves ⟨rfl, rfl, rfl, rfl, rfl, rfl⟩
  unfold State.breakSent
  dsimp only
  split
  · exact (sent _).of_leaves (State.setEgress_leavesEngine _ g _)
  · exact (sent _).of_leaves (State.setEgress_leavesEngine _ g _)
  · exact (sent _).releaseLine g
  · exact sent _
  · exact (sent _).releaseLine g

/-! ### Segment restart (R50, R51, R166) -/

/-- A frame in assembly discarded (R90): its descriptor released, and its FORMING record freed where it has one. -/
theorem State.discardFrame_cases (framed : (s.receivers.get g).frame = some f) :
    f.formingRecord = none ∧ s.discardFrame g = s.releaseFrame f
      ∨ ∃ r, f.formingRecord = some r ∧ s.discardFrame g = (s.releaseFrame f).freeRecord r := by
  unfold State.discardFrame
  simp only [framed]
  cases forming : f.formingRecord with
  | none => exact .inl ⟨rfl, rfl⟩
  | some r => exact .inr ⟨r, rfl, rfl⟩

/-- A frame discarded, its receiver left with none, keeps the laws (R90). -/
theorem State.LawsIn.discardFrame (laws : s.LawsIn e x) (g : Seg) {z : FrState} (empty : z.frame = none) :
    ((s.discardFrame g).setReceiver g z).LawsIn e x := by
  have emptied := laws.emptyReceiver g empty
  cases framed : (s.receivers.get g).frame with
  | none =>
    unfold State.discardFrame
    simp only [framed]
    exact emptied
  | some f =>
    have fits : (s.setReceiver g z).Fits g f := laws.frames g f framed
    have clear : ((s.setReceiver g z).receivers.get g).frame = none := by simp [empty]
    have leaves := s.releaseFrame_leavesEngine f
    obtain ⟨_, released⟩ | ⟨r, has, freed⟩ := State.discardFrame_cases framed
    · rw [released]
      exact emptied.of_leaves
        ⟨leaves.records, leaves.waiting, leaves.holders, by simp [leaves.receivers], leaves.queue, leaves.engine⟩
    · rw [freed]
      obtain ⟨t, used, forming, _⟩ := (fits r).1 has
      refine (emptied.free used (emptied.unheld used (by simp [forming, TxnState.stage]))
        (emptied.unframed_of_fits fits (Frame.formingRecord_txn has) clear) (by simp [forming])).of_leaves ?_
      exact ⟨by simp [leaves.records], by simp [leaves.waiting], leaves.holders, by simp [leaves.receivers], leaves.queue,
        leaves.engine⟩

/-- What a Segment restart does to the transactions of the origin keeps the laws (R50). -/
theorem State.LawsIn.restartOrigin (laws : s.LawsIn e x) (g : Seg) (r : Fin Config.numTxns) :
    (State.restartOrigin g s r).LawsIn e x := by
  unfold State.restartOrigin
  split
  · exact laws
  next t used =>
    split
    · split
      next pending =>
        exact laws.cancelWaiting (fun w usedw => by rw [used, Option.some.injEq] at usedw; exact usedw ▸ pending) _
      · exact laws
      all_goals exact laws.supersede used
    · exact laws

theorem State.LawsIn.restartOrigins (l : List (Fin Config.numTxns)) (laws : s.LawsIn e x) (g : Seg) :
    (l.foldl (State.restartOrigin g) s).LawsIn e x := by
  induction l generalizing s with
  | nil => exact laws
  | cons r l ih => exact ih (laws.restartOrigin g r)

/-- The holder's transaction ends with the restart of its segment (R51): the segments of its windows are given up with it, and
those it still holds have copies out. -/
theorem State.LawsIn.restartEnds (laws : s.LawsIn e x) (held : s.holder g = some r) (used : s.txn r = some t)
    (clear : (s.receivers.get g).frame = none) (there : t.state = .receiving → t.responseSeg = some g)
    (request : Option (Fin Config.numDescs)) :
    ((((s.releaseGrant g).releaseGrants (t.windows.erase g)).putTxn r (some { t with
      copies := t.copies.erase g, windows := 0, deadline := none, reqDesc := request })).closeTxn r .restart).LawsIn e x := by
  obtain ⟨_, _, _, carried⟩ := laws.holds held used
  have lawful := (laws.records r t used).fewerCopies g
  obtain ⟨h, released, heldBy⟩ := (s.releaseGrant g).releaseGrants_holders (t.windows.erase g)
  have fewer := (laws.releaseGrant g).releaseGrants (t.windows.erase g)
  have used' : ((s.releaseGrant g).releaseGrants (t.windows.erase g)).txn r = some t := by rw [released]; exact used
  have unframed : ((s.releaseGrant g).releaseGrants (t.windows.erase g)).Unframed r := by
    intro u f framed own
    obtain ⟨forming, response, either⟩ := fewer.frames u f framed r
    obtain has | cls := either own
    · obtain ⟨w, usedw, state, _⟩ := forming has
      rw [used', Option.some.injEq] at usedw
      rw [← usedw] at state
      simp [state, TxnState.stage] at carried
    · obtain ⟨receiving, _, segment⟩ := fewer.receives used' framed cls own
      rw [there receiving, Option.some.injEq] at segment
      rw [released] at framed
      have none_ : (s.receivers.get u).frame = none := segment ▸ clear
      have some_ : (s.receivers.get u).frame = some f := framed
      rw [none_] at some_
      cases some_
  have copies : ∀ u, ((s.releaseGrant g).releaseGrants (t.windows.erase g)).holder u = some r →
      (t.copies.erase g).has u = true := by
    intro u holds
    have kept : h.get u = some r := by rw [released] at holds; exact holds
    rw [heldBy u, State.holder_releaseGrant] at kept
    have away : u ≠ g := fun same => by simp [same] at kept
    obtain ⟨_, _, copy | window | ⟨receiving, _, segment⟩, _⟩ := fewer.holds holds used'
    · simp [away, copy]
    · simp [away, window] at kept
    · rw [there receiving, Option.some.injEq] at segment
      exact absurd segment.symm away
  have written := fewer.putTxn (u := { t with
      copies := t.copies.erase g, windows := 0, deadline := none, reqDesc := request }) used' ⟨?_, rfl, rfl, rfl, id⟩
    (fun u holds egress _ => ⟨egress, .inl (copies u holds)⟩)
    fun u f framed _ own => absurd own (unframed u f framed)
  · exact written.closeTxn ((State.txn_putTxn _ r r _).trans (if_pos rfl)) rfl copies unframed
      (fun executing : t.state = .executing => by simp [executing, TxnState.stage] at carried) .restart
  · obtain ⟨_, row⟩ := lawful
    refine ⟨fun _ => rfl, ?_⟩
    cases state : t.state <;> simp_all

/-- What a Segment restart does to the transaction that holds the segment keeps the laws (R51). -/
theorem State.LawsIn.restartHolder (laws : s.LawsIn e x) (clear : (s.receivers.get g).frame = none) :
    (s.restartHolder g).LawsIn e x := by
  unfold State.restartHolder
  split
  · exact laws
  next r held =>
    split
    · exact laws.releaseGrant g
    next t used =>
      obtain ⟨_, _, _, carried⟩ := laws.holds held used
      have lawful := laws.records r t used
      dsimp only
      rw [State.putTxn_releaseGrant]
      split
      next ends =>
        rw [State.putTxn_releaseGrants, State.putTxn_putTxn]
        refine laws.restartEnds held used clear (fun receiving => ?_) _
        have row : t.outcome = none ∧ t.responseSeg = some g := by simpa [receiving] using ends
        exact row.2
      · have gone : State.LawsIn ((s.releaseGrant g).putTxn r (some
            { t with copies := t.copies.erase g, windows := t.windows.erase g })) e x := by
          have fewer := lawful.fewerCopies g
          have zero : t.windows = 0 → t.windows.erase g = 0 := fun none_ => by rw [none_]; cases g <;> rfl
          refine (laws.releaseGrant g).copyGone used ⟨?_, rfl, rfl, rfl, id⟩ rfl rfl rfl rfl rfl
            (fun h other window => by simp [other, window]) fun holds => by simp at holds
          obtain ⟨closed, row⟩ := fewer
          refine ⟨fun fixed => zero (closed fixed), ?_⟩
          cases state : t.state <;> simp_all
        exact gone.copiesDone ((State.txn_putTxn _ r r _).trans (if_pos rfl)) carried

theorem State.dropLeaseOf_leavesEngine (s : State) (g : Seg) (d : Byte) : s.LeavesEngine (s.dropLeaseOf g d) := by
  obtain ⟨l, v, h⟩ := s.dropLeaseOf_only g d
  exact h ▸ ⟨rfl, rfl, rfl, rfl, rfl, rfl⟩

/-- What a Segment restart does once the segment's frame, copies and line are cut keeps the laws (R50, R51, R166). -/
theorem State.LawsIn.restartRest (laws : s.LawsIn e x) (clear : (s.receivers.get g).frame = none) {w : State}
    (served : w = (ascendingTxns.foldl (State.restartOrigin g) s).restartHolder g) :
    (((State.settlePendingOwn { w.setLastTimedOut g none with
      mgmt := { w.mgmt with caches := w.mgmt.caches.set g none } }).raise .restarted (some g) none 3).dropLeaseOf g
      2).LawsIn e x := by
  have origins := State.LawsIn.restartOrigins ascendingTxns laws g
  have clear' : ((ascendingTxns.foldl (State.restartOrigin g) s).receivers.get g).frame = none := by
    obtain ⟨x, e, k, st, h⟩ := State.restartOrigins_only g ascendingTxns s
    rw [h]
    exact clear
  refine (served ▸ origins.restartHolder clear').of_leaves ?_
  refine State.LeavesEngine.trans (t := { w.setLastTimedOut g none with
    mgmt := { w.mgmt with caches := w.mgmt.caches.set g none } }) ⟨rfl, rfl, rfl, rfl, rfl, rfl⟩ ?_
  exact ((State.settlePendingOwn_leavesEngine _).trans (State.raise_leavesEngine _ _ _ _ _)).trans
    (State.dropLeaseOf_leavesEngine _ g 2)

/-- A Segment restart keeps the laws (R166). -/
theorem State.LawsIn.segmentRestart (laws : s.LawsIn e x) (g : Seg) : (s.segmentRestart g).LawsIn e x := by
  have cut : ∀ (u : LineUnit) (z : FrState), z.frame = none → (((((s.discardFrame g).flushCopies g).setEgress g
      Egress.empty).setLine g u).setReceiver g z).LawsIn e x := by
    intro u z empty
    refine (laws.discardFrame g empty).of_leaves ?_
    obtain ⟨st, flushed⟩ := State.leaveAll_only g ((s.discardFrame g).egress.get g).flushOrder (s.discardFrame g)
    rw [State.flushCopies, flushed]
    exact ⟨rfl, rfl, rfl, rfl, rfl, rfl⟩
  have noFrame : ∀ b : Bool, (if b = true then FrState.blind else .hunt : FrState).frame = none := by decide
  unfold State.segmentRestart
  exact State.LawsIn.restartRest (cut _ _ (noFrame _)) (by simp [noFrame]) rfl

/-! ### Settings applies (R159, R160) -/

/-- A role change keeps the laws (R49, R160). -/
theorem State.LawsIn.changeRole (laws : s.LawsIn e x) (g : Seg) (before after : Role) :
    (s.changeRole g before after).LawsIn e x := by
  unfold State.changeRole
  split
  · exact laws
  · split
    · have unlearned : (s.unlearnSegment g).LawsIn e x := laws.of_leaves ⟨rfl, rfl, rfl, rfl, rfl, rfl⟩
      exact (unlearned.pruneWaiting g).of_leaves (State.setLastTimedOut_leavesEngine _ g none)
    · refine (laws.abandonLive g).of_leaves ?_
      obtain ⟨st, flushed⟩ := State.leaveAll_only g ((s.abandonLive g).egress.get g).bulkLane ((s.abandonLive g).setEgress g
        { (s.abandonLive g).egress.get g with
          bulkLane := [], hand := ((s.abandonLive g).egress.get g).hand.bind InHand.withoutBulk })
      unfold State.flushBulk
      dsimp only
      rw [flushed]
      exact ⟨rfl, rfl, rfl, rfl, rfl, rfl⟩
    · exact laws

/-- A settings apply keeps the laws (R159). -/
theorem State.LawsIn.applySettings (laws : s.LawsIn e x) (g : Seg) : (s.applySettings g).LawsIn e x := by
  unfold State.applySettings
  dsimp only
  have written : ∀ u, (State.setLine { s with settings := s.settings.apply g } g u).LawsIn e x := fun u =>
    laws.of_leaves ⟨rfl, rfl, rfl, rfl, rfl, rfl⟩
  refine State.LawsIn.of_leaves ?_ (State.raise_leavesEngine _ _ _ _ _)
  unfold State.applyLease
  split
  · exact ((written _).changeRole g _ _).of_leaves (State.dropLeaseOf_leavesEngine _ g 1)
  · exact (written _).changeRole g _ _

end

end Sys2Proof.Machine
end

