-- ==== Sys2Proof/Proofs/TransactionLawsSteps.lean ====
section
/-!
The management engine and every step keep the laws of the transactions (R130 to R134).
-/

namespace Sys2Proof.Machine

section
variable {s : State} {e : EngineState} {x : Option (Fin Config.numTxns)} {r : Fin Config.numTxns} {t : Txn}

/-! ### Taking and ending a Local (R130, R134) -/

/-- The engine enters a state: which Local is in execution is said apart. -/
theorem State.LawsIn.setEngine (laws : s.LawsIn e x) {v : State} (txns : v.txns = s.txns)
    (receivers : v.receivers = s.receivers) (queue : v.mgmt.queue = s.mgmt.queue) : v.LawsIn v.mgmt.engine x := by
  have leaves : State.LeavesEngine s { v with mgmt := { v.mgmt with engine := s.mgmt.engine } } :=
    ⟨by rw [txns], by rw [txns], by rw [txns], receivers, queue, rfl⟩
  have moved := laws.of_leaves leaves
  exact ⟨moved.records, moved.waiting, moved.holders, moved.origins, moved.frames, rfl, moved.queued, moved.apart,
    moved.executing⟩

/-- The Local at the head of the queue is taken from it (R130). -/
theorem State.LawsIn.dequeue (laws : s.LawsIn .idle none) (head : s.headLocal = some (r, t)) :
    s.dequeue.LawsIn .idle (some r) := by
  have queue : ∃ rest, s.mgmt.queue = r :: rest := by
    unfold State.headLocal at head
    split at head
    next q rest _ queue =>
      cases used : s.txn q with
      | none => simp [used] at head
      | some w =>
        simp only [used, Option.map_some, Option.some.injEq, Prod.mk.injEq] at head
        exact ⟨rest, head.1 ▸ queue⟩
    · cases head
  obtain ⟨rest, queue⟩ := queue
  have nodup := laws.queued
  rw [queue] at nodup
  obtain ⟨new, nodup⟩ := List.nodup_cons.1 nodup
  have tail : s.dequeue.mgmt.queue = rest := by simp [queue]
  refine ⟨laws.records, laws.waiting, laws.holders, laws.origins, laws.frames, laws.engine, tail ▸ nodup,
    fun q taken => ?_, fun q => ?_⟩
  · cases taken
    exact tail ▸ new
  · refine Iff.trans ?_ (laws.executing q)
    rw [tail, queue]
    simp [or_comm, eq_comm]

/-- The Local in execution is in use. -/
theorem State.LawsIn.taken_used (laws : s.LawsIn e (some r)) : ∃ t, s.txn r = some t ∧ t.state = .executing :=
  (laws.executing r).1 (.inr rfl)

/-- The end of an execution keeps the laws: its record is free and the engine IDLE (R134). -/
theorem State.LawsIn.endExecution (laws : s.LawsIn e (some r)) (reply : List Byte) (a : Option Armed) :
    (s.endExecution r reply a).LawsIn .idle none := by
  obtain ⟨t, used, executing⟩ := laws.taken_used
  have early : t.state.stage ≠ .sending := by simp [executing, TxnState.stage]
  have freed : (s.freeRecord r).LawsIn e none := by
    have free := laws.freeRecord (laws.unheld used early) (laws.unframed used (by simp [executing]) (by simp [executing]))
      (laws.apart r rfl)
    rwa [if_pos rfl] at free
  have placed : ∀ v : State, s.LeavesEngine v → (v.freeRecord r).idleEngine.settlePendingOwn.LawsIn .idle none := by
    intro v leaves
    have kept : (s.freeRecord r).LeavesEngine (v.freeRecord r) :=
      ⟨by simp [leaves.records], by simp [leaves.waiting], leaves.holders, leaves.receivers, leaves.queue, leaves.engine⟩
    exact ((freed.of_leaves kept).setEngine (v := (v.freeRecord r).idleEngine) rfl rfl rfl).of_leaves
      (State.settlePendingOwn_leavesEngine _)
  unfold State.endExecution
  simp only [used]
  rw [State.closeFree _ r (by split <;> rfl)]
  refine placed _ ?_
  have dropped := s.dropRequest_leavesEngine t
  split
  · exact dropped
  · obtain ⟨eg, st, k, h⟩ := (s.dropRequest t).handOver_only t.origin reply a
    exact h ▸ dropped.trans ⟨rfl, rfl, rfl, rfl, rfl, rfl⟩

/-- An execution that ends with a cached reply keeps the laws (R133). -/
theorem State.LawsIn.finishCached (laws : s.LawsIn e (some r)) (t : Txn) (p : Reply) :
    (s.finishCached r t p).LawsIn .idle none :=
  (laws.of_leaves (t := s.setCache t.origin _) ⟨rfl, rfl, rfl, rfl, rfl, rfl⟩).endExecution _ _

/-- A request refused uncached keeps the laws (R132). -/
theorem State.LawsIn.refuseUncached (laws : s.LawsIn e (some r)) (t : Txn) (st : Status) :
    (s.refuseUncached r t st).LawsIn .idle none :=
  (laws.of_leaves (t := { s with mgmt := { s.mgmt with buffer := s.buildReply t ⟨st, [], none⟩ } })
    ⟨rfl, rfl, rfl, rfl, rfl, rfl⟩).endExecution _ _

/-- A Local answered from the cache keeps the laws (R133). -/
theorem State.LawsIn.answerCached (laws : s.LawsIn e (some r)) (c : CacheEntry) :
    (s.answerCached r c).LawsIn .idle none := by
  unfold State.answerCached
  refine State.LawsIn.endExecution (e := e) ?_ _ _
  split
  · unfold State.pendAgain
    split
    · exact laws
    · exact laws.of_leaves ⟨rfl, rfl, rfl, rfl, rfl, rfl⟩
  · exact laws
  · exact laws

/-! ### Carrying a command out (R131) -/

/-- Carrying the command out keeps the laws, the Local in execution being whichever. -/
def Carry.KeepsLaws (carry : Carry) : Prop :=
  ∀ (s : State) (g : Seg) (args : List Byte) (e : EngineState) (x : Option (Fin Config.numTxns)), s.LawsIn e x →
    (carry s g args).state.LawsIn e x

theorem Carry.KeepsLaws.of_leaves {carry : Carry} (leaves : ∀ (s : State) g args, s.LeavesEngine (carry s g args).state) :
    Carry.KeepsLaws carry := fun s g args _ _ laws => laws.of_leaves (leaves s g args)

/-- Steps 4 to 8 of R131 keep the laws. -/
theorem State.LawsIn.carryOut (laws : s.LawsIn .idle (some r)) {carry : Carry} (keeps : Carry.KeepsLaws carry) (t : Txn)
    (args : List Byte) (c : MgmtCommand) : (s.carryOut r t args c carry).TransactionLaws := by
  have carried := keeps s t.origin args _ _ laws
  unfold State.carryOut
  split
  · split
    · exact (laws.finishCached t _).transactionLaws
    · split
      next v p result =>
        rw [result] at carried
        exact (carried.finishCached t p).transactionLaws
      next v w result =>
        rw [result] at carried
        exact (State.LawsIn.setEngine carried
          (v := { v with mgmt := { v.mgmt with engine := .busy r w } }) rfl rfl rfl).transactionLaws
  · exact (laws.refuseUncached t _).transactionLaws

/-- Steps 1 to 3 of R131 keep the laws where what follows them does. -/
theorem State.LawsIn.checked (laws : s.LawsIn .idle (some r)) {after : State → List Byte → State}
    (follows : ∀ args, (after s args).TransactionLaws) (t : Txn) : (s.checked r t after).TransactionLaws := by
  unfold State.checked
  dsimp only
  split
  · exact (laws.refuseUncached t _).transactionLaws
  · split
    · exact (laws.refuseUncached t _).transactionLaws
    · split
      · exact (laws.answerCached _).transactionLaws
      · exact follows _

/-- A Local stands at the head of an IDLE engine's queue only. -/
theorem State.headLocal_idle (head : s.headLocal = some (r, t)) : s.mgmt.engine = .idle := by
  unfold State.headLocal at head
  split at head
  next idle _ => exact idle
  · cases head

/-- The laws while a Local is taken from an IDLE engine's queue. -/
theorem State.TransactionLaws.dequeue (laws : s.TransactionLaws) (head : s.headLocal = some (r, t)) :
    s.dequeue.LawsIn .idle (some r) := by
  have idle := State.headLocal_idle head
  have at_ := s.transactionLaws_iff.1 laws
  rw [idle] at at_
  exact State.LawsIn.dequeue at_ head

/-- Taking a Local keeps the laws (R130, R131). -/
theorem State.TransactionLaws.takeLocal (laws : s.TransactionLaws) {carry : Carry} (keeps : Carry.KeepsLaws carry)
    (c : MgmtCommand) : (s.takeLocal c carry).TransactionLaws := by
  unfold State.takeLocal
  split
  · exact laws
  next r t head =>
    have taken := laws.dequeue head
    exact taken.checked (fun args => taken.carryOut keeps t args c) t

/-- Taking a Local of no command keeps the laws (R131). -/
theorem State.TransactionLaws.takeUnknown (laws : s.TransactionLaws) : s.takeUnknown.TransactionLaws := by
  unfold State.takeUnknown
  split
  · exact laws
  next r t head =>
    have taken := laws.dequeue head
    exact taken.checked (fun args => (taken.finishCached t _).transactionLaws) t

/-- Work that spans claims goes on, or ends with its reply (R130). -/
theorem State.TransactionLaws.works (laws : s.TransactionLaws) {w : Work} (busy : s.mgmt.engine = .busy r w) {v : State}
    (leaves : s.LeavesEngine v) :
    (∀ w', State.TransactionLaws { v with mgmt := { v.mgmt with engine := .busy r w' } })
      ∧ (∃ t, v.txn r = some t) ∧ ∀ t p, (v.finishCached r t p).TransactionLaws := by
  have at_ := s.transactionLaws_iff.1 laws
  rw [busy] at at_
  have now : v.LawsIn (.busy r w) (some r) := State.LawsIn.of_leaves at_ leaves
  obtain ⟨t, used, _⟩ := now.taken_used
  exact ⟨fun w' => (now.setEngine (v := { v with mgmt := { v.mgmt with engine := .busy r w' } }) rfl rfl rfl).transactionLaws,
    ⟨t, used⟩, fun t p => (now.finishCached t p).transactionLaws⟩

/-- Station entries read claim by claim keep the laws (R139). -/
theorem State.TransactionLaws.readStations (laws : s.TransactionLaws) (n : Nat) : (s.readStations n).TransactionLaws := by
  unfold State.readStations
  split
  next r next left acc busy =>
    obtain ⟨goesOn, ⟨t, used⟩, ends⟩ := laws.works busy (.refl s)
    dsimp only
    split
    · simp only [used]
      exact ends t _
    · exact goesOn _
  all_goals exact laws

/-- Counters read claim by claim keep the laws (R145). -/
theorem State.TransactionLaws.readCounterBlock (laws : s.TransactionLaws) (n : Nat) :
    (s.readCounterBlock n).TransactionLaws := by
  unfold State.readCounterBlock
  split
  next r clear code next left acc busy =>
    dsimp only
    generalize zeroed : (if clear = true then { s with counters := s.counters.zeroBlock code next (min n left) } else s) = v
    have leaves : s.LeavesEngine v := by
      rw [← zeroed]
      split
      · exact ⟨rfl, rfl, rfl, rfl, rfl, rfl⟩
      · exact .refl s
    obtain ⟨goesOn, ⟨t, used⟩, ends⟩ := laws.works busy leaves
    split
    · simp only [used]
      exact ends t _
    · exact goesOn _
  all_goals exact laws

/-- A visit of a walk keeps the laws (R17). -/
theorem State.TransactionLaws.walkVisit (laws : s.TransactionLaws) : s.walkVisit.TransactionLaws := by
  unfold State.walkVisit
  split
  next r start cursor mask cleared busy =>
    dsimp only
    generalize visited : (if (s.entry cursor).learnedIn mask = true then s.putEntry cursor .unassigned else s) = v
    have leaves : s.LeavesEngine v := by
      rw [← visited]
      split
      · exact ⟨rfl, rfl, rfl, rfl, rfl, rfl⟩
      · exact .refl s
    split
    · obtain ⟨_, ⟨t, used⟩, ends⟩ := laws.works busy (leaves.trans (State.raise_leavesEngine v .bulkUnlearn none none
        (if (s.entry cursor).learnedIn mask = true then cleared + 1 else cleared)))
      simp only [used]
      exact ends t _
    · exact (laws.works busy leaves).1 _
  all_goals exact laws

/-! ### The commands, each (R137 to R152) -/

theorem carryWriteStation_leavesEngine (s : State) (g : Seg) (args : List Byte) :
    s.LeavesEngine (carryWriteStation s g args).state := by
  unfold carryWriteStation
  split
  · exact .refl s
  · exact ⟨rfl, rfl, rfl, rfl, rfl, rfl⟩

theorem carryWriteSegment_leavesEngine (s : State) (g : Seg) (args : List Byte) :
    s.LeavesEngine (carryWriteSegment s g args).state := by
  unfold carryWriteSegment
  split
  · split
    · exact ⟨rfl, rfl, rfl, rfl, rfl, rfl⟩
    · exact .refl s
  · exact .refl s

theorem carryApplySegment_leavesEngine (s : State) (g : Seg) (args : List Byte) :
    s.LeavesEngine (carryApplySegment s g args).state := by
  unfold carryApplySegment
  split
  · exact .refl s
  · split
    · exact .refl s
    · split
      · exact ⟨rfl, rfl, rfl, rfl, rfl, rfl⟩
      · exact .refl s

theorem carryWriteBridge_leavesEngine (s : State) (g : Seg) (args : List Byte) :
    s.LeavesEngine (carryWriteBridge s g args).state := by
  unfold carryWriteBridge
  split
  · exact .refl s
  · split
    · exact ⟨rfl, rfl, rfl, rfl, rfl, rfl⟩
    · split
      · exact ⟨rfl, rfl, rfl, rfl, rfl, rfl⟩
      · exact .refl s

theorem carryReadEvents_leavesEngine (s : State) (g : Seg) (args : List Byte) :
    s.LeavesEngine (carryReadEvents s g args).state := by
  unfold carryReadEvents
  dsimp only
  split
  · exact ⟨rfl, rfl, rfl, rfl, rfl, rfl⟩
  · exact .refl s

theorem carryTakeLease_leavesEngine (s : State) (g : Seg) (args : List Byte) :
    s.LeavesEngine (carryTakeLease s g args).state := by
  have held : ∀ n, s.LeavesEngine (s.holdLease g n) := fun n => ⟨rfl, rfl, rfl, rfl, rfl, rfl⟩
  unfold carryTakeLease
  dsimp only
  split
  · exact .refl s
  · split
    · exact .refl s
    · split
      · exact (held _).trans (State.raise_leavesEngine _ _ _ _ _)
      · split
        · exact held _
        · exact .refl s

theorem carryDropLease_leavesEngine (s : State) (g : Seg) (args : List Byte) :
    s.LeavesEngine (carryDropLease s g args).state := by
  unfold carryDropLease
  split
  · exact .refl s
  · split
    · exact s.dropLeaseOf_leavesEngine g 0
    · exact .refl s

/-- RestartSegment is carried out within its Local's execution (R151). -/
theorem carryRestartSegment_keepsLaws : Carry.KeepsLaws carryRestartSegment := by
  intro s g args e x laws
  unfold carryRestartSegment
  split
  · exact laws
  · split
    · exact laws
    · exact laws.segmentRestart _

/-! ### Every step -/

/-- An event taken keeps the laws where its effect, due, does. -/
theorem State.TransactionLaws.takeEvent {v : State} {due : Option Nat} {effect : State → State} (laws : s.TransactionLaws)
    (taken : s.takeEvent due effect = .next v)
    (keeps : ∀ m, due = some m → (s.advance m).TransactionLaws → (effect (s.advance m)).TransactionLaws) :
    v.TransactionLaws := by
  have result := Host.Outcome.next.inj taken
  split at result
  · exact result ▸ laws
  · split at result
    · exact result ▸ laws
    next m => exact result ▸ keeps m rfl laws

/-- An event keeps the laws where its effect keeps them, whatever Local is in execution. -/
theorem State.TransactionLaws.event {v : State} {due : Option Nat} {effect : State → State} (laws : s.TransactionLaws)
    (taken : s.takeEvent due effect = .next v)
    (keeps : ∀ (u : State) e x, u.LawsIn e x → (effect u).LawsIn e x) : v.TransactionLaws :=
  laws.takeEvent taken fun m _ now => (keeps _ _ _ ((s.advance m).transactionLaws_iff.1 now)).transactionLaws

/-- An event keeps the laws where its effect leaves the engine. -/
theorem State.TransactionLaws.quietEvent {v : State} {due : Option Nat} {effect : State → State}
    (laws : s.TransactionLaws) (taken : s.takeEvent due effect = .next v)
    (leaves : ∀ u : State, u.LeavesEngine (effect u)) : v.TransactionLaws :=
  laws.event taken fun u _ _ now => now.of_leaves (leaves u)

/-- A management row keeps the laws where carrying its command out does. -/
theorem State.TransactionLaws.command {v : State} {c : MgmtCommand} {carry : Carry} (laws : s.TransactionLaws)
    (taken : s.command c carry = .next v) (keeps : Carry.KeepsLaws carry) : v.TransactionLaws :=
  laws.takeEvent taken fun _ _ now => now.takeLocal keeps c

/-- A management row keeps the laws where carrying its command out leaves the engine. -/
theorem State.TransactionLaws.quietCommand {v : State} {c : MgmtCommand} {carry : Carry} (laws : s.TransactionLaws)
    (taken : s.command c carry = .next v) (leaves : ∀ (s : State) g args, s.LeavesEngine (carry s g args).state) :
    v.TransactionLaws := laws.command taken (.of_leaves leaves)

theorem State.agingTick_leavesEngine (s : State) : s.LeavesEngine s.agingTick := by
  unfold State.agingTick
  dsimp only
  split <;> exact ⟨rfl, rfl, rfl, rfl, rfl, rfl⟩

theorem State.sweepVisit_leavesEngine (s : State) : s.LeavesEngine s.sweepVisit := by
  unfold State.sweepVisit
  split
  · exact .refl s
  next w _ =>
    obtain ⟨b, v, h⟩ := s.sweepEntry_only w.cursor
    dsimp only
    rw [h]
    exact ⟨rfl, rfl, rfl, rfl, rfl, rfl⟩

theorem State.expireLease_leavesEngine (s : State) : s.LeavesEngine s.expireLease := by
  unfold State.expireLease
  split
  · exact .refl s
  · exact ⟨rfl, rfl, rfl, rfl, rfl, rfl⟩

/-- A response timer is due for an AWAITING transaction only (R41). -/
theorem State.responseTimerDue_awaiting {m : Nat} (due : s.responseTimerDue r = some m) :
    ∃ t, s.txn r = some t ∧ t.state = .awaiting := by
  unfold State.responseTimerDue at due
  split at due
  · cases due
  next t used =>
    split at due
    next awaiting => exact ⟨t, used, awaiting⟩
    · cases due

/-- Every command keeps the laws of the transactions. -/
theorem exec_keepsTransactionLaws {c : Instr} {v : State} (laws : s.TransactionLaws) (taken : exec c s = .next v) :
    v.TransactionLaws := by
  unfold exec at taken
  cases c with
  | characterComplete g y => exact laws.event taken fun _ _ _ now => now.characterComplete g y
  | breakFound g => exact laws.event taken fun _ _ _ now => now.breakFound g
  | falseStart g => exact laws.quietEvent taken fun u => u.falseStart_leavesEngine g
  | startWhileDriving g => exact laws.event taken fun _ _ _ now => now.startHeard g
  | recoverEnd g => exact laws.quietEvent taken fun u => u.setRx_leavesEngine g _
  | idleGapExpiry g => exact laws.event taken fun _ _ _ now => now.idleGap g
  | arbiterScan => exact laws.event taken fun _ _ _ now => now.scan
  | takeLine g => exact laws.event taken fun _ _ _ now => now.takeLine g
  | leadGuardEnd g =>
    refine laws.quietEvent taken fun u => ?_
    obtain ⟨l, e, h⟩ := u.endLead_only g
    exact h ▸ ⟨rfl, rfl, rfl, rfl, rfl, rfl⟩
  | characterSent g =>
    refine laws.quietEvent taken fun u => ?_
    obtain ⟨l, e, h⟩ := u.characterSent_only g
    exact h ▸ ⟨rfl, rfl, rfl, rfl, rfl, rfl⟩
  | echoDeadline g => exact laws.quietEvent taken fun _ => ⟨rfl, rfl, rfl, rfl, rfl, rfl⟩
  | breakSent g => exact laws.event taken fun _ _ _ now => now.breakSent g
  | tailGuardEnd g straps =>
    refine laws.takeEvent taken fun m _ now => ?_
    have sampled := (State.transactionLaws_iff _).1 now |>.of_leaves
      (t := { s.advance m with straps := straps }) ⟨rfl, rfl, rfl, rfl, rfl, rfl⟩
    exact sampled.endTail g
  | backoffEnd g => exact laws.quietEvent taken fun u => u.setEgress_leavesEngine g _
  | responseTimerExpiry r =>
    refine laws.takeEvent taken fun m due now => ?_
    obtain ⟨t, used, awaiting⟩ := State.responseTimerDue_awaiting due
    have used' : (s.advance m).txn r = some t := used
    rw [State.responseTimer, used']
    exact (((s.advance m).transactionLaws_iff.1 now).timeOut used' awaiting).transactionLaws
  | agingTick => exact laws.quietEvent taken State.agingTick_leavesEngine
  | sweepVisit => exact laws.quietEvent taken State.sweepVisit_leavesEngine
  | walkVisit => exact laws.takeEvent taken fun _ _ now => now.walkVisit
  | leaseExpiry => exact laws.quietEvent taken State.expireLease_leavesEngine
  | settingsApply g => exact laws.event taken fun _ _ _ now => now.applySettings g
  | identify => exact laws.quietCommand taken fun s _ _ => .refl s
  | readStatus => exact laws.quietCommand taken fun s _ _ => .refl s
  | readStation => exact laws.quietCommand taken fun s _ _ => .refl s
  | writeStation => exact laws.quietCommand taken carryWriteStation_leavesEngine
  | readStationRange claims =>
    exact laws.takeEvent taken fun _ _ now => (now.takeLocal (.of_leaves fun s g args =>
      .of_same (carryReadStationRange_state s g args)) _).readStations claims
  | clearLearned => exact laws.quietCommand taken fun s g args => .of_same (carryClearLearned_state s g args)
  | readSegment => exact laws.quietCommand taken fun s g args => .of_same (carryReadSegment_state s g args)
  | writeSegment => exact laws.quietCommand taken carryWriteSegment_leavesEngine
  | applySegment => exact laws.quietCommand taken carryApplySegment_leavesEngine
  | writeBridge => exact laws.quietCommand taken carryWriteBridge_leavesEngine
  | readBridge => exact laws.quietCommand taken fun s _ _ => .refl s
  | readCounters claims =>
    exact laws.takeEvent taken fun _ _ now => (now.takeLocal (.of_leaves fun s g args =>
      .of_same (carryCounters_state false s g args)) _).readCounterBlock claims
  | readClearCounters claims =>
    exact laws.takeEvent taken fun _ _ now => (now.takeLocal (.of_leaves fun s g args =>
      .of_same (carryCounters_state true s g args)) _).readCounterBlock claims
  | readEvents => exact laws.quietCommand taken carryReadEvents_leavesEngine
  | takeLease => exact laws.quietCommand taken carryTakeLease_leavesEngine
  | dropLease => exact laws.quietCommand taken carryDropLease_leavesEngine
  | restart => exact laws.quietCommand taken fun s g args => .of_same (carryRestart_state s g args)
  | restartSegment => exact laws.command taken carryRestartSegment_keepsLaws
  | echo => exact laws.quietCommand taken fun s _ _ => .refl s
  | badCommand => exact laws.takeEvent taken fun _ _ now => now.takeUnknown
  | powerOnRestart cause =>
    have result := Host.Outcome.next.inj taken
    subst result
    cases cause <;> exact (s.clearAll_laws.of_leaves ⟨rfl, rfl, rfl, rfl, rfl, rfl⟩).transactionLaws
  | powerOnRestartEnd straps =>
    have result := Host.Outcome.next.inj taken
    subst result
    split
    · exact ((State.clearAll_laws { s with straps := straps }).of_leaves ⟨rfl, rfl, rfl, rfl, rfl, rfl⟩).transactionLaws
    · exact laws
  | fallingEdge g => exact laws.quietEvent taken fun u => u.setRx_leavesEngine g _

theorem State.idle_leavesEngine (s : State) : s.LeavesEngine s.idle := by
  unfold State.idle
  split
  · exact .refl s
  · split <;> exact ⟨rfl, rfl, rfl, rfl, rfl, rfl⟩

end

/-- Settles O58: every step keeps the laws, by the commands one by one. -/
theorem transactionLawsAreKept : Obligations.TransactionLawsAreKept := by
  intro s t laws stepped
  unfold step at stepped
  split at stepped
  · cases stepped
    exact ((s.transactionLaws_iff.1 laws).of_leaves s.idle_leavesEngine).transactionLaws
  next c rest _ =>
    exact exec_keepsTransactionLaws (s := { s with pending := rest }) laws stepped

end Sys2Proof.Machine
end

