-- ==== Sys2Proof/Proofs/ResponseTimer.lean ====
section
/-!
The response timer (R10, R40, R41): what its expiry leaves, and what a miss and a learning step depend on.
-/

namespace Sys2Proof.Machine

/-! ### What the station table's operations depend on -/

section
variable {s u : State}

/-- What an event raised with an entry written is depends on the events, the settings and the time. -/
theorem State.putEntry_raise_congr (settings : u.settings = s.settings) (events : u.events = s.events)
    (time : u.time = s.time) (a : Byte) (e : Entry) (k : EventKind) (g : Option Seg) (b : Option Byte) (d : Byte) :
    ((u.putEntry a e).raise k g b d).events = ((s.putEntry a e).raise k g b d).events := by
  have now : (u.putEntry a e).nowMs = (s.putEntry a e).nowMs := by simp only [State.nowMs, State.putEntry_fields, time]
  have bridges : (u.putEntry a e).bridge = (s.putEntry a e).bridge := by
    simp only [State.bridge, State.putEntry_fields, settings]
  simp only [State.raise_fields, State.putEntry_fields, events, now, bridges]

/-- What a miss does depends on the table and the settings, and for the events on these and the time (R10, R11). -/
theorem State.countMiss_congr (table : u.table = s.table) (settings : u.settings = s.settings) (a : Byte) :
    (u.countMiss a).table = (s.countMiss a).table
      ∧ (u.events = s.events → u.time = s.time → (u.countMiss a).events = (s.countMiss a).events) := by
  have entry : u.entry a = s.entry a := by rw [State.entry, table]; rfl
  have bridge : u.bridge = s.bridge := by rw [State.bridge, settings]; rfl
  unfold State.countMiss
  rw [entry, bridge]
  cases s.entry a with
  | unassigned => exact ⟨table, fun events _ => events⟩
  | blocked => exact ⟨table, fun events _ => events⟩
  | learned g c used age miss =>
    dsimp only
    split
    · exact ⟨by simp [table], fun events time => putEntry_raise_congr settings events time ..⟩
    · exact ⟨by simp [table], fun events _ => events⟩
  | static segs c miss muted =>
    dsimp only
    split
    · exact ⟨by simp [table], fun events time => putEntry_raise_congr settings events time ..⟩
    · exact ⟨by simp [table], fun events _ => events⟩

/-- What a learning step does depends on the table and the settings, and for the events on these and the time (R8). -/
theorem State.learn_congr (table : u.table = s.table) (settings : u.settings = s.settings) (a : Byte) (g : Seg) :
    (u.learn a g).table = (s.learn a g).table
      ∧ (u.events = s.events → u.time = s.time → (u.learn a g).events = (s.learn a g).events) := by
  have entry : u.entry a = s.entry a := by rw [State.entry, table]; rfl
  have bridge : u.bridge = s.bridge := by rw [State.bridge, settings]; rfl
  unfold State.learn
  rw [entry, bridge]
  split
  · exact ⟨table, fun events _ => events⟩
  · cases s.entry a with
    | unassigned => exact ⟨by simp [table], fun events time => putEntry_raise_congr settings events time ..⟩
    | blocked => exact ⟨table, fun events _ => events⟩
    | static segs c miss muted => exact ⟨by simp [table], fun events _ => events⟩
    | learned on c used age miss =>
      dsimp only
      split
      · exact ⟨by simp [table], fun events _ => events⟩
      · exact ⟨by simp [table], fun events time => putEntry_raise_congr settings events time ..⟩

end

/-! ### Notices in an empty slot -/

/-- A notice placed in an empty slot, where one is called for, loses none (R43, R109). -/
theorem State.told_empty {s : State} {g : Seg} (empty : (s.egress.get g).slot = none) (n : Option Notice) :
    s.told g n = { s with egress := s.egress.set g { s.egress.get g with slot := n } } := by
  cases n with
  | none =>
    have same : { s.egress.get g with slot := none } = s.egress.get g := by rw [← empty]
    rw [same, PerSeg.set_get]
    rfl
  | some n => simp [State.told, empty]

/-! ### The expiry (R41) -/

/-- The last timed-out station of each segment of a list is set, and nothing else. -/
theorem State.setLastTimedOutAll_eq (a : Option Byte) (l : List Seg) (s : State) : ∃ k,
    l.foldl (fun s g => s.setLastTimedOut g a) s = { s with txns := { s.txns with lastTimedOut := k } }
      ∧ ∀ g, k.get g = if g ∈ l then a else s.txns.lastTimedOut.get g := by
  induction l generalizing s with
  | nil => exact ⟨s.txns.lastTimedOut, rfl, fun g => by simp⟩
  | cons u l ih =>
    obtain ⟨k, h, set_⟩ := ih (s.setLastTimedOut u a)
    refine ⟨k, h, fun g => ?_⟩
    have one : (s.setLastTimedOut u a).txns.lastTimedOut.get g = if g = u then a else s.txns.lastTimedOut.get g :=
      s.txns.lastTimedOut.get_set u g a
    rw [set_, one]
    by_cases here : g = u <;> simp [here]

/-- A response timer's expiry, up to the outcome it fixes (R41). -/
theorem State.timeOut_eq (s : State) (r : Fin Config.numTxns) (t : Txn) : ∃ h l,
    s.timeOut r t = State.closeTxn { s with
        txns := { s.txns with
          records := (s.putTxn r (some { t with windows := 0, deadline := none })).txns.records
          holders := h, lastTimedOut := l }
        table := (s.countMiss t.station).table
        events := ((s.countMiss t.station).raise .timeout (some t.origin) (some t.station) 0).events
        counters := s.counters.write t.origin SegCounter.timeouts.index
          (saturatingSucc (s.counters.read t.origin SegCounter.timeouts.index)) } r .timeout
      ∧ (∀ g, h.get g = if t.windows.has g = true then none else s.holder g)
      ∧ ∀ g, l.get g = if t.windows.has g = true then some t.station else s.txns.lastTimedOut.get g := by
  obtain ⟨h, released, held⟩ := (s.putTxn r (some { t with windows := 0, deadline := none })).releaseGrants_holders t.windows
  obtain ⟨l, told, stations⟩ := State.setLastTimedOutAll_eq (some t.station) t.windows.members
    ((s.putTxn r (some { t with windows := 0, deadline := none })).releaseGrants t.windows)
  refine ⟨h, l, ?_, held, fun g => (stations g).trans (by rw [released]; simp)⟩
  have tail : ∀ w : State, w = { s with txns := { s.txns with
        records := (s.putTxn r (some { t with windows := 0, deadline := none })).txns.records
        holders := h, lastTimedOut := l } } →
      ((w.countMiss t.station).count t.origin .timeouts).raise .timeout (some t.origin) (some t.station) 0 = { s with
        txns := w.txns
        table := (s.countMiss t.station).table
        events := ((s.countMiss t.station).raise .timeout (some t.origin) (some t.station) 0).events
        counters := s.counters.write t.origin SegCounter.timeouts.index
          (saturatingSucc (s.counters.read t.origin SegCounter.timeouts.index)) } := by
    rintro w result
    obtain ⟨table, events⟩ := State.countMiss_congr (s := s) (u := w) (by rw [result]) (by rw [result]) t.station
    have events := events (by rw [result]) (by rw [result])
    obtain ⟨b, v, missed⟩ := w.countMiss_only t.station
    obtain ⟨b', v', missed'⟩ := s.countMiss_only t.station
    rw [missed, missed'] at table events
    rw [missed, missed', result]
    simp only at table events
    subst table events
    rfl
  unfold State.timeOut
  dsimp only
  rw [told, tail _ (by rw [released]; rfl), released]
  rfl

/-- The records once one is freed (R24). -/
@[simp] theorem State.txn_recordFreed (s : State) (r q : Fin Config.numTxns) :
    (s.recordFreed r).txn q = if q = r then none else s.txn q := s.txn_putTxn r q none

/-- Settles O24: the expiry's state, and the outcome Timeout fixed in it. -/
theorem responseTimerExpires : Obligations.ResponseTimerExpires := by
  intro s r t d free used awaiting deadline alone unfixed empty
  obtain ⟨h, l, expired, held, stations⟩ := (s.advance (s.momentOf d)).timeOut_eq r t
  have due : s.responseTimerDue r = some (s.momentOf d) := by simp [State.responseTimerDue, used, awaiting, deadline]
  have taken : exec (.responseTimerExpiry r) s = .next ((s.advance (s.momentOf d)).timeOut r t) := by
    have used' : (s.advance (s.momentOf d)).txn r = some t := used
    change s.takeEvent (s.responseTimerDue r) (fun s => s.responseTimer r) = _
    rw [due, State.takeEvent_due free, State.responseTimer, used']
  generalize before : ({ s.advance (s.momentOf d) with
    txns := _, table := _, events := _, counters := _ } : State) = w at expired
  have txn : ∀ q, w.txn q = if q = r then some { t with windows := 0, deadline := none } else s.txn q := fun q => by
    rw [← before]
    exact s.txn_putTxn r q _
  have closes := State.closeTxn_closed ((txn r).trans (if_pos rfl)) unfixed (o := .timeout) (c := .timeout) rfl
  have slot : ((w.recordFreed r).egress.get t.origin).slot = none := by rw [← before]; exact empty
  simp only [State.closed, alone, reduceIte] at closes
  rw [State.told_empty slot] at closes
  rw [closes] at expired
  have now : (s.advance (max s.time (s.momentOf d))) = s.advance (s.momentOf d) := by simp [State.advance]
  have table := (State.countMiss_congr (s := s) (u := s.advance (s.momentOf d)) rfl rfl t.station).1
  refine ⟨_, taken, ?_⟩
  rw [expired]
  refine ⟨(w.txn_recordFreed r r).trans (if_pos rfl), fun q other => ?_, ?_⟩
  · exact ((w.txn_recordFreed r q).trans (if_neg other)).trans ((txn q).trans (if_neg other))
  · rw [← before]
    have counted := (s.counters.raisedTo_nil t.origin).more (a := .timeouts) (by simp)
    refine ⟨held, stations, counted, rfl, table, ?_, rfl, ⟨rfl, rfl, rfl, rfl, rfl⟩, ?_,
      fun u other => by simp [State.recordFreed, other], rfl, rfl, rfl, rfl, rfl, rfl⟩
    · exact congrArg (fun v : State => ((v.countMiss t.station).raise .timeout (some t.origin) (some t.station) 0).events)
        now.symm
    · simp only [PerSeg.get_set, reduceIte]
      change (if t.superseded = true then none else if (s.active t.origin).notices = true
        then some (⟨.timeout, t.station⟩ : Notice) else none) = _
      cases t.superseded <;> simp

end Sys2Proof.Machine
end

