-- ==== Sys2Proof/Proofs/Scan.lean ====
section
/-!
ARBITER_SCAN (R32 to R34): when a transaction can be launched, what one launch leaves, and the scans over one and over two that
wait.
-/

namespace Sys2Proof

/-- Segment sets are equal where they have the same segments. -/
theorem SegSet.ext_has {m n : SegSet} (same : ∀ g, m.has g = n.has g) : m = n := by
  have h0 := same .s0
  have h1 := same .s1
  have h2 := same .s2
  have h3 := same .s3
  clear same
  revert m n
  decide

/-- Two segment sets share no segment exactly where their intersection is empty. -/
theorem SegSet.and_eq_zero (m n : SegSet) : m &&& n = 0 ↔ ¬ ∃ g, m.has g = true ∧ n.has g = true := by
  constructor
  · rintro empty ⟨g, hm, hn⟩
    have both := SegSet.has_and m n g
    rw [empty, SegSet.has_zero, hm, hn] at both
    cases both
  · intro apart
    refine SegSet.ext_has fun g => ?_
    rw [SegSet.has_and, SegSet.has_zero]
    cases hm : m.has g
    · rfl
    · cases hn : n.has g
      · rfl
      · exact absurd ⟨g, hm, hn⟩ apart

namespace Machine

/-! ### One launch (R33) -/

/-- v is s with nothing changed but the records, the pending list, the grants, the lanes and the descriptors. -/
def State.OnlyLaunched (s v : State) : Prop :=
  ∃ k w h e st, v = { s with txns := ⟨k, w, h, s.txns.lastTimedOut⟩, egress := e, store := st }

theorem State.OnlyLaunched.trans {s t u : State} (first : s.OnlyLaunched t) (next : t.OnlyLaunched u) :
    s.OnlyLaunched u := by
  obtain ⟨_, _, _, _, _, rfl⟩ := first
  obtain ⟨k, w, h, e, st, rfl⟩ := next
  exact ⟨k, w, h, e, st, rfl⟩

/-- v is s once transaction t of record r, with request descriptor d holding y, has been launched and has passed by none
(R33). -/
structure State.Launches (s v : State) (r : Fin Config.numTxns) (t : Txn) (d : Fin Config.numDescs) (y : Desc) : Prop where
  txn : ∀ q, v.txn q = if q = r then some t.launched else s.txn q
  waiting : v.txns.waiting = s.txns.waiting.filter fun q => q != r
  holder : ∀ g, v.holder g = if t.egress.has g = true then some r else s.holder g
  lanes : ∀ g, v.egress.get g = if t.egress.has g = true
    then { s.egress.get g with bulkLane := (s.egress.get g).bulkLane ++ [d] } else s.egress.get g
  desc : ∀ e, v.store.desc e = if e = d then some { y with txn := none, pendingEgress := t.egress } else s.store.desc e
  lists : v.store.freeCells = s.store.freeCells ∧ v.store.freeDescs = s.store.freeDescs ∧ v.store.cells = s.store.cells
  rest : s.OnlyLaunched v

/-- A launch is `Launches`, and then the bypass of those it passes by (R33, R34). -/
theorem State.launch_launches (s : State) (older : List (Fin Config.numTxns)) {r : Fin Config.numTxns} {t : Txn}
    {d : Fin Config.numDescs} {y : Desc} (used : s.txn r = some t) (request : t.reqDesc = some d)
    (stored : s.store.desc d = some y) :
    ∃ v, s.launch older r = v.raiseBypass older t.egress ∧ s.Launches v r t d y := by
  obtain ⟨v, h, e, launched, result, held, lanes⟩ := s.launch_eq older used
  rw [request] at result lanes
  refine ⟨v, launched, fun q => ?_, by rw [result], fun g => ?_, fun g => ?_, fun c => ?_, ?_, ?_⟩
  · rw [result]
    exact s.txn_putTxn r q (some t.launched)
  · rw [result]
    exact held g
  · rw [result]
    exact lanes g
  · rw [result]
    refine (s.store.desc_modify d c _).trans ?_
    rw [stored]
    rfl
  · rw [result]
    exact ⟨(s.store.modify_fields d _).2.1, (s.store.modify_fields d _).2.2, (s.store.modify_fields d _).1⟩
  · exact ⟨_, _, h, e, _, result⟩

/-- One that a launch passes by and shares a segment with is bypassed (R34). -/
theorem State.raiseBypass_one {v : State} {o : Fin Config.numTxns} {w : Txn} (used : v.txn o = some w) (m : SegSet) :
    v.raiseBypass [o] m = if w.egress &&& m = 0 then v else v.putTxn o (some (w.passedBy v.bridge.bypassLimit)) := by
  simp only [State.raiseBypass, List.foldl_cons, List.foldl_nil, used, Txn.bypassed_eq]

/-- When a waiting transaction can be launched (R32, R34). -/
theorem State.canLaunch_iff {s : State} {r : Fin Config.numTxns} {t : Txn} (used : s.txn r = some t)
    (older : List (Fin Config.numTxns)) : s.canLaunch older r = true ↔ (∀ g, t.egress.has g = true → s.Free g)
      ∧ ∀ o ∈ older, ∀ w, s.txn o = some w → w.guarded = true → w.egress &&& t.egress = 0 := by
  unfold State.canLaunch
  simp only [used, Bool.and_eq_true, List.all_eq_true, SegSet.mem_members, State.segFree_iff]
  refine and_congr_right fun _ => forall_congr' fun o => forall_congr' fun _ => ?_
  cases s.txn o with
  | none => simp
  | some w => cases guarded : w.guarded <;> simp [guarded]

/-- A scan is taken at once (R32, log 16). -/
theorem exec_arbiterScan {s : State} (free : s.held = false) : exec .arbiterScan s = .next s.scan := by
  change s.takeEvent (some s.time) State.scan = _
  rw [State.takeEvent_due free, State.advance_time]

/-- After a launch a segment is free where it was and was not given away (R31). -/
theorem State.Launches.free_iff {s v : State} {r : Fin Config.numTxns} {t : Txn} {d : Fin Config.numDescs} {y : Desc}
    (launches : s.Launches v r t d y) (g : Seg) : v.Free g ↔ s.Free g ∧ t.egress.has g = false := by
  have settings : v.settings = s.settings := by
    obtain ⟨_, _, _, _, _, same⟩ := launches.rest
    rw [same]
  have lane : (v.egress.get g).replyLane = (s.egress.get g).replyLane ∧ (v.egress.get g).slot = (s.egress.get g).slot := by
    rw [launches.lanes]
    split <;> exact ⟨rfl, rfl⟩
  have active : v.active g = s.active g := by rw [State.active, settings]; rfl
  unfold State.Free
  rw [active, settings, lane.1, lane.2, launches.holder]
  cases t.egress.has g <;> simp

/-! ### Scans over one and over two that wait -/

/-- The scan of the only one that waits, its segments free (R32, R33). -/
theorem State.scan_one {s : State} {r : Fin Config.numTxns} {t : Txn} {d : Fin Config.numDescs} {y : Desc}
    (waits : s.txns.waiting = [r]) (used : s.txn r = some t) (request : t.reqDesc = some d)
    (stored : s.store.desc d = some y) (clear : ∀ g, t.egress.has g = true → s.Free g) :
    s.Launches s.scan r t d y := by
  obtain ⟨v, launched, launches⟩ := s.launch_launches [] used request stored
  have can := (State.canLaunch_iff used []).2 ⟨clear, by simp⟩
  rw [State.scan, waits, State.scanFrom, if_pos can, State.scanFrom, launched]
  exact launches

/-- A record written with what it holds. -/
theorem State.putTxn_same {s : State} {r : Fin Config.numTxns} {t : Option Txn} (used : s.txn r = t) :
    s.putTxn r t = s := by
  have same : s.txns.records.set r.val t r.isLt = s.txns.records := by
    rw [← used]
    exact Vector.set_getElem_self r.isLt
  rw [State.putTxn, same]

/-- The scan of two that wait: each is launched or passed over in its turn. -/
theorem State.scan_two {s : State} {o r : Fin Config.numTxns} (waits : s.txns.waiting = [o, r]) :
    s.scan = if s.canLaunch [] o = true
      then if (s.launch [] o).canLaunch [] r = true then (s.launch [] o).launch [] r else s.launch [] o
      else if s.canLaunch [o] r = true then s.launch [o] r else s := by
  rw [State.scan, waits]
  simp only [State.scanFrom, List.nil_append]

/-- The fields a launch leaves, and the pins. -/
theorem State.OnlyLaunched.fields {s u : State} (only : s.OnlyLaunched u) :
    u.txns.lastTimedOut = s.txns.lastTimedOut ∧ u.time = s.time ∧ u.settings = s.settings ∧ u.table = s.table
      ∧ u.lease = s.lease ∧ u.lines = s.lines ∧ u.receivers = s.receivers ∧ u.mgmt = s.mgmt ∧ u.events = s.events
      ∧ u.counters = s.counters ∧ s.SamePins u := by
  obtain ⟨_, _, _, _, _, rfl⟩ := only
  exact ⟨rfl, rfl, rfl, rfl, rfl, rfl, rfl, rfl, rfl, rfl, rfl, rfl, rfl, rfl, rfl⟩

theorem State.OnlyLaunched.refl (s : State) : s.OnlyLaunched s :=
  ⟨s.txns.records, s.txns.waiting, s.txns.holders, s.egress, s.store, rfl⟩

/-- Settles O23: the launch of the only one, the protected one that bars the way, and two that wait by which of them are
launched. -/
theorem scanLaunches : Obligations.ScanLaunches := by
  refine ⟨fun s r t d y free waits used request stored clear => ?_,
    fun s o r w t g h free waits usedo usedr guarded atG held atH shares => ?_,
    fun s o r w t c d x y first second shared free waits apart usedo usedr requesto requestr others storedo storedr
      shares firsts seconds => ?_⟩
  · have launches := State.scan_one waits used request stored clear
    obtain ⟨last, time, settings, table, lease, lines, receivers, mgmt, events, counters, _⟩ := launches.rest.fields
    refine ⟨_, exec_arbiterScan free, by rw [launches.waiting, waits]; simp, by rw [launches.txn, if_pos rfl]; rfl,
      fun q other => by rw [launches.txn, if_neg other], launches.holder, launches.lanes, by rw [launches.desc, if_pos rfl],
      fun e other => by rw [launches.desc, if_neg other], launches.lists.1, last, time, settings, table, lease, lines,
      receivers, mgmt, events, counters⟩
  · have blocked : ¬ s.Free g := fun clear => by rw [clear.2.1] at held; cases held
    have older : ¬ s.canLaunch [] o = true := fun can => blocked (((State.canLaunch_iff usedo []).1 can).1 g atG)
    have younger : ¬ s.canLaunch [o] r = true := fun can =>
      (SegSet.and_eq_zero _ _).1 (((State.canLaunch_iff usedr [o]).1 can).2 o (by simp) w usedo guarded) ⟨h, atH, shares⟩
    rw [exec_arbiterScan free, State.scan_two waits, if_neg older, if_neg younger]
  · have disjoint : w.egress &&& t.egress = 0 ↔ shared = false := by
      rw [SegSet.and_eq_zero, ← shares, Bool.not_eq_true]
    have canOlder : s.canLaunch [] o = true ↔ first = true := by simp [State.canLaunch_iff usedo, firsts]
    refine ⟨_, exec_arbiterScan free, ?_⟩
    rw [State.scan_two waits]
    cases first with
    | true =>
      obtain ⟨v, launched, launches⟩ := s.launch_launches [] usedo requesto storedo
      have result : s.launch [] o = v := launched
      have usedr' : v.txn r = some t := by rw [launches.txn, if_neg apart.symm, usedr]
      have canYounger : v.canLaunch [] r = true ↔ second = true := by
        rw [State.canLaunch_iff usedr', seconds]
        simp only [launches.free_iff]
        refine ⟨fun can => ⟨fun g has => (can.1 g has).1, fun both => ?_⟩, fun can => ⟨fun g has => ⟨can.1 g has, ?_⟩, by simp⟩⟩
        · obtain ⟨g, hasw, hast⟩ := shares.1 both
          rw [(can.1 g hast).2] at hasw
          cases hasw
        · by_contra hasw
          have both := shares.2 ⟨g, by simpa using hasw, has⟩
          exact absurd (can.2 both).1 (by decide)
      rw [if_pos (canOlder.2 rfl), result]
      have left : v.txns.waiting = [r] := by rw [launches.waiting, waits]; simp [apart.symm]
      cases second with
      | false =>
        rw [if_neg fun can => by simpa using canYounger.1 can]
        refine ⟨left, ?_, usedr', ?_, ?_, ?_, ?_, ?_, ?_, launches.lists.1, launches.lists.2.1, launches.lists.2.2,
          launches.rest.fields⟩
        · simp [launches.txn]
        · exact fun q other _ => by rw [launches.txn, if_neg other]
        · simp [launches.holder]
        · simp [launches.lanes]
        · simp [launches.desc]
        · simp [launches.desc, others.symm, storedr]
        · exact fun e other _ => by rw [launches.desc, if_neg other]
      | true =>
        obtain ⟨u, launched', next⟩ := v.launch_launches [] usedr' requestr
          (by rw [launches.desc, if_neg others.symm, storedr])
        have result' : v.launch [] r = u := launched'
        have away : ∀ g, w.egress.has g = true → t.egress.has g = false := fun g hasw => by
          by_contra hast
          have both := shares.2 ⟨g, hasw, by simpa using hast⟩
          exact absurd ((seconds.1 rfl).2 both).1 (by decide)
        rw [if_pos (canYounger.2 rfl), result']
        refine ⟨?_, ?_, ?_, ?_, ?_, ?_, ?_, ?_, ?_, ?_, ?_, ?_, (launches.rest.trans next.rest).fields⟩
        · simp [next.waiting, left]
        · simp [next.txn, launches.txn, apart]
        · simp [next.txn]
        · exact fun q other other' => by rw [next.txn, if_neg other', launches.txn, if_neg other]
        · intro g
          rw [next.holder, launches.holder]
          cases hasw : w.egress.has g <;> simp [away, hasw]
        · intro g
          rw [next.lanes, launches.lanes]
          cases hasw : w.egress.has g <;> simp [away, hasw]
        · simp [next.desc, launches.desc, others]
        · simp [next.desc]
        · exact fun e other other' => by rw [next.desc, if_neg other', launches.desc, if_neg other]
        · rw [next.lists.1, launches.lists.1]
        · rw [next.lists.2.1, launches.lists.2.1]
        · rw [next.lists.2.2, launches.lists.2.2]
    | false =>
      have canYounger : s.canLaunch [o] r = true ↔ second = true := by
        rw [State.canLaunch_iff usedr, seconds]
        refine and_congr_right fun _ => ?_
        simp only [List.mem_singleton, forall_eq, usedo, Option.some.injEq, forall_eq', disjoint, true_and]
        cases w.guarded <;> cases shared <;> simp
      rw [if_neg fun can => by simpa using canOlder.1 can]
      cases second with
      | false =>
        rw [if_neg fun can => by simpa using canYounger.1 can]
        exact ⟨by simp [waits], by simp [usedo], by simp [usedr], fun _ _ _ => rfl, by simp, by simp, by simp [storedo],
          by simp [storedr], fun _ _ _ => rfl, rfl, rfl, rfl, (State.OnlyLaunched.refl s).fields⟩
      | true =>
        obtain ⟨v, launched, launches⟩ := s.launch_launches [o] usedr requestr storedr
        have usedo' : v.txn o = some w := by rw [launches.txn, if_neg apart, usedo]
        obtain ⟨_, _, settings, _⟩ := launches.rest.fields
        have limit : v.bridge.bypassLimit = s.bridge.bypassLimit := by rw [State.bridge, settings]; rfl
        have bypassed : s.launch [o] r = v.putTxn o (if shared then some (w.passedBy s.bridge.bypassLimit) else some w) := by
          rw [launched, State.raiseBypass_one usedo', limit]
          cases shared with
          | true =>
            rw [if_neg fun none_ => by simpa using disjoint.1 none_]
            rfl
          | false =>
            rw [if_pos (disjoint.2 rfl)]
            exact (State.putTxn_same usedo').symm
        rw [if_pos (canYounger.2 rfl), bypassed]
        refine ⟨?_, ?_, ?_, ?_, ?_, ?_, ?_, ?_, ?_, launches.lists.1, launches.lists.2.1, launches.lists.2.2,
          (launches.rest.trans ⟨_, _, _, _, _, rfl⟩).fields⟩
        · simp [launches.waiting, waits, apart]
        · simp
        · simp [launches.txn, apart.symm]
        · exact fun q other other' => by rw [State.txn_putTxn, if_neg other, launches.txn, if_neg other']
        · exact fun g => (launches.holder g).trans (by simp)
        · exact fun g => (launches.lanes g).trans (by simp)
        · exact (launches.desc c).trans (by simp [others, storedo])
        · exact (launches.desc d).trans (by simp)
        · exact fun e _ other => (launches.desc e).trans (if_neg other)

end Machine

end Sys2Proof
end

