-- ==== Sys2Proof/Proofs/CopySent.lean ====
section
/-!
A request or broadcast copy that reaches send completion (R35, R36, R98 to R100, R122).
-/

namespace Sys2Proof.Machine

/-! ### What a descriptor gives up (R98 to R100) -/

/-- A descriptor replaced twice. -/
theorem Store.putDesc_putDesc (st : Store) (d : Fin Config.numDescs) (x y : Option Desc) :
    (st.putDesc d x).putDesc d y = st.putDesc d y := by simp [Store.putDesc, Vector.set_set]

/-- The test for release of a descriptor just written (R100). -/
theorem Store.releaseIfDone_putDesc {st : Store} {d : Fin Config.numDescs} {x y : Desc} (stored : st.desc d = some x)
    (chain : y.chain = x.chain) : (st.putDesc d (some y)).releaseIfDone d
      = if y.state = .ready ∧ y.pendingEgress = 0 ∧ y.txn = none then st.without (some d) else st.putDesc d (some y) := by
  have now : (st.putDesc d (some y)).desc d = some y := (st.desc_putDesc d d _).trans (if_pos rfl)
  unfold Store.releaseIfDone
  simp only [now]
  split
  · simp only [Store.release, now, Store.without, stored, Store.putDesc_putDesc, Store.putDesc_fields, chain]
  · rfl

/-- A segment leaves a descriptor in use (R98, R100). -/
theorem Store.leave_used {st : Store} {d : Fin Config.numDescs} {x : Desc} (stored : st.desc d = some x) (g : Seg) :
    st.leave d g = if x.state = .ready ∧ x.pendingEgress.erase g = 0 ∧ x.txn = none then st.without (some d)
      else st.putDesc d (some { x with pendingEgress := x.pendingEgress.erase g }) := by
  rw [Store.leave, Store.modify_used stored, Store.releaseIfDone_putDesc stored]
  rfl

/-- A descriptor in use gives up its transaction (R99, R100). -/
theorem Store.dropTxn_used {st : Store} {d : Fin Config.numDescs} {x : Desc} (stored : st.desc d = some x) :
    st.dropTxn d = if x.state = .ready ∧ x.pendingEgress = 0 then st.without (some d)
      else st.putDesc d (some { x with txn := none }) := by
  rw [Store.dropTxn, Store.modify_used stored,
    Store.releaseIfDone_putDesc (y := { x with txn := none }) stored rfl]
  simp only [and_true]

/-- A Free descriptor has nothing to give up. -/
theorem Store.leave_free {st : Store} {d : Fin Config.numDescs} (free : st.desc d = none) :
    st.dropTxn d = st ∧ ∀ g, st.leave d g = st := by
  have same : ∀ f, st.modify d f = st := fun f => by simp only [Store.modify, free]
  have kept : st.releaseIfDone d = st := by simp only [Store.releaseIfDone, free]
  exact ⟨by rw [Store.dropTxn, same, kept], fun g => by rw [Store.leave, same, kept]⟩

/-! ### What follows a copy (R36, R37) -/

section
variable {s : State} {r : Fin Config.numTxns} {t : Txn}

/-- A record written and then freed. -/
theorem State.freeRecord_putTxn (s : State) (r : Fin Config.numTxns) (t : Option Txn) :
    (s.putTxn r t).freeRecord r = s.freeRecord r := by
  rw [State.freeRecord, State.putTxn_putTxn]
  rfl

/-- While another copy is out nothing follows. -/
theorem State.copiesDone_out (used : s.txn r = some t) (out : t.copies ≠ 0) : s.copiesDone r = s := by
  simp only [State.copiesDone, used, ne_eq, out, not_false_eq_true, reduceIte]

/-- With its last copy a transaction whose outcome is fixed is free. -/
theorem State.copiesDone_fixed (used : s.txn r = some t) (last : t.copies = 0) (fixed : t.outcome ≠ none) :
    s.copiesDone r = s.freeRecord r := by
  have outcome : t.outcome.isSome = true := Option.isSome_iff_ne_none.2 fixed
  simp only [State.copiesDone, used, ne_eq, last, not_true_eq_false, outcome, reduceIte, State.freeRecord_putTxn]

/-- With its last copy a Poll with a window open awaits its response. -/
theorem State.copiesDone_awaits (used : s.txn r = some t) (last : t.copies = 0) (unfixed : t.outcome = none)
    (kind : t.kind = .poll) (sending : t.state = .sending) (windows : t.windows ≠ 0) {c : TimeoutClass}
    (cls : t.cls = some c) : s.copiesDone r = s.putTxn r (some { t with
      reqDesc := none, state := .awaiting
      deadline := some (s.nowMs + (s.bridge.timeouts.get c).setWidth 32) }) := by
  simp only [State.copiesDone, used, ne_eq, last, not_true_eq_false, unfixed, Option.isSome_none, Bool.false_eq_true,
    kind, sending, windows, cls, reduceIte, State.putTxn_putTxn, Option.getD_some]
  rfl

/-- With its last copy a Poll that is receiving gives up its request. -/
theorem State.copiesDone_receives (used : s.txn r = some t) (last : t.copies = 0) (unfixed : t.outcome = none)
    (kind : t.kind = .poll) (receiving : t.state = .receiving) :
    s.copiesDone r = s.putTxn r (some { t with reqDesc := none }) := by
  simp only [State.copiesDone, used, ne_eq, last, not_true_eq_false, unfixed, Option.isSome_none, Bool.false_eq_true,
    kind, receiving, reduceIte]

/-- With its last copy a Broadcast of which some copy was sent is free. -/
theorem State.copiesDone_completes (used : s.txn r = some t) (last : t.copies = 0) (unfixed : t.outcome = none)
    (kind : t.kind = .broadcast) (ok : t.copyOk = true) : s.copiesDone r = s.freeRecord r := by
  have now : (s.putTxn r (some { t with reqDesc := none })).txn r = some { t with reqDesc := none } :=
    (s.txn_putTxn r r _).trans (if_pos rfl)
  have closes := (State.closeTxn_last now last unfixed .complete).1 (.inl rfl)
  rw [State.freeRecord_putTxn, State.freeRecord_putTxn] at closes
  rw [← closes]
  simp only [State.copiesDone, used, ne_eq, last, not_true_eq_false, unfixed, Option.isSome_none, Bool.false_eq_true,
    kind, ok, reduceIte]

/-- A copy sent while the response may still be awaited opens a window on g (R35). -/
theorem State.copyCompleted_opens {g : Seg} (held : s.holder g = some r) (used : s.txn r = some t)
    (unfixed : t.outcome = none) (kind : t.kind = .poll) (sending : t.state = .sending) : s.copyCompleted g
      = ((s.putTxn r (some { t with copies := t.copies.erase g, windows := t.windows.insert g })).setLastTimedOut g
        none).copiesDone r := by
  cases t
  subst unfixed kind sending
  simp only [State.copyCompleted, held, used]
  rfl

/-- A copy of a Broadcast sent counts as sent, and frees g (R35). -/
theorem State.copyCompleted_broadcast {g : Seg} (held : s.holder g = some r) (used : s.txn r = some t)
    (unfixed : t.outcome = none) (kind : t.kind = .broadcast) : s.copyCompleted g
      = ((s.putTxn r (some { t with copies := t.copies.erase g, copyOk := true })).releaseGrant g).copiesDone r := by
  cases t
  subst unfixed kind
  simp only [State.copyCompleted, held, used]
  rfl

/-- A copy sent of a Poll that is receiving, or of a transaction whose outcome is fixed, frees g (R35). -/
theorem State.copyCompleted_releases {g : Seg} (held : s.holder g = some r) (used : s.txn r = some t)
    (late : t.outcome ≠ none ∨ t.kind = .poll ∧ t.state = .receiving) : s.copyCompleted g
      = ((s.putTxn r (some { t with copies := t.copies.erase g })).releaseGrant g).copiesDone r := by
  cases outcome : t.outcome with
  | some o => simp only [State.copyCompleted, held, used, outcome, Option.isSome_some, reduceIte]
  | none =>
    obtain ⟨kind, receiving⟩ := late.resolve_left fun fixed => fixed outcome
    simp only [State.copyCompleted, held, used, outcome, Option.isSome_none, Bool.false_eq_true, kind, receiving,
      reduceIte]

/-- A copy on g sent, by the rows of R35: what becomes of the record, the window, the grant and the pending list. -/
theorem State.copyCompleted_rows {g : Seg} {left : SegSet} {w : Option Txn} {opens : Bool} (held : s.holder g = some r)
    (used : s.txn r = some t) (rest : left = t.copies.erase g)
    (row : t.outcome = none ∧ t.kind = .poll ∧ t.state = .sending ∧ opens = true
        ∧ (left ≠ 0 ∧ w = some { t with copies := left, windows := t.windows.insert g }
          ∨ left = 0 ∧ ∃ c, t.cls = some c ∧ w = some { t with
            copies := 0, windows := t.windows.insert g, reqDesc := none, state := .awaiting
            deadline := some (s.nowMs + (s.bridge.timeouts.get c).setWidth 32) })
      ∨ t.outcome = none ∧ t.kind = .poll ∧ t.state = .receiving ∧ opens = false
        ∧ w = some { t with copies := left, reqDesc := if left = 0 then none else t.reqDesc }
      ∨ t.outcome = none ∧ t.kind = .broadcast ∧ t.state = .sending ∧ opens = false
        ∧ w = (if left = 0 then none else some { t with copies := left, copyOk := true })
      ∨ t.outcome ≠ none ∧ opens = false ∧ w = if left = 0 then none else some { t with copies := left }) :
    s.copyCompleted g = { s with txns := {
      records := (s.putTxn r w).txns.records
      waiting := if w = none then s.txns.waiting.filter fun q => q != r else s.txns.waiting
      holders := if opens then s.txns.holders else s.txns.holders.set g none
      lastTimedOut := if opens then s.txns.lastTimedOut.set g none else s.txns.lastTimedOut } } := by
  have now : ∀ (v : State) (u : Txn), (v.putTxn r (some u)).txn r = some u := fun v u =>
    (v.txn_putTxn r r _).trans (if_pos rfl)
  have freed : ∀ u : Txn, ((s.putTxn r (some u)).releaseGrant g).freeRecord r = { s with txns := {
      records := (s.putTxn r none).txns.records, waiting := s.txns.waiting.filter fun q => q != r
      holders := s.txns.holders.set g none, lastTimedOut := s.txns.lastTimedOut } } := fun u => by
    rw [State.putTxn_releaseGrant, State.freeRecord_putTxn]
    rfl
  obtain ⟨unfixed, kind, sending, rfl, ⟨more, rfl⟩ | ⟨last, c, cls, awaits⟩⟩ | ⟨unfixed, kind, receiving, rfl, result⟩
    | ⟨unfixed, kind, sending, rfl, result⟩ | ⟨fixed, rfl, result⟩ := row
  · rw [State.copyCompleted_opens held used unfixed kind sending, ← rest]
    exact State.copiesDone_out (t := { t with copies := left, windows := t.windows.insert g }) (now s _) more
  · rw [State.copyCompleted_opens held used unfixed kind sending, ← rest, awaits]
    have opened : t.windows.insert g ≠ 0 := fun empty => by
      have has := SegSet.has_insert t.windows g g
      rw [empty, SegSet.has_zero] at has
      simp at has
    refine Eq.trans (State.copiesDone_awaits (t := { t with copies := left, windows := t.windows.insert g })
      (by exact now s _) last unfixed kind sending opened cls) ?_
    rw [last]
    exact congrArg (fun v => v.setLastTimedOut g none) (State.putTxn_putTxn ..)
  · rw [State.copyCompleted_releases held used (.inr ⟨kind, receiving⟩), ← rest, result]
    by_cases last : left = 0
    · refine Eq.trans (State.copiesDone_receives (t := { t with copies := left }) (now s _) last unfixed kind receiving) ?_
      rw [if_pos last]
      exact congrArg (fun v => v.releaseGrant g) (State.putTxn_putTxn ..)
    · refine Eq.trans (State.copiesDone_out (t := { t with copies := left }) (now s _) last) ?_
      rw [if_neg last]
      rfl
  · rw [State.copyCompleted_broadcast held used unfixed kind, ← rest, result]
    by_cases last : left = 0
    · refine Eq.trans (State.copiesDone_completes (t := { t with copies := left, copyOk := true }) (now s _) last unfixed kind rfl) ?_
      rw [freed, if_pos last]
      rfl
    · refine Eq.trans (State.copiesDone_out (t := { t with copies := left, copyOk := true }) (now s _) last) ?_
      rw [if_neg last]
      rfl
  · rw [State.copyCompleted_releases held used (.inl fixed), ← rest, result]
    by_cases last : left = 0
    · refine Eq.trans (State.copiesDone_fixed (t := { t with copies := left }) (now s _) last fixed) ?_
      rw [freed, if_pos last]
      rfl
    · refine Eq.trans (State.copiesDone_out (t := { t with copies := left }) (now s _) last) ?_
      rw [if_neg last]
      rfl

end

/-! ### The last copy (R35) -/

/-- The send of a request or broadcast copy completes: the copy leaves, it is counted, and the record hears of it (R122). -/
theorem State.sendCompleted_request {v : State} {g : Seg} {h : InHand} {d : Fin Config.numDescs} {y : Desc}
    (inHand : (v.egress.get g).hand = some h) (bulk : h.item = .bulk d) (stored : v.store.desc d = some y)
    (copy : y.cls = .request ∨ y.cls = .broadcast) : v.sendCompleted g
      = ((v.dropItem g (.bulk d)).count g .framesSent).copyCompleted g := by
  have request : v.isRequestCopy (.bulk d) = true := by
    simp only [State.isRequestCopy, stored, Bool.or_eq_true, beq_iff_eq]
    exact copy
  simp only [State.sendCompleted, inHand, bulk, request, Egress.armedOn, reduceIte]

/-- Settles O20: the copy's record follows the rows of R35, and a descriptor is given up as R98 to R100 say. -/
theorem lastCopyOpensTheWindow : Obligations.LastCopyOpensTheWindow := by
  refine ⟨?_, fun st d => ⟨Store.leave_free, fun y stored => ⟨?_, Store.dropTxn_used stored⟩⟩⟩
  · intro s g x ends a h d y r t left w opens free tail silent marking clear inHand bulk stored copy held used rest row
    have due : s.tailGuardDue g = some ends := by
      unfold State.tailGuardDue
      rw [tail]
      exact if_pos ⟨silent, marking⟩
    obtain ⟨p, hp⟩ : ∃ p : State, p = { s with time := max s.time ends, straps := x } := ⟨_, rfl⟩
    have egress : p.egress = s.egress := by rw [hp]
    obtain ⟨v, hv⟩ : ∃ v, v = (p.releaseLine g).setEgress g { s.egress.get g with state := .quiet } := ⟨_, rfl⟩
    have here : v.egress.get g = { s.egress.get g with state := .quiet } := by
      rw [hv, ← egress]
      exact (PerSeg.get_set _ _ _ _).trans (if_pos rfl)
    obtain ⟨z, hz⟩ : ∃ z, z = (v.dropItem g (.bulk d)).count g .framesSent := ⟨_, rfl⟩
    have completes : p.endTail g = z.copyCompleted g := by
      rw [State.endTail_completes (by rw [egress, clear]), egress, ← hv, hz]
      exact State.sendCompleted_request (by rw [here]; exact inHand) bulk (by rw [hv, hp]; exact stored) copy
    have taken : exec (.tailGuardEnd g x) s = .next (z.copyCompleted g) := by
      rw [← completes, hp]
      change s.takeEvent (s.tailGuardDue g) (fun s => State.endTail { s with straps := x } g) = _
      rw [due, State.takeEvent_due free]
      rfl
    have lanes : ∀ q, z.egress.get q = if q = g then { s.egress.get g with
        state := .quiet, hand := none, bulkLane := (s.egress.get g).bulkLane.filter fun q => q != d }
        else s.egress.get q := by
      intro q
      have written : z.egress.get q = if q = g then { v.egress.get g with
          hand := none, bulkLane := (v.egress.get g).bulkLane.filter fun q => q != d } else v.egress.get q := by
        rw [hz]
        exact PerSeg.get_set ..
      rw [written]
      split
      · rw [here]
      next away =>
        rw [hv, hp]
        exact (PerSeg.get_set _ _ _ _).trans (if_neg away)
    have lines : ∀ q, z.lines.get q = if q = g then (s.lines.get g).releaseDE else s.lines.get q := by
      intro q
      rw [hz, hv, hp]
      exact PerSeg.get_set ..
    have done := State.copyCompleted_rows (s := z) (g := g) (r := r) (t := t) (w := w) (opens := opens)
      (by rw [hz, hv, hp]; exact held) (by rw [hz, hv, hp]; exact used) rest (by rw [hz, hv, hp]; exact row)
    rw [done] at taken
    have sent := (lanes g).trans (if_pos rfl)
    refine ⟨_, taken, ?_, fun q away => ?_, ?_, ?_, ?_, congrArg Egress.bulkLane sent,
      congrArg Egress.state sent, congrArg Egress.hand sent, (congrArg Egress.replyLane sent :),
      (congrArg Egress.slot sent :), fun q away => ?_, ?_, fun q away => ?_, ?_⟩
    · exact (z.txn_putTxn r r w).trans (if_pos rfl)
    · refine (z.txn_putTxn r q w).trans ((if_neg away).trans ?_)
      rw [hz, hv, hp]
      rfl
    iterate 3 rw [hz, hv, hp]; rfl
    · exact (lanes q).trans (if_neg away)
    · exact congrArg LineUnit.de ((lines g).trans (if_pos rfl))
    · exact (lines q).trans (if_neg away)
    · subst hz hv hp
      exact ⟨rfl, rfl, rfl, (s.counters.raisedTo_nil g).more (a := .framesSent) (by simp), rfl, rfl, rfl, rfl, rfl, rfl,
        rfl, rfl, rfl, rfl⟩
  · intro g m rest
    rw [rest]
    exact Store.leave_used stored g

end Sys2Proof.Machine
end

