-- ==== Sys2Proof/Proofs/ResponseAnswered.lean ====
section
/-!
A response that ends intact (R42, R104, R110): where its descriptor goes, and what the transaction leaves.
-/

namespace Sys2Proof.Machine

/-! ### The descriptor (R99, R100, R104) -/

/-- A descriptor changed and then gone back is as one gone back. -/
theorem Store.without_putDesc {st : Store} {d : Fin Config.numDescs} {x y : Desc} (stored : st.desc d = some x)
    (chain : y.chain = x.chain) : (st.putDesc d (some y)).without (some d) = st.without (some d) := by
  have now : (st.putDesc d (some y)).desc d = some y := (st.desc_putDesc d d _).trans (if_pos rfl)
  simp only [Store.without, now, stored, Store.putDesc_putDesc, Store.putDesc_fields, chain]

/-- Where an intact response goes (R42): to the reply lane of the origin, where that has room, unless the transaction is
superseded; it is gone otherwise. -/
def State.answerPlaced (s : State) (t : Txn) (d : Fin Config.numDescs) : State :=
  if t.superseded then s.mapStore fun st => st.dropTxn d
  else (s.mapStore fun st => st.modify d fun x => { x with txn := none }).offerReply t.origin d none

section
variable {s : State} {t : Txn} {d : Fin Config.numDescs} {y : Desc}

/-- A response whose transaction is superseded is released, and nothing placed. -/
theorem State.answerPlaced_superseded (stored : s.store.desc d = some y) (ready : y.state = .ready)
    (alone : y.pendingEgress = 0) (gone : t.superseded = true) :
    s.answerPlaced t d = { s with store := s.store.without (some d) } := by
  have released : s.store.dropTxn d = s.store.without (some d) := by
    rw [Store.dropTxn_used stored, if_pos ⟨ready, alone⟩]
  rw [State.answerPlaced, if_pos gone, State.mapStore, released]

/-- A response joins the reply lane of its origin where that has room (R110). -/
theorem State.answerPlaced_room (stored : s.store.desc d = some y) (wanted : t.superseded = false)
    (room : (s.egress.get t.origin).replyLane.length < 2) : s.answerPlaced t d = { s with
      egress := s.egress.set t.origin { s.egress.get t.origin with
        replyLane := (s.egress.get t.origin).replyLane ++ [⟨d, none⟩] }
      store := s.store.putDesc d (some { y with txn := none, pendingEgress := y.pendingEgress.insert t.origin }) } := by
  have given := Store.modify_used stored fun x => { x with txn := none }
  have now : (s.store.modify d fun x => { x with txn := none }).desc d = some { y with txn := none } := by
    rw [given]
    exact (Store.desc_putDesc _ d d _).trans (if_pos rfl)
  have joins := Store.modify_used now fun x => { x with pendingEgress := x.pendingEgress.insert t.origin }
  rw [given, Store.putDesc_putDesc] at joins
  unfold State.answerPlaced
  rw [if_neg (by rw [wanted]; exact Bool.false_ne_true), ← joins, ← given]
  exact if_pos room

/-- A response that finds the reply lane of its origin full is dropped, released and counted (R110). -/
theorem State.answerPlaced_full (stored : s.store.desc d = some y) (ready : y.state = .ready)
    (alone : y.pendingEgress = 0) (wanted : t.superseded = false)
    (full : 2 ≤ (s.egress.get t.origin).replyLane.length) : s.answerPlaced t d = { s with
      store := s.store.without (some d)
      counters := s.counters.write t.origin 6 (saturatingSucc (s.counters.read t.origin 6)) } := by
  have released : (s.store.modify d fun x => { x with txn := none }).releaseIfDone d = s.store.without (some d) := by
    rw [Store.modify_used stored, Store.releaseIfDone_putDesc (y := { y with txn := none }) stored rfl]
    exact if_pos ⟨ready, alone, rfl⟩
  unfold State.answerPlaced
  rw [if_neg (by rw [wanted]; exact Bool.false_ne_true), ← released]
  exact if_neg (by exact Nat.not_lt.2 full)

/-- What placing a response can touch. -/
theorem State.answerPlaced_only (s : State) (t : Txn) (d : Fin Config.numDescs) :
    ∃ e st k, s.answerPlaced t d = { s with egress := e, store := st, counters := k } := by
  unfold State.answerPlaced State.offerReply
  split
  · exact ⟨_, _, _, rfl⟩
  · dsimp only
    split <;> exact ⟨_, _, _, rfl⟩

end

/-! ### The transaction (R37, R42) -/

/-- An open transaction closes Answered: its record is free once no copy is out (R37). -/
theorem State.closeTxn_answered {s : State} {r : Fin Config.numTxns} {t : Txn} (used : s.txn r = some t)
    (unfixed : t.outcome = none) : s.closeTxn r .answered
      = if t.copies = 0 then s.freeRecord r else s.putTxn r (some { t with outcome := some .answered }) := by
  simp only [State.closeTxn, used, unfixed, Option.isSome_none, Bool.false_eq_true, TxnOutcome.notice, reduceIte,
    State.freeRecord_putTxn]

/-- What an intact response leaves (R42), where e, st and k are what its placing leaves of the lanes, the store and the
counters, and s is the state the learning step is told of. -/
theorem State.responseIntact_eq {s v : State} {r : Fin Config.numTxns} {t : Txn} {g : Seg} {d : Fin Config.numDescs}
    (used : v.txn r = some t) (unfixed : t.outcome = none) (table : v.table = s.table) (settings : v.settings = s.settings)
    (events : v.events = s.events) (time : v.time = s.time) {e : PerSeg Egress} {st : Store} {k : Counters}
    (placed : v.answerPlaced t d = { v with egress := e, store := st, counters := k }) :
    v.responseIntact r g d = { v with
      egress := e, store := st, counters := k
      txns := {
        records := (v.putTxn r (if t.copies = 0 then none else some { t with outcome := some .answered })).txns.records
        waiting := if t.copies = 0 then v.txns.waiting.filter fun q => q != r else v.txns.waiting
        holders := v.txns.holders.set g none, lastTimedOut := v.txns.lastTimedOut }
      table := (s.learn t.station g).table, events := (s.learn t.station g).events } := by
  have unfolded : v.responseIntact r g d
      = (((v.answerPlaced t d).releaseGrant g).closeTxn r .answered).learn t.station g := by
    simp only [State.responseIntact, used, State.answerPlaced]
  have closes := State.closeTxn_answered (s := State.releaseGrant { v with egress := e, store := st, counters := k } g)
    (t := t) used unfixed
  rw [unfolded, placed, closes]
  have tail : ∀ w : State, w.table = v.table → w.settings = v.settings → w.events = v.events → w.time = v.time →
      w.learn t.station g = { w with
        table := (s.learn t.station g).table, events := (s.learn t.station g).events } := by
    intro w table' settings' events' time'
    obtain ⟨sameTable, sameEvents⟩ := State.learn_congr (table'.trans table) (settings'.trans settings) t.station g
    rw [← sameTable, ← sameEvents (events'.trans events) (time'.trans time)]
    obtain ⟨b, l, learned⟩ := w.learn_only t.station g
    rw [learned]
  by_cases last : t.copies = 0
  · simp only [last, reduceIte]
    exact tail _ rfl rfl rfl rfl
  · simp only [last, reduceIte]
    exact tail _ rfl rfl rfl rfl

/-- Settles O14: the frame is handed on at the idle gap, and its descriptor goes where the origin's lane lets it. -/
theorem intactResponseAnswers : Obligations.IntactResponseAnswers := by
  intro s g since a d x r t n free rx de storing stored good used unfixed
  obtain ⟨k, counted, taken⟩ := State.Silent.handedOn ⟨free, rx, de⟩ storing stored good
  obtain ⟨v, hv⟩ : ∃ v, v = State.mapStore { s.gapTaken g since with receivers := s.receivers.set g .hunt, counters := k }
    (fun st => st.modify d fun x => { x with state := .ready }) := ⟨_, rfl⟩
  have handed : exec (.idleGapExpiry g) s = .next (v.responseIntact r g d) := by
    rw [taken, hv]
    rfl
  have readied : v.store = s.store.putDesc d (some { x with state := .ready }) := by
    rw [hv]
    exact Store.modify_used stored _
  have now : v.store.desc d = some { x with state := .ready } := by
    rw [readied]
    exact (Store.desc_putDesc _ d d _).trans (if_pos rfl)
  have released : v.store.without (some d) = s.store.without (some d) := by
    rw [readied]
    exact Store.without_putDesc stored rfl
  have later : v.time = max s.time v.time := by
    rw [hv]
    exact (max_eq_right (Nat.le_max_left _ _)).symm
  obtain ⟨e, st, k', placed⟩ := v.answerPlaced_only t d
  have answered := State.responseIntact_eq (s := s.advance v.time) (v := v) (g := g) (by rw [hv]; exact used) unfixed
    (by rw [hv]; rfl) (by rw [hv]; rfl) (by rw [hv]; rfl) later placed
  rw [answered] at handed
  have table := (State.learn_congr (s := s) (u := s.advance v.time) rfl rfl t.station g).1
  have parts : ∀ {e' st' c}, v.answerPlaced t d = { v with egress := e', store := st', counters := c } →
      e = e' ∧ st = st' ∧ k' = c := fun same => by
    rw [placed, State.mk.injEq] at same
    obtain ⟨_, _, _, _, _, _, _, _, _, _, store, lanes, _, _, counters, _⟩ := same
    exact ⟨lanes, store, counters⟩
  refine ⟨_, k, handed, counted, (v.txn_putTxn r r _).trans (if_pos rfl), ?_, fun q away => ?_,
    (PerSeg.get_set _ _ _ _).trans (if_pos rfl), fun h away => ?_, ?_⟩
  · rw [hv]
    rfl
  · refine (v.txn_putTxn r q _).trans ((if_neg away).trans ?_)
    rw [hv]
    rfl
  · refine (PerSeg.get_set _ _ _ _).trans ((if_neg away).trans ?_)
    rw [hv]
    rfl
  · refine ⟨by rw [hv]; rfl, table, by rw [hv]; rfl, by rw [hv]; rfl, rfl, by rw [hv]; rfl, by rw [hv]; rfl,
      by rw [hv]; rfl, by rw [hv]; rfl, by rw [hv]; exact ⟨rfl, rfl, rfl, rfl, rfl⟩, fun wanted room => ?_,
      fun wanted full alone => ?_, fun gone alone => ?_⟩
    · obtain ⟨rfl, rfl, rfl⟩ := parts (State.answerPlaced_room now wanted (by rw [hv]; exact room))
      refine ⟨by rw [hv]; rfl, ?_, by rw [hv]; rfl⟩
      rw [readied]
      exact Store.putDesc_putDesc ..
    · obtain ⟨rfl, rfl, rfl⟩ := parts (State.answerPlaced_full now rfl alone wanted (by rw [hv]; exact full))
      exact ⟨by rw [hv]; rfl, released, by rw [hv]; rfl⟩
    · obtain ⟨rfl, rfl, rfl⟩ := parts (State.answerPlaced_superseded now rfl alone gone)
      exact ⟨by rw [hv]; rfl, released, by rw [hv]; rfl⟩

end Sys2Proof.Machine
end

