-- ==== Sys2Proof/Proofs/Admission.lean ====
section
/-!
An address character in HUNT (R25, R73 to R78): how its frame is classified, and what admission takes for it.
-/

namespace Sys2Proof.Machine

/-! ### The address character (R73, R82) -/

/-- The error counters are the only ones that every character may raise (R82). -/
theorem RxChar.not_counted (c : RxChar) {a : SegCounter} (chars : a ≠ .charErrors) (noise : a ≠ .noiseChars) :
    a ∉ c.counted := by
  simp only [RxChar.counted, List.mem_append, not_or]
  exact ⟨by split <;> simp [chars], by split <;> simp [noise]⟩

section
variable {s : State} {g : Seg} {edge : Nat} {taken : Bool} {x : Samples} {c : RxChar} {r : Fin Config.numTxns}

/-- An address character in HUNT begins a frame, its errors counted. -/
theorem State.Hears.begins (hears : s.Hears g edge taken x c) (mark : c.mark = true) (de : (s.lines.get g).de = false)
    (hunt : s.receivers.get g = .hunt) : ∃ k, s.counters.RaisedTo k g c.counted
      ∧ exec (.characterComplete g x) s = .next (State.beginFrame { s.heard g edge x with counters := k } g c) := by
  obtain ⟨k, counts, raised⟩ := (s.heard g edge x).countErrors_raised g c
  have hunting : (s.heard g edge x).receivers.get g = .hunt := hunt
  refine ⟨k, raised, ?_⟩
  rw [hears.delivered, if_neg (by rw [de]; exact Bool.false_ne_true)]
  simp only [State.receiveChar, hunting, mark, reduceIte, counts]

/-! ### Classification (R74, R75) -/

/-- A frame for which a record is reserved is classified as one. -/
theorem State.Opens.classified {v : Byte} {cls : FrameClass} {kind : TxnKind} {m : SegSet} {tc : Option TimeoutClass}
    (opens : s.Opens g v cls kind m tc) : s.classify g v = some (.record cls kind m tc) := by
  rcases opens with ⟨up, foreign, poll | broadcast⟩ | ⟨role, rfl, access, rfl, rfl, rfl, rfl⟩
  · obtain ⟨named, rfl, rfl, k, rfl, route⟩ := poll
    simp only [State.classify, up, State.classifyUpstream, foreign, named, route, reduceIte]
  · obtain ⟨rfl, rfl, rfl, rfl, some_down, rfl⟩ := broadcast
    simp only [State.classify, up, State.classifyUpstream, foreign, ne_eq, some_down, not_false_eq_true, reduceIte]
  · rcases role with up | ⟨down, closed⟩
    · simp only [State.classify, up, State.classifyUpstream, access, reduceIte]
    · simp only [State.classify, down, State.classifyDownstream, closed, access, reduceIte]

/-- A class for which a record is reserved bears one; the reserve is for Broadcasts alone among them (R77). -/
theorem State.Opens.refused {v : Byte} {cls : FrameClass} {kind : TxnKind} {m : SegSet} {tc : Option TimeoutClass}
    (opens : s.Opens g v cls kind m tc) : cls.bearsRecord = true
      ∧ (s.reserveRefuses cls = true ↔ cls = .broadcast ∧ s.store.freeCells.length ≤ s.bridge.reserve.toNat) := by
  rcases opens with ⟨_, _, ⟨_, rfl, _⟩ | ⟨_, rfl, _⟩⟩ | ⟨_, _, _, rfl, _⟩
  · simp [FrameClass.bearsRecord, State.reserveRefuses]
  · simp [FrameClass.bearsRecord, State.reserveRefuses]
  · simp [FrameClass.bearsRecord, State.reserveRefuses]

/-- The own address without management access (R74, R75). -/
theorem State.classify_mgmtOff
    (role : (s.active g).role = .upstream ∨ (s.active g).role = .downstream ∧ s.windowOn g = none)
    (off : (s.active g).mgmtAccess = false) : s.classify g s.bridge.own = some (.skip (some .management) .mgmtOff) := by
  rcases role with up | ⟨down, closed⟩
  · simp only [State.classify, up, State.classifyUpstream, off, Bool.false_eq_true, reduceIte]
  · simp only [State.classify, down, State.classifyDownstream, closed, off, Bool.false_eq_true, reduceIte]

/-- A Request that its route drops (R74). -/
theorem State.classify_dropped {v : Byte} {why : SkipReason} (up : (s.active g).role = .upstream)
    (foreign : v ≠ s.bridge.own) (named : v ≠ 0) (route : s.route v = .drop why) :
    s.classify g v = some (.skip (some .request) why) := by
  simp only [State.classify, up, State.classifyUpstream, foreign, named, route, reduceIte]

/-- A Broadcast with no segment Downstream (R74). -/
theorem State.classify_noDownstream (up : (s.active g).role = .upstream) (foreign : 0 ≠ s.bridge.own)
    (none_down : s.downstream = 0) : s.classify g 0 = some (.skip (some .broadcast) .noRoute) := by
  simp only [State.classify, up, State.classifyUpstream, foreign, none_down, ne_eq, not_true_eq_false, reduceIte]

/-! ### What is free (R25, R76) -/

/-- The record reserved is the lowest free one (R25). -/
theorem State.lowestFree_some (free : s.txn r = none) (lowest : ∀ p, p < r → s.txn p ≠ none) : s.lowestFree = some r := by
  have order : ∀ r : Fin 8, ascendingTxns = ascendingTxns.take r ++ r :: ascendingTxns.drop (r + 1)
      ∧ ∀ p ∈ ascendingTxns.take r, p < r := by decide
  obtain ⟨split, below⟩ := order r
  refine List.find?_eq_some_iff_append.2 ⟨by rw [free]; rfl, _, _, split, fun p before => ?_⟩
  rw [Option.isNone_eq_false_iff.2 (Option.isSome_iff_ne_none.2 (lowest p (below p before)))]
  rfl

/-- No record is free where all are in use. -/
theorem State.lowestFree_none (used : ∀ r, s.txn r ≠ none) : s.lowestFree = none := by
  refine List.find?_eq_none.2 fun r _ free => used r (Option.isNone_iff_eq_none.1 free)

/-- The head descriptor and the head cell are taken, and the address character stands in place 0 (R76, R78). -/
theorem Store.openFrame_free {st : Store} {d : Fin Config.numDescs} {ds : List (Fin Config.numDescs)}
    {q : Fin Config.numCells} {qs : List (Fin Config.numCells)} (descs : st.freeDescs = d :: ds)
    (cells : st.freeCells = q :: qs) (cls : FrameClass) (g : Seg) (ch : Ch) (bad : Bool)
    (txn : Option (Fin Config.numTxns)) : st.openFrame cls g ch bad txn = some (d, {
      (st.putDesc d (some
        { state := .filling, cls := cls, ingress := some g, station := ch.value, length := 1, chain := [q]
          error := bad, txn := txn, pendingEgress := 0 })).writeCell q 0 ch with freeDescs := ds, freeCells := qs }) := by
  simp only [Store.openFrame, descs, cells]
  rfl

/-- Nothing is taken where no descriptor or no cell is free (R76). -/
theorem Store.openFrame_none {st : Store} (none_free : st.freeDescs = [] ∨ st.freeCells = []) (cls : FrameClass) (g : Seg)
    (ch : Ch) (bad : Bool) (txn : Option (Fin Config.numTxns)) : st.openFrame cls g ch bad txn = none := by
  rw [← Option.isNone_iff_eq_none, ← Option.isSome_eq_false_iff, Store.openFrame_some]
  rcases none_free with h | h <;> simp [h]

/-! ### Admission (R76) -/

/-- A frame with a record is admitted. -/
theorem State.admitRecord_admits {cls : FrameClass} {d : Fin Config.numDescs} {ds : List (Fin Config.numDescs)}
    {q : Fin Config.numCells} {qs : List (Fin Config.numCells)} (spared : s.reserveRefuses cls = false)
    (lowest : s.lowestFree = some r) (descs : s.store.freeDescs = d :: ds) (cells : s.store.freeCells = q :: qs)
    (kind : TxnKind) (m : SegSet) (tc : Option TimeoutClass) (c : RxChar) : s.admitRecord g cls kind m tc c = { s with
      txns := (s.putTxn r (some (reservedTxn kind g c.value d m tc))).txns
      receivers := s.receivers.set g (.store ⟨some cls, c.value, some d, some r, 1,
        if erroneous (s.active g).noisePolicy c then some .damaged else none⟩)
      store := { (s.store.putDesc d (some
          { state := .filling, cls := cls, ingress := some g, station := c.value, length := 1, chain := [q]
            error := erroneous (s.active g).noisePolicy c, txn := some r, pendingEgress := 0 })).writeCell
        q 0 ⟨c.value, true⟩ with freeDescs := ds, freeCells := qs } } := by
  simp only [State.admitRecord, spared, lowest, Store.openFrame_free descs cells, Bool.false_eq_true, reduceIte]
  rfl

/-- A frame with a record is refused for want of a record, a descriptor or a cell, or at the reserve. -/
theorem State.admitRecord_refuses {cls : FrameClass}
    (lacks : s.reserveRefuses cls = true ∨ (∀ r, s.txn r ≠ none) ∨ s.store.freeDescs = [] ∨ s.store.freeCells = [])
    (kind : TxnKind) (m : SegSet) (tc : Option TimeoutClass) (c : RxChar) :
    s.admitRecord g cls kind m tc c = s.refuseFrame g cls c.value none := by
  unfold State.admitRecord
  dsimp only
  split
  · rfl
  next spared =>
    cases found : s.lowestFree with
    | none => rfl
    | some r =>
      rcases lacks with refuses | full | short
      · exact absurd refuses spared
      · rw [State.lowestFree_none full] at found
        cases found
      · simp only [Store.openFrame_none short]

/-- A frame without a record is admitted. -/
theorem State.admitPlain_admits {cls : FrameClass} {d : Fin Config.numDescs} {ds : List (Fin Config.numDescs)}
    {q : Fin Config.numCells} {qs : List (Fin Config.numCells)} (spared : s.reserveRefuses cls = false)
    (descs : s.store.freeDescs = d :: ds) (cells : s.store.freeCells = q :: qs) (txn : Option (Fin Config.numTxns))
    (c : RxChar) : s.admitPlain g cls txn c = { s with
      receivers := s.receivers.set g (.store ⟨some cls, c.value, some d, txn, 1, none⟩)
      store := { (s.store.putDesc d (some
          { state := .filling, cls := cls, ingress := some g, station := c.value, length := 1, chain := [q]
            error := erroneous (s.active g).noisePolicy c, txn := txn, pendingEgress := 0 })).writeCell
        q 0 ⟨c.value, true⟩ with freeDescs := ds, freeCells := qs } } := by
  simp only [State.admitPlain, spared, Store.openFrame_free descs cells, Bool.false_eq_true, reduceIte]
  rfl

/-- A frame without a record is refused for want of a descriptor or a cell, or at the reserve. -/
theorem State.admitPlain_refuses {cls : FrameClass}
    (lacks : s.reserveRefuses cls = true ∨ s.store.freeDescs = [] ∨ s.store.freeCells = [])
    (txn : Option (Fin Config.numTxns)) (c : RxChar) : s.admitPlain g cls txn c = s.refuseFrame g cls c.value txn := by
  unfold State.admitPlain
  dsimp only
  split
  · rfl
  next spared => simp only [Store.openFrame_none (lacks.resolve_left spared)]

end

/-- Settles O10: classification, then admission, on the state with the character read. -/
theorem requestIsAdmitted : Obligations.RequestIsAdmitted := by
  intro s g x edge taken c hears mark de hunt
  obtain ⟨k, counted, begins⟩ := hears.begins mark de hunt
  obtain ⟨v, hv⟩ : ∃ v : State, v = { s.heard g edge x with counters := k } := ⟨_, rfl⟩
  have same : ∀ a, v.classify g a = s.classify g a := fun a => by rw [hv]; rfl
  rw [← hv] at begins
  have raised := fun (a : SegCounter) chars noise => counted.more (a := a) (c.not_counted chars noise)
  refine ⟨fun cls kind m tc opens => ?_, fun role own off => ?_, fun up foreign => ⟨fun named blocked => ?_, ?_⟩⟩
  · have classed := (same c.value).trans opens.classified
    obtain ⟨bears, refuses⟩ := opens.refused
    have frame : v.beginFrame g c = v.admitRecord g cls kind m tc c := by simp only [State.beginFrame, classed]
    rw [frame] at begins
    refine ⟨fun r d ds q qs free lowest descs cells room => ⟨k, counted, ?_⟩, fun lacks =>
      ⟨_, raised .noBuffer (by simp) (by simp), ?_⟩⟩
    · have spared : s.reserveRefuses cls = false := by
        rw [← Bool.not_eq_true, refuses]
        exact fun ⟨broadcast, few⟩ => absurd (room broadcast) (Nat.not_lt.2 few)
      rw [begins, State.admitRecord_admits (by rw [hv]; exact spared)
        (by rw [hv]; exact State.lowestFree_some free lowest) (by rw [hv]; exact descs) (by rw [hv]; exact cells), hv]
      rfl
    · rw [begins, State.admitRecord_refuses, State.refuseFrame, bears, hv]
      · rfl
      · rw [hv]
        rcases lacks with full | descs | cells | few
        · exact .inr (.inl full)
        · exact .inr (.inr (.inl descs))
        · exact .inr (.inr (.inr cells))
        · exact .inl (refuses.2 few)
  · have classed := (same s.bridge.own).trans (State.classify_mgmtOff role off)
    refine ⟨k, counted, ?_⟩
    rw [begins, State.beginFrame, own, classed, hv]
    rfl
  · have classed := (same c.value).trans (State.classify_dropped up foreign named blocked)
    refine ⟨k, counted, ?_⟩
    rw [begins, State.beginFrame, classed, hv]
    rfl
  · intro cls none_
    have classed : v.classify g c.value = some (.skip (some cls) .noRoute) := by
      rw [same]
      rcases none_ with ⟨named, route, rfl⟩ | ⟨zero, down, rfl⟩
      · exact State.classify_dropped up foreign named route
      · rw [zero] at foreign ⊢
        exact State.classify_noDownstream up foreign down
    refine ⟨_, raised .noRoute (by simp) (by simp), ?_⟩
    rw [begins, State.beginFrame, classed, hv]
    rfl

end Sys2Proof.Machine
end

