-- ==== Sys2Proof/Proofs/ResponseMatch.lean ====
section
/-!
An address character in HUNT on a Downstream segment (R38 to R40, R75 to R77): a response its window awaits, a stray, a late
one, and an Unsolicited frame.
-/

namespace Sys2Proof.Machine

section
variable {s : State} {g : Seg} {r : Fin Config.numTxns} {t : Txn}

/-! ### Classification on a Downstream segment (R75) -/

/-- Beside an open window any station but the awaited one is a Stray (R38, R75). -/
theorem State.classify_windowed {v : Byte} (down : (s.active g).role = .downstream) (window : s.windowOn g = some (r, t)) :
    s.classify g v = some (if v = t.station then .response r t else .skip none .stray) := by
  simp only [State.classify, down, State.classifyDownstream, window]

/-- With no window open a station is Late, or its frame is Unsolicited (R40, R75). -/
theorem State.classify_unawaited {v : Byte} (down : (s.active g).role = .downstream) (closed : s.windowOn g = none)
    (foreign : v ≠ s.bridge.own) : s.classify g v = some (if s.txns.lastTimedOut.get g = some v then .skip none .late
      else if s.bridge.unsolicited = true then .unsolicited else .skip (some .unsolicited) .unsolicitedOff) := by
  simp only [State.classify, down, State.classifyDownstream, closed, foreign, reduceIte]

/-- The holder of g awaits its response there while g is one of its windows (R38). -/
theorem State.windowOn_holder (held : s.holder g = some r) (used : s.txn r = some t) (window : t.windows.has g = true) :
    s.windowOn g = some (r, t) := by
  simp only [State.windowOn, held, used, window, reduceIte]

/-! ### The window (R38) -/

/-- A matched window: the transaction is RECEIVING on g, its other windows closed and released. -/
theorem State.matchWindow_eq (s : State) (r : Fin Config.numTxns) (t : Txn) (g : Seg) :
    ∃ n, (∀ h, n.get h = if t.windows.has h = true ∧ h ≠ g then none else s.holder h)
      ∧ s.matchWindow r t g = { s with txns := { (s.putTxn r (some
        { t with state := .receiving, deadline := none, windows := 0, responseSeg := some g })).txns with holders := n } } := by
  obtain ⟨n, released, holders⟩ := (s.putTxn r (some
    { t with state := .receiving, deadline := none, windows := 0, responseSeg := some g })).releaseGrants_holders
      (t.windows.erase g)
  refine ⟨n, fun h => ?_, released⟩
  rw [holders]
  simp only [SegSet.has_erase, Bool.and_eq_true, Bool.not_eq_true', decide_eq_false_iff_not, and_comm]
  rfl

end

/-- Settles O13: the classification on a Downstream segment decides, and admission follows on the state with the character
read. -/
theorem responseIsMatched : Obligations.ResponseIsMatched := by
  intro s g x edge taken c hears mark de hunt down
  obtain ⟨k, counted, begins⟩ := hears.begins mark de hunt
  obtain ⟨v, hv⟩ : ∃ v : State, v = { s.heard g edge x with counters := k } := ⟨_, rfl⟩
  have same : ∀ a, v.classify g a = s.classify g a := fun a => by rw [hv]; rfl
  rw [← hv] at begins
  have raised := fun (a : SegCounter) chars noise => counted.more (a := a) (c.not_counted chars noise)
  refine ⟨fun r t held used window => ⟨fun awaited => ?_, fun other => ?_⟩, fun closed foreign => ⟨fun late => ?_,
    fun fresh => ⟨fun off => ?_, fun on => ⟨fun d ds q qs descs cells room => ?_, fun lacks => ?_⟩⟩⟩⟩
  · have classed : v.classify g c.value = some (.response r t) := by
      rw [same, State.classify_windowed down (State.windowOn_holder held used window), if_pos awaited]
    obtain ⟨n, holders, matched⟩ := v.matchWindow_eq r t g
    rw [State.beginFrame, classed] at begins
    dsimp only at begins
    rw [matched] at begins
    refine ⟨n, fun h => ?_, fun d ds q qs descs cells => ⟨k, counted, ?_⟩, fun lacks =>
      ⟨_, raised .noBuffer (by simp) (by simp), ?_⟩⟩
    · rw [holders, hv]
      rfl
    · rw [begins, State.admitPlain_admits rfl (by rw [hv]; exact descs) (by rw [hv]; exact cells), awaited, hv]
      rfl
    · rw [begins, State.admitPlain_refuses (.inr (by rw [hv]; exact lacks)), awaited, hv]
      rfl
  · have classed : v.classify g c.value = some (.skip none .stray) := by
      rw [same, State.classify_windowed down (State.windowOn_holder held used window), if_neg other]
    refine ⟨_, raised .lateStray (by simp) (by simp), ?_⟩
    rw [begins, State.beginFrame, classed, hv]
    rfl
  · have classed : v.classify g c.value = some (.skip none .late) := by
      rw [same, State.classify_unawaited down closed foreign, if_pos late]
    refine ⟨_, raised .lateStray (by simp) (by simp), ?_⟩
    rw [begins, State.beginFrame, classed, hv]
    rfl
  · have classed : v.classify g c.value = some (.skip (some .unsolicited) .unsolicitedOff) := by
      rw [same, State.classify_unawaited down closed foreign, if_neg fresh, if_neg (by rw [off]; exact Bool.false_ne_true)]
    refine ⟨_, raised .unsolicited (by simp) (by simp), ?_⟩
    rw [begins, State.beginFrame, classed, hv]
    rfl
  · have classed : v.classify g c.value = some .unsolicited := by
      rw [same, State.classify_unawaited down closed foreign, if_neg fresh, if_pos on]
    refine ⟨_, raised .unsolicited (by simp) (by simp), ?_⟩
    rw [begins, State.beginFrame, classed]
    dsimp only
    rw [State.admitPlain_admits (by rw [hv]; exact decide_eq_false (Nat.not_le.2 room)) (by rw [hv]; exact descs)
      (by rw [hv]; exact cells), hv]
    rfl
  · have classed : v.classify g c.value = some .unsolicited := by
      rw [same, State.classify_unawaited down closed foreign, if_neg fresh, if_pos on]
    have twice := (raised .unsolicited (by simp) (by simp)).more (a := .noBuffer)
      (by simpa using c.not_counted (a := .noBuffer) (by simp) (by simp))
    rw [List.append_assoc] at twice
    refine ⟨_, twice, ?_⟩
    rw [begins, State.beginFrame, classed]
    dsimp only
    rw [State.admitPlain_refuses, hv]
    · rfl
    · rw [hv]
      rcases lacks with descs | few
      · exact .inr (.inl descs)
      · exact .inl (decide_eq_true few)

end Sys2Proof.Machine
end

