-- ==== Sys2Proof/Proofs/Service.lean ====
section
/-!
A Request, Broadcast or Management frame that ends intact (R27, R28, R43, R45, R49, R87, R112): adoption, or the new
transaction's entry in place of the origin's live one.
-/

namespace Sys2Proof.Machine

/-! ### The frame read (R128) -/

/-- What a frame's characters read does not depend on its descriptor's state. -/
theorem Store.values_ready {st : Store} {d : Fin Config.numDescs} {x : Desc} (stored : st.desc d = some x) :
    (st.putDesc d (some { x with state := .ready })).values d = st.values d := by
  have now : (st.putDesc d (some { x with state := .ready })).desc d = some { x with state := .ready } :=
    (st.desc_putDesc d d _).trans (if_pos rfl)
  have each : ∀ k, (st.putDesc d (some { x with state := .ready })).charAt d k = st.charAt d k := by
    intro k
    simp only [Store.charAt, now, stored, Store.putDesc_fields]
    rfl
  simp only [Store.values, now, stored, each]

/-- A list with a place i has there what it gives by default elsewhere. -/
theorem getElem?_eq_arg {l : List Byte} {i : Nat} (inside : i < l.length) : l[i]? = some (arg l i) := by
  simp only [arg, List.getD_eq_getElem _ _ inside, List.getElem?_eq_getElem inside]

section
variable {s : State} {g : Seg} {r : Fin Config.numTxns} {t : Txn} {d : Fin Config.numDescs} {cls : FrameClass}

/-! ### Adoption (R28) -/

/-- The frames that are adopted: those that repeat the Local their origin has queued or in execution. -/
theorem State.adopts_iff (s : State) (g : Seg) (l : List Byte) : s.adopts g l = true
    ↔ ∃ q w, s.liveOf g = some q ∧ s.txn q = some w ∧ w.kind = .loc ∧ w.state = .executing ∧ 3 ≤ l.length
      ∧ l[1]? = some w.command ∧ l[2]? = some w.sequence := by
  unfold State.adopts
  cases live : s.liveOf g with
  | none => simp
  | some q =>
    cases used : s.txn q with
    | none => simp [used]
    | some w =>
      simp only [used, Bool.and_eq_true, beq_iff_eq, decide_eq_true_eq, Option.some.injEq]
      constructor
      · rintro ⟨⟨⟨⟨kind, executing⟩, long⟩, command⟩, sequence⟩
        refine ⟨q, w, rfl, used, kind, executing, long, ?_, ?_⟩
        · rw [getElem?_eq_arg (by omega), command]
        · rw [getElem?_eq_arg (by omega), sequence]
      · rintro ⟨_, _, rfl, same, kind, executing, long, command, sequence⟩
        rw [used, Option.some.injEq] at same
        subst same
        rw [getElem?_eq_arg (by omega), Option.some.injEq] at command sequence
        exact ⟨⟨⟨⟨kind, executing⟩, long⟩, command.symm⟩, sequence.symm⟩

/-- An adopted frame leaves its record and its descriptor (R28). -/
theorem State.enterService_adopts (adopts : s.adopts g (s.store.values d) = true) :
    s.enterService g .management r d = (s.freeRecord r).mapStore fun st => st.dropTxn d := by
  simp only [State.enterService, adopts, and_self, reduceIte]

/-! ### Entry (R27, R45, R49) -/

/-- The record of a transaction as it enters service. -/
def Txn.entered (t : Txn) (cls : FrameClass) (l : List Byte) (down : SegSet) : Txn :=
  if cls = .management then { t with state := .executing, command := l.getD 1 0, sequence := l.getD 2 0 }
  else { t with state := .pending, egress := t.egress &&& down }

/-- A record enters service: a Local at the tail of the management queue, any other at the tail of the pending list. -/
def State.admitted (s : State) (r : Fin Config.numTxns) (cls : FrameClass) (w : Txn) : State :=
  { s with
    txns := { (s.putTxn r (some w)).txns with
      waiting := if cls = .management then s.txns.waiting else s.txns.waiting ++ [r] }
    mgmt := { s.mgmt with queue := if cls = .management then s.mgmt.queue ++ [r] else s.mgmt.queue } }

/-- A frame that is not adopted enters service after the origin's live transaction has gone. -/
theorem State.enterService_enters {l : List Byte} (read : s.store.values d = l)
    (fresh : ¬ (cls = .management ∧ s.adopts g l = true)) (used : (s.abandonOrigin g).txn r = some t)
    (routed : cls = .management ∨ t.egress &&& (s.abandonOrigin g).downstream ≠ 0) :
    s.enterService g cls r d = ((s.abandonOrigin g).admitted r cls
      (t.entered cls l (s.abandonOrigin g).downstream)).setBackBulk g := by
  unfold State.enterService
  dsimp only
  rw [read, if_neg fresh]
  congr 1
  unfold Txn.entered State.admitted
  by_cases local_ : cls = .management
  · simp only [local_, reduceIte, State.becomeExecuting, used]
    rfl
  · simp only [local_, reduceIte, State.becomePending, used, routed.resolve_left local_]
    rfl

/-- With no segment left the transaction closes NoRoute, its notice in the empty slot of its origin (R27, R43, R49). -/
theorem State.becomePending_noRoute (used : s.txn r = some t) (left : t.egress &&& s.downstream = 0)
    (request : t.reqDesc = some d) (none_out : t.copies = 0) (unfixed : t.outcome = none) (wanted : t.superseded = false)
    (empty : (s.egress.get t.origin).slot = none) : s.becomePending r = { s with
      txns := { (s.putTxn r none).txns with waiting := s.txns.waiting.filter fun q => q != r }
      store := s.store.dropTxn d
      egress := s.egress.set t.origin { s.egress.get t.origin with
        slot := s.called t.origin (some ⟨.noRoute, t.station⟩) } } := by
  obtain ⟨w, hw⟩ : ∃ w, w = { t with state := .pending, egress := t.egress &&& s.downstream } := ⟨_, rfl⟩
  have now : (s.putTxn r (some w)).txn r = some w := (s.txn_putTxn r r _).trans (if_pos rfl)
  have cancels := State.cancelWaiting_told now (by rw [hw]; exact none_out) (by rw [hw]; exact unfixed)
    (o := .noRoute) (c := .noRoute) rfl
  have dropped : (s.putTxn r (some w)).dropRequest w = { s.putTxn r (some w) with store := s.store.dropTxn d } := by
    have request' : w.reqDesc = some d := by rw [hw]; exact request
    simp only [State.dropRequest, request']
    rfl
  have freed : State.recordFreed { s.putTxn r (some w) with store := s.store.dropTxn d } r
      = State.recordFreed { s with store := s.store.dropTxn d } r :=
    State.recordFreed_putTxn { s with store := s.store.dropTxn d } r _
  have parts : w.superseded = false ∧ w.origin = t.origin ∧ w.station = t.station := by
    rw [hw]
    exact ⟨wanted, rfl, rfl⟩
  obtain ⟨wanted', origin, station⟩ := parts
  rw [dropped, freed, wanted', origin, station, State.told_empty (by exact empty)] at cancels
  unfold State.becomePending
  rw [used]
  dsimp only
  rw [← hw, if_pos left, cancels]
  rfl

/-- A bulk copy set back leaves the slot (R112). -/
theorem State.setBackBulk_slot (s : State) (g : Seg) : ∃ e, s.setBackBulk g = { s with egress := e }
    ∧ (e.get g).slot = (s.egress.get g).slot := by
  unfold State.setBackBulk
  dsimp only
  split
  · split
    · exact ⟨_, rfl, by rw [PerSeg.get_set, if_pos rfl]⟩
    · exact ⟨_, rfl, rfl⟩
  · exact ⟨_, rfl, rfl⟩

/-! ### The idle gap (R83, R87) -/

/-- s with its frame ended at the idle gap and the frame's descriptor Ready. -/
def State.endedIntact (s : State) (g : Seg) (since : Nat) (d : Fin Config.numDescs) (x : Desc) (k : Counters) : State :=
  { s.gapTaken g since with
    receivers := s.receivers.set g .hunt, counters := k
    store := s.store.putDesc d (some { x with state := .ready }) }

/-- An intact frame is handed on with its descriptor Ready (R86, R87). -/
theorem State.Silent.ended {since : Nat} (silent : s.Silent g since) {a : Byte} {n : Nat} {x : Desc}
    {q : Option (Fin Config.numTxns)} (frame : s.receivers.get g = .store ⟨some cls, a, some d, q, n, none⟩)
    (stored : s.store.desc d = some x) (good : x.error = false) : ∃ k, s.counters.RaisedTo k g [.framesReceived]
      ∧ (∀ r, q = some r → cls = .request ∨ cls = .broadcast ∨ cls = .management →
        exec (.idleGapExpiry g) s = .next ((s.endedIntact g since d x k).enterService g cls r d))
      ∧ (cls = .unsolicited →
        exec (.idleGapExpiry g) s = .next ((s.endedIntact g since d x k).forwardUnsolicited d)) := by
  obtain ⟨k, counted, taken⟩ := silent.handedOn frame stored good
  have readied : State.mapStore { s.gapTaken g since with receivers := s.receivers.set g .hunt, counters := k }
      (fun st => st.modify d fun x => { x with state := .ready }) = s.endedIntact g since d x k := by
    unfold State.endedIntact State.mapStore
    rw [← Store.modify_used stored fun x => { x with state := .ready }]
    rfl
  refine ⟨k, counted, fun r own classes => ?_, fun unsolicited => ?_⟩
  · rw [taken, State.handOn, readied, own]
    rcases classes with rfl | rfl | rfl <;> rfl
  · rw [taken, State.handOn, readied, unsolicited]

end

end Sys2Proof.Machine
end

