-- ==== Sys2Proof/Proofs/UnsolicitedForward.lean ====
section
/-!
An Unsolicited frame that ends intact (R88, R98, R100, R110): which bulk lanes it joins.
-/

namespace Sys2Proof.Machine

/-- A descriptor written as it stands. -/
theorem Store.putDesc_same {st : Store} {d : Fin Config.numDescs} {x : Desc} (stored : st.desc d = some x) :
    st.putDesc d (some x) = st := by
  unfold Store.putDesc
  rw [← stored]
  simp [Store.desc]

/-- A frame offered to the bulk lane of one Upstream segment (R88, R110). -/
def State.offerBulk (d : Fin Config.numDescs) (s : State) (u : Seg) : State :=
  if (s.active u).role = .upstream then
    if (s.egress.get u).bulkLane.length < Config.bulkLaneCap then
      (s.setEgress u { s.egress.get u with bulkLane := (s.egress.get u).bulkLane ++ [d] }).mapStore fun st =>
        st.modify d fun x => { x with pendingEgress := x.pendingEgress.insert u }
    else s.count u .noBuffer
  else s

/-- A frame is offered to the segments in turn, and is released where none takes it (R88, R100). -/
theorem State.forwardUnsolicited_eq (s : State) (d : Fin Config.numDescs) : s.forwardUnsolicited d
    = (Seg.all.foldl (State.offerBulk d) s).mapStore fun st => st.releaseIfDone d := rfl

/-- Whether h is an Upstream segment whose bulk lane has room. -/
def State.takesBulk (s : State) (h : Seg) : Bool :=
  decide ((s.active h).role = .upstream ∧ (s.egress.get h).bulkLane.length < Config.bulkLaneCap)

/-- What the offers of descriptor y to the segments of l leave: the lanes e, the counters k, and the segments m that the frame
still has to leave by. -/
structure State.OfferedTo (s : State) (d : Fin Config.numDescs) (y : Desc) (l : List Seg) (e : PerSeg Egress)
    (k : Counters) (m : SegSet) : Prop where
  lanes : ∀ h, e.get h = if h ∈ l ∧ s.takesBulk h = true
    then { s.egress.get h with bulkLane := (s.egress.get h).bulkLane ++ [d] } else s.egress.get h
  pending : ∀ h, m.has h = (y.pendingEgress.has h || decide (h ∈ l ∧ s.takesBulk h = true))
  counted : ∀ h i, k.read h i = if i = 6 ∧ h ∈ l ∧ (s.active h).role = .upstream ∧ s.takesBulk h = false
    then saturatingSucc (s.counters.read h i) else s.counters.read h i
  global : k.noticesLost = s.counters.noticesLost ∧ k.sweepsSkipped = s.counters.sweepsSkipped

/-- One offer. -/
theorem State.offerBulk_eq {s : State} {d : Fin Config.numDescs} {y : Desc} (stored : s.store.desc d = some y) (u : Seg) :
    ∃ e k m, State.offerBulk d s u = { s with
        egress := e, counters := k, store := s.store.putDesc d (some { y with pendingEgress := m }) }
      ∧ s.OfferedTo d y [u] e k m := by
  have same := (Store.putDesc_same stored).symm
  unfold State.offerBulk
  split
  next up =>
    split
    next room =>
      have takes : s.takesBulk u = true := decide_eq_true ⟨up, room⟩
      refine ⟨s.egress.set u { s.egress.get u with bulkLane := (s.egress.get u).bulkLane ++ [d] }, s.counters,
        y.pendingEgress.insert u, ?_, fun h => ?_, fun h => ?_, fun h i => ?_, rfl, rfl⟩
      · rw [← Store.modify_used stored fun x => { x with pendingEgress := x.pendingEgress.insert u }]
        rfl
      · rw [PerSeg.get_set]
        by_cases at_ : h = u
        · simp [at_, takes]
        · simp [at_]
      · by_cases at_ : h = u
        · simp [at_, takes]
        · simp [at_]
      · by_cases at_ : h = u
        · simp [at_, takes]
        · simp [at_]
    next full =>
      have full' : s.takesBulk u = false := decide_eq_false fun h => full h.2
      refine ⟨s.egress, s.counters.write u 6 (saturatingSucc (s.counters.read u 6)), y.pendingEgress, ?_, fun h => ?_, fun h => ?_, fun h i => ?_, rfl, rfl⟩
      · rw [← same]
        rfl
      · by_cases at_ : h = u <;> simp [at_, full']
      · by_cases at_ : h = u <;> simp [at_, full']
      · rw [Counters.read_write]
        by_cases at_ : h = u
        · subst at_
          by_cases six : i = 6 <;> simp [six, up, full']
        · simp [at_]
  next off =>
    have none_ : s.takesBulk u = false := decide_eq_false fun h => off h.1
    refine ⟨s.egress, s.counters, y.pendingEgress, by rw [← same], fun h => ?_, fun h => ?_, fun h i => ?_, rfl, rfl⟩
    · by_cases at_ : h = u <;> simp [at_, none_]
    · by_cases at_ : h = u <;> simp [at_, none_]
    · by_cases at_ : h = u
      · subst at_
        simp [off]
      · simp [at_]

/-- The offers to several segments. -/
theorem State.offerBulk_fold {d : Fin Config.numDescs} (l : List Seg) (apart : l.Nodup) {s : State} {y : Desc}
    (stored : s.store.desc d = some y) : ∃ e k m, l.foldl (State.offerBulk d) s = { s with
        egress := e, counters := k, store := s.store.putDesc d (some { y with pendingEgress := m }) }
      ∧ s.OfferedTo d y l e k m := by
  induction l generalizing s y with
  | nil =>
    refine ⟨s.egress, s.counters, y.pendingEgress, ?_, fun h => by simp, fun h => by simp, fun h i => by simp, rfl, rfl⟩
    rw [Store.putDesc_same stored]
    rfl
  | cons u l ih =>
    obtain ⟨new, apart⟩ := List.nodup_cons.1 apart
    obtain ⟨e, k, m, offered, first⟩ := State.offerBulk_eq stored u
    obtain ⟨v, hv⟩ : ∃ v : State, v = { s with
      egress := e, counters := k, store := s.store.putDesc d (some { y with pendingEgress := m }) } := ⟨_, rfl⟩
    have now : v.store.desc d = some { y with pendingEgress := m } := by
      rw [hv]
      exact (s.store.desc_putDesc d d _).trans (if_pos rfl)
    obtain ⟨e', k', m', rest, later⟩ := ih apart now
    have roles : ∀ h, v.active h = s.active h := fun h => by rw [hv]; rfl
    have lane : ∀ h, h ≠ u → v.egress.get h = s.egress.get h := fun h away => by
      rw [hv]
      exact (first.lanes h).trans (if_neg fun both => away (List.mem_singleton.1 both.1))
    have takes : ∀ h, h ≠ u → v.takesBulk h = s.takesBulk h := fun h away => by
      simp only [State.takesBulk, roles, lane h away]
    refine ⟨e', k', m', ?_, fun h => ?_, fun h => ?_, fun h i => ?_, ?_⟩
    · rw [List.foldl_cons, offered, ← hv, rest, hv, Store.putDesc_putDesc]
    · rw [later.lanes]
      by_cases at_ : h = u
      · subst at_
        rw [if_neg fun both => new both.1, hv]
        simpa using first.lanes h
      · simp [at_, takes h at_, lane h at_]
    · rw [later.pending]
      by_cases at_ : h = u
      · subst at_
        simp [new, first.pending]
      · simp [at_, takes h at_, first.pending]
    · rw [later.counted]
      by_cases at_ : h = u
      · subst at_
        rw [if_neg fun all => new all.2.1, hv]
        simpa using first.counted h i
      · have before : v.counters.read h i = s.counters.read h i := by
          rw [hv]
          exact (first.counted h i).trans (if_neg fun all => at_ (List.mem_singleton.1 all.2.1))
        simp [at_, takes h at_, roles, before]
    · have carried : v.counters = k := by rw [hv]
      exact ⟨later.global.1.trans (by rw [carried, first.global.1]), later.global.2.trans (by rw [carried, first.global.2])⟩

end Sys2Proof.Machine
end

