-- ==== Sys2Proof/Proofs/IntactRequest.lean ====
section
/-!
The idle gap ends a frame from a master, or an Unsolicited one, without error (R27, R28, R45, R49, R88, R112).
-/

namespace Sys2Proof.Machine

section
variable {s u : State} {g : Seg} {since : Nat} {d : Fin Config.numDescs} {x : Desc} {k : Counters}

/-- The live transaction that goes is live until then. -/
theorem State.LiveGone.live {l : Option (Fin Config.numTxns)} {after : Option Txn} {lost : Nat}
    {e : Option (Fin Config.numDescs)} (gone : s.LiveGone g l after lost e) {r : Fin Config.numTxns} (own : l = some r) :
    ∃ t, s.txn r = some t ∧ t.live = true := by
  rcases gone with ⟨_, none_, _⟩ | ⟨q, _, live, _, same, _⟩
  · rw [none_] at own
    cases own
  · rw [same, Option.some.injEq] at own
    subst own
    obtain ⟨t, used, alive, _⟩ := State.liveOf_some live
    exact ⟨t, used, alive⟩

/-- `RaisedTo` of one counter, read by place. -/
theorem Counters.RaisedTo.read_one {c k : Counters} {a : SegCounter} (raised : c.RaisedTo k g [a]) (h : Seg) (i : Fin 14) :
    k.read h i = if h = g ∧ i = a.index then saturatingSucc (c.read h i) else c.read h i := by
  by_cases at_ : h = g
  · subst at_
    obtain ⟨j, rfl⟩ := SegCounter.of_index i
    rw [raised.1]
    simp [SegCounter.index_inj]
  · rw [raised.2.1 h i at_, if_neg fun both => at_ both.1]

/-- The descriptor of a frame ended intact is Ready. -/
theorem State.endedIntact_desc (s : State) (g : Seg) (since : Nat) (d : Fin Config.numDescs) (x : Desc) (k : Counters) :
    (s.endedIntact g since d x k).store.desc d = some { x with state := .ready } :=
  (s.store.desc_putDesc d d _).trans (if_pos rfl)

/-- What a step after the frame's end may have touched besides the transactions, the lanes, the store, the counters, the
management queue and the pending own address. -/
theorem State.onlyServed_of (d : Fin Config.numDescs) (x : Desc) (k : Counters) {b : TxnEngine} {e : PerSeg Egress}
    {st : Store} {c : Counters} {m : Mgmt}
    (holders : b.holders = s.txns.holders) (stations : b.lastTimedOut = s.txns.lastTimedOut)
    (only : m.engine = s.mgmt.engine ∧ m.caches = s.mgmt.caches ∧ m.buffer = s.mgmt.buffer) :
    s.OnlyServed { s.endedIntact g since d x k with
      txns := b, egress := e, store := st, counters := c, mgmt := m } g since :=
  ⟨rfl, rfl, rfl, holders, stations, only.1, only.2.1, only.2.2, rfl, rfl, rfl, rfl, rfl, rfl, rfl, rfl, rfl⟩

/-! ### Service entered (R27, R45, R49) -/

/-- A frame that is not adopted enters service: the origin's live transaction and what waits in its scheduler go (R27, R112),
and the record stands at the tail of the list of its kind. -/
theorem State.LiveGone.entersService {l : Option (Fin Config.numTxns)} {after : Option Txn} {lost : Nat}
    {e : Option (Fin Config.numDescs)} (live : s.LiveGone g l after lost e) {gone : List ReplyCopy}
    (unstarted : gone = (s.egress.get g).replyLane.filter fun c => (s.egress.get g).startedReply != some c.desc)
    {back : Bool} (turns : back = true ↔ (s.active g).role = .upstream
      ∧ ((s.egress.get g).state = .quiet ∨ ∃ since, (s.egress.get g).state = .backoff since))
    {r : Fin Config.numTxns} {t : Txn} (used : s.txn r = some t) (forming : t.state = .forming) {f : List Byte}
    (read : s.store.values d = f) {cls : FrameClass} (fresh : ¬ (cls = .management ∧ s.adopts g f = true))
    (routed : cls = .management ∨ t.egress &&& s.downstream ≠ 0) : ∃ b eg m, s.enterService g cls r d = { s with
        txns := b, egress := eg, mgmt := m
        store := gone.foldl (fun st c => st.leave c.desc g) (e.toList.foldl Store.dropTxn s.store)
        counters := s.counters.raisedBy g 12 (lost + gone.length) }
      ∧ (∀ q, State.txn { s with txns := b } q = if q = r then some (t.entered cls f s.downstream)
          else if l = some q then after else s.txn q)
      ∧ (∀ kept, kept = (if after = none then s.txns.waiting.filter fun q => l != some q else s.txns.waiting) →
          b.waiting = if cls = .management then kept else kept ++ [r])
      ∧ b.holders = s.txns.holders ∧ b.lastTimedOut = s.txns.lastTimedOut
      ∧ m = { s.mgmt with
        queue := if cls = .management then s.mgmt.queue ++ [r] else s.mgmt.queue, pendingOwn := m.pendingOwn }
      ∧ ∀ u : State, u.egress = eg → u.mgmt.pendingOwn = m.pendingOwn → s.OriginCleared u g back := by
  have away : l ≠ some r := fun own => by
    obtain ⟨w, same, alive⟩ := live.live own
    rw [used, Option.some.injEq] at same
    subst same
    simp [Txn.live, forming] at alive
  obtain ⟨b, eg, m, abandoned, records, waiting, holders, stations, only, clear⟩ := live.originAbandoned unstarted
  obtain ⟨z, hz⟩ : ∃ z, z = s.abandonOrigin g := ⟨_, rfl⟩
  rw [← hz] at abandoned
  have down : z.downstream = s.downstream := by rw [abandoned]; rfl
  have now : z.txn r = some t := by
    rw [abandoned]
    exact (records r).trans ((if_neg away).trans used)
  have enters := State.enterService_enters (cls := cls) read fresh (by rw [← hz]; exact now) (by rw [← hz, down]; exact routed)
  rw [← hz, down] at enters
  obtain ⟨y, hy⟩ : ∃ y, y = z.admitted r cls (t.entered cls f s.downstream) := ⟨_, rfl⟩
  rw [← hy] at enters
  obtain ⟨eg', turned, cleared⟩ := State.OriginCleared.setBack (s := s) (x := y) turns (by rw [hy, abandoned]; rfl)
    (clear y (by rw [hy, abandoned]; rfl) (by rw [hy, abandoned]; rfl))
  have own : y.mgmt.pendingOwn = m.pendingOwn := by rw [hy, abandoned]; rfl
  refine ⟨y.txns, eg', y.mgmt, ?_, fun q => ?_, fun kept left => ?_, ?_, ?_, ?_, cleared⟩
  · rw [enters, turned, hy, abandoned]
    rfl
  · rw [hy]
    refine (z.txn_putTxn r q _).trans ?_
    rw [abandoned]
    exact congrArg (ite (q = r) _) (records q)
  · rw [left, ← waiting, hy, abandoned]
    rfl
  · rw [← holders, hy, abandoned]
    rfl
  · rw [← stations, hy, abandoned]
    rfl
  · rw [own, hy, abandoned, only]
    rfl

/-- A frame with no segment left to send it to closes NoRoute, its notice in the slot that its supersede has emptied (R27,
R43, R49). -/
theorem State.enterService_noRoute {r : Fin Config.numTxns} {t : Txn} {cls : FrameClass} (foreign : cls ≠ .management)
    (unlive : s.liveOf g = none) (bare : (s.egress.get g).replyLane = []) (used : s.txn r = some t)
    (left : t.egress &&& s.downstream = 0) (request : t.reqDesc = some d) (none_out : t.copies = 0)
    (unfixed : t.outcome = none) (origin : t.origin = g) (wanted : t.superseded = false) :
    ∃ b eg m, s.enterService g cls r d = { s with txns := b, egress := eg, mgmt := m, store := s.store.dropTxn d }
      ∧ (∀ q, State.txn { s with txns := b } q = if q = r then none else s.txn q)
      ∧ b.waiting = (s.txns.waiting.filter fun q => q != r) ∧ b.holders = s.txns.holders
      ∧ b.lastTimedOut = s.txns.lastTimedOut ∧ m = { s.mgmt with pendingOwn := m.pendingOwn }
      ∧ (eg.get g).slot = s.called g (some ⟨.noRoute, t.station⟩) := by
  have gone : s.LiveGone g none none 0 none := .inl ⟨unlive, rfl, rfl, rfl, rfl⟩
  obtain ⟨b, eg, m, abandoned, records, waiting, holders, stations, only, clear⟩ :=
    gone.originAbandoned (gone := []) (by rw [bare]; rfl)
  rw [List.length_nil, Nat.add_zero, Counters.raisedBy_zero] at abandoned
  obtain ⟨z, hz⟩ : ∃ z, z = s.abandonOrigin g := ⟨_, rfl⟩
  rw [← hz] at abandoned
  have lanes : z.egress = eg := by rw [abandoned]
  have emptied : (z.egress.get g).slot = none := by
    rw [(clear z lanes (by rw [abandoned])).1, PerSeg.get_set, if_pos rfl]
  have closes := State.becomePending_noRoute (s := z) (r := r) (t := t) (d := d)
    (by rw [abandoned]; exact (records r).trans used) (by rw [abandoned]; exact left) request none_out unfixed wanted
    (by rw [origin]; exact emptied)
  obtain ⟨eg', turned, slot⟩ := (z.becomePending r).setBackBulk_slot g
  rw [closes, origin, PerSeg.get_set, if_pos rfl] at slot
  have enters : s.enterService g cls r d = { z.becomePending r with egress := eg' } := by
    rw [← turned, hz]
    unfold State.enterService
    dsimp only
    rw [if_neg fun adopted => foreign adopted.1, if_neg foreign]
  rw [closes] at enters
  refine ⟨{ (z.putTxn r none).txns with waiting := z.txns.waiting.filter fun q => q != r }, eg', m, ?_, fun q => ?_, ?_,
    ?_, ?_, only, ?_⟩
  · rw [enters, abandoned]
    rfl
  · refine (z.txn_putTxn r q none).trans ?_
    rw [abandoned]
    exact congrArg (ite (q = r) _) (records q)
  · have all : b.waiting = s.txns.waiting := waiting.trans (List.filter_eq_self.2 fun _ _ => rfl)
    rw [abandoned]
    exact congrArg (List.filter _) all
  · rw [← holders, abandoned]
    rfl
  · rw [← stations, abandoned]
    rfl
  · rw [slot, abandoned]
    rfl

end

/-- Settles O12: the frame is handed on at the idle gap; it enters service, closes NoRoute, is adopted, or is offered to the
Upstream segments. -/
theorem intactRequestWaits : Obligations.IntactRequestWaits := by
  intro s g since cls a d x n silent stored good
  have gone (k : Counters) (alone : x.pendingEgress = 0) : (s.endedIntact g since d x k).store.dropTxn d
      = { s.store.putDesc d none with
        freeCells := s.store.freeCells ++ x.chain, freeDescs := s.store.freeDescs ++ [d] } := by
    refine (Store.dropTxn_released (s.endedIntact_desc g since d x k) rfl alone).trans ?_
    simp only [State.endedIntact, Store.putDesc_putDesc, Store.putDesc_fields]
  refine ⟨fun r t frame used forming => ?_, fun frame unowned alone m takes => ?_⟩
  · obtain ⟨k, counted, served, -⟩ := silent.ended frame stored good
    have served := served r rfl
    have read : (s.endedIntact g since d x k).store.values d = s.store.values d := Store.values_ready stored
    refine ⟨fun l after lost e withdrawn back live unstarted turns routed => ?_, fun classes unlive bare left request alone
      none_out unfixed origin wanted => ?_, fun local_ q w live used' kind executing long command sequence alone => ?_⟩
    · have fresh : ¬ (cls = .management ∧ s.adopts g (s.store.values d) = true) := by
        rintro ⟨rfl, repeats⟩
        obtain ⟨q, w, alive, used', same⟩ := (s.adopts_iff g _).1 repeats
        rcases routed with ⟨h | h, _⟩ | ⟨_, differs⟩
        · cases h
        · cases h
        · exact differs q w alive used' same
      have live' : (s.endedIntact g since d x k).LiveGone g l after lost e := live
      obtain ⟨b, eg, m, enters, records, waiting, holders, stations, only, cleared⟩ := live'.entersService unstarted turns
        used forming read fresh (routed.elim (fun h => .inr h.2) fun h => .inl h.1)
      have unraised : k.read g 12 = s.counters.read g 12 := counted.read_other (a := .abandoned) (by simp)
      rw [enters] at served
      refine ⟨_, k, served ?_, State.onlyServed_of d x k holders stations (by rw [only]; exact ⟨rfl, rfl, rfl⟩), ?_,
        fun q other => (records q).trans (if_neg other), waiting, by rw [only]; rfl, cleared _ rfl rfl, rfl, counted, ?_⟩
      · rcases routed with ⟨rfl | rfl, _⟩ | ⟨rfl, _⟩ <;> simp
      · refine (records r).trans ((if_pos rfl).trans ?_)
        unfold Txn.entered
        split <;> rfl
      · rw [← unraised, Nat.add_assoc]
        rfl
    · have foreign : cls ≠ .management := by
        rcases classes with rfl | rfl <;> simp
      obtain ⟨b, eg, m, enters, records, waiting, holders, stations, only, slot⟩ :=
        State.enterService_noRoute (s := s.endedIntact g since d x k) foreign unlive bare used left request none_out unfixed
          origin wanted
      rw [enters] at served
      exact ⟨_, served (classes.imp_right .inl),
        State.onlyServed_of d x k holders stations (by rw [only]; exact ⟨rfl, rfl, rfl⟩), (records r).trans (if_pos rfl),
        fun q other => (records q).trans (if_neg other), waiting, by rw [only]; rfl, gone k alone, slot, counted⟩
    · have repeats : (s.endedIntact g since d x k).adopts g ((s.endedIntact g since d x k).store.values d) = true := by
        rw [read]
        exact (s.adopts_iff g _).2 ⟨q, w, live, used', kind, executing, long, command, sequence⟩
      refine ⟨k, counted, ?_⟩
      rw [served (.inr (.inr local_)), local_, State.enterService_adopts repeats, State.mapStore]
      exact congrArg Host.Outcome.next
        (congrArg (fun st => { (s.endedIntact g since d x k).freeRecord r with store := st }) (gone k alone))
  · obtain ⟨k, counted, -, served⟩ := silent.ended frame stored good
    have served := served rfl
    obtain ⟨v, hv⟩ : ∃ v, v = s.endedIntact g since d x k := ⟨_, rfl⟩
    have now : v.store.desc d = some { x with state := .ready } := by
      rw [hv]
      exact s.endedIntact_desc g since d x k
    obtain ⟨e, c, m', offered, done⟩ := State.offerBulk_fold (d := d) Seg.all (by decide) now
    rw [← hv, State.forwardUnsolicited_eq, offered] at served
    have room : ∀ h, v.takesBulk h = m.has h := fun h => by
      rw [Bool.eq_iff_iff, takes, hv]
      exact decide_eq_true_iff
    have left : m' = m := SegSet.ext_has fun h => by
      rw [done.pending, room]
      change (x.pendingEgress.has h || _) = _
      rw [alone, SegSet.has_zero]
      simp [Seg.mem_all]
    subst left
    refine ⟨_, served, ?_, ?_, ?_, fun h => ?_, ?_, fun h i => ?_, ?_⟩
    · subst hv
      exact State.onlyServed_of d x k rfl rfl ⟨rfl, rfl, rfl⟩
    · rw [hv]; rfl
    · rw [hv]; rfl
    · refine (done.lanes h).trans ?_
      rw [room, hv]
      simp only [Seg.mem_all, true_and]
      rfl
    · refine (Store.releaseIfDone_putDesc (y := { x with state := .ready, pendingEgress := m' }) now rfl).trans ?_
      simp only [unowned, true_and, and_true]
      rw [hv]
      simp only [State.endedIntact, Store.putDesc_putDesc]
      split
      · rw [Store.without_putDesc (y := { x with state := .ready }) stored rfl]
        simp only [Store.without, stored]
      · rfl
    · refine (done.counted h i).trans ?_
      have before : v.counters.read h i = k.read h i := by rw [hv]; rfl
      have roles : v.active h = s.active h := by rw [hv]; rfl
      rw [room, roles, before, counted.read_one]
      simp only [Seg.mem_all, true_and]
      by_cases six : i = 6
      · simp [six, SegCounter.index]
      · simp [six]
        rfl
    · obtain ⟨_, _, notices, sweeps⟩ := counted
      obtain ⟨notices', sweeps'⟩ := done.global
      rw [hv] at notices' sweeps'
      exact ⟨notices'.trans notices, sweeps'.trans sweeps⟩

end Sys2Proof.Machine
end

