-- ==== Sys2Proof/Proofs/ReceiverEdges.lean ====
section
/-!
A receiver between characters: FALLING_EDGE, RECOVER_END and FALSE_START (R56, R57, R61).
-/

namespace Sys2Proof.Machine

section
variable {s : State} {g : Seg}

/-- A falling edge in READY begins a character, at any moment (R57). -/
theorem exec_fallingEdge (free : s.held = false) {since : Nat} {high taken : Bool}
    (ready : (s.lines.get g).rx = .ready since high taken) :
    exec (.fallingEdge g) s = .next (s.setRx g (.assemble s.time false)) := by
  have due : s.fallingEdgeDue g = some s.time := by simp only [State.fallingEdgeDue, ready]
  change s.takeEvent (s.fallingEdgeDue g) (fun s => s.setRx g (.assemble s.time false)) = _
  rw [due, State.takeEvent_due free, State.advance_time]

/-- RECOVER ends once RXD can have read high for one bit time (R56). -/
theorem exec_recoverEnd (free : s.held = false) {since : Nat} (recovers : (s.lines.get g).rx = .recover since) :
    exec (.recoverEnd g) s = .next (State.setRx (s.advance (since + (s.active g).bitTime)) g
      (.ready (s.advance (since + (s.active g).bitTime)).time true false)) := by
  have due : s.recoverDue g = some (since + (s.active g).bitTime) := by simp only [State.recoverDue, recovers]
  change s.takeEvent (s.recoverDue g) (fun s => s.setRx g (.ready s.time true false)) = _
  rw [due, State.takeEvent_due free]

/-- A start bit not yet taken as valid may prove false at its middle (R57). -/
theorem exec_falseStart (free : s.held = false) {edge : Nat} (starts : (s.lines.get g).rx = .assemble edge false) :
    exec (.falseStart g) s = .next ((s.advance (edge + (s.active g).middleOf 1)).falseStart g) := by
  have due : s.falseStartDue g = some (edge + (s.active g).middleOf 1) := by simp only [State.falseStartDue, starts]
  change s.takeEvent (s.falseStartDue g) (fun s => s.falseStart g) = _
  rw [due, State.takeEvent_due free]

end

/-- Settles O5: in each of the three rows the receiver is in the state the row is due in, and the effect is one write. -/
theorem receiverEdges : Obligations.ReceiverEdges :=
  fun _ _ free => ⟨fun _ _ _ ready => exec_fallingEdge free ready, fun _ recovers => exec_recoverEnd free recovers,
    fun _ starts => exec_falseStart free starts⟩

end Sys2Proof.Machine
end

