-- ==== Sys2Proof/Proofs/CharacterCoding.lean ====
section
/-!
A character on the line and its reading (R53, R58 to R60).
-/

namespace Sys2Proof.Machine

/-! ### Levels (R53) -/

/-- The start bit, the data bits, the mark bit and the parity bit where there is one; then the stop bits, all high. -/
theorem charLevels_eq (r : SegRecord) (c : Ch) : charLevels r c
    = (false :: ((List.range 8).map c.value.getLsbD ++ c.mark :: (parityBit r.parity c).toList))
      ++ List.replicate (r.charBits + 1 - r.firstStop) true := by
  unfold charLevels SegRecord.charBits
  cases r.stopBits <;> simp [Nat.add_assoc]

/-- How many bits stand before the first stop bit. -/
theorem charLevels_head_length (r : SegRecord) (c : Ch) :
    (false :: ((List.range 8).map c.value.getLsbD ++ c.mark :: (parityBit r.parity c).toList)).length + 1 = r.firstStop := by
  unfold SegRecord.firstStop parityBit
  cases r.parity <;> rfl

/-- There are at least 11 positions through the first stop bit, which is not beyond the last. -/
theorem SegRecord.firstStop_le (r : SegRecord) : 11 ≤ r.firstStop ∧ r.firstStop ≤ r.charBits ∧ r.charBits ≤ 13 := by
  unfold SegRecord.charBits SegRecord.firstStop
  cases r.parity <;> cases r.stopBits <;> simp

/-! ### Parity (R53) -/

/-- One bit more. -/
theorem oddOnes_succ (w : BitVec 13) (n : Nat) : oddOnes w (n + 1) = (oddOnes w n ^^ w.getLsbD n) := by
  simp [oddOnes, List.range_succ]

/-- The parity of n bits depends on those bits alone. -/
theorem oddOnes_congr {v w : BitVec 13} {n : Nat} (same : ∀ i, i < n → v.getLsbD i = w.getLsbD i) :
    oddOnes v n = oddOnes w n := by
  induction n with
  | zero => rfl
  | succ n ih => rw [oddOnes_succ, oddOnes_succ, ih fun i below => same i (by omega), same n (by omega)]

/-! ### Samples that agree (R58) -/

/-- Samples that agree are their majority, and no position is noisy. -/
theorem Samples.agreeing (w : BitVec 13) :
    (⟨w, w, w⟩ : Samples).majority = w ∧ (∀ k, (⟨w, w, w⟩ : Samples).bit k = w.getLsbD (k - 1))
      ∧ sampleNoise ⟨w, w, w⟩ = 0 := by
  have majority : (⟨w, w, w⟩ : Samples).majority = w := by simp [Samples.majority]
  exact ⟨majority, fun k => by rw [Samples.bit, majority], by simp [sampleNoise]⟩

/-- w holds the levels of character c in r's format, bit position 1 in bit 0. -/
def SegRecord.Spells (r : SegRecord) (w : BitVec 13) (c : Ch) : Prop :=
  ∀ k, k < r.charBits → w.getLsbD k = (charLevels r c).getD k true

section
variable {r : SegRecord} {w : BitVec 13} {c : Ch}

/-- The bits before the first stop bit, as spelt. -/
theorem SegRecord.Spells.bit (spells : r.Spells w c) {k : Nat} (before : k + 1 < r.firstStop) : w.getLsbD k
    = (false :: ((List.range 8).map c.value.getLsbD ++ c.mark :: (parityBit r.parity c).toList)).getD k true := by
  have count := charLevels_head_length r c
  rw [spells k (by have := r.firstStop_le; omega), charLevels_eq, List.getD_append _ _ _ _ (by omega)]

/-- The stop bits are high. -/
theorem SegRecord.Spells.stop (spells : r.Spells w c) {k : Nat} (first : r.firstStop ≤ k) (last : k ≤ r.charBits) :
    w.getLsbD (k - 1) = true := by
  have count := charLevels_head_length r c
  rw [spells (k - 1) (by omega), charLevels_eq, List.getD_append_right _ _ _ _ (by omega)]
  rw [List.getD_eq_getElem?_getD, List.getElem?_replicate]
  split <;> rfl

/-- The data bits and the mark bit. -/
theorem SegRecord.Spells.data (spells : r.Spells w c) :
    (∀ i, i < 8 → w.getLsbD (1 + i) = c.value.getLsbD i) ∧ w.getLsbD 9 = c.mark := by
  obtain ⟨low, _, _⟩ := r.firstStop_le
  refine ⟨fun i below => ?_, spells.bit (by omega)⟩
  rw [spells.bit (by omega), Nat.add_comm, List.getD_cons_succ, List.getD_append _ _ _ _ (by simpa using below)]
  simp [below]

/-- The nine bits the parity bit is over are the data bits and the mark bit. -/
theorem SegRecord.Spells.ones (spells : r.Spells w c) :
    oddOnes (w >>> 1) 9 = oddOnes (c.value.setWidth 13 ||| if c.mark then 0x100 else 0) 9 := by
  obtain ⟨data, mark⟩ := spells.data
  refine oddOnes_congr fun i below => ?_
  rw [BitVec.getLsbD_ushiftRight, BitVec.getLsbD_or, BitVec.getLsbD_setWidth]
  by_cases eight : i = 8
  · subst eight
    rw [mark]
    cases c.mark <;> simp
  · have high : ∀ i, i < 8 → ∀ m : Bool, (if m then (0x100 : BitVec 13) else 0).getLsbD i = false := by decide
    rw [data i (by omega), high i (by omega) c.mark]
    simp
    omega

/-- The parity check does not fail (R59). -/
theorem SegRecord.Spells.parity (spells : r.Spells w c) : parityFails r ⟨w, w, w⟩ = false := by
  have summed : ∀ p, r.parity ≠ .none → parityBit r.parity c = some p → oddOnes (w >>> 1) 10
      = (oddOnes (c.value.setWidth 13 ||| if c.mark then 0x100 else 0) 9 ^^ p) := by
    intro p present bit
    have last : r.firstStop = 12 := by
      unfold SegRecord.firstStop
      cases h : r.parity <;> simp_all
    rw [oddOnes_succ, spells.ones, BitVec.getLsbD_ushiftRight, spells.bit (by omega), bit]
    rfl
  obtain ⟨majority, _, _⟩ := Samples.agreeing w
  unfold parityFails
  rw [majority]
  cases kind : r.parity with
  | none => rfl
  | even => simp [summed _ (by simp [kind]) (by rw [kind]; rfl)]
  | odd => simp [summed _ (by simp [kind]) (by rw [kind]; rfl)]

/-- Every stop bit reads high (R59). -/
theorem SegRecord.Spells.framing (spells : r.Spells w c) : framingFails r ⟨w, w, w⟩ = false := by
  obtain ⟨_, stop, _⟩ := Samples.agreeing w
  obtain ⟨_, inside, _⟩ := r.firstStop_le
  unfold framingFails
  cases kind : r.stopBits with
  | one => simp [stop, spells.stop (le_refl _) inside]
  | two =>
    have last : r.charBits = r.firstStop + 1 := by simp [SegRecord.charBits, kind]
    have second := spells.stop (k := r.firstStop + 1) (by omega) (by omega)
    rw [Nat.add_sub_cancel] at second
    simp [stop, spells.stop (le_refl _) inside, second]

/-- A character spelt is read with its value and its mark, and no error (R53, R58, R59). -/
theorem SegRecord.Spells.verdict (spells : r.Spells w c) :
    verdict r ⟨w, w, w⟩ = .char ⟨c.value, c.mark, false, false, false⟩ := by
  obtain ⟨majority, bit, quiet⟩ := Samples.agreeing w
  obtain ⟨data, mark⟩ := spells.data
  obtain ⟨low, inside, _⟩ := r.firstStop_le
  have start : w.getLsbD 0 = false := spells.bit (by omega)
  have stops : w.extractLsb' 0 r.firstStop ≠ 0 := fun zero => by
    have high := congrArg (fun v => v.getLsbD (r.firstStop - 1)) zero
    simp [spells.stop (le_refl _) inside, show r.firstStop - 1 < r.firstStop by omega] at high
  have value : w.extractLsb' 1 8 = c.value := by
    refine BitVec.eq_of_getLsbD_eq fun i below => ?_
    rw [BitVec.getLsbD_extractLsb', data i below]
    simp [below]
  have clean : noisy r ⟨w, w, w⟩ = false := by simp [noisy, quiet]
  unfold Machine.verdict
  rw [bit, if_neg (ne_true_of_eq_false start), majority, if_neg stops, value, bit, mark, spells.parity, spells.framing, clean]

end

/-- Positions low through the first stop bit are a break (R60). -/
theorem verdict_brk {r : SegRecord} {w : BitVec 13} (low : ∀ k, k < r.firstStop → w.getLsbD k = false) :
    verdict r ⟨w, w, w⟩ = .brk := by
  obtain ⟨majority, bit, _⟩ := Samples.agreeing w
  obtain ⟨positions, _, _⟩ := r.firstStop_le
  have empty : w.extractLsb' 0 r.firstStop = 0 := by
    refine BitVec.eq_of_getLsbD_eq fun i below => ?_
    rw [BitVec.getLsbD_extractLsb', Nat.zero_add, low i below]
    simp
  unfold verdict
  rw [bit, if_neg (ne_true_of_eq_false (low 0 (by omega))), majority, if_pos empty]

/-- Settles O6: the levels of a character determine its reading, bit by bit. -/
theorem charactersReadBack : Obligations.CharactersReadBack :=
  fun r _ => ⟨fun _ spells => SegRecord.Spells.verdict spells, verdict_brk, fun c => by
    rw [charLevels_eq, List.length_append, List.length_replicate]
    have := charLevels_head_length r c
    have := r.firstStop_le
    omega⟩

end Sys2Proof.Machine
end

