-- ==== Sys2Proof/Proofs/FramesCut.lean ====
section
/-!
A frame in assembly that does not end intact, at the idle gap, at the next address character and at a break (R83 to R86);
and a break with no frame in assembly (R48, R60).
-/

namespace Sys2Proof.Machine

section
variable {s u : State} {g : Seg}

/-! ### Notices and counters -/

/-- A segment counter raised before or after a notice is placed. -/
theorem State.told_count (s : State) (g h : Seg) (n : Option Notice) (a : SegCounter) :
    (s.told g n).count h a = (s.count h a).told g n := by
  cases n with
  | none => rfl
  | some x =>
    unfold State.told
    dsimp only [State.count]
    cases (s.egress.get g).slot.isSome <;> rfl

/-- Raising a counter that is not among those raised. -/
theorem Counters.RaisedTo.after {c k : Counters} {l : List SegCounter} (raised : c.RaisedTo k g l) {a : SegCounter}
    (new : a ∉ l) : (c.write g a.index (saturatingSucc (c.read g a.index))).RaisedTo
      (k.write g a.index (saturatingSucc (k.read g a.index))) g l := by
  have same := raised.read_other new
  obtain ⟨own, others, notices, sweeps⟩ := raised
  refine ⟨fun i => ?_, fun h i away => ?_, notices, sweeps⟩
  · rw [Counters.read_write, Counters.read_write, same]
    by_cases at_ : i = a
    · simp [at_, new]
    · simp [at_, own, SegCounter.index_inj]
  · rw [Counters.read_write, Counters.read_write, if_neg fun both => away both.1, if_neg fun both => away both.1]
    exact others h i away

/-! ### The end of a frame and what is beside it -/

/-- A counter the end of a frame does not raise may be raised before or after it. -/
theorem State.FrameEnds.count {cut : Bool} (ends : s.FrameEnds u g cut) {a : SegCounter}
    (apart : a ∉ [.framesReceived, .damaged, .noBuffer]) : (s.count g a).FrameEnds (u.count g a) g cut := by
  obtain ⟨f, raised, o, c, k, rows, counted, follows⟩ := ends
  have new : a ∉ SegCounter.framesReceived :: raised := by
    rcases rows with ⟨rfl, _⟩ | ⟨rfl, _⟩ | ⟨rfl, _⟩ <;> simp_all
  refine ⟨f, raised, o, c, _, rows, counted.after new, ?_⟩
  rintro _ _ rfl rfl
  rcases follows _ _ rfl rfl with ⟨r, bears, held, rfl⟩ | ⟨bare, rfl⟩ | ⟨r, t, response, held, quiet, used, unfixed, rfl⟩
  · exact .inl ⟨r, bears, held, State.told_count ..⟩
  · exact .inr (.inl ⟨bare, State.told_count ..⟩)
  · refine .inr (.inr ⟨r, t, response, held, quiet, used, unfixed, ?_⟩)
    unfold State.closed
    rw [State.told_count]
    split <;> rfl

/-- The error counts of a character may be raised before or after the frame it ends. -/
theorem State.FrameEnds.countErrors {cut : Bool} (ends : s.FrameEnds u g cut) (c : RxChar) :
    (s.countErrors g c).FrameEnds (u.countErrors g c) g cut := by
  have raise : ∀ {s u : State} (b : Bool) {a : SegCounter}, s.FrameEnds u g cut →
      a ∉ [.framesReceived, .damaged, .noBuffer] → (s.countIf b g a).FrameEnds (u.countIf b g a) g cut := by
    intro s u b a ends apart
    cases b
    · exact ends
    · exact ends.count apart
  exact raise _ (raise _ ends (by decide)) (by decide)

/-- The end of a frame leaves the pins. -/
theorem State.FrameEnds.held {cut : Bool} (ends : s.FrameEnds u g cut) : u.held = s.held := by
  have whole : ∃ cause, s.endFrame g cause = u := by
    cases cut
    · exact ⟨.idleGap, ends.endFrame (by simp)⟩
    · exact ⟨.aborted, ends.endFrame (by simp)⟩
  obtain ⟨cause, rfl⟩ := whole
  obtain ⟨f, x, e, k, st, m, t, v, only⟩ := s.endFrame_only g cause
  rw [only]
  rfl

/-- The end of a frame leaves the frame receiver in HUNT. -/
theorem State.FrameEnds.hunts {cut : Bool} (ends : s.FrameEnds u g cut) : u.receivers.get g = .hunt := by
  obtain ⟨_, _, _, hunts⟩ := ends.keeps
  exact hunts

/-- The frame that ends was in assembly. -/
theorem State.FrameEnds.inFrame {cut : Bool} (ends : s.FrameEnds u g cut) :
    (∃ f, s.receivers.get g = .store f) ∨ ∃ why f, s.receivers.get g = .skip why f := by
  obtain ⟨f, raised, o, c, k, rows, _⟩ := ends
  rcases rows with ⟨_, _, _, ⟨_, stored | ⟨why, skipped⟩⟩ | ⟨_, skipped | ⟨stored, _⟩⟩⟩ | ⟨_, _, _, _, skipped⟩
    | ⟨_, _, _, _, _, why, skipped, _⟩
  · exact .inl ⟨f, stored⟩
  · exact .inr ⟨why, f, skipped⟩
  · exact .inr ⟨_, f, skipped⟩
  · exact .inl ⟨f, stored⟩
  · exact .inr ⟨_, f, skipped⟩
  · exact .inr ⟨why, f, skipped⟩

/-! ### The idle gap (R61, R62, R83) -/

/-- An idle-gap expiry is taken once in a quiet period (R61). -/
theorem exec_idleGapExpiry_expired {since : Nat} {high : Bool} (ready : (s.lines.get g).rx = .ready since high true) :
    exec (.idleGapExpiry g) s = .next s := by
  have due : s.idleGapDue g = none := by simp only [State.idleGapDue, ready]
  change s.takeEvent (s.idleGapDue g) (fun s => s.idleGap g) = _
  rw [due, State.takeEvent_none]

/-- An idle-gap expiry is taken, and delivered with DE deasserted (R61, R62). -/
theorem exec_idleGapExpiry (free : s.held = false) {since : Nat} (ready : (s.lines.get g).rx = .ready since true false) :
    exec (.idleGapExpiry g) s = .next (if (s.lines.get g).de = true then s.gapTaken g since
      else (s.gapTaken g since).endFrame g .idleGap) := by
  have due : s.idleGapDue g = some (since + (s.active g).idleGap.toNat * (s.active g).charTime) := by
    simp only [State.idleGapDue, ready]
  have line : ∀ now gap, ((s.lines.get g).quietFor now gap).expire = { s.lines.get g with rx := .ready since true true } := by
    intro now gap
    simp only [LineUnit.quietFor, ready, LineUnit.expire]
  change s.takeEvent (s.idleGapDue g) (fun s => s.idleGap g) = _
  rw [due, State.takeEvent_due free]
  unfold State.idleGap
  dsimp only [State.advance]
  rw [line]
  rfl

/-- At the idle gap a frame that does not end intact ends as `FrameEnds` says (R83, R86). -/
theorem State.FrameEnds.atGap (ends : s.FrameEnds u g false) {since : Nat} (silent : s.Silent g since) :
    exec (.idleGapExpiry g) s = .next (u.gapTaken g since) := by
  obtain ⟨free, ready, de⟩ := silent
  obtain ⟨lines, time, settings, _⟩ := ends.keeps
  have moved := (ends.moved (s.gapTaken g since).lines (s.gapTaken g since).time).endFrame (cause := .idleGap) (by simp)
  have there : ({ u with lines := (s.gapTaken g since).lines, time := (s.gapTaken g since).time } : State)
      = u.gapTaken g since := by
    simp only [State.gapTaken, State.active, lines, time, settings]
  rw [exec_idleGapExpiry free ready, de, if_neg Bool.false_ne_true, ← there, ← moved]
  rfl

/-- An address character ends a frame that is not intact as `FrameEnds` says, and is then taken in HUNT (R84). -/
theorem State.FrameEnds.atAddress (ends : s.FrameEnds u g false) {edge : Nat} {taken : Bool} {x : Samples} {c : RxChar}
    (hears : s.Hears g edge taken x c) (mark : c.mark = true) (de : (s.lines.get g).de = false) :
    exec (.characterComplete g x) s = exec (.characterComplete g x) u := by
  obtain ⟨lines, time, settings, hunts⟩ := ends.keeps
  have hears' : u.Hears g edge taken x c := by
    unfold State.Hears State.active
    rw [ends.held, lines, settings]
    exact hears
  have there : ({ u with lines := (s.heard g edge x).lines, time := (s.heard g edge x).time } : State)
      = u.heard g edge x := by
    simp only [State.heard, State.active, lines, time, settings]
  have moved : (s.heard g edge x).FrameEnds (u.heard g edge x) g false :=
    there ▸ ends.moved (s.heard g edge x).lines (s.heard g edge x).time
  have cut := (moved.countErrors c).endFrame (cause := .nextAddress) (by simp)
  have before : (s.heard g edge x).receiveChar g c
      = (((s.heard g edge x).countErrors g c).endFrame g .nextAddress).beginFrame g c := by
    have same : (s.heard g edge x).receivers.get g = s.receivers.get g := rfl
    unfold State.receiveChar
    rcases ends.inFrame with ⟨f, stored⟩ | ⟨why, f, skipped⟩
    · rw [same, stored]
      exact if_pos mark
    · rw [same, skipped]
      exact if_pos mark
  have after : (u.heard g edge x).receiveChar g c = ((u.heard g edge x).countErrors g c).beginFrame g c := by
    have same : (u.heard g edge x).receivers.get g = u.receivers.get g := rfl
    unfold State.receiveChar
    rw [same, hunts]
    exact if_pos mark
  rw [hears.delivered, hears'.delivered, lines, de, if_neg Bool.false_ne_true, if_neg Bool.false_ne_true, before, cut, after]

end

/-- Settles O8: what a frame that is not intact leaves is the same whatever ends it, and whatever is heard beside it. -/
theorem idleGapEndsTheFrame : Obligations.IdleGapEndsTheFrame := by
  refine ⟨fun s g since high ready => exec_idleGapExpiry_expired ready, fun s g since free ready => ⟨?_, ?_⟩,
    fun s u g ends => ⟨fun since silent => ends.atGap silent, fun edge taken x c hears mark de =>
      ⟨ends.hunts, ends.atAddress hears mark de⟩⟩, State.notify_told⟩
  · intro nothing
    rw [exec_idleGapExpiry free ready]
    split
    · rfl
    next de =>
      have hunts : (s.gapTaken g since).receivers.get g = .hunt := nothing.resolve_left de
      unfold State.endFrame
      rw [hunts]
  · intro a de blocked
    have ends : s.FrameEnds { s with
        receivers := s.receivers.set g .hunt
        counters := s.counters.write g 0 (saturatingSucc (s.counters.read g 0)) } g false := by
      refine ⟨_, [], .noBuffer, .busy, _, .inr (.inr ⟨rfl, rfl, rfl, rfl, rfl, .blocked, blocked, by decide, by decide,
        .inl rfl⟩), (s.counters.raisedTo_nil g).more (a := .framesReceived) (by simp), ?_⟩
      rintro _ _ rfl rfl
      refine .inr (.inl ⟨rfl, ?_⟩)
      simp only [Option.map_none, State.called, ite_self, Bool.false_eq_true]
      rfl
    exact ends.atGap ⟨free, ready, de⟩

/-! ### A break (R60, R62, R85) -/

/-- s at the middle of the first stop bit of a break whose start bit began at `edge` (log 3): the receiver is in RECOVER
(R60), and the break not yet delivered. -/
def State.broken (s : State) (g : Seg) (edge : Nat) : State :=
  let now := max s.time (edge + (s.active g).middleOf (s.active g).firstStop)
  { s with time := now, lines := s.lines.set g { s.lines.get g with rx := .recover now } }

section
variable {s u : State} {g : Seg} {edge : Nat} {taken : Bool}

/-- With DE deasserted a break is delivered to the frame receiver (R60, R62). -/
theorem exec_breakFound (free : s.held = false) (hears : (s.lines.get g).rx = .assemble edge taken)
    (de : (s.lines.get g).de = false) : exec (.breakFound g) s = .next ((s.broken g edge).receiveBreak g) := by
  have due : s.assembleDue g (s.active g).firstStop = some (edge + (s.active g).middleOf (s.active g).firstStop) := by
    simp only [State.assembleDue, hears]
  change s.takeEvent (s.assembleDue g (s.active g).firstStop) (fun s => s.breakFound g) = _
  rw [due, State.takeEvent_due free]
  have line : ((s.broken g edge).lines.get g).de = false := by
    have here : (s.broken g edge).lines.get g = { s.lines.get g with rx := .recover (s.broken g edge).time } :=
      (PerSeg.get_set ..).trans (if_pos rfl)
    rw [here]
    exact de
  change Host.Outcome.next ((s.broken g edge).deliverBreak g) = _
  rw [State.deliverBreak, line, if_neg Bool.false_ne_true]

/-- A break delivered outside BLIND ends the frame in assembly, and is counted; on an Upstream segment the origin is abandoned
(R48, R85). -/
theorem State.receiveBreak_eq (sees : s.receivers.get g ≠ .blind) : s.receiveBreak g
    = if (s.active g).role = .upstream then ((s.endFrame g .aborted).count g .breaks).abandonOrigin g
      else (s.endFrame g .aborted).count g .breaks := by
  have active : (State.count (s.endFrame g .aborted) g .breaks).active g = s.active g := by
    obtain ⟨f, x, e, k, st, m, t, v, only⟩ := s.endFrame_only g .aborted
    rw [only]
    rfl
  unfold State.receiveBreak
  cases at_ : s.receivers.get g with
  | blind => exact absurd at_ sees
  | hunt | store | skip => rw [← active]

/-- With no frame in assembly none ends. -/
theorem State.endFrame_hunt (hunts : s.receivers.get g = .hunt) (cause : EndCause) : s.endFrame g cause = s := by
  rw [State.endFrame, hunts]

/-- A break cuts the frame in assembly as `FrameEnds` says, and is then taken as in HUNT (R85). -/
theorem State.FrameEnds.atBreak (ends : s.FrameEnds u g true) (free : s.held = false)
    (hears : (s.lines.get g).rx = .assemble edge taken) (de : (s.lines.get g).de = false) :
    exec (.breakFound g) s = exec (.breakFound g) u := by
  obtain ⟨lines, time, settings, hunts⟩ := ends.keeps
  have there : ({ u with lines := (s.broken g edge).lines, time := (s.broken g edge).time } : State) = u.broken g edge := by
    simp only [State.broken, State.active, lines, time, settings]
  have moved : (s.broken g edge).FrameEnds (u.broken g edge) g true :=
    there ▸ ends.moved (s.broken g edge).lines (s.broken g edge).time
  have active : (u.broken g edge).active g = (s.broken g edge).active g :=
    congrArg (fun x => (Settings.active x).get g) settings
  have sees : (s.broken g edge).receivers.get g ≠ .blind := by
    rcases moved.inFrame with ⟨f, stored⟩ | ⟨why, f, skipped⟩
    · rw [stored]; exact FrState.noConfusion
    · rw [skipped]; exact FrState.noConfusion
  have clear : (u.broken g edge).receivers.get g = .hunt := hunts
  rw [exec_breakFound free hears de, exec_breakFound (ends.held.trans free) (lines ▸ hears) (lines ▸ de),
    State.receiveBreak_eq sees, State.receiveBreak_eq (by rw [clear]; exact FrState.noConfusion),
    State.endFrame_hunt clear, moved.endFrame (by simp), active]

end

/-- Settles O7: the break is counted, and on an Upstream segment the origin goes as `LiveGone` and `OriginCleared` say; a
frame in assembly ends first. -/
theorem breakIsTaken : Obligations.BreakIsTaken := by
  refine ⟨?_, ?_, fun s u g edge taken free hears de ends => ⟨ends.hunts, ends.atBreak free hears de⟩⟩
  · intro s g edge taken free hears de hunts down
    have clear : (s.broken g edge).receivers.get g = .hunt := hunts
    have away : ((s.broken g edge).active g).role ≠ .upstream := fun up => Role.noConfusion (down.symm.trans up)
    rw [exec_breakFound free hears de, State.receiveBreak_eq (by rw [clear]; exact FrState.noConfusion),
      State.endFrame_hunt clear, if_neg away]
    rfl
  · intro s g edge taken l after lost e gone free hears de hunts up live unstarted
    have clear : (s.broken g edge).receivers.get g = .hunt := hunts
    have here : ((s.broken g edge).active g).role = .upstream := up
    obtain ⟨y, hy⟩ : ∃ y, y = (s.broken g edge).count g .breaks := ⟨_, rfl⟩
    have live' : y.LiveGone g l after lost e := hy ▸ live
    obtain ⟨x, lanes, m, whole, records, waiting, holders, stations, only, cleared⟩ :=
      live'.originAbandoned (gone := gone) (by rw [hy]; exact unstarted)
    have counted : s.counters.RaisedTo y.counters g [.breaks] := by
      rw [hy]
      exact (s.counters.raisedTo_nil g).more (a := .breaks) (by simp)
    have abandoned : y.counters.read g 12 = s.counters.read g 12 := counted.read_other (a := .abandoned) (by simp)
    have taken : exec (.breakFound g) s = .next (y.abandonOrigin g) := by
      rw [exec_breakFound free hears de, State.receiveBreak_eq (by rw [clear]; exact FrState.noConfusion),
        State.endFrame_hunt clear, if_pos here, hy]
    rw [whole] at taken
    have mgmt : m.queue = s.mgmt.queue ∧ m.engine = s.mgmt.engine ∧ m.caches = s.mgmt.caches ∧ m.buffer = s.mgmt.buffer := by
      rw [only, hy]
      exact ⟨rfl, rfl, rfl, rfl⟩
    obtain ⟨queue, engine, caches, buffer⟩ := mgmt
    have parts := cleared { y with txns := x, egress := lanes, mgmt := m } rfl rfl
    rw [← abandoned, Nat.add_assoc]
    rw [hy] at taken records waiting holders stations parts counted ⊢
    exact ⟨_, _, taken, records, waiting, parts, rfl, counted, rfl, rfl, rfl, holders, stations, queue, engine, caches,
      buffer, rfl, rfl, rfl, rfl, rfl, rfl, rfl, rfl, rfl, rfl⟩

end Sys2Proof.Machine
end

