-- ==== Sys2Proof/Proofs/CollisionSends.lean ====
section
/-!
A send that ends Collision, and what the engine makes of a request's copy lost (R36, R37, R121).
-/

namespace Sys2Proof.Machine

section
variable {s : State} {g : Seg} {r : Fin Config.numTxns} {t : Txn}

/-! ### A request copy lost (R36, R37) -/

/-- What a notice changes does not depend on the transaction engine, which stays. -/
theorem State.told_txns (s : State) (x : TxnEngine) (g : Seg) (n : Option Notice) :
    State.told { s with txns := x } g n = { s.told g n with txns := x } := by
  unfold State.told
  cases n <;> rfl

/-- With its last copy gone and no window open, a transaction whose outcome is open closes (R36, R37). -/
theorem State.copiesDone_closes (used : s.txn r = some t) (last : t.copies = 0) (unfixed : t.outcome = none)
    {o : TxnOutcome} (row : t.kind = .poll ∧ t.state = .sending ∧ t.windows = 0 ∧ o = .collision
      ∨ t.kind = .broadcast ∧ o = if t.copyOk = true then .complete else .collision) :
    s.copiesDone r = (s.putTxn r (some { t with reqDesc := none })).closeTxn r o := by
  rcases row with ⟨kind, sending, closed, rfl⟩ | ⟨kind, rfl⟩
  · simp only [State.copiesDone, used, ne_eq, last, not_true_eq_false, unfixed, Option.isSome_none, Bool.false_eq_true,
      kind, sending, closed, reduceIte]
  · simp only [State.copiesDone, used, ne_eq, last, not_true_eq_false, unfixed, Option.isSome_none, Bool.false_eq_true,
      kind, reduceIte]

/-- With its last copy gone a Poll with a window open awaits its response, in the class it has, or class 0. -/
theorem State.copiesDone_opened (used : s.txn r = some t) (last : t.copies = 0) (unfixed : t.outcome = none)
    (kind : t.kind = .poll) (sending : t.state = .sending) (windows : t.windows ≠ 0) :
    s.copiesDone r = s.putTxn r (some { t with
      reqDesc := none, state := .awaiting
      deadline := some (s.nowMs + (s.bridge.timeouts.get (t.cls.getD 0)).setWidth 32) }) := by
  simp only [State.copiesDone, used, ne_eq, last, not_true_eq_false, unfixed, Option.isSome_none, Bool.false_eq_true,
    kind, sending, windows, reduceIte, State.putTxn_putTxn]
  rfl

/-- With no copy out a Local gives up its request. -/
theorem State.copiesDone_local (used : s.txn r = some t) (last : t.copies = 0) (unfixed : t.outcome = none)
    (kind : t.kind = .loc) : s.copiesDone r = s.putTxn r (some { t with reqDesc := none }) := by
  simp only [State.copiesDone, used, ne_eq, last, not_true_eq_false, unfixed, Option.isSome_none, Bool.false_eq_true,
    kind, reduceIte]

/-- A copy lost is out no more, and its segment given up (R36). -/
theorem State.copyFailed_releases (held : s.holder g = some r) (used : s.txn r = some t) : s.copyFailed g
    = ((s.putTxn r (some { t with copies := t.copies.erase g })).releaseGrant g).copiesDone r := by
  simp only [State.copyFailed, held, used]

/-- The transaction engine once a copy of r on g is lost: r holds t, and where it holds none it waits no more. -/
def State.copyLost (s : State) (g : Seg) (r : Fin Config.numTxns) (t : Option Txn) : TxnEngine :=
  { records := (s.putTxn r t).txns.records
    waiting := if t = none then s.txns.waiting.filter fun q => q != r else s.txns.waiting
    holders := s.txns.holders.set g none
    lastTimedOut := s.txns.lastTimedOut }

/-- Another copy is out, or a window is open: the transaction goes on (R36). A Local, which has no copy, would only give up its
request. -/
theorem State.copyFailed_goesOn (held : s.holder g = some r) (used : s.txn r = some t) (unfixed : t.outcome = none)
    {w : Txn} (row : t.copies.erase g ≠ 0 ∧ w = { t with copies := t.copies.erase g }
      ∨ t.copies.erase g = 0 ∧ t.kind = .poll ∧ t.state = .sending ∧ t.windows ≠ 0 ∧ w = { t with
        copies := 0, reqDesc := none, state := .awaiting
        deadline := some (s.nowMs + (s.bridge.timeouts.get (t.cls.getD 0)).setWidth 32) }
      ∨ t.copies.erase g = 0 ∧ t.kind = .loc ∧ w = { t with copies := 0, reqDesc := none }) :
    s.copyFailed g = { s with txns := s.copyLost g r (some w) } := by
  have now : ((s.putTxn r (some { t with copies := t.copies.erase g })).releaseGrant g).txn r
      = some { t with copies := t.copies.erase g } := (s.txn_putTxn r r _).trans (if_pos rfl)
  rw [State.copyFailed_releases held used]
  rcases row with ⟨out, rfl⟩ | ⟨last, kind, sending, windows, rfl⟩ | ⟨last, kind, rfl⟩
  · rw [State.copiesDone_out now out]
    rfl
  · rw [State.copiesDone_opened now last unfixed kind sending windows, State.putTxn_releaseGrant, State.putTxn_putTxn, last]
    rfl
  · rw [State.copiesDone_local now last unfixed kind, State.putTxn_releaseGrant, State.putTxn_putTxn, last]
    rfl

/-- The last copy of a broadcast is gone, of which some copy was sent: it closes Complete (R36). -/
theorem State.copyFailed_completes (held : s.holder g = some r) (used : s.txn r = some t) (unfixed : t.outcome = none)
    (last : t.copies.erase g = 0) (kind : t.kind = .broadcast) (ok : t.copyOk = true) :
    s.copyFailed g = { s with txns := s.copyLost g r none } := by
  have now : ((s.putTxn r (some { t with copies := t.copies.erase g })).releaseGrant g).txn r
      = some { t with copies := t.copies.erase g } := (s.txn_putTxn r r _).trans (if_pos rfl)
  rw [State.copyFailed_releases held used, State.copiesDone_completes now last unfixed kind ok, State.putTxn_releaseGrant,
    State.freeRecord_putTxn]
  rfl

/-- The last copy is gone, no window is open and no copy of a broadcast was sent: the transaction closes Collision, with its
notice unless superseded (R36, R37, R43). -/
theorem State.copyFailed_collides (held : s.holder g = some r) (used : s.txn r = some t) (unfixed : t.outcome = none)
    (last : t.copies.erase g = 0) (row : t.kind = .poll ∧ t.state = .sending ∧ t.windows = 0
      ∨ t.kind = .broadcast ∧ t.copyOk = false) :
    s.copyFailed g = { (if t.superseded then s else s.notify t.origin .collision t.station) with
      txns := s.copyLost g r none } := by
  have now : ((s.putTxn r (some { t with copies := t.copies.erase g })).releaseGrant g).txn r
      = some { t with copies := t.copies.erase g } := (s.txn_putTxn r r _).trans (if_pos rfl)
  have known := (State.txn_putTxn ((s.putTxn r (some { t with copies := t.copies.erase g })).releaseGrant g) r r
    (some { t with copies := t.copies.erase g, reqDesc := none })).trans (if_pos rfl)
  have closes := State.copiesDone_closes (o := .collision) now last unfixed <| row.imp
    (fun ⟨kind, sending, windows⟩ => ⟨kind, sending, windows, rfl⟩) fun ⟨kind, ok⟩ => ⟨kind, by simp [ok]⟩
  rw [State.copyFailed_releases held used, closes, State.closeTxn_closed known unfixed rfl, State.notify_told]
  unfold State.closed
  rw [if_pos last, State.recordFreed_putTxn, State.putTxn_releaseGrant, State.recordFreed_putTxn]
  cases t.superseded
  · exact State.told_txns s (s.copyLost g r none) t.origin _
  · rfl

/-- The rows of R36 and R37 for the open transaction t whose copy on g is lost: `w` is what its record comes to hold, and `told`
whether a notice is called for. -/
def State.LosesCopy (s : State) (g : Seg) (t : Txn) (w : Option Txn) (told : Bool) : Prop :=
  (t.copies.erase g ≠ 0 → w = some { t with copies := t.copies.erase g } ∧ told = false)
    ∧ (t.copies.erase g = 0 → t.kind = .poll → t.windows ≠ 0 → w = some { t with
        copies := 0, reqDesc := none, state := .awaiting
        deadline := some (s.nowMs + (s.bridge.timeouts.get (t.cls.getD 0)).setWidth 32) } ∧ told = false)
    ∧ (t.copies.erase g = 0 → t.kind = .poll ∧ t.windows = 0 ∨ t.kind = .broadcast → w = none
        ∧ told = !decide (t.superseded = true ∨ t.kind = .broadcast ∧ t.copyOk = true))

/-- The copy of an open transaction lost: it goes by those rows. -/
theorem State.copyFailed_rows (held : s.holder g = some r) (used : s.txn r = some t) (unfixed : t.outcome = none)
    (sending : t.state = .sending) :
    ∃ w, ∃ told : Bool, s.copyFailed g
        = { (if told then s.notify t.origin .collision t.station else s) with txns := s.copyLost g r w }
      ∧ s.LosesCopy g t w told := by
  have onward := fun w => State.copyFailed_goesOn (w := w) held used unfixed
  by_cases out : t.copies.erase g ≠ 0
  · refine ⟨_, false, onward _ (.inl ⟨out, rfl⟩), fun _ => ⟨rfl, rfl⟩, ?_, ?_⟩ <;> exact fun last => absurd last out
  have last : t.copies.erase g = 0 := not_not.1 out
  by_cases waits : t.kind = .poll ∧ t.windows ≠ 0
  · obtain ⟨kind, windows⟩ := waits
    refine ⟨_, false, onward _ (.inr (.inl ⟨last, kind, sending, windows, rfl⟩)), fun more => absurd last more,
      fun _ _ _ => ⟨rfl, rfl⟩, fun _ row => ?_⟩
    rcases row with ⟨_, closed⟩ | cast
    · exact absurd closed windows
    · rw [kind] at cast
      cases cast
  by_cases row : t.kind = .poll ∧ t.windows = 0 ∨ t.kind = .broadcast
  · refine ⟨none, _, ?_, fun more => absurd last more, fun _ kind windows => absurd ⟨kind, windows⟩ waits,
      fun _ _ => ⟨rfl, rfl⟩⟩
    by_cases ok : t.kind = .broadcast ∧ t.copyOk = true
    · simpa [ok] using State.copyFailed_completes held used unfixed last ok.1 ok.2
    · have collides := State.copyFailed_collides held used unfixed last <| row.imp
        (fun ⟨kind, windows⟩ => ⟨kind, sending, windows⟩) fun kind => ⟨kind, by simpa [kind] using ok⟩
      rw [collides]
      cases t.superseded <;> simp [ok]
  · have kind : t.kind = .loc := by
      cases kind : t.kind
      · by_cases closed : t.windows = 0
        · exact absurd (.inl ⟨kind, closed⟩) row
        · exact absurd ⟨kind, closed⟩ waits
      · exact absurd (.inr kind) row
      · rfl
    exact ⟨_, false, onward _ (.inr (.inr ⟨last, kind, rfl⟩)), fun more => absurd last more,
      fun _ poll windows => absurd ⟨poll, windows⟩ waits, fun _ closes => absurd closes row⟩

end

/-! ### A send that ends Collision (R121) -/

/-- s once item i of g has been given up, before the event and the pending own address: a notice is lost and counted, a copy
leaves its lane and its descriptor, and the engine hears of a request's (R121). -/
def State.itemLost (s : State) (g : Seg) (i : Item) : State :=
  let s' := if i.isNotice then (s.dropItem g i).countNoticeLost else s.dropItem g i
  if s.isRequestCopy i then s'.copyFailed g else s'

section
variable {s : State} {g : Seg} {h : InHand}

/-- Giving up an item changes the schedulers, the store, the engine and the counters alone. -/
theorem State.itemLost_only (s : State) (g : Seg) (i : Item) :
    ∃ e st x k, s.itemLost g i = { s with egress := e, store := st, txns := x, counters := k } := by
  obtain ⟨e, st, dropped⟩ := s.dropItem_only g i
  obtain ⟨k, counted⟩ : ∃ k, (if i.isNotice = true then (s.dropItem g i).countNoticeLost else s.dropItem g i)
      = { s with egress := e, store := st, counters := k } := by
    rw [dropped]
    split <;> exact ⟨_, rfl⟩
  unfold State.itemLost
  rw [counted]
  dsimp only
  split
  · obtain ⟨x, e', k', failed⟩ := State.copyFailed_only { s with egress := e, store := st, counters := k } g
    exact ⟨_, _, _, _, failed⟩
  · exact ⟨_, _, _, _, rfl⟩

/-- Which item is given up, and for what station, does not depend on what stands in hand. -/
theorem State.itemLost_hand (s : State) (g : Seg) (h : Option InHand) (i : Item) :
    (s.setEgress g { s.egress.get g with hand := h }).itemLost g i = s.itemLost g i
      ∧ (s.setEgress g { s.egress.get g with hand := h }).itemStation g i = s.itemStation g i := by
  have here : (s.egress.set g { s.egress.get g with hand := h }).get g = { s.egress.get g with hand := h } := by simp
  have dropped : (s.setEgress g { s.egress.get g with hand := h }).dropItem g i = s.dropItem g i := by
    unfold State.dropItem State.setEgress
    dsimp only
    rw [here]
    cases i <;> simp [State.mapStore]
  refine ⟨?_, ?_⟩
  · unfold State.itemLost
    rw [dropped]
    rfl
  · cases i
    case slotNotice => exact (congrArg (fun e => ((Egress.slot e).map Notice.station).getD 0) here).trans rfl
    all_goals rfl

/-- Whether an own address change is armed is read off the reply lanes. -/
theorem State.ownArmed_congr {a b : State} (lanes : ∀ q, (a.egress.get q).replyLane = (b.egress.get q).replyLane) :
    a.ownArmed = b.ownArmed := by simp [State.ownArmed, lanes]

/-- The pending own address stands only while an armed copy is in a lane (R135). -/
theorem State.settlePendingOwn_eq (s : State) : s.settlePendingOwn
    = { s with mgmt := { s.mgmt with pendingOwn := if s.ownArmed then s.mgmt.pendingOwn else none } } := by
  unfold State.settlePendingOwn
  split <;> rfl

/-- s in BACKOFF once the send of h on g has ended Collision (R116, R119 to R121). -/
def State.sendGivenUp (s : State) (g : Seg) (h : InHand) : State :=
  let z := s.itemLost g h.item
  { s with
    egress := z.egress.set g { z.egress.get g with state := .backoff s.time, echoes := [], collision := false }
    store := z.store, txns := z.txns, counters := z.counters
    events := s.collisionRaised g (s.itemStation g h.item) h.attempts
    mgmt := { s.mgmt with pendingOwn := if z.ownArmed then s.mgmt.pendingOwn else none } }

/-- With its retries spent, the item in hand is given up as BACKOFF is entered (R116, R119, R121). -/
theorem State.backOff_spent (inHand : (s.egress.get g).hand = some h)
    (spent : (s.active g).retryLimit.toNat < h.attempts) : s.backOff g = s.sendGivenUp g h := by
  have ended : s.sendCollided g = (s.itemLost g h.item).settlePendingOwn.raise .collision (some g)
      (some (s.itemStation g h.item)) (BitVec.ofNat 8 h.attempts) := by
    unfold State.sendCollided
    rw [inHand]
    rfl
  have done : s.retriesSpent g = true := by
    unfold State.retriesSpent
    rw [inHand]
    exact decide_eq_true spent
  obtain ⟨e, st, x, k, only⟩ := s.itemLost_only g h.item
  unfold State.backOff State.sendGivenUp
  rw [if_pos done, ended, State.settlePendingOwn_eq, only]
  rfl

/-- What is given up does not depend on the item in hand itself. -/
theorem State.sendGivenUp_hand (s : State) (g : Seg) (i : Option InHand) (h : InHand) :
    (s.setEgress g { s.egress.get g with hand := i }).sendGivenUp g h = s.sendGivenUp g h := by
  obtain ⟨lost, station⟩ := s.itemLost_hand g i h.item
  unfold State.sendGivenUp
  rw [lost, station]
  rfl

/-- The scheduler of an item given up that no transaction hears of. -/
theorem State.sendGivenUp_egress {slot : Option Notice} {replies : List ReplyCopy} {bulk : List (Fin Config.numDescs)}
    (left : (s.itemLost g h.item).egress = s.egress.set g { s.egress.get g with
      hand := none, slot := slot, replyLane := replies, bulkLane := bulk }) : (s.sendGivenUp g h).egress
      = s.egress.set g { s.givenUp g with slot := slot, replyLane := replies, bulkLane := bulk } := by
  unfold State.sendGivenUp
  dsimp only
  rw [left, PerSeg.set_set, PerSeg.get_set, if_pos rfl]
  rfl

/-- Entering BACKOFF moves no copy. -/
theorem State.sendGivenUp_ownArmed (s : State) (g : Seg) (h : InHand) :
    (s.sendGivenUp g h).ownArmed = (s.itemLost g h.item).ownArmed :=
  State.ownArmed_congr fun q => by
    unfold State.sendGivenUp
    rw [PerSeg.get_set]
    split
    next here => rw [here]
    · rfl

/-- A copy in a bulk lane given up: the engine hears of a request's or a broadcast's. -/
theorem State.itemLost_bulk (s : State) (g : Seg) (d : Fin Config.numDescs) : s.itemLost g (.bulk d)
    = if s.isRequestCopy (.bulk d) then (s.dropItem g (.bulk d)).copyFailed g else s.dropItem g (.bulk d) := rfl

/-- The engine hears nothing of a copy that is neither a request nor a broadcast. -/
theorem State.itemLost_unheard {d : Fin Config.numDescs} {y : Desc} (stored : s.store.desc d = some y)
    (request : y.cls ≠ .request) (broadcast : y.cls ≠ .broadcast) : s.itemLost g (.bulk d) = s.dropItem g (.bulk d) := by
  have other : s.isRequestCopy (.bulk d) = false := by simp [State.isRequestCopy, stored, request, broadcast]
  rw [State.itemLost_bulk, other, if_neg Bool.false_ne_true]

/-- The engine hears of a request's or a broadcast's copy lost. -/
theorem State.itemLost_request {d : Fin Config.numDescs} {y : Desc} (stored : s.store.desc d = some y)
    (copy : y.cls = .request ∨ y.cls = .broadcast) : s.itemLost g (.bulk d) = (s.dropItem g (.bulk d)).copyFailed g := by
  have request : s.isRequestCopy (.bulk d) = true := by simpa [State.isRequestCopy, stored] using copy
  rw [State.itemLost_bulk, request, if_pos rfl]

/-- What leaves the store with a copy does not depend on what the engine hears. -/
theorem State.itemLost_store (s : State) (g : Seg) (d : Fin Config.numDescs) :
    (s.itemLost g (.bulk d)).store = s.store.leave d g := by
  rw [State.itemLost_bulk]
  split
  · obtain ⟨x, e, k, failed⟩ := (s.dropItem g (.bulk d)).copyFailed_only g
    rw [failed]
    rfl
  · rfl

/-- A request or broadcast copy given up, by the rows of R36 and R37: what the engine, the schedulers and the counters hold. -/
theorem State.sendGivenUp_request {d : Fin Config.numDescs} {y : Desc} {r : Fin Config.numTxns} {t : Txn}
    (copy : h.item = .bulk d) (stored : s.store.desc d = some y) (heard : y.cls = .request ∨ y.cls = .broadcast)
    (held : s.holder g = some r) (used : s.txn r = some t) (unfixed : t.outcome = none) (sending : t.state = .sending)
    (away : t.origin ≠ g) :
    ∃ w, ∃ told : Bool, ∀ n, n = (if told then s.notify t.origin .collision t.station else s) →
      (s.sendGivenUp g h).txns = s.copyLost g r w ∧ (s.sendGivenUp g h).counters = n.counters
      ∧ (s.sendGivenUp g h).egress.get g
        = { s.givenUp g with bulkLane := (s.givenUp g).bulkLane.filter fun q => q != d }
      ∧ (∀ q, q ≠ g → (s.sendGivenUp g h).egress.get q = n.egress.get q)
      ∧ s.LosesCopy g t w told := by
  obtain ⟨p, hp⟩ : ∃ p, p = s.dropItem g (.bulk d) := ⟨_, rfl⟩
  have lanes : ∀ q, p.egress.get q = if q = g then { s.egress.get g with
      hand := none, bulkLane := (s.egress.get g).bulkLane.filter fun q => q != d } else s.egress.get q := by
    intro q
    rw [hp]
    exact PerSeg.get_set ..
  obtain ⟨w, told, failed, row⟩ := State.copyFailed_rows (s := p) (g := g) (by rw [hp]; exact held) (by rw [hp]; exact used)
    unfixed sending
  have gone := (congrArg (s.itemLost g) copy).trans ((State.itemLost_request stored heard).trans
    ((congrArg (State.copyFailed · g) hp).symm.trans failed))
  have engine : p.copyLost g r w = s.copyLost g r w := by rw [hp]; rfl
  obtain ⟨counters, others, here⟩ : (if told then p.notify t.origin .collision t.station else p).counters
        = (if told then s.notify t.origin .collision t.station else s).counters
      ∧ (∀ q, q ≠ g → (if told then p.notify t.origin .collision t.station else p).egress.get q
        = (if told then s.notify t.origin .collision t.station else s).egress.get q)
      ∧ (if told then p.notify t.origin .collision t.station else p).egress.get g = p.egress.get g := by
    have beside : ∀ q, q ≠ g → p.egress.get q = s.egress.get q := fun q other => (lanes q).trans (if_neg other)
    have settings : p.settings = s.settings := by rw [hp]; rfl
    have counters : p.counters = s.counters := by rw [hp]; rfl
    cases told
    · exact ⟨counters, beside, rfl⟩
    · exact State.notify_congr .collision t.station away settings counters beside
  refine ⟨w, told, ?_⟩
  rintro _ rfl
  have egress : ∀ q, (s.sendGivenUp g h).egress.get q = if q = g
      then { (s.itemLost g h.item).egress.get g with state := .backoff s.time, echoes := [], collision := false }
      else (s.itemLost g h.item).egress.get q := fun q => PerSeg.get_set ..
  refine ⟨?_, ?_, ?_, fun q other => ?_, ?_⟩
  · exact (congrArg State.txns gone).trans engine
  · exact (congrArg State.counters gone).trans counters
  · rw [egress, if_pos rfl, gone]
    dsimp only
    rw [here, lanes, if_pos rfl]
    rfl
  · rw [egress, if_neg other, gone]
    exact others q other
  · rw [hp] at row
    exact row

/-- An item given up is lost as `SendLost` says (R36, R121). -/
theorem State.sendGivenUp_sendLost (s : State) (g : Seg) (h : InHand) :
    s.SendLost (s.sendGivenUp g h) g h.item h.attempts := by
  obtain ⟨i, started, n⟩ := h
  refine ⟨?_, ?_, ?_, ?_, rfl, rfl, rfl, rfl, rfl, rfl, rfl, rfl, rfl, rfl, rfl⟩
  · rintro x (⟨rfl, slot⟩ | rfl)
    · refine ⟨State.sendGivenUp_egress rfl, rfl, ?_, rfl, rfl⟩
      exact congrArg (fun o => s.collisionRaised g ((Option.map Notice.station o).getD 0) n) slot
    · exact ⟨State.sendGivenUp_egress rfl, rfl, rfl, rfl, rfl⟩
  · rintro d y rfl stored
    refine ⟨State.sendGivenUp_egress rfl, rfl, ?_, rfl, rfl⟩
    exact congrArg (fun o => s.collisionRaised g ((Option.map Desc.station o).getD 0) n) stored
  · rintro d y rfl stored
    refine ⟨congrArg (fun o => s.collisionRaised g ((Option.map Desc.station o).getD 0) n) stored, ?_, ?_, ?_⟩
    · exact s.itemLost_store g d
    · intro request broadcast
      have unheard : s.itemLost g (.bulk d) = _ := State.itemLost_unheard stored request broadcast
      exact ⟨State.sendGivenUp_egress (congrArg State.egress unheard), (congrArg State.counters unheard :),
        (congrArg State.txns unheard :)⟩
    · intro heard r t held used unfixed sending away
      obtain ⟨w, told, rows⟩ :=
        State.sendGivenUp_request (h := ⟨.bulk d, started, n⟩) rfl stored heard held used unfixed sending away
      obtain ⟨txns, counters, here, others, goesOn, awaits, closes⟩ := rows _ rfl
      have holders : ∀ q, (s.sendGivenUp g ⟨.bulk d, started, n⟩).holder q = if q = g then none else s.holder q := by
        intro q
        unfold State.holder
        rw [txns]
        exact PerSeg.get_set ..
      have records : ∀ q, (s.sendGivenUp g ⟨.bulk d, started, n⟩).txn q = if q = r then w else s.txn q := by
        intro q
        unfold State.txn
        rw [txns]
        exact s.txn_putTxn r q w
      have waiting : (s.sendGivenUp g ⟨.bulk d, started, n⟩).txns.waiting
          = if w = none then s.txns.waiting.filter fun q => q != r else s.txns.waiting := by
        rw [txns]
        rfl
      refine ⟨here, (holders g).trans (if_pos rfl), fun q other => (holders q).trans (if_neg other),
        fun q other => (records q).trans (if_neg other), by rw [txns]; rfl, fun more => ?_, fun last kind windows => ?_,
        fun last row => ?_⟩
      · obtain ⟨rfl, rfl⟩ := goesOn more
        exact ⟨(records r).trans (if_pos rfl), waiting, counters, others⟩
      · obtain ⟨rfl, rfl⟩ := awaits last kind windows
        refine ⟨fun c cls => (records r).trans ((if_pos rfl).trans ?_), waiting, counters, others⟩
        rw [cls]
        rfl
      · obtain ⟨rfl, rfl⟩ := closes last row
        refine ⟨(records r).trans (if_pos rfl), waiting, ?_⟩
        rintro v rfl
        by_cases quiet : t.superseded = true ∨ t.kind = .broadcast ∧ t.copyOk = true <;>
          simp only [quiet] at counters others ⊢ <;> exact ⟨counters, others⟩
  · rw [State.sendGivenUp_ownArmed]
    rfl

/-- With retries left the item stays in hand as BACKOFF is entered (R116, R120). -/
theorem State.backOff_retries (inHand : (s.egress.get g).hand = some h)
    (left : h.attempts ≤ (s.active g).retryLimit.toNat) : s.backOff g = s.setEgress g { s.egress.get g with
      state := .backoff s.time, echoes := [], collision := false } := by
  have more : s.retriesSpent g = false := by
    unfold State.retriesSpent
    rw [inHand]
    exact decide_eq_false (Nat.not_lt.2 left)
  unfold State.backOff
  rw [more]
  rfl

end

end Sys2Proof.Machine
end

