-- ==== Sys2Proof/Proofs/Contention.lean ====
section
/-!
A start bit heard while driving: contention in LEAD (R57, R63, R116, R120).
-/

namespace Sys2Proof.Machine

section
variable {s : State} {g : Seg} {edge : Nat} {h : InHand}

/-- s with the start bit that began at `edge` taken as valid at its middle (R57; log 3). -/
def State.startTaken (s : State) (g : Seg) (edge : Nat) : State :=
  { s with
    time := max s.time (edge + (s.active g).middleOf 1)
    lines := s.lines.set g { s.lines.get g with rx := .assemble edge true } }

/-- A valid start bit is reported while DE is asserted and the transmitter is MARKING (R63); in LEAD it is contention. -/
theorem exec_startWhileDriving (free : s.held = false) (starts : (s.lines.get g).rx = .assemble edge false)
    (de : (s.lines.get g).de = true) (marking : (s.lines.get g).tx = .marking) :
    (∀ ends on, (s.egress.get g).state = .lead ends on → exec (.startWhileDriving g) s
        = .next ((((s.startTaken g edge).releaseLine g).failAttempt g).backOff g))
      ∧ ((∀ ends on, (s.egress.get g).state ≠ .lead ends on) →
        exec (.startWhileDriving g) s = .next (s.startTaken g edge)) := by
  have due : s.startWhileDrivingDue g = some (edge + (s.active g).middleOf 1) := by
    simp only [State.startWhileDrivingDue, starts, de, marking, and_self, reduceIte]
  have taken : (s.advance (edge + (s.active g).middleOf 1)).takeStart g = s.startTaken g edge := by
    unfold State.takeStart
    dsimp only [State.advance]
    rw [starts]
    rfl
  have same : (s.startTaken g edge).egress = s.egress := rfl
  change (∀ ends on, _ → s.takeEvent (s.startWhileDrivingDue g) (fun s => s.startHeard g) = _)
    ∧ (_ → s.takeEvent (s.startWhileDrivingDue g) (fun s => s.startHeard g) = _)
  rw [due, State.takeEvent_due free]
  unfold State.startHeard
  dsimp only
  rw [taken, same]
  refine ⟨fun ends on lead => by rw [lead], fun other => ?_⟩
  cases at_ : (s.egress.get g).state with
  | lead ends on => exact absurd at_ (other ends on)
  | quiet | transmit | tail | backoff => rfl

/-- s after contention found with h in hand, before BACKOFF is entered: DE is released and the frame receiver in HUNT, and
Collisions is counted (R72, R116). -/
def State.contended (s : State) (g : Seg) (edge : Nat) : State :=
  { s with
    time := max s.time (edge + (s.active g).middleOf 1)
    lines := s.lines.set g { rx := .assemble edge true, tx := .marking, held := none, de := false }
    receivers := s.receivers.set g .hunt
    counters := s.counters.write g 11 (saturatingSucc (s.counters.read g 11)) }

/-- The attempt of the item in hand is counted (R116). -/
theorem State.contended_eq (inHand : (s.egress.get g).hand = some h) :
    ((s.startTaken g edge).releaseLine g).failAttempt g
      = (s.contended g edge).setEgress g { (s.contended g edge).egress.get g with
        hand := some { h with attempts := h.attempts + 1 } } := by
  have hand : (((s.startTaken g edge).releaseLine g).egress.get g).hand = some h := inHand
  have line : ((s.startTaken g edge).lines.set g ((s.startTaken g edge).lines.get g).releaseDE)
      = s.lines.set g { rx := .assemble edge true, tx := .marking, held := none, de := false } := by
    simp [State.startTaken, LineUnit.releaseDE]
  unfold State.failAttempt
  dsimp only
  rw [hand]
  unfold State.releaseLine State.setLine
  rw [line]
  rfl

end

/-- Settles O18: contention fails the attempt of the item in hand, which stays in hand or is given up as its retries allow. -/
theorem contentionBacksOff : Obligations.ContentionBacksOff := by
  intro s g edge free starts de marking
  obtain ⟨contends, ignored⟩ := exec_startWhileDriving free starts de marking
  refine ⟨fun ends on h lead inHand v hv => ?_, ignored⟩
  have heard := contends ends on lead
  rw [State.contended_eq inHand, show s.contended g edge = v from hv.symm] at heard
  have active : v.active g = s.active g := by rw [hv]; rfl
  have held : ((v.setEgress g { v.egress.get g with hand := some { h with attempts := h.attempts + 1 } }).egress.get g).hand
      = some { h with attempts := h.attempts + 1 } := congrArg Egress.hand ((PerSeg.get_set ..).trans (if_pos rfl))
  refine ⟨fun left => ?_, fun spent => ⟨_, heard, ?_⟩⟩
  · rw [heard, State.backOff_retries held (by exact active ▸ left)]
    simp only [State.setEgress, PerSeg.set_set, PerSeg.get_set, if_true]
    rw [hv]
  · rw [State.backOff_spent held (by exact active ▸ spent), State.sendGivenUp_hand]
    exact State.sendGivenUp_sendLost v g { h with attempts := h.attempts + 1 }

end Sys2Proof.Machine
end

