-- ==== Sys2Proof/Proofs/FrameGrowth.lean ====
section
/-!
A data character delivered to a frame receiver (R73, R79 to R82): orphan, passed over, stored, or the one that turns its
frame to SKIP.
-/

namespace Sys2Proof.Machine

/-! ### Notice intents (R89) -/

/-- An intent is set where the frame holds a FORMING record and has none yet (R89). -/
theorem Frame.intend_eq (f : Frame) (i : NoticeIntent) : f.intend i
    = if f.formingRecord ≠ none ∧ f.intent = none then { f with intent := some i } else f := by
  simp only [Frame.intend, Option.isSome_iff_ne_none]

/-- The count of characters taken has no part in the intent. -/
theorem Frame.intend_taken (f : Frame) (n : Nat) (i : NoticeIntent) :
    Frame.intend { f with taken := n } i = { f.intend i with taken := n } := by
  have reads := Frame.intend_eq { f with taken := n } i
  by_cases sets : f.formingRecord ≠ none ∧ f.intent = none
  · rw [Frame.intend_eq f, if_pos sets]
    exact reads.trans (if_pos sets)
  · rw [Frame.intend_eq f, if_neg sets]
    exact reads.trans (if_neg sets)

/-! ### The chain (R79, R80, R82) -/

section
variable {st : Store} {d : Fin Config.numDescs} {y : Desc} {q : Fin Config.numCells} {qs : List (Fin Config.numCells)}

/-- A character is stored in the next place of a cell the chain holds (R79). -/
theorem Store.append_used (stored : st.desc d = some y) (cell : y.chain[y.length / 16]? = some q) (ch : Ch) (bad : Bool) :
    st.append d ch bad = (st.writeCell q y.length ch).putDesc d (some
      { y with length := y.length + 1, error := y.error || bad }) := by
  have last : y.cellOf y.length = some q := cell
  simp only [Store.append, stored, last]

/-- The head of the free cell list joins the chain (R80). -/
theorem Store.grow_free (stored : st.desc d = some y) (cells : st.freeCells = q :: qs) : st.grow d
    = some { st.putDesc d (some { y with chain := y.chain ++ [q] }) with freeCells := qs } := by
  simp only [Store.grow, stored, cells]
  rfl

/-- No chain grows where no cell is free (R80). -/
theorem Store.grow_none (cells : st.freeCells = []) (d : Fin Config.numDescs) : st.grow d = none := by
  cases stored : st.desc d with
  | none => simp only [Store.grow, stored]
  | some y => simp only [Store.grow, stored, cells]

/-- A character is stored in the first place of the cell just taken (R80). -/
theorem Store.append_grown (full : y.chain.length = y.length / 16) (ch : Ch) (bad : Bool) :
    Store.append { st.putDesc d (some { y with chain := y.chain ++ [q] }) with freeCells := qs } d ch bad
      = { (st.writeCell q y.length ch).putDesc d (some
          { y with length := y.length + 1, chain := y.chain ++ [q], error := y.error || bad }) with freeCells := qs } := by
  have grown : Store.desc { st.putDesc d (some { y with chain := y.chain ++ [q] }) with freeCells := qs } d
      = some { y with chain := y.chain ++ [q] } := (st.desc_putDesc d d _).trans (if_pos rfl)
  have last : (y.chain ++ [q])[y.length / 16]? = some q := by rw [← full, List.getElem?_concat_length]
  rw [Store.append_used grown last]
  have twice := (st.writeCell q y.length ch).putDesc_putDesc d (some { y with chain := y.chain ++ [q] }) (some
    { y with length := y.length + 1, chain := y.chain ++ [q], error := y.error || bad })
  exact congrArg (fun u : Store => { u with freeCells := qs }) twice

end

/-! ### The frame in STORE (R79 to R82) -/

section
variable {s : State} {g : Seg} {f : Frame} {c : RxChar} {d : Fin Config.numDescs} {y : Desc}

/-- The 257th character turns its frame to SKIP Oversize (R81). -/
theorem State.growFrame_oversize (has : f.desc = some d) (stored : s.store.desc d = some y) (long : 256 ≤ y.length) :
    s.growFrame g f c = s.setReceiver g (.skip .oversize (f.intend .damaged)) := by
  simp only [State.growFrame, has, stored, Config.maxFrame, long, reduceIte]

/-- One that needs a cell when none is free turns it to SKIP Truncated (R80). -/
theorem State.growFrame_truncated (has : f.desc = some d) (stored : s.store.desc d = some y) (short : y.length < 256)
    (full : y.length % 16 = 0) (cells : s.store.freeCells = []) :
    s.growFrame g f c = s.setReceiver g (.skip .truncated (f.intend .busy)) := by
  simp only [State.growFrame, has, stored, Config.maxFrame, Config.cellPlaces, Nat.not_le.2 short, full,
    Store.grow_none cells, reduceIte]

/-- Any other is stored, where st is the store with the cell it needs (R79, R82). -/
theorem State.growFrame_stores (has : f.desc = some d) (stored : s.store.desc d = some y) (short : y.length < 256)
    {st : Store} (cell : if y.length % 16 = 0 then s.store.grow d = some st else st = s.store) :
    s.growFrame g f c = { s with
      receivers := s.receivers.set g (.store
        { if erroneous (s.active g).noisePolicy c then f.intend .damaged else f with taken := f.taken + 1 })
      store := st.append d ⟨c.value, false⟩ (erroneous (s.active g).noisePolicy c) } := by
  have marked : Frame.intend { f with taken := f.taken + 1 } .damaged = { f.intend .damaged with taken := f.taken + 1 } :=
    f.intend_taken _ _
  have taken : s.growFrame g f c = State.setReceiver
      { s with store := st.append d ⟨c.value, false⟩ (erroneous (s.active g).noisePolicy c) } g (.store
        (if erroneous (s.active g).noisePolicy c then Frame.intend { f with taken := f.taken + 1 } .damaged
          else { f with taken := f.taken + 1 })) := by
    obtain ⟨cls, a, _, txn, n, intent⟩ := f
    obtain rfl : _ = some d := has
    simp only [State.growFrame, stored, Config.maxFrame, Config.cellPlaces, Nat.not_le.2 short, reduceIte]
    by_cases full : y.length % 16 = 0
    · rw [if_pos full] at cell
      simp only [full, cell, reduceIte]
    · rw [if_neg full] at cell
      simp only [full, cell, reduceIte]
  rw [taken, marked]
  cases erroneous (s.active g).noisePolicy c <;> rfl

end

/-! ### Delivery (R62, R73, R79, R82) -/

/-- A data character delivered: its errors are counted, and then its receiver takes it as its state says. -/
theorem State.Hears.takesData {s : State} {g : Seg} {edge : Nat} {taken : Bool} {x : Samples} {c : RxChar}
    (hears : s.Hears g edge taken x c) (data : c.mark = false) (de : (s.lines.get g).de = false) :
    ∃ k, s.counters.RaisedTo k g c.counted ∧ ∀ v : State, v = { s.heard g edge x with counters := k } →
      (s.receivers.get g = .hunt → exec (.characterComplete g x) s = .next (v.count g .orphans))
      ∧ (∀ why f, s.receivers.get g = .skip why f → exec (.characterComplete g x) s = .next v)
      ∧ ∀ f, s.receivers.get g = .store f → exec (.characterComplete g x) s = .next (v.growFrame g f c) := by
  obtain ⟨k, counts, raised⟩ := (s.heard g edge x).countErrors_raised g c
  have same : (s.heard g edge x).receivers.get g = s.receivers.get g := rfl
  have delivered := hears.delivered
  rw [de, if_neg Bool.false_ne_true, State.receiveChar, same, data, counts] at delivered
  refine ⟨k, raised, ?_⟩
  rintro v rfl
  refine ⟨fun hunt => ?_, fun why f skip => ?_, fun f store => ?_⟩
  · rw [delivered, hunt]
    rfl
  · rw [delivered, skip]
    rfl
  · rw [delivered, store]
    rfl

/-- Settles O11: the receiver's state says what becomes of the character, and in STORE the frame's length and the free cells
do. -/
theorem frameGrows : Obligations.FrameGrows := by
  intro s g x edge taken c hears data de
  obtain ⟨k, counted, takes⟩ := hears.takesData data de
  obtain ⟨v, hv⟩ : ∃ v : State, v = { s.heard g edge x with counters := k } := ⟨_, rfl⟩
  obtain ⟨hunts, skips, stores⟩ := takes v hv
  refine ⟨fun hunt => ⟨_, counted.more (a := .orphans) (c.not_counted (by simp) (by simp)), ?_⟩,
    fun why f skip => ⟨k, counted, hv ▸ skips why f skip⟩, fun f d y store has stored => ⟨f.intend_eq, k, counted, ?_⟩⟩
  · rw [hunts hunt, hv]
    rfl
  have same : v.store = s.store := by rw [hv]; rfl
  rw [← same] at stored
  rw [stores f store]
  refine ⟨fun long => ?_, fun short full cells => ?_, fun q short room cell => ?_, fun q qs short full chain cells => ?_⟩
  · rw [State.growFrame_oversize has stored long, hv]
    rfl
  · rw [State.growFrame_truncated has stored short full (same ▸ cells), hv]
    rfl
  · rw [State.growFrame_stores has stored short (by rw [if_neg room]), Store.append_used stored cell, hv]
    rfl
  · rw [State.growFrame_stores has stored short (by rw [if_pos full]; exact Store.grow_free stored (same ▸ cells)),
      Store.append_grown chain, hv]
    rfl

end Sys2Proof.Machine
end

