-- ==== Sys2Proof/Proofs/StoreOperations.lean ====
section
/-!
The law of the store (R92, R95, R100): every operation of the frame store moves cells and descriptors between the free lists and
the chains, losing none and using none twice.
-/

namespace Sys2Proof.Machine

/-! ### Reads after the operations -/

/-- The cells in the chain of a descriptor: none while it is Free. -/
def Store.chainOf (st : Store) (d : Fin Config.numDescs) : List (Fin Config.numCells) :=
  match st.desc d with
  | some x => x.chain
  | none => []

theorem Store.chainOf_used {st : Store} {d : Fin Config.numDescs} {x : Desc} (stored : st.desc d = some x) :
    st.chainOf d = x.chain := by simp only [Store.chainOf, stored]

theorem Store.chainOf_free {st : Store} {d : Fin Config.numDescs} (free : st.desc d = none) : st.chainOf d = [] := by
  simp only [Store.chainOf, free]

/-- Writing a cell leaves descriptors and free lists (R92). -/
@[simp] theorem Store.writeCell_fields (st : Store) (c : Fin Config.numCells) (k : Nat) (ch : Ch) :
    (st.writeCell c k ch).descs = st.descs ∧ (st.writeCell c k ch).freeCells = st.freeCells
      ∧ (st.writeCell c k ch).freeDescs = st.freeDescs := ⟨rfl, rfl, rfl⟩

/-- Filling a chain leaves descriptors and free lists (R103). -/
@[simp] theorem Store.fill_fields (st : Store) (chain : List (Fin Config.numCells)) (k : Nat) (l : List Byte) :
    (st.fill chain k l).descs = st.descs ∧ (st.fill chain k l).freeCells = st.freeCells
      ∧ (st.fill chain k l).freeDescs = st.freeDescs := by
  induction l generalizing st k with
  | nil => exact ⟨rfl, rfl, rfl⟩
  | cons b l ih =>
    rw [Store.fill]
    split
    · exact ih st (k + 1)
    · exact ih _ (k + 1)

/-- A descriptor is what the table of descriptors holds. -/
theorem Store.desc_congr {st st' : Store} (descs : st'.descs = st.descs) (d : Fin Config.numDescs) :
    st'.desc d = st.desc d := by rw [Store.desc, Store.desc, descs]

theorem mem_ascendingDescs (d : Fin Config.numDescs) : d ∈ ascendingDescs := List.mem_ofFn.2 ⟨d, rfl⟩

theorem ascendingDescs_nodup : ascendingDescs.Nodup := List.nodup_ofFn.2 fun _ _ same => same

/-- The chains are the chain of one descriptor and those of the others. -/
theorem Store.chains_perm (st : Store) (d : Fin Config.numDescs) :
    st.chains.Perm (st.chainOf d ++ (ascendingDescs.erase d).flatMap st.chainOf) :=
  (List.perm_cons_erase (mem_ascendingDescs d)).flatMap_right st.chainOf

/-! ### One descriptor changed -/

/-- The law stands where one descriptor is changed, its cells and the free ones are the same as before together, and the free list
still has each Free descriptor once. -/
theorem Store.Lawful.change {st st' : Store} (lawful : st.Lawful) (d : Fin Config.numDescs)
    (others : ∀ e, e ≠ d → st'.desc e = st.desc e)
    (cells : (st'.freeCells ++ st'.chainOf d).Perm (st.freeCells ++ st.chainOf d)) (once : st'.freeDescs.Nodup)
    (free : ∀ e, e ∈ st'.freeDescs ↔ st'.desc e = none) : st'.Lawful := by
  obtain ⟨partition, _, _⟩ := lawful
  have rest : (ascendingDescs.erase d).flatMap st'.chainOf = (ascendingDescs.erase d).flatMap st.chainOf := by
    refine List.flatMap_congr fun e mem => ?_
    have other : e ≠ d := ((ascendingDescs_nodup.mem_erase_iff).1 mem).1
    simp only [Store.chainOf, others e other]
  refine ⟨?_, once, free⟩
  have before := (st.chains_perm d).append_left st.freeCells
  have after := (st'.chains_perm d).append_left st'.freeCells
  rw [← List.append_assoc] at before after
  rw [rest] at after
  exact after.trans ((cells.append_right _).trans (before.symm.trans partition))

/-- A descriptor in use is rewritten with the same cells. -/
theorem Store.Lawful.putDesc {st : Store} (lawful : st.Lawful) {d : Fin Config.numDescs} {x y : Desc}
    (stored : st.desc d = some x) (chain : y.chain = x.chain) : (st.putDesc d (some y)).Lawful := by
  have now : (st.putDesc d (some y)).desc d = some y := (st.desc_putDesc d d _).trans (if_pos rfl)
  refine lawful.change d (fun e other => (st.desc_putDesc d e _).trans (if_neg other)) ?_ lawful.2.1 fun e => ?_
  · rw [Store.chainOf_used now, Store.chainOf_used stored, chain]
    exact .refl _
  · rw [Store.desc_putDesc]
    refine (lawful.2.2 e).trans ?_
    split
    next same => simp [same, stored]
    next => rfl

theorem Store.Lawful.modify {st : Store} (lawful : st.Lawful) (d : Fin Config.numDescs) {f : Desc → Desc}
    (chain : ∀ x, (f x).chain = x.chain) : (st.modify d f).Lawful := by
  cases stored : st.desc d with
  | none =>
    rw [show st.modify d f = st by simp only [Store.modify, stored]]
    exact lawful
  | some x =>
    rw [Store.modify_used stored]
    exact lawful.putDesc stored (chain x)

/-- A descriptor is released (R100). -/
theorem Store.Lawful.release {st : Store} (lawful : st.Lawful) (d : Fin Config.numDescs) : (st.release d).Lawful := by
  cases stored : st.desc d with
  | none =>
    rw [Store.release_free stored]
    exact lawful
  | some x =>
    obtain ⟨gone, others, cells, descs, _⟩ := Store.release_used stored
    have free := lawful.2.2
    have used : d ∉ st.freeDescs := fun mem => by simp [(free d).1 mem] at stored
    refine Store.Lawful.change lawful d others ?_ ?_ fun e => ?_
    · rw [cells, Store.chainOf_free gone, Store.chainOf_used stored, List.append_nil]
    · rw [descs]
      exact List.nodup_append_comm.1 (List.nodup_cons.2 ⟨used, lawful.2.1⟩)
    · rw [descs]
      by_cases same : e = d
      · simp [same, gone]
      · simp [same, others e same, free]

theorem Store.Lawful.releaseIfDone {st : Store} (lawful : st.Lawful) (d : Fin Config.numDescs) :
    (st.releaseIfDone d).Lawful := by
  unfold Store.releaseIfDone
  split
  · exact lawful
  · split
    · exact lawful.release d
    · exact lawful

/-- A segment leaves a descriptor (R98). -/
theorem Store.Lawful.leave {st : Store} (lawful : st.Lawful) (d : Fin Config.numDescs) (g : Seg) : (st.leave d g).Lawful :=
  (lawful.modify d (f := fun x => { x with pendingEgress := x.pendingEgress.erase g }) fun _ => rfl).releaseIfDone d

theorem Store.Lawful.leaveAll {st : Store} (lawful : st.Lawful) (l : List (Fin Config.numDescs)) (g : Seg) :
    (l.foldl (fun st d => st.leave d g) st).Lawful := by
  induction l generalizing st with
  | nil => exact lawful
  | cons d l ih => exact ih (lawful.leave d g)

/-- A transaction leaves a descriptor (R99). -/
theorem Store.Lawful.dropTxn {st : Store} (lawful : st.Lawful) (d : Fin Config.numDescs) : (st.dropTxn d).Lawful :=
  (lawful.modify d (f := fun x => { x with txn := none }) fun _ => rfl).releaseIfDone d

/-! ### Cells and descriptors taken (R76, R80, R94, R95, R103) -/

/-- The head descriptor is taken with cells from the head of the free list. -/
theorem Store.Lawful.take {st st' : Store} (lawful : st.Lawful) {d : Fin Config.numDescs} {ds : List (Fin Config.numDescs)}
    (head : st.freeDescs = d :: ds) {x : Desc} (others : ∀ e, st'.desc e = if e = d then some x else st.desc e)
    (descs : st'.freeDescs = ds) (cells : st.freeCells = x.chain ++ st'.freeCells) : st'.Lawful := by
  have free := lawful.2.2
  have once := lawful.2.1
  have wasFree : st.desc d = none := (free d).1 (by simp [head])
  rw [head] at once
  obtain ⟨new, once⟩ := List.nodup_cons.1 once
  have now : st'.desc d = some x := (others d).trans (if_pos rfl)
  refine Store.Lawful.change lawful d (fun e other => (others e).trans (if_neg other)) ?_ (descs ▸ once) fun e => ?_
  · rw [Store.chainOf_used now, Store.chainOf_free wasFree, cells, List.append_nil]
    exact List.perm_append_comm
  · rw [descs, others]
    by_cases same : e = d
    · simp [same, new]
    · simp [same, ← free, head]

/-- An admission's claim (R76). -/
theorem Store.Lawful.openFrame {st st' : Store} (lawful : st.Lawful) {cls : FrameClass} {g : Seg} {ch : Ch} {bad : Bool}
    {r : Option (Fin Config.numTxns)} {d : Fin Config.numDescs} (claimed : st.openFrame cls g ch bad r = some (d, st')) :
    st'.Lawful := by
  unfold Store.openFrame at claimed
  split at claimed
  next e ds c cs descs cells =>
    simp only [Option.some.injEq, Prod.mk.injEq] at claimed
    obtain ⟨rfl, rfl⟩ := claimed
    exact lawful.take descs (fun e => (Store.desc_congr rfl e).trans (Store.desc_putDesc _ _ e _)) rfl cells
  · cases claimed

/-- A chain grows by the head cell of the free list (R80). -/
theorem Store.Lawful.grow {st st' : Store} (lawful : st.Lawful) {d : Fin Config.numDescs}
    (grown : st.grow d = some st') : st'.Lawful := by
  unfold Store.grow at grown
  split at grown
  next x c cs stored cells =>
    cases grown
    refine lawful.change d (fun e other => (Store.desc_putDesc _ d e _).trans (if_neg other)) ?_ lawful.2.1 fun e => ?_
    · rw [Store.chainOf_used ((Store.desc_putDesc _ d d _).trans (if_pos rfl)), Store.chainOf_used stored, cells]
      simp only [Store.putDesc_fields, ← List.append_assoc]
      exact List.perm_append_singleton c _
    · rw [Store.desc_putDesc]
      refine (lawful.2.2 e).trans ?_
      split
      next same => simp [same, stored]
      next => rfl
  · cases grown

/-- A further character is stored (R79). -/
theorem Store.Lawful.append {st : Store} (lawful : st.Lawful) (d : Fin Config.numDescs) (ch : Ch) (bad : Bool) :
    (st.append d ch bad).Lawful := by
  unfold Store.append
  split
  · exact lawful
  next x stored =>
    dsimp only
    split
    · exact lawful.putDesc stored rfl
    · exact Store.Lawful.putDesc (st := st.writeCell _ _ _) lawful stored rfl

/-- A reply's claim (R103): the descriptor taken, its cells, and what is left. -/
theorem Store.allocReply_some {st st' : Store} {reply : List Byte} {d : Fin Config.numDescs}
    (claimed : st.allocReply reply = some (d, st')) : ∃ x : Desc,
      x = ⟨.ready, .reply, none, reply.getD 0 0, reply.length, st.freeCells.take ((reply.length + 15) / 16), false, none, 0⟩
      ∧ st.freeDescs = d :: st'.freeDescs ∧ (reply.length + 15) / 16 ≤ st.freeCells.length
      ∧ st'.freeCells = st.freeCells.drop ((reply.length + 15) / 16)
      ∧ (∀ e, st'.desc e = if e = d then some x else st.desc e)
      ∧ st' = (({ st with freeDescs := st'.freeDescs, freeCells := st'.freeCells }).putDesc d (some x)).fill x.chain 0 reply := by
  unfold Store.allocReply at claimed
  dsimp only at claimed
  split at claimed
  · cases claimed
  next e ds descs =>
    split at claimed
    next room =>
      simp only [Option.some.injEq, Prod.mk.injEq] at claimed
      obtain ⟨rfl, rfl⟩ := claimed
      refine ⟨_, rfl, ?_, room, ?_, fun q => ?_, ?_⟩
      · rw [(Store.fill_fields ..).2.2, descs]; rfl
      · rw [(Store.fill_fields ..).2.1]; rfl
      · rw [Store.desc_congr (Store.fill_fields ..).1, Store.desc_putDesc]; rfl
      · rw [(Store.fill_fields ..).2.1, (Store.fill_fields ..).2.2]; rfl
    · cases claimed

theorem Store.Lawful.allocReply {st st' : Store} (lawful : st.Lawful) {reply : List Byte} {d : Fin Config.numDescs}
    (claimed : st.allocReply reply = some (d, st')) : st'.Lawful := by
  obtain ⟨x, rfl, descs, _, cells, others, _⟩ := Store.allocReply_some claimed
  refine lawful.take descs others rfl ?_
  rw [cells, List.take_append_drop]

/-! ### Everything free (R106) -/

theorem Store.allFree_desc (cells : Vector (Vector Ch 16) Config.numCells) (d : Fin Config.numDescs) :
    (Store.allFree cells).desc d = none := by simp [Store.desc, Store.allFree]

theorem Store.allFree_lawful (cells : Vector (Vector Ch 16) Config.numCells) : (Store.allFree cells).Lawful := by
  have empty : (Store.allFree cells).chains = [] := by
    simp only [Store.chains, Store.allFree_desc, List.flatMap_eq_nil_iff, implies_true]
  refine ⟨?_, ascendingDescs_nodup, fun d => ?_⟩
  · rw [empty, List.append_nil]
    exact .refl _
  · simp only [Store.allFree_desc, iff_true]
    exact mem_ascendingDescs d

end Sys2Proof.Machine
end

