-- ==== Sys2Proof/Proofs/StoreLaw.lean ====
section
/-!
Every step keeps the law of the store (R92, R95, R100): each operation of the machine leaves the store, or changes it by the
operations of the frame store.
-/

namespace Sys2Proof.Machine

/-- t keeps the law of the store where s has it. -/
def State.KeepsStore (s t : State) : Prop := s.store.Lawful → t.store.Lawful

section
variable {s : State} {g : Seg} {r : Fin Config.numTxns} {d : Fin Config.numDescs}

theorem State.KeepsStore.of_same {t : State} (store : t.store = s.store) : s.KeepsStore t := fun lawful => store ▸ lawful

theorem State.KeepsStore.refl (s : State) : s.KeepsStore s := fun lawful => lawful

theorem State.KeepsStore.trans {t u : State} (first : s.KeepsStore t) (next : t.KeepsStore u) : s.KeepsStore u :=
  fun lawful => next (first lawful)

/-! ### Descriptors given up (R98 to R100) -/

theorem State.dropRequest_keepsStore (s : State) (t : Txn) : s.KeepsStore (s.dropRequest t) := by
  unfold State.dropRequest
  split
  · exact fun lawful => lawful.dropTxn _
  · exact .refl s

theorem State.releaseFrame_keepsStore (s : State) (f : Frame) : s.KeepsStore (s.releaseFrame f) := by
  unfold State.releaseFrame
  split
  · exact fun lawful => lawful.release _
  · exact .refl s

/-- Copies leave a lane (R98). -/
theorem State.leaveAll_keepsStore (s : State) (l : List (Fin Config.numDescs)) (g : Seg) :
    s.KeepsStore (l.foldl (fun s d => s.mapStore fun st => st.leave d g) s) := by
  rw [State.leaveAll_eq]
  exact fun lawful => lawful.leaveAll l g

theorem State.dropItem_keepsStore (s : State) (g : Seg) (i : Item) : s.KeepsStore (s.dropItem g i) := by
  unfold State.dropItem
  dsimp only
  split
  · exact .of_same rfl
  · exact .of_same rfl
  · exact fun lawful => lawful.leave _ g
  · exact fun lawful => lawful.leave _ g

/-- The copies in a reply lane whose send has not started (R27, R48). -/
def Egress.unstarted (e : Egress) : List ReplyCopy := e.replyLane.filter fun c => e.startedReply != some c.desc

/-- What is left of a scheduler whose unstarted replies are withdrawn (R27, R48). -/
def Egress.withdrawn (e : Egress) : Egress :=
  { e with
    replyLane := e.replyLane.filter fun c => e.startedReply == some c.desc
    hand := match e.hand with
      | some ⟨.reply _, false, _⟩ => none
      | h => h }

/-- Withdrawing the unstarted replies: the scheduler, the store, a counter and the pending own address. -/
theorem State.withdrawReplies_eq (s : State) (g : Seg) : ∃ k m, s.withdrawReplies g = { s with
    egress := s.egress.set g (s.egress.get g).withdrawn
    store := ((s.egress.get g).unstarted.map ReplyCopy.desc).foldl (fun st d => st.leave d g) s.store
    counters := k, mgmt := m } := by
  unfold State.withdrawReplies
  dsimp only
  rw [State.withdraw_fold, List.foldl_map]
  obtain ⟨m, settled⟩ := State.settlePendingOwn_only { s.setEgress g (s.egress.get g).withdrawn with
    store := (s.egress.get g).unstarted.foldl (fun st c => st.leave c.desc g) s.store
    counters := s.counters.raisedBy g 12 (s.egress.get g).unstarted.length }
  exact ⟨_, m, settled⟩

theorem State.withdrawReplies_keepsStore (s : State) (g : Seg) : s.KeepsStore (s.withdrawReplies g) := by
  obtain ⟨k, m, withdrawn⟩ := s.withdrawReplies_eq g
  rw [withdrawn]
  exact fun lawful => lawful.leaveAll _ g

/-- A copy is offered to a reply lane (R110). -/
theorem State.offerReply_keepsStore (s : State) (g : Seg) (d : Fin Config.numDescs) (a : Option Armed) :
    s.KeepsStore (s.offerReply g d a) := by
  unfold State.offerReply
  dsimp only
  split
  · exact fun lawful => lawful.modify d fun _ => rfl
  · exact fun lawful => lawful.releaseIfDone d

/-! ### Transactions (R27 to R51) -/

theorem State.closeTxn_keepsStore (s : State) (r : Fin Config.numTxns) (o : TxnOutcome) : s.KeepsStore (s.closeTxn r o) := by
  obtain ⟨x, e, k, h⟩ := s.closeTxn_only r o
  exact .of_same (by rw [h])

theorem State.cancelWaiting_keepsStore (s : State) (r : Fin Config.numTxns) (o : TxnOutcome) :
    s.KeepsStore (s.cancelWaiting r o) := by
  unfold State.cancelWaiting
  split
  · exact .refl s
  · exact (s.dropRequest_keepsStore _).trans (State.closeTxn_keepsStore _ r o)

theorem State.countIf_keepsStore (s : State) (b : Bool) (g : Seg) (c : SegCounter) : s.KeepsStore (s.countIf b g c) := by
  obtain ⟨k, h⟩ := s.countIf_only b g c
  exact .of_same (by rw [h])

theorem State.abandonLive_keepsStore (s : State) (g : Seg) : s.KeepsStore (s.abandonLive g) := by
  unfold State.abandonLive
  split
  · exact .refl s
  · split
    · exact .refl s
    · split
      · exact State.KeepsStore.trans (s.cancelWaiting_keepsStore _ _) (.of_same rfl)
      · exact State.KeepsStore.trans (.of_same rfl) (State.countIf_keepsStore (s.putTxn _ _) _ g _)

theorem State.abandonOrigin_keepsStore (s : State) (g : Seg) : s.KeepsStore (s.abandonOrigin g) :=
  ((s.abandonLive_keepsStore g).trans (State.withdrawReplies_keepsStore _ g)).trans (.of_same rfl)

theorem State.becomePending_keepsStore (s : State) (r : Fin Config.numTxns) : s.KeepsStore (s.becomePending r) := by
  unfold State.becomePending
  split
  · exact .refl s
  · dsimp only
    split
    · exact State.KeepsStore.trans (.of_same rfl) (State.cancelWaiting_keepsStore (s.putTxn r _) r _)
    · exact .of_same rfl

/-- A launch writes the request's descriptor and no other (R33). -/
theorem State.launch_keepsStore (s : State) (older : List (Fin Config.numTxns)) (r : Fin Config.numTxns) :
    s.KeepsStore (s.launch older r) := by
  cases used : s.txn r with
  | none =>
    simp only [State.launch, used]
    exact .refl s
  | some t =>
    obtain ⟨v, _, _, launched, result, _⟩ := s.launch_eq older used
    obtain ⟨k, bypassed⟩ := v.raiseBypass_eq older t.egress
    intro lawful
    rw [launched, bypassed, result]
    dsimp only
    split
    · exact lawful.modify _ fun _ => rfl
    · exact lawful

theorem State.scanFrom_keepsStore (l : List (Fin Config.numTxns)) (s : State) (older : List (Fin Config.numTxns)) :
    s.KeepsStore (s.scanFrom older l) := by
  induction l generalizing s older with
  | nil => exact .refl s
  | cons r l ih =>
    unfold State.scanFrom
    split
    · exact (s.launch_keepsStore older r).trans (ih _ older)
    · exact ih s (older ++ [r])

theorem State.copyFailed_keepsStore (s : State) (g : Seg) : s.KeepsStore (s.copyFailed g) := by
  obtain ⟨x, e, k, h⟩ := s.copyFailed_only g
  exact .of_same (by rw [h])

theorem State.copyCompleted_keepsStore (s : State) (g : Seg) : s.KeepsStore (s.copyCompleted g) := by
  obtain ⟨x, e, k, h⟩ := s.copyCompleted_only g
  exact .of_same (by rw [h])

theorem State.responseIntact_keepsStore (s : State) (r : Fin Config.numTxns) (g : Seg) (d : Fin Config.numDescs) :
    s.KeepsStore (s.responseIntact r g d) := by
  have ends : ∀ (v : State) (a : Byte), v.KeepsStore (((v.releaseGrant g).closeTxn r .answered).learn a g) := fun v a => by
    obtain ⟨b, l, learned⟩ := State.learn_only ((v.releaseGrant g).closeTxn r .answered) a g
    exact (State.closeTxn_keepsStore (v.releaseGrant g) r .answered).trans (.of_same (by rw [learned]))
  unfold State.responseIntact
  split
  · exact fun lawful => lawful.dropTxn d
  · refine State.KeepsStore.trans ?_ (ends _ _)
    split
    · exact fun lawful => lawful.dropTxn d
    · exact State.KeepsStore.trans (t := s.mapStore fun st => st.modify d fun x => { x with txn := none })
        (fun lawful => lawful.modify d fun _ => rfl) (State.offerReply_keepsStore _ _ d none)

theorem State.pruneWaiting_keepsStore (s : State) (g : Seg) : s.KeepsStore (s.pruneWaiting g) := by
  unfold State.pruneWaiting
  generalize s.txns.waiting = l
  induction l generalizing s with
  | nil => exact .refl s
  | cons q l ih =>
    rw [List.foldl_cons]
    refine State.KeepsStore.trans ?_ (ih _)
    split
    · exact .refl s
    · dsimp only
      split
      · split
        · exact State.KeepsStore.trans (.of_same rfl) (State.cancelWaiting_keepsStore (s.putTxn q _) q _)
        · exact .of_same rfl
      · exact .refl s

/-! ### Frames received (R76 to R90) -/

theorem State.admitRecord_keepsStore (s : State) (g : Seg) (cls : FrameClass) (kind : TxnKind) (m : SegSet)
    (tc : Option TimeoutClass) (c : RxChar) : s.KeepsStore (s.admitRecord g cls kind m tc c) := by
  unfold State.admitRecord
  dsimp only
  split
  · exact .of_same rfl
  · split
    · exact .of_same rfl
    · split
      · exact .of_same rfl
      next claimed => exact fun lawful => lawful.openFrame claimed

theorem State.admitPlain_keepsStore (s : State) (g : Seg) (cls : FrameClass) (r : Option (Fin Config.numTxns)) (c : RxChar) :
    s.KeepsStore (s.admitPlain g cls r c) := by
  unfold State.admitPlain
  dsimp only
  split
  · exact .of_same rfl
  · split
    · exact .of_same rfl
    next claimed => exact fun lawful => lawful.openFrame claimed

theorem State.beginFrame_keepsStore (s : State) (g : Seg) (c : RxChar) : s.KeepsStore (s.beginFrame g c) := by
  unfold State.beginFrame
  split
  · exact .refl s
  · exact s.admitRecord_keepsStore g _ _ _ _ c
  next r t _ =>
    obtain ⟨x, matched⟩ := s.matchWindow_only r t g
    exact State.KeepsStore.trans (.of_same (by rw [matched])) (State.admitPlain_keepsStore (s.matchWindow r t g) g _ _ c)
  · exact State.KeepsStore.trans (.of_same rfl) (State.admitPlain_keepsStore (s.count g .unsolicited) g _ _ c)
  · split <;> exact .of_same rfl

theorem State.growFrame_keepsStore (s : State) (g : Seg) (f : Frame) (c : RxChar) : s.KeepsStore (s.growFrame g f c) := by
  unfold State.growFrame
  split
  · exact .refl s
  · split
    · exact .refl s
    · dsimp only
      split
      · exact .of_same rfl
      · split
        · split
          · exact .of_same rfl
          next grown => exact fun lawful => (lawful.grow grown).append _ _ _
        · exact fun lawful => lawful.append _ _ _

theorem State.forwardUnsolicited_keepsStore (s : State) (d : Fin Config.numDescs) :
    s.KeepsStore (s.forwardUnsolicited d) := by
  have offers : ∀ (l : List Seg) (s : State), s.KeepsStore (l.foldl (State.offerBulk d) s) := by
    intro l
    induction l with
    | nil => exact .refl
    | cons u l ih =>
      intro s
      refine State.KeepsStore.trans ?_ (ih (State.offerBulk d s u))
      unfold State.offerBulk
      split
      · split
        · exact fun lawful => lawful.modify d fun _ => rfl
        · exact .of_same rfl
      · exact .refl s
  rw [State.forwardUnsolicited_eq]
  exact fun lawful => (offers _ s lawful).releaseIfDone d

theorem State.enterService_keepsStore (s : State) (g : Seg) (cls : FrameClass) (r : Fin Config.numTxns)
    (d : Fin Config.numDescs) : s.KeepsStore (s.enterService g cls r d) := by
  unfold State.enterService
  dsimp only
  split
  · exact fun lawful => lawful.dropTxn d
  · refine (s.abandonOrigin_keepsStore g).trans (State.KeepsStore.trans (t := if cls = .management then
      (s.abandonOrigin g).becomeExecuting r (arg (s.store.values d) 1) (arg (s.store.values d) 2)
      else (s.abandonOrigin g).becomePending r) ?_ ?_)
    · split
      · obtain ⟨x, m, h⟩ := State.becomeExecuting_only (s.abandonOrigin g) r (arg (s.store.values d) 1)
          (arg (s.store.values d) 2)
        exact .of_same (by rw [h])
      · exact State.becomePending_keepsStore _ r
    · obtain ⟨e, h⟩ := State.setBackBulk_only (if cls = .management then
        (s.abandonOrigin g).becomeExecuting r (arg (s.store.values d) 1) (arg (s.store.values d) 2)
        else (s.abandonOrigin g).becomePending r) g
      exact .of_same (by rw [h])

theorem State.handOn_keepsStore (s : State) (g : Seg) (f : Frame) (d : Fin Config.numDescs) :
    s.KeepsStore (s.handOn g f d) := by
  refine State.KeepsStore.trans (t := s.mapStore fun st => st.modify d fun x => { x with state := .ready })
    (fun lawful => lawful.modify d fun _ => rfl) ?_
  unfold State.handOn
  dsimp only
  split
  · exact State.enterService_keepsStore _ g _ _ d
  · exact State.enterService_keepsStore _ g _ _ d
  · exact State.enterService_keepsStore _ g _ _ d
  · exact State.responseIntact_keepsStore _ _ g d
  · exact State.forwardUnsolicited_keepsStore _ d
  · exact .refl _

theorem State.endUnkept_keepsStore (s : State) (g : Seg) (f : Frame) (o : Option TxnOutcome) :
    s.KeepsStore (s.endUnkept g f o) := by
  unfold State.endUnkept
  split
  · exact .of_same rfl
  · split
    next r o _ _ =>
      obtain ⟨x, e, k, h⟩ := s.responseFailed_only r g o
      exact .of_same (by rw [h])
    · exact .refl s

theorem State.endFrameOf_keepsStore (s : State) (g : Seg) (cause : EndCause) (skip : Option SkipReason) (f : Frame) :
    s.KeepsStore (s.endFrameOf g cause skip f) := by
  have placed : ∀ v : State, v.KeepsStore (v.placeIntent g f cause) := fun v => by
    unfold State.placeIntent
    split
    · split
      · exact .refl v
      · obtain ⟨e, k, h⟩ := v.notify_only g _ f.station
        exact .of_same (by rw [h])
    · exact .refl v
  have counts : ∀ b b' : Bool, s.KeepsStore ((((s.setReceiver g .hunt).count g .framesReceived).countIf b g .damaged).countIf
      b' g .noBuffer) := fun b b' =>
    (State.KeepsStore.trans (.of_same rfl) (State.countIf_keepsStore ((s.setReceiver g .hunt).count g .framesReceived) b g
      .damaged)).trans (State.countIf_keepsStore _ b' g .noBuffer)
  unfold State.endFrameOf
  dsimp only
  generalize endingOf cause skip _ = ending
  refine State.KeepsStore.trans ?_ (placed _)
  have counted := counts (ending == .damaged) (ending == .truncated)
  split
  · split
    · exact counted.trans (State.handOn_keepsStore _ g f _)
    · exact counted
  · exact (counted.trans (State.releaseFrame_keepsStore _ f)).trans (State.endUnkept_keepsStore _ g f _)
  · exact (counted.trans (State.releaseFrame_keepsStore _ f)).trans (State.endUnkept_keepsStore _ g f _)
  · exact counted.trans (State.endUnkept_keepsStore _ g f _)

theorem State.endFrame_keepsStore (s : State) (g : Seg) (cause : EndCause) : s.KeepsStore (s.endFrame g cause) := by
  unfold State.endFrame
  split
  · exact s.endFrameOf_keepsStore g cause _ _
  · exact s.endFrameOf_keepsStore g cause _ _
  · exact .refl s
  · exact .refl s

theorem State.receiveChar_keepsStore (s : State) (g : Seg) (c : RxChar) : s.KeepsStore (s.receiveChar g c) := by
  have counted : s.KeepsStore (s.countErrors g c) := by
    obtain ⟨k, h⟩ := s.countErrors_only g c
    exact .of_same (by rw [h])
  have next : s.KeepsStore (((s.countErrors g c).endFrame g .nextAddress).beginFrame g c) :=
    (counted.trans (State.endFrame_keepsStore _ g _)).trans (State.beginFrame_keepsStore _ g c)
  unfold State.receiveChar
  split
  · exact .refl s
  · split
    · exact counted.trans (State.beginFrame_keepsStore _ g c)
    · exact counted.trans (.of_same rfl)
  · split
    · exact next
    · exact counted.trans (State.growFrame_keepsStore _ g _ c)
  · split
    · exact next
    · exact counted

theorem State.receiveBreak_keepsStore (s : State) (g : Seg) : s.KeepsStore (s.receiveBreak g) := by
  by_cases sees : s.receivers.get g = .blind
  · simp only [State.receiveBreak, sees]
    exact .refl s
  · rw [State.receiveBreak_eq sees]
    have ended : s.KeepsStore ((s.endFrame g .aborted).count g .breaks) := (s.endFrame_keepsStore g .aborted).trans (.of_same rfl)
    split
    · exact ended.trans (State.abandonOrigin_keepsStore _ g)
    · exact ended

theorem State.echoCompare_keepsStore (s : State) (g : Seg) (i : EchoItem) : s.KeepsStore (s.echoCompare g i) := by
  obtain ⟨e, l, k, h⟩ := s.echoCompare_only g i
  exact .of_same (by rw [h])

theorem State.breakFound_keepsStore (s : State) (g : Seg) : s.KeepsStore (s.breakFound g) := by
  refine State.KeepsStore.trans (t := s.setRx g (.recover s.time)) (.of_same rfl) ?_
  unfold State.breakFound State.deliverBreak
  split
  · exact State.echoCompare_keepsStore _ g none
  · exact State.receiveBreak_keepsStore _ g

theorem State.characterComplete_keepsStore (s : State) (g : Seg) (x : Samples) :
    s.KeepsStore (s.characterComplete g x) := by
  unfold State.characterComplete
  dsimp only
  split
  · exact .of_same rfl
  · exact s.breakFound_keepsStore g
  next c _ =>
    refine State.KeepsStore.trans (t := s.setRx g (.ready s.time (endsHigh (s.active g) x) false)) (.of_same rfl) ?_
    unfold State.deliverChar
    split
    · exact State.echoCompare_keepsStore _ g (some c)
    · exact State.receiveChar_keepsStore _ g c

theorem State.idleGap_keepsStore (s : State) (g : Seg) : s.KeepsStore (s.idleGap g) := by
  unfold State.idleGap
  dsimp only
  split
  · exact .of_same rfl
  · exact State.KeepsStore.trans (.of_same rfl) (State.endFrame_keepsStore (s.setLine g _) g .idleGap)

/-! ### Restarts (R106, R164 to R166) -/

theorem State.clearAll_keepsStore (s : State) : s.KeepsStore s.clearAll := fun _ => Store.allFree_lawful _

theorem State.discardFrame_keepsStore (s : State) (g : Seg) : s.KeepsStore (s.discardFrame g) := by
  cases framed : (s.receivers.get g).frame with
  | none =>
    simp only [State.discardFrame, framed]
    exact .refl s
  | some f =>
    obtain ⟨_, released⟩ | ⟨r, _, freed⟩ := State.discardFrame_cases framed
    · exact released ▸ s.releaseFrame_keepsStore f
    · exact freed ▸ (s.releaseFrame_keepsStore f).trans (.of_same rfl)

theorem State.restartOrigins_keepsStore (g : Seg) (l : List (Fin Config.numTxns)) (s : State) :
    s.KeepsStore (l.foldl (State.restartOrigin g) s) := by
  induction l generalizing s with
  | nil => exact .refl s
  | cons r l ih =>
    refine State.KeepsStore.trans ?_ (ih (State.restartOrigin g s r))
    unfold State.restartOrigin
    split
    · exact .refl s
    · split
      · split
        · exact s.cancelWaiting_keepsStore r _
        · exact .refl s
        all_goals exact .of_same rfl
      · exact .refl s

theorem State.settlePendingOwn_keepsStore (s : State) : s.KeepsStore s.settlePendingOwn := by
  obtain ⟨m, h⟩ := s.settlePendingOwn_only
  exact .of_same (by rw [h])

theorem State.dropLeaseOf_keepsStore (s : State) (g : Seg) (n : Byte) : s.KeepsStore (s.dropLeaseOf g n) := by
  obtain ⟨l, v, h⟩ := s.dropLeaseOf_only g n
  exact .of_same (by rw [h])

theorem State.restartHolder_keepsStore (s : State) (g : Seg) : s.KeepsStore (s.restartHolder g) := by
  obtain ⟨x, e, k, h⟩ := s.restartHolder_only g
  exact .of_same (by rw [h])

theorem State.segmentRestart_keepsStore (s : State) (g : Seg) : s.KeepsStore (s.segmentRestart g) := by
  have flushed : s.KeepsStore ((s.discardFrame g).flushCopies g) :=
    (s.discardFrame_keepsStore g).trans (State.leaveAll_keepsStore _ _ g)
  have cut : ∀ (u : LineUnit) (z : FrState), s.KeepsStore (((((s.discardFrame g).flushCopies g).setEgress g
      Egress.empty).setLine g u).setReceiver g z) := fun u z => flushed.trans (.of_same rfl)
  have served : ∀ v : State, s.KeepsStore v →
      s.KeepsStore ((ascendingTxns.foldl (State.restartOrigin g) v).restartHolder g) := fun v kept =>
    (kept.trans (State.restartOrigins_keepsStore g ascendingTxns v)).trans (State.restartHolder_keepsStore _ g)
  have ends : ∀ v w : State, s.KeepsStore v → w = (ascendingTxns.foldl (State.restartOrigin g) v).restartHolder g →
      s.KeepsStore (((State.settlePendingOwn { w.setLastTimedOut g none with
        mgmt := { w.mgmt with caches := w.mgmt.caches.set g none } }).raise .restarted (some g) none 3).dropLeaseOf g 2) := by
    intro v w kept same
    refine State.KeepsStore.trans ?_ (State.dropLeaseOf_keepsStore _ g 2)
    refine State.KeepsStore.trans (t := State.settlePendingOwn _) ?_ (.of_same rfl)
    refine State.KeepsStore.trans ?_ (State.settlePendingOwn_keepsStore _)
    exact State.KeepsStore.trans (t := w) (same ▸ served v kept) (.of_same rfl)
  unfold State.segmentRestart
  exact ends _ _ (cut _ _) rfl

/-! ### Sending (R121, R122, R135) -/

theorem State.sendCollided_keepsStore (s : State) (g : Seg) : s.KeepsStore (s.sendCollided g) := by
  have ends : ∀ (request notice : Bool) (v : State), v.KeepsStore
      (if request = true then (if notice = true then v.countNoticeLost else v).copyFailed g
        else if notice = true then v.countNoticeLost else v) := by
    intro request notice v
    have lost : v.KeepsStore (if notice = true then v.countNoticeLost else v) := by
      split
      · exact .of_same rfl
      · exact .refl v
    split
    · exact lost.trans (State.copyFailed_keepsStore _ g)
    · exact lost
  unfold State.sendCollided
  split
  · exact .refl s
  next h _ =>
    exact (((s.dropItem_keepsStore g h.item).trans (ends (s.isRequestCopy h.item) h.item.isNotice _)).trans
      (State.settlePendingOwn_keepsStore _)).trans (.of_same rfl)

theorem State.backOff_keepsStore (s : State) (g : Seg) : s.KeepsStore (s.backOff g) := by
  unfold State.backOff
  dsimp only
  split
  · exact (s.sendCollided_keepsStore g).trans (.of_same rfl)
  · exact .of_same rfl

theorem State.takeDeferred_keepsStore (s : State) (g : Seg) (a : Armed) : s.KeepsStore (s.takeDeferred g a) := by
  unfold State.takeDeferred
  dsimp only
  split
  · exact fun _ => Store.allFree_lawful _
  · exact fun _ => Store.allFree_lawful _
  · exact .of_same rfl

theorem State.sendCompleted_keepsStore (s : State) (g : Seg) : s.KeepsStore (s.sendCompleted g) := by
  unfold State.sendCompleted
  split
  · exact .refl s
  next h _ =>
    have dropped : s.KeepsStore ((s.dropItem g h.item).count g .framesSent) :=
      (s.dropItem_keepsStore g h.item).trans (.of_same rfl)
    have reported : s.KeepsStore (if s.isRequestCopy h.item = true
        then ((s.dropItem g h.item).count g .framesSent).copyCompleted g
        else (s.dropItem g h.item).count g .framesSent) := by
      split
      · exact dropped.trans (State.copyCompleted_keepsStore _ g)
      · exact dropped
    dsimp only
    split
    · exact (reported.trans (State.takeDeferred_keepsStore _ g _)).trans (State.settlePendingOwn_keepsStore _)
    · exact reported

theorem State.endTail_keepsStore (s : State) (g : Seg) : s.KeepsStore (s.endTail g) := by
  unfold State.endTail
  dsimp only
  split
  · exact State.KeepsStore.trans (.of_same rfl) (State.backOff_keepsStore (s.releaseLine g) g)
  · exact State.KeepsStore.trans (.of_same rfl) (State.sendCompleted_keepsStore ((s.releaseLine g).setEgress g _) g)

theorem State.startHeard_keepsStore (s : State) (g : Seg) : s.KeepsStore (s.startHeard g) := by
  have taken : s.KeepsStore (s.takeStart g) := by
    unfold State.takeStart
    dsimp only
    split
    · exact .of_same rfl
    all_goals exact .refl s
  refine taken.trans ?_
  unfold State.startHeard
  dsimp only
  split
  · exact State.KeepsStore.trans (.of_same rfl)
      (State.backOff_keepsStore (((s.takeStart g).releaseLine g).failAttempt g) g)
  all_goals exact .refl _

/-! ### Settings applies (R160) -/

theorem State.changeRole_keepsStore (s : State) (g : Seg) (before after : Role) :
    s.KeepsStore (s.changeRole g before after) := by
  unfold State.changeRole
  split
  · exact .refl s
  · split
    · exact (State.KeepsStore.trans (.of_same rfl) (State.pruneWaiting_keepsStore (s.unlearnSegment g) g)).trans (.of_same rfl)
    · refine (s.abandonLive_keepsStore g).trans ?_
      unfold State.flushBulk
      exact State.KeepsStore.trans (.of_same rfl) (State.leaveAll_keepsStore ((s.abandonLive g).setEgress g _) _ g)
    · exact .refl s

theorem State.applySettings_keepsStore (s : State) (g : Seg) : s.KeepsStore (s.applySettings g) := by
  unfold State.applySettings
  dsimp only
  have changed : ∀ u, s.KeepsStore ((State.setLine { s with settings := s.settings.apply g } g u).changeRole g
      (s.active g).role (s.settings.staged.get g).role) := fun u =>
    State.KeepsStore.trans (t := State.setLine { s with settings := s.settings.apply g } g u) (.of_same rfl)
      (State.changeRole_keepsStore _ g _ _)
  refine State.KeepsStore.trans (t := State.applyLease _ g _) ?_ (.of_same rfl)
  unfold State.applyLease
  split
  · exact (changed _).trans (State.dropLeaseOf_keepsStore _ g 1)
  · exact changed _

/-! ### The management engine (R103, R130 to R134) -/

theorem State.handOver_keepsStore (s : State) (g : Seg) (reply : List Byte) (a : Option Armed) :
    s.KeepsStore (s.handOver g reply a) := by
  unfold State.handOver
  split
  · exact .of_same rfl
  next d st claimed =>
    exact State.KeepsStore.trans (fun lawful => lawful.allocReply claimed)
      (State.offerReply_keepsStore { s with store := st } g d a)

theorem State.endExecution_keepsStore (s : State) (r : Fin Config.numTxns) (reply : List Byte) (a : Option Armed) :
    s.KeepsStore (s.endExecution r reply a) := by
  have ends : ∀ v : State, s.KeepsStore v → s.KeepsStore (v.freeRecord r).idleEngine.settlePendingOwn := fun v kept =>
    kept.trans (State.KeepsStore.trans (.of_same rfl) (State.settlePendingOwn_keepsStore (v.freeRecord r).idleEngine))
  unfold State.endExecution
  split
  · exact State.KeepsStore.trans (.of_same rfl) (State.settlePendingOwn_keepsStore s.idleEngine)
  next t _ =>
    have dropped := s.dropRequest_keepsStore t
    dsimp only
    rw [State.closeFree _ r (by split <;> rfl)]
    refine ends _ ?_
    split
    · exact dropped
    · exact dropped.trans (State.handOver_keepsStore _ t.origin reply a)

theorem State.finishCached_keepsStore (s : State) (r : Fin Config.numTxns) (t : Txn) (p : Reply) :
    s.KeepsStore (s.finishCached r t p) :=
  State.KeepsStore.trans (.of_same rfl) (State.endExecution_keepsStore (s.setCache t.origin _) r _ _)

theorem State.refuseUncached_keepsStore (s : State) (r : Fin Config.numTxns) (t : Txn) (status : Status) :
    s.KeepsStore (s.refuseUncached r t status) :=
  State.KeepsStore.trans (.of_same rfl)
    (State.endExecution_keepsStore { s with mgmt := { s.mgmt with buffer := s.buildReply t ⟨status, [], none⟩ } } r _ none)

theorem State.answerCached_keepsStore (s : State) (r : Fin Config.numTxns) (c : CacheEntry) :
    s.KeepsStore (s.answerCached r c) := by
  unfold State.answerCached
  refine State.KeepsStore.trans ?_ (State.endExecution_keepsStore _ r _ _)
  split
  · unfold State.pendAgain
    split
    · exact .refl s
    · exact .of_same rfl
  · exact .refl s
  · exact .refl s

/-- Carrying the command out keeps the law of the store. -/
def Carry.KeepsStore (carry : Carry) : Prop :=
  ∀ (s : State) (g : Seg) (args : List Byte), s.KeepsStore (carry s g args).state

theorem State.checked_keepsStore (s : State) (r : Fin Config.numTxns) (t : Txn) {after : State → List Byte → State}
    (follows : ∀ args, s.KeepsStore (after s args)) : s.KeepsStore (s.checked r t after) := by
  unfold State.checked
  dsimp only
  split
  · exact s.refuseUncached_keepsStore r t _
  · split
    · exact s.refuseUncached_keepsStore r t _
    · split
      · exact s.answerCached_keepsStore r _
      · exact follows _

theorem State.carryOut_keepsStore (s : State) (r : Fin Config.numTxns) (t : Txn) (args : List Byte) (c : MgmtCommand)
    {carry : Carry} (keeps : carry.KeepsStore) : s.KeepsStore (s.carryOut r t args c carry) := by
  have carried := keeps s t.origin args
  unfold State.carryOut
  split
  · split
    · exact s.finishCached_keepsStore r t _
    · split
      next v p result =>
        rw [result] at carried
        exact State.KeepsStore.trans (t := v) carried (v.finishCached_keepsStore r t p)
      next v w result =>
        rw [result] at carried
        exact carried
  · exact s.refuseUncached_keepsStore r t _

theorem State.takeLocal_keepsStore (s : State) (c : MgmtCommand) {carry : Carry} (keeps : carry.KeepsStore) :
    s.KeepsStore (s.takeLocal c carry) := by
  unfold State.takeLocal
  split
  · exact .refl s
  next r t _ =>
    exact State.KeepsStore.trans (t := s.dequeue) (.of_same rfl)
      (s.dequeue.checked_keepsStore r t fun args => s.dequeue.carryOut_keepsStore r t args c keeps)

theorem State.takeUnknown_keepsStore (s : State) : s.KeepsStore s.takeUnknown := by
  unfold State.takeUnknown
  split
  · exact .refl s
  next r t _ =>
    exact State.KeepsStore.trans (t := s.dequeue) (.of_same rfl)
      (s.dequeue.checked_keepsStore r t fun _ => s.dequeue.finishCached_keepsStore r t _)

theorem State.readStations_keepsStore (s : State) (n : Nat) : s.KeepsStore (s.readStations n) := by
  unfold State.readStations
  split
  · dsimp only
    split
    · split
      · exact s.finishCached_keepsStore _ _ _
      · exact .of_same rfl
    · exact .of_same rfl
  all_goals exact .refl s

theorem State.readCounterBlock_keepsStore (s : State) (n : Nat) : s.KeepsStore (s.readCounterBlock n) := by
  unfold State.readCounterBlock
  split
  next r clear code next left acc _ =>
    dsimp only
    generalize zeroed : (if clear = true then { s with counters := s.counters.zeroBlock code next (min n left) } else s) = v
    have kept : s.KeepsStore v := by
      rw [← zeroed]
      split <;> exact .of_same rfl
    split
    · split
      · exact kept.trans (v.finishCached_keepsStore _ _ _)
      · exact kept.trans (.of_same rfl)
    · exact kept.trans (.of_same rfl)
  all_goals exact .refl s

theorem State.walkVisit_keepsStore (s : State) : s.KeepsStore s.walkVisit := by
  unfold State.walkVisit
  split
  next r start cursor mask cleared _ =>
    dsimp only
    generalize visited : (if (s.entry cursor).learnedIn mask = true then s.putEntry cursor .unassigned else s) = v
    have kept : s.KeepsStore v := by
      rw [← visited]
      split <;> exact .of_same rfl
    have raised : ∀ n, s.KeepsStore (v.raise .bulkUnlearn none none n) := fun _ => kept.trans (.of_same rfl)
    split
    · split
      · exact (raised _).trans (State.finishCached_keepsStore _ _ _ _)
      · exact kept.trans (.of_same rfl)
    · exact kept.trans (.of_same rfl)
  all_goals exact .refl s

/-! ### The commands, each (R137 to R152) -/

theorem carryWriteStation_store (s : State) (g : Seg) (args : List Byte) : (carryWriteStation s g args).state.store = s.store := by
  unfold carryWriteStation
  split <;> rfl

theorem carryWriteSegment_store (s : State) (g : Seg) (args : List Byte) : (carryWriteSegment s g args).state.store = s.store := by
  unfold carryWriteSegment
  split
  · split <;> rfl
  · rfl

theorem carryApplySegment_store (s : State) (g : Seg) (args : List Byte) : (carryApplySegment s g args).state.store = s.store := by
  unfold carryApplySegment
  split
  · rfl
  · split
    · rfl
    · split <;> rfl

theorem carryWriteBridge_store (s : State) (g : Seg) (args : List Byte) : (carryWriteBridge s g args).state.store = s.store := by
  unfold carryWriteBridge
  split
  · rfl
  · split
    · rfl
    · split <;> rfl

theorem carryReadEvents_store (s : State) (g : Seg) (args : List Byte) : (carryReadEvents s g args).state.store = s.store := by
  unfold carryReadEvents
  dsimp only
  split <;> rfl

theorem carryTakeLease_store (s : State) (g : Seg) (args : List Byte) : (carryTakeLease s g args).state.store = s.store := by
  unfold carryTakeLease
  dsimp only
  split
  · rfl
  · split
    · rfl
    · split
      · rfl
      · split <;> rfl

theorem carryDropLease_store (s : State) (g : Seg) (args : List Byte) : (carryDropLease s g args).state.store = s.store := by
  unfold carryDropLease
  split
  · rfl
  · split
    · obtain ⟨l, v, h⟩ := s.dropLeaseOf_only g 0
      simp only [Carried.answer, Carried.state, h]
    · rfl

theorem carryRestartSegment_keepsStore : Carry.KeepsStore carryRestartSegment := by
  intro s g args
  unfold carryRestartSegment
  split
  · exact .refl s
  · split
    · exact .refl s
    · exact s.segmentRestart_keepsStore _

/-! ### Every step -/

/-- An event keeps the law where its effect does. -/
theorem State.takeEvent_keepsStore {v : State} {due : Option Nat} {effect : State → State}
    (taken : s.takeEvent due effect = .next v) (keeps : ∀ u : State, u.KeepsStore (effect u)) : s.KeepsStore v := by
  have result := Host.Outcome.next.inj taken
  split at result
  · exact .of_same (by rw [← result])
  · split at result
    · exact .of_same (by rw [← result])
    next m => exact result ▸ State.KeepsStore.trans (.of_same rfl) (keeps (s.advance m))

/-- A management row keeps the law where carrying its command out does. -/
theorem State.command_keepsStore {v : State} {c : MgmtCommand} {carry : Carry} (taken : s.command c carry = .next v)
    (keeps : carry.KeepsStore) : s.KeepsStore v :=
  State.takeEvent_keepsStore taken fun u => u.takeLocal_keepsStore c keeps

theorem exec_keepsStore {c : Instr} {v : State} (taken : exec c s = .next v) : s.KeepsStore v := by
  have same : ∀ {due : Option Nat} {effect : State → State}, s.takeEvent due effect = .next v →
      (∀ u, (effect u).store = u.store) → s.KeepsStore v := fun took unchanged =>
    State.takeEvent_keepsStore took fun u => .of_same (unchanged u)
  have reads : ∀ {c : MgmtCommand} {carry : Carry}, s.command c carry = .next v →
      (∀ u g args, (carry u g args).state.store = u.store) → s.KeepsStore v := fun took unchanged =>
    State.command_keepsStore took fun u g args => .of_same (unchanged u g args)
  unfold exec at taken
  cases c with
  | characterComplete g y => exact State.takeEvent_keepsStore taken fun u => u.characterComplete_keepsStore g y
  | breakFound g => exact State.takeEvent_keepsStore taken fun u => u.breakFound_keepsStore g
  | falseStart g => exact same taken fun _ => rfl
  | startWhileDriving g => exact State.takeEvent_keepsStore taken fun u => u.startHeard_keepsStore g
  | recoverEnd g => exact same taken fun _ => rfl
  | idleGapExpiry g => exact State.takeEvent_keepsStore taken fun u => u.idleGap_keepsStore g
  | arbiterScan => exact State.takeEvent_keepsStore taken fun u => State.scanFrom_keepsStore u.txns.waiting u []
  | takeLine g =>
    refine same taken fun u => ?_
    obtain ⟨e, l, f, h⟩ := u.takeLine_only g
    rw [h]
  | leadGuardEnd g =>
    refine same taken fun u => ?_
    obtain ⟨l, e, h⟩ := u.endLead_only g
    rw [h]
  | characterSent g =>
    refine same taken fun u => ?_
    obtain ⟨l, e, h⟩ := u.characterSent_only g
    rw [h]
  | echoDeadline g => exact same taken fun _ => rfl
  | breakSent g =>
    refine same taken fun u => ?_
    obtain ⟨l, e, f, h⟩ := u.breakSent_only g
    rw [h]
  | tailGuardEnd g straps =>
    exact State.takeEvent_keepsStore taken fun u =>
      State.KeepsStore.trans (.of_same rfl) (State.endTail_keepsStore { u with straps := straps } g)
  | backoffEnd g => exact same taken fun _ => rfl
  | responseTimerExpiry r =>
    refine same taken fun u => ?_
    unfold State.responseTimer
    split
    · rfl
    next t _ =>
      obtain ⟨x, e, k, b, l, h⟩ := u.timeOut_only r t
      rw [h]
  | agingTick =>
    refine same taken fun u => ?_
    unfold State.agingTick
    dsimp only
    split <;> rfl
  | sweepVisit =>
    refine same taken fun u => ?_
    unfold State.sweepVisit
    split
    · rfl
    next w _ =>
      obtain ⟨b, l, h⟩ := u.sweepEntry_only w.cursor
      simp only [h]
  | walkVisit => exact State.takeEvent_keepsStore taken State.walkVisit_keepsStore
  | leaseExpiry =>
    refine same taken fun u => ?_
    unfold State.expireLease
    split <;> rfl
  | settingsApply g => exact State.takeEvent_keepsStore taken fun u => u.applySettings_keepsStore g
  | identify => exact reads taken fun _ _ _ => rfl
  | readStatus => exact reads taken fun _ _ _ => rfl
  | readStation => exact reads taken fun _ _ _ => rfl
  | writeStation => exact reads taken carryWriteStation_store
  | readStationRange claims =>
    exact State.takeEvent_keepsStore taken fun u => (u.takeLocal_keepsStore _ fun s g args =>
      .of_same (by rw [carryReadStationRange_state])).trans (State.readStations_keepsStore _ claims)
  | clearLearned => exact reads taken fun u g args => by rw [carryClearLearned_state]
  | readSegment => exact reads taken fun u g args => by rw [carryReadSegment_state]
  | writeSegment => exact reads taken carryWriteSegment_store
  | applySegment => exact reads taken carryApplySegment_store
  | writeBridge => exact reads taken carryWriteBridge_store
  | readBridge => exact reads taken fun _ _ _ => rfl
  | readCounters claims =>
    exact State.takeEvent_keepsStore taken fun u => (u.takeLocal_keepsStore _ fun s g args =>
      .of_same (by rw [carryCounters_state])).trans (State.readCounterBlock_keepsStore _ claims)
  | readClearCounters claims =>
    exact State.takeEvent_keepsStore taken fun u => (u.takeLocal_keepsStore _ fun s g args =>
      .of_same (by rw [carryCounters_state])).trans (State.readCounterBlock_keepsStore _ claims)
  | readEvents => exact reads taken carryReadEvents_store
  | takeLease => exact reads taken carryTakeLease_store
  | dropLease => exact reads taken carryDropLease_store
  | restart => exact reads taken fun u g args => by rw [carryRestart_state]
  | restartSegment => exact State.command_keepsStore taken carryRestartSegment_keepsStore
  | echo => exact reads taken fun _ _ _ => rfl
  | badCommand => exact State.takeEvent_keepsStore taken State.takeUnknown_keepsStore
  | powerOnRestart cause =>
    have result := Host.Outcome.next.inj taken
    subst result
    cases cause <;> exact s.clearAll_keepsStore
  | powerOnRestartEnd straps =>
    have result := Host.Outcome.next.inj taken
    subst result
    split
    · exact State.clearAll_keepsStore { s with straps := straps }
    · exact .refl s
  | fallingEdge g => exact same taken fun _ => rfl

theorem State.idle_store (s : State) : s.idle.store = s.store := by
  unfold State.idle
  split
  · rfl
  · split <;> rfl

end

/-- Settles O57: every step keeps the law of the store, by the commands one by one. -/
theorem storeLawIsKept : Obligations.StoreLawIsKept := by
  intro s t lawful stepped
  unfold step at stepped
  split at stepped
  · cases stepped
    exact s.idle_store ▸ lawful
  · exact exec_keepsStore stepped lawful

end Sys2Proof.Machine
end

