-- ==== Sys2Proof/Proofs/ReplyStorage.lean ====
section
/-!
A reply copied into cells (R92, R103) and handed on (R110, R134): what its descriptor and its cells hold, and what stays.
-/

namespace Sys2Proof.Machine

/-! ### Cells (R92) -/

/-- The character in place k mod 16 of a cell. -/
def Store.place (st : Store) (c : Fin Config.numCells) (k : Nat) : Ch :=
  st.cells[c][k % 16]'(Nat.mod_lt k (by decide))

/-- What a place holds once one is written. -/
theorem Store.place_writeCell (st : Store) (c q : Fin Config.numCells) (k p : Nat) (ch : Ch) :
    (st.writeCell c k ch).place q p = if q = c ∧ p % 16 = k % 16 then ch else st.place q p := by
  simp only [Store.place, Store.writeCell, Fin.getElem_fin, Vector.getElem_set]
  by_cases cell : q = c
  · subst cell
    by_cases here : p % 16 = k % 16
    · simp [here]
    · simp [here, Ne.symm here]
  · have apart : ¬ c.val = q.val := fun same => cell (Fin.ext same.symm)
    simp [cell, apart]

/-- Writing a cell leaves the others. -/
theorem Store.cells_writeCell (st : Store) {c q : Fin Config.numCells} (other : q ≠ c) (k : Nat) (ch : Ch) :
    (st.writeCell c k ch).cells[q] = st.cells[q] := by
  have apart : ¬ c.val = q.val := fun same => other (Fin.ext same.symm)
  simp [Store.writeCell, apart]

/-- Filling a chain leaves the cells outside it (R103). -/
theorem Store.cells_fill {chain : List (Fin Config.numCells)} {q : Fin Config.numCells} (outside : q ∉ chain) (st : Store)
    (k : Nat) (l : List Byte) : (st.fill chain k l).cells[q] = st.cells[q] := by
  induction l generalizing st k with
  | nil => rfl
  | cons b l ih =>
    rw [Store.fill, ih]
    split
    · rfl
    next c at_ =>
      exact st.cells_writeCell (fun same => outside (by rw [same]; exact List.mem_of_getElem? at_)) k _

/-- A chain without repeats filled from character k on: place p of it holds character p, where that is one of those copied
(R103). -/
theorem Store.place_fill {chain : List (Fin Config.numCells)} (once : chain.Nodup) {p : Nat} {q : Fin Config.numCells}
    (cell : chain[p / 16]? = some q) (st : Store) (k : Nat) (l : List Byte) :
    (st.fill chain k l).place q p = if h : k ≤ p ∧ p - k < l.length then ⟨l[p - k], p == 0⟩ else st.place q p := by
  induction l generalizing st k with
  | nil => simp [Store.fill]
  | cons b l ih =>
    have written : Store.place (match chain[k / 16]? with
        | none => st
        | some c => st.writeCell c k ⟨b, k == 0⟩) q p = if p = k then ⟨b, k == 0⟩ else st.place q p := by
      split
      next none_ =>
        have away : p ≠ k := fun same => by simp [← same, cell] at none_
        rw [if_neg away]
      next c at_ =>
        rw [Store.place_writeCell]
        have here : q = c ∧ p % 16 = k % 16 ↔ p = k := by
          refine ⟨fun ⟨same, place⟩ => ?_, fun same => ?_⟩
          · have block : p / 16 = k / 16 := by
              refine (List.getElem?_inj (List.getElem?_eq_some_iff.1 cell).1 once).1 ?_
              rw [cell, at_, same]
            omega
          · subst same
            exact ⟨Option.some.inj (cell.symm.trans at_), rfl⟩
        simp only [here]
    rw [Store.fill]
    refine (ih _ (k + 1)).trans ?_
    by_cases first : p = k
    · subst first
      rw [dif_neg (by omega), dif_pos (by simp)]
      refine written.trans ?_
      simp
    · by_cases later : k + 1 ≤ p ∧ p - (k + 1) < l.length
      · have back : p - k = p - (k + 1) + 1 := by omega
        rw [dif_pos later, dif_pos (by simp only [List.length_cons]; omega)]
        simp only [back, List.getElem_cons_succ]
      · rw [dif_neg later, dif_neg (by simp only [List.length_cons]; omega)]
        refine written.trans ?_
        rw [if_neg first]

/-! ### The reply as stored (R103) -/

/-- A stored character is the one in its place of the chain (R92). -/
theorem Store.charAt_used {st : Store} {d : Fin Config.numDescs} {x : Desc} (stored : st.desc d = some x) (k : Nat) :
    st.charAt d k = if k < x.length then (x.chain[k / 16]?).map fun c => st.place c k else none := by
  simp only [Store.charAt, stored, Desc.cellOf, Config.cellPlaces]
  split
  · cases x.chain[k / 16]? <;> rfl
  · rfl

section
variable {st st' : Store} {reply : List Byte} {d : Fin Config.numDescs}

/-- A store with a free descriptor and cells enough takes a reply (R103). -/
theorem Store.allocReply_room (descs : st.freeDescs ≠ []) (cells : (reply.length + 15) / 16 ≤ st.freeCells.length) :
    ∃ d st', st.allocReply reply = some (d, st') := by
  obtain ⟨d, ds, head⟩ := List.exists_cons_of_ne_nil descs
  unfold Store.allocReply
  simp only [head, cells, reduceIte]
  exact ⟨_, _, rfl⟩

/-- A reply copied into cells none of which is taken twice reads back (R92, R103). -/
theorem Store.charAt_allocReply (once : (st.freeCells.take ((reply.length + 15) / 16)).Nodup)
    (claimed : st.allocReply reply = some (d, st')) (k : Nat) :
    st'.charAt d k = (reply[k]?).map fun b => ⟨b, k == 0⟩ := by
  obtain ⟨x, result, _, room, _, descs, filled⟩ := Store.allocReply_some claimed
  have chain : x.chain = st.freeCells.take ((reply.length + 15) / 16) := by rw [result]
  have length : x.length = reply.length := by rw [result]
  rw [Store.charAt_used ((descs d).trans (if_pos rfl)), length]
  by_cases inside : k < reply.length
  · have block : k / 16 < x.chain.length := by
      rw [chain, List.length_take]
      omega
    have cell : x.chain[k / 16]? = some x.chain[k / 16] := List.getElem?_eq_getElem block
    rw [if_pos inside, cell, Option.map_some, filled, Store.place_fill (chain ▸ once) cell, dif_pos ⟨Nat.zero_le k, inside⟩,
      List.getElem?_eq_getElem inside]
    rfl
  · rw [if_neg inside, List.getElem?_eq_none (Nat.le_of_not_lt inside)]
    rfl

/-- Taking a reply leaves every cell outside its chain (R103). -/
theorem Store.cells_allocReply (claimed : st.allocReply reply = some (d, st')) {c : Fin Config.numCells}
    (outside : c ∉ st.freeCells.take ((reply.length + 15) / 16)) : st'.cells[c] = st.cells[c] := by
  obtain ⟨x, result, _, _, _, _, filled⟩ := Store.allocReply_some claimed
  have chain : x.chain = st.freeCells.take ((reply.length + 15) / 16) := by rw [result]
  rw [filled]
  exact Store.cells_fill (chain ▸ outside) _ 0 reply

/-- A list read place by place. -/
theorem filterMap_getElem?_range (l : List Byte) : (List.range l.length).filterMap (fun k => l[k]?) = l := by
  induction l with
  | nil => rfl
  | cons b l ih =>
    rw [List.length_cons, List.range_succ_eq_map, List.filterMap_cons, List.filterMap_map]
    exact congrArg (b :: ·) ih

/-- The characters of a stored frame, where each reads as that of a list as long as the frame. -/
theorem Store.values_of_charAt {x : Desc} (stored : st.desc d = some x) (length : x.length = reply.length)
    (reads : ∀ k, (st.charAt d k).map Ch.value = reply[k]?) : st.values d = reply := by
  simp only [Store.values, stored, reads, length]
  exact filterMap_getElem?_range reply

end

/-- Settles O34: the reply is filled into the head cells of the free list, each of them once. -/
theorem allocatedReplyReadsBack : Obligations.AllocatedReplyReadsBack := by
  intro st st' reply d once _ claimed
  have apart : (st.freeCells.take ((reply.length + 15) / 16)).Nodup := once.sublist (List.take_sublist _ _)
  obtain ⟨x, result, head, _, cells, descs, _⟩ := Store.allocReply_some claimed
  exact ⟨Store.charAt_allocReply apart claimed, head, cells, fun e other => (descs e).trans (if_neg other),
    fun _ outside => Store.cells_allocReply claimed outside, _, (descs d).trans ((if_pos rfl).trans (congrArg some result)), rfl⟩

/-! ### The reply handed on (R103, R110, R134) -/

/-- A transaction leaves a descriptor: the other descriptors and every cell stay, and the free lists grow at the tail (R99,
R100). -/
theorem Store.dropTxn_leaves (st : Store) (q : Fin Config.numDescs) :
    (∀ e, e ≠ q → (st.dropTxn q).desc e = st.desc e) ∧ (st.dropTxn q).cells = st.cells
      ∧ ∃ descs cells, (st.dropTxn q).freeDescs = st.freeDescs ++ descs ∧ (st.dropTxn q).freeCells = st.freeCells ++ cells := by
  cases stored : st.desc q with
  | none =>
    rw [(Store.leave_free stored).1]
    exact ⟨fun _ _ => rfl, rfl, [], [], by simp, by simp⟩
  | some x =>
    rw [Store.dropTxn_used stored]
    split
    · simp only [Store.without, stored]
      exact ⟨fun e other => (st.desc_putDesc q e none).trans (if_neg other), rfl, [q], x.chain, rfl, rfl⟩
    · exact ⟨fun e other => (st.desc_putDesc q e _).trans (if_neg other), rfl, [], [], by simp, by simp⟩

/-- The request's descriptor gives up its transaction: no other descriptor and no cell is touched, and the free lists grow at
the tail (R99, R134). -/
theorem State.storeWithout_leaves (s : State) (t : Txn) :
    (∀ e, t.reqDesc ≠ some e → (s.storeWithout t).desc e = s.store.desc e) ∧ (s.storeWithout t).cells = s.store.cells
      ∧ ∃ descs cells, (s.storeWithout t).freeDescs = s.store.freeDescs ++ descs
        ∧ (s.storeWithout t).freeCells = s.store.freeCells ++ cells := by
  unfold State.storeWithout
  split
  next q request =>
    obtain ⟨others, lists⟩ := s.store.dropTxn_leaves q
    exact ⟨fun e away => others e fun same => away (by rw [request, same]), lists⟩
  · exact ⟨fun _ _ => rfl, rfl, [], [], by simp, by simp⟩

/-- A descriptor whose pending egress set alone is changed reads as before (R98). -/
theorem Store.modify_pending {st : Store} {d : Fin Config.numDescs} {x : Desc} (stored : st.desc d = some x) (g : Seg) :
    let st' := st.modify d fun x => { x with pendingEgress := x.pendingEgress.insert g }
    st'.desc d = some { x with pendingEgress := x.pendingEgress.insert g } ∧ (∀ e, e ≠ d → st'.desc e = st.desc e)
      ∧ st'.cells = st.cells ∧ ∀ k, st'.charAt d k = st.charAt d k := by
  intro st'
  have put : st' = st.putDesc d (some { x with pendingEgress := x.pendingEgress.insert g }) := Store.modify_used stored _
  have now : st'.desc d = some { x with pendingEgress := x.pendingEgress.insert g } := by
    rw [put]
    exact (st.desc_putDesc d d _).trans (if_pos rfl)
  refine ⟨now, fun e other => ?_, ?_, fun k => ?_⟩
  · rw [put]
    exact (st.desc_putDesc d e _).trans (if_neg other)
  · rw [put]
    rfl
  · rw [Store.charAt_used now, Store.charAt_used stored, put]
    rfl

/-- IDENTIFY of a Local that passes the checks answers its five characters (R134, R137). -/
theorem State.Carries.identified {s : State} {r : Fin Config.numTxns} {t : Txn} {args : List Byte}
    (carries : s.Carries r t .identify args) : ∃ u, exec .identify s = .next u
      ∧ s.dequeue.Answered u r t .done [0xAB, 0x04, 0x02, s.bridge.own, 0x04] none := by
  obtain ⟨_, _, _, used⟩ := carries.1.1
  refine ⟨_, carries.command carryIdentify, ?_⟩
  rw [carries.takes carryIdentify]
  exact State.finishCached_answered s.dequeue r t ⟨.done, [0xAB, 0x04, 0x02, s.bridge.own, 0x04], none⟩ used

/-- Settles O33: the reply takes the head descriptor and the head cell left once the request's descriptor is given up. -/
theorem replyIsHandedOn : Obligations.ReplyIsHandedOn := by
  intro s r t carries shown role lane descs cells
  obtain ⟨u, row, _, replied⟩ := carries.identified
  obtain ⟨_, _, _, _, _, _, _, _, _, _, ⟨_, placed⟩, _⟩ := replied
  obtain ⟨others, kept, ds, cs, freeDescs, freeCells⟩ := s.storeWithout_leaves t
  generalize reply : replyFrame s.dequeue.bridge.own t.command t.sequence .done [0xAB, 0x04, 0x02, s.bridge.own, 0x04]
    = frame at placed
  have ten : frame.length = 10 := by rw [← reply]; rfl
  have need : (frame.length + 15) / 16 = 1 := by rw [ten]
  obtain ⟨d, st', claimed⟩ : ∃ d st', (s.storeWithout t).allocReply frame = some (d, st') := by
    refine Store.allocReply_room ?_ ?_
    · simp [freeDescs, descs]
    · rw [need, freeCells, List.length_append]
      omega
  obtain ⟨stored, lanes, counters⟩ := ((placed shown role).2 d st' claimed).1 lane
  obtain ⟨x, result, _, _, _, allocated, _⟩ := Store.allocReply_some claimed
  have held : st'.desc d = some x := (allocated d).trans (if_pos rfl)
  obtain ⟨now, away, same, reads⟩ := Store.modify_pending held t.origin
  rw [← stored] at now away same reads
  have once : ((s.storeWithout t).freeCells.take ((frame.length + 15) / 16)).Nodup := by
    rw [need]
    cases (s.storeWithout t).freeCells <;> simp
  refine ⟨u, d, row, ?_, ?_, ?_, ?_, fun e other free => ?_, fun y c taken outside => ?_, counters⟩
  · rw [lanes, PerSeg.get_set, if_pos rfl]
    rfl
  · rw [now, result]
    rfl
  · rw [now, result]
    exact congrArg some ten
  · refine (Store.values_of_charAt now (reply := frame) (by rw [result]) fun k => ?_).trans reply.symm
    rw [reads, Store.charAt_allocReply once claimed]
    cases frame[k]? <;> rfl
  · rw [away e other, allocated, if_neg other]
    exact others e free
  · have chain : y.chain = (s.storeWithout t).freeCells.take ((frame.length + 15) / 16) := by
      rw [← Option.some.inj (now.symm.trans taken), result]
    rw [same, Store.cells_allocReply claimed (chain ▸ outside)]
    exact congrArg (·[c]) kept

end Sys2Proof.Machine
end

