-- ==== Sys2Proof/Proofs/LaneRules.lean ====
section
/-!
The laws of the lanes (R97 to R99, R108, R112) and the moves every operation is made of: copies leave a lane or join one, a
descriptor that no frame and no early request has is changed, and what the laws do not look at is changed.
-/

namespace Sys2Proof.Machine

/-! ### The copies of a lane (R98, R108, R112) -/

/-- A copy in hand is in its lane (R112). -/
def Egress.HandIn (e : Egress) : Prop :=
  ∀ h d, e.hand = some h →
    (h.item = .reply d → d ∈ e.replyLane.map ReplyCopy.desc) ∧ (h.item = .bulk d → d ∈ e.bulkLane)

/-- The lanes hold the descriptors `pending` says, each once, and the copy in hand is one of them. -/
structure Egress.Carries (e : Egress) (pending : Fin Config.numDescs → Bool) : Prop where
  once : e.copies.Nodup
  copied : ∀ d, d ∈ e.copies ↔ pending d = true
  hand : e.HandIn

/-- e' has the copies of e, in order, and in hand nothing that is not in its lane. -/
structure Egress.KeepsCopies (e e' : Egress) : Prop where
  replies : e'.replyLane.map ReplyCopy.desc = e.replyLane.map ReplyCopy.desc
  bulk : e'.bulkLane = e.bulkLane
  hand : e.HandIn → e'.HandIn

theorem Egress.KeepsCopies.refl (e : Egress) : e.KeepsCopies e := ⟨rfl, rfl, id⟩

theorem Egress.KeepsCopies.trans {e e' e'' : Egress} (first : e.KeepsCopies e') (next : e'.KeepsCopies e'') :
    e.KeepsCopies e'' :=
  ⟨next.replies.trans first.replies, next.bulk.trans first.bulk, next.hand ∘ first.hand⟩

/-- With the same lanes and the same item in hand, or none, the copies are kept. -/
theorem Egress.KeepsCopies.of_item {e e' : Egress} (replies : e'.replyLane.map ReplyCopy.desc = e.replyLane.map ReplyCopy.desc)
    (bulk : e'.bulkLane = e.bulkLane)
    (hand : ∀ h', e'.hand = some h' → (∀ d, h'.item ≠ .reply d ∧ h'.item ≠ .bulk d) ∨ ∃ h, e.hand = some h ∧ h'.item = h.item) :
    e.KeepsCopies e' := by
  refine ⟨replies, bulk, fun holds h' d taken => ?_⟩
  obtain notice | ⟨h, held, same⟩ := hand h' taken
  · exact ⟨fun reply => absurd reply (notice d).1, fun copy => absurd copy (notice d).2⟩
  · rw [replies, bulk, same]
    exact holds h d held

theorem Egress.KeepsCopies.of_hand {e e' : Egress} (replies : e'.replyLane = e.replyLane) (bulk : e'.bulkLane = e.bulkLane)
    (hand : e'.hand = e.hand) : e.KeepsCopies e' :=
  .of_item (by rw [replies]) bulk fun h' taken => .inr ⟨h', hand ▸ taken, rfl⟩

theorem Egress.Carries.keep {e e' : Egress} {p : Fin Config.numDescs → Bool} (carries : e.Carries p)
    (keeps : e.KeepsCopies e') : e'.Carries p := by
  have copies : e'.copies = e.copies := by rw [Egress.copies, keeps.replies, keeps.bulk]; rfl
  exact ⟨copies ▸ carries.once, copies ▸ carries.copied, keeps.hand carries.hand⟩

/-- e' is e with the copies of the descriptors in l gone. -/
structure Egress.Drops (e e' : Egress) (l : List (Fin Config.numDescs)) : Prop where
  order : e'.copies.Sublist e.copies
  left : ∀ d, d ∈ e'.copies ↔ d ∈ e.copies ∧ d ∉ l
  own : ∀ d ∈ l, d ∈ e.copies
  hand : e.HandIn → e'.HandIn

theorem Egress.Carries.drop {e e' : Egress} {p q : Fin Config.numDescs → Bool} {l : List (Fin Config.numDescs)}
    (carries : e.Carries p) (drops : e.Drops e' l) (pending : ∀ d, q d = (p d && decide (d ∉ l))) : e'.Carries q :=
  ⟨carries.once.sublist drops.order, fun d => by simp [drops.left, carries.copied, pending], drops.hand carries.hand⟩

/-- A copy joins a lane: the descriptor had none in the lanes. -/
theorem Egress.Carries.join {e e' : Egress} {p q : Fin Config.numDescs → Bool} {d : Fin Config.numDescs}
    (carries : e.Carries p) (new : p d = false) (copies : e'.copies.Perm (d :: e.copies)) (hand : e.HandIn → e'.HandIn)
    (pending : ∀ c, q c = (decide (c = d) || p c)) : e'.Carries q := by
  have out : d ∉ e.copies := fun mem => by simp [(carries.copied d).1 mem] at new
  refine ⟨copies.nodup_iff.2 (List.nodup_cons.2 ⟨out, carries.once⟩), fun c => ?_, hand carries.hand⟩
  simp [copies.mem_iff, carries.copied, pending]

/-- A copy appended to the reply lane. -/
theorem Egress.copies_reply (e : Egress) (c : ReplyCopy) :
    Egress.copies { e with replyLane := e.replyLane ++ [c] } |>.Perm (c.desc :: e.copies) := by
  simp only [Egress.copies, List.map_append, List.map_cons, List.map_nil, List.append_assoc, List.singleton_append]
  exact List.perm_middle

/-- A copy appended to the bulk lane. -/
theorem Egress.copies_bulk (e : Egress) (d : Fin Config.numDescs) :
    Egress.copies { e with bulkLane := e.bulkLane ++ [d] } |>.Perm (d :: e.copies) := by
  simp only [Egress.copies, ← List.append_assoc]
  exact List.perm_append_singleton d _

/-- What is in hand stays in its lane where the lanes grow. -/
theorem Egress.HandIn.grow {e e' : Egress} (holds : e.HandIn) (hand : e'.hand = e.hand)
    (replies : e.replyLane ⊆ e'.replyLane) (bulk : e.bulkLane ⊆ e'.bulkLane) : e'.HandIn := by
  intro h d taken
  obtain ⟨reply, copy⟩ := holds h d (hand ▸ taken)
  exact ⟨fun item => List.map_subset _ replies (reply item), fun item => bulk (copy item)⟩

/-! ### What a descriptor is to the lanes -/

/-- The pending egress set of a descriptor: empty while it is Free. -/
def Store.pendingOf (st : Store) (d : Fin Config.numDescs) : SegSet := ((st.desc d).map Desc.pendingEgress).getD 0

theorem Store.pendingOf_used {st : Store} {d : Fin Config.numDescs} {x : Desc} (stored : st.desc d = some x) :
    st.pendingOf d = x.pendingEgress := by simp [Store.pendingOf, stored]

/-- What the laws of the lanes look at in a descriptor. -/
def Desc.account (x : Desc) : DescState × Option Seg × Option (Fin Config.numTxns) × SegSet :=
  (x.state, x.ingress, x.txn, x.pendingEgress)

/-- Descriptor d is to the lanes what it was. -/
def Store.SameAccount (st st' : Store) (d : Fin Config.numDescs) : Prop :=
  (st'.desc d).map Desc.account = (st.desc d).map Desc.account

theorem Store.SameAccount.of_desc {st st' : Store} {d : Fin Config.numDescs} (same : st'.desc d = st.desc d) :
    st.SameAccount st' d := congrArg _ same

theorem Store.SameAccount.trans {a b c : Store} {d : Fin Config.numDescs} (first : a.SameAccount b d)
    (next : b.SameAccount c d) : a.SameAccount c d := Eq.trans next first

theorem Store.SameAccount.symm {a b : Store} {d : Fin Config.numDescs} (same : a.SameAccount b d) : b.SameAccount a d :=
  Eq.symm same

theorem Store.SameAccount.used {st st' : Store} {d : Fin Config.numDescs} {x : Desc} (same : st.SameAccount st' d)
    (stored : st.desc d = some x) : ∃ y, st'.desc d = some y ∧ y.state = x.state ∧ y.ingress = x.ingress ∧ y.txn = x.txn
      ∧ y.pendingEgress = x.pendingEgress := by
  rw [Store.SameAccount, stored, Option.map_some, Option.map_eq_some_iff] at same
  obtain ⟨y, stored', account⟩ := same
  simp only [Desc.account, Prod.mk.injEq] at account
  exact ⟨y, stored', account⟩

theorem Store.SameAccount.pendingOf {st st' : Store} {d : Fin Config.numDescs} (same : st.SameAccount st' d) :
    st'.pendingOf d = st.pendingOf d := by
  have last := congrArg (Option.map fun a => a.2.2.2) same
  simpa [Store.pendingOf, Desc.account, Function.comp_def] using congrArg (fun o => o.getD 0) last

/-- A Filling descriptor is on no lane (R97). -/
def Store.FillsApart (st : Store) (d : Fin Config.numDescs) : Prop :=
  ∀ x, st.desc d = some x → x.state = .filling → x.pendingEgress = 0

theorem Store.FillsApart.same {st st' : Store} {d : Fin Config.numDescs} (apart : st.FillsApart d)
    (same : st.SameAccount st' d) : st'.FillsApart d := by
  intro y stored filling
  obtain ⟨x, stored', state, _, _, pending⟩ := same.symm.used stored
  rw [← pending]
  exact apart x stored' (state.trans filling)

/-! ### The laws -/

/-- The state a request's descriptor is in, up to the launch or the execution's end (R97, R99): Ready from the frame's end on,
which a FORMING record has come to where `ended` says. -/
def TxnState.requestState (ended : Bool) : TxnState → Option DescState
  | .forming => some (if ended = true then .ready else .filling)
  | .pending | .executing => some .ready
  | .sending | .awaiting | .receiving => none

theorem TxnState.requestState_congr (ended : Bool) {a b : TxnState} (same : a.stage = b.stage) :
    a.requestState ended = b.requestState ended := by
  cases a <;> cases b <;> simp_all [TxnState.requestState, TxnState.stage]

theorem TxnState.requestState_none (ended : Bool) (a : TxnState) : a.requestState ended = none ↔ a.stage = .sending := by
  cases a <;> simp [TxnState.requestState, TxnState.stage]

/-- R97: descriptor d of a frame f in assembly on g is Filling, of that segment and that frame's transaction, and the one its
FORMING record names. -/
def State.Assembles (s : State) (g : Seg) (f : Frame) (d : Fin Config.numDescs) : Prop :=
  (∃ x, s.store.desc d = some x ∧ x.state = .filling ∧ x.ingress = some g ∧ x.txn = f.txn)
    ∧ ∀ r t, f.formingRecord = some r → s.txn r = some t → t.state = .forming ∧ t.reqDesc = some d

/-- The laws of the lanes in a state in which the frame of record `ended`, where there is one, has just ended intact: the record
is FORMING still, its descriptor Ready. -/
structure State.LanesIn (s : State) (ended : Option (Fin Config.numTxns)) : Prop where
  lanes : ∀ g, (s.egress.get g).Carries fun d => (s.store.pendingOf d).has g
  filling : ∀ d, s.store.FillsApart d
  frames : ∀ g f d, (s.receivers.get g).frame = some f → f.desc = some d → s.Assembles g f d
  requests : ∀ r t d w, s.txn r = some t → t.reqDesc = some d → t.state.requestState (ended == some r) = some w →
    ∃ x, s.store.desc d = some x ∧ x.state = w ∧ x.txn = some r ∧ x.pendingEgress = 0

theorem State.copiesLaw_iff (s : State) :
    s.CopiesLaw ↔ ∀ g, (s.egress.get g).Carries fun d => (s.store.pendingOf d).has g := by
  have pending : ∀ g d, (∃ x, s.store.desc d = some x ∧ x.pendingEgress.has g = true)
      ↔ (s.store.pendingOf d).has g = true := fun g d => by
    cases stored : s.store.desc d with
    | none =>
      have none_ : s.store.pendingOf d = 0 := by simp only [Store.pendingOf, stored]; rfl
      simp only [none_, SegSet.has_zero, reduceCtorEq, false_and, exists_false, Bool.false_eq_true]
    | some x => simp [Store.pendingOf_used stored]
  refine ⟨fun ⟨once, copied, hand⟩ g => ⟨once g, fun d => (copied g d).trans (pending g d), hand g⟩, fun carries => ?_⟩
  exact ⟨fun g => (carries g).once, fun g d => ((carries g).copied d).trans (pending g d).symm, fun g => (carries g).hand⟩

/-- The laws of the lanes are those laws, with no frame just ended. -/
theorem State.LanesIn.laneLaws {s : State} (lanes : s.LanesIn none) : s.LaneLaws := by
  refine ⟨s.copiesLaw_iff.2 lanes.lanes, fun d x stored => lanes.filling d x stored, fun g f d framed has => ?_,
    fun r t d used has => ⟨fun forming => ?_, fun later => ?_⟩⟩
  · obtain ⟨stored, record⟩ := lanes.frames g f d framed has
    exact ⟨stored, fun r t forming used => (record r t forming used).2⟩
  · obtain ⟨x, stored, state, txn, _⟩ := lanes.requests r t d .filling used has (by rw [forming]; rfl)
    exact ⟨x, stored, state, txn⟩
  · exact lanes.requests r t d .ready used has (by obtain state | state := later <;> rw [state] <;> rfl)

theorem State.LaneLaws.lanesIn {s : State} (laws : s.LaneLaws) {e : EngineState} {x : Option (Fin Config.numTxns)}
    (engine : s.LawsIn e x) : s.LanesIn none := by
  obtain ⟨copies, filling, frames, requests⟩ := laws
  refine ⟨s.copiesLaw_iff.1 copies, filling, fun g f d framed has => ?_, fun r t d w used has early => ?_⟩
  · obtain ⟨stored, record⟩ := frames g f d framed has
    refine ⟨stored, fun r t forming used => ⟨?_, record r t forming used⟩⟩
    obtain ⟨t', used', state, _⟩ := (engine.frames g f framed r).1 forming
    rw [used, Option.some.injEq] at used'
    exact used' ▸ state
  · obtain ⟨first, later⟩ := requests r t d used has
    cases state : t.state <;> rw [state] at early <;> cases early
    · obtain ⟨x, stored, is, txn⟩ := first state
      exact ⟨x, stored, is, txn, filling d x stored is⟩
    · exact later (.inl state)
    · exact later (.inr state)

/-! ### What the laws do not look at -/

/-- A record goes on with its request, or is carried. -/
def Txn.KeepsRequest (t u : Txn) : Prop :=
  u.reqDesc = t.reqDesc ∧ u.state.stage = t.state.stage ∨ t.state ≠ .forming ∧ u.state.stage = .sending

theorem Txn.KeepsRequest.refl (t : Txn) : t.KeepsRequest t := .inl ⟨rfl, rfl⟩

theorem Txn.KeepsRequest.trans {t u v : Txn} (first : t.KeepsRequest u) (next : u.KeepsRequest v) : t.KeepsRequest v := by
  obtain ⟨request, stage⟩ | ⟨formed, carried⟩ := first
  · obtain ⟨request', stage'⟩ | ⟨formed', carried'⟩ := next
    · exact .inl ⟨request'.trans request, stage'.trans stage⟩
    · exact .inr ⟨fun forming => formed' ((TxnState.stage_congr stage).1.2 forming), carried'⟩
  · obtain ⟨_, stage'⟩ | ⟨_, carried'⟩ := next
    · exact .inr ⟨formed, stage'.trans carried⟩
    · exact .inr ⟨formed, carried'⟩

/-- Every frame of v with a descriptor is one of s. -/
def State.KeepsFrames (s v : State) : Prop :=
  ∀ g f d, (v.receivers.get g).frame = some f → f.desc = some d →
    ∃ f', (s.receivers.get g).frame = some f' ∧ f'.desc = some d ∧ f'.txn = f.txn ∧ f'.formingRecord = f.formingRecord

/-- Every record of v goes on with the request it has in s, or is carried. -/
def State.KeepsRecords (s v : State) : Prop := ∀ r u, v.txn r = some u → ∃ t, s.txn r = some t ∧ t.KeepsRequest u

theorem State.KeepsFrames.of_same {s v : State} (receivers : v.receivers = s.receivers) : s.KeepsFrames v :=
  fun _ f _ framed has => ⟨f, receivers ▸ framed, has, rfl, rfl⟩

theorem State.KeepsRecords.of_same {s v : State} (records : v.txns.records = s.txns.records) : s.KeepsRecords v :=
  fun r u used => ⟨u, by rw [State.txn, ← records]; exact used, .refl u⟩

/-- v is to the laws of the lanes what s is. -/
structure State.KeepsLanes (s v : State) : Prop where
  lanes : ∀ g, (s.egress.get g).KeepsCopies (v.egress.get g)
  descs : ∀ d, s.store.SameAccount v.store d
  frames : s.KeepsFrames v
  records : s.KeepsRecords v

theorem State.KeepsLanes.of_same {s v : State} (egress : v.egress = s.egress) (store : v.store = s.store)
    (receivers : v.receivers = s.receivers) (records : v.txns.records = s.txns.records) : s.KeepsLanes v :=
  ⟨fun _ => egress ▸ .refl _, fun _ => .of_desc (by rw [store]), .of_same receivers, .of_same records⟩

theorem State.KeepsLanes.refl (s : State) : s.KeepsLanes s := .of_same rfl rfl rfl rfl

theorem State.KeepsLanes.trans {s u v : State} (first : s.KeepsLanes u) (next : u.KeepsLanes v) : s.KeepsLanes v where
  lanes g := (first.lanes g).trans (next.lanes g)
  descs d := (first.descs d).trans (next.descs d)
  frames g f d framed has := by
    obtain ⟨f', framed', has', txn, forming⟩ := next.frames g f d framed has
    obtain ⟨f'', framed'', has'', txn', forming'⟩ := first.frames g f' d framed' has'
    exact ⟨f'', framed'', has'', txn'.trans txn, forming'.trans forming⟩
  records r w used := by
    obtain ⟨u, usedu, keeps⟩ := next.records r w used
    obtain ⟨t, usedt, keeps'⟩ := first.records r u usedu
    exact ⟨t, usedt, keeps'.trans keeps⟩

/-- What is kept is kept where nothing the laws look at is changed after it. -/
theorem State.KeepsLanes.same {s u v : State} (first : s.KeepsLanes u) (egress : v.egress = u.egress)
    (store : v.store = u.store) (receivers : v.receivers = u.receivers) (records : v.txns.records = u.txns.records) :
    s.KeepsLanes v := first.trans (.of_same egress store receivers records)

/-- No frame in assembly and no early request has descriptor d. -/
def State.Unclaimed (s : State) (d : Fin Config.numDescs) : Prop :=
  (∀ g f, (s.receivers.get g).frame = some f → f.desc ≠ some d)
    ∧ ∀ r t, s.txn r = some t → t.reqDesc = some d → t.state.stage = .sending

theorem State.Unclaimed.keep {s v : State} {d : Fin Config.numDescs} (free : s.Unclaimed d) (frames : s.KeepsFrames v)
    (records : s.KeepsRecords v) : v.Unclaimed d := by
  obtain ⟨unframed, carried⟩ := free
  refine ⟨fun g f framed has => ?_, fun r u used has => ?_⟩
  · obtain ⟨f', framed', has', _⟩ := frames g f d framed has
    exact unframed g f' framed' has'
  · obtain ⟨t, usedt, ⟨request, stage⟩ | ⟨_, sent⟩⟩ := records r u used
    · exact stage.trans (carried r t usedt (request ▸ has))
    · exact sent

section
variable {s v : State} {o : Option (Fin Config.numTxns)} {r : Fin Config.numTxns} {t : Txn} {d : Fin Config.numDescs} {g : Seg}

/-- The laws pass to a state whose frames and records go on, where every descriptor is to the lanes what it was or is nobody's,
and the lanes hold what the pending egress sets say. -/
theorem State.LanesIn.change (laws : s.LanesIn o) (frames : s.KeepsFrames v) (records : s.KeepsRecords v)
    (descs : ∀ d, s.store.SameAccount v.store d ∨ v.Unclaimed d ∧ v.store.FillsApart d)
    (lanes : ∀ g, (v.egress.get g).Carries fun d => (v.store.pendingOf d).has g) : v.LanesIn o := by
  refine ⟨lanes, fun d => ?_, fun g f d framed has => ?_, fun r u d w used has early => ?_⟩
  · obtain same | ⟨_, apart⟩ := descs d
    · exact (laws.filling d).same same
    · exact apart
  · obtain ⟨f', framed', has', txn, forming⟩ := frames g f d framed has
    obtain ⟨⟨x, stored, state, ingress, owner⟩, record⟩ := laws.frames g f' d framed' has'
    obtain same | ⟨⟨unframed, _⟩, _⟩ := descs d
    · obtain ⟨y, stored', state', ingress', owner', _⟩ := same.used stored
      refine ⟨⟨y, stored', state'.trans state, ingress'.trans ingress, owner'.trans (owner.trans txn)⟩, fun r u has used => ?_⟩
      obtain ⟨t, usedt, keeps⟩ := records r u used
      obtain ⟨isForming, request⟩ := record r t (forming.trans has) usedt
      obtain ⟨request', stage⟩ | ⟨formed, _⟩ := keeps
      · exact ⟨(TxnState.stage_congr stage).1.2 isForming, request'.trans request⟩
      · exact absurd isForming formed
    · exact absurd has (unframed g f framed)
  · obtain ⟨t, usedt, ⟨request, stage⟩ | ⟨_, carried⟩⟩ := records r u used
    · rw [TxnState.requestState_congr _ stage] at early
      obtain ⟨x, stored, state, txn, pending⟩ := laws.requests r t d w usedt (request ▸ has) early
      obtain same | ⟨⟨_, sent⟩, _⟩ := descs d
      · obtain ⟨y, stored', state', _, txn', pending'⟩ := same.used stored
        exact ⟨y, stored', state'.trans state, txn'.trans txn, pending'.trans pending⟩
      · have carried := stage.symm.trans (sent r u used has)
        rw [(TxnState.requestState_none _ _).2 carried] at early
        cases early
    · rw [(TxnState.requestState_none _ _).2 carried] at early
      cases early

theorem State.LanesIn.keep (laws : s.LanesIn o) (keeps : s.KeepsLanes v) : v.LanesIn o :=
  laws.change keeps.frames keeps.records (fun d => .inl (keeps.descs d)) fun g => by
    have pending : (fun d => (v.store.pendingOf d).has g) = fun d => (s.store.pendingOf d).has g :=
      funext fun d => by rw [(keeps.descs d).pendingOf]
    exact pending ▸ (laws.lanes g).keep (keeps.lanes g)

/-- One descriptor is changed that nobody has, its pending egress set as it was. -/
theorem State.LanesIn.changeDesc (laws : s.LanesIn o) (frames : s.KeepsFrames v) (records : s.KeepsRecords v)
    (lanes : ∀ g, (s.egress.get g).KeepsCopies (v.egress.get g)) (others : ∀ e, e ≠ d → s.store.SameAccount v.store e)
    (free : v.Unclaimed d) (pending : v.store.pendingOf d = s.store.pendingOf d) (apart : v.store.FillsApart d) :
    v.LanesIn o := by
  refine laws.change frames records (fun e => ?_) fun g => ?_
  · by_cases same : e = d
    · exact .inr (same ▸ ⟨free, apart⟩)
    · exact .inl (others e same)
  · have sets : (fun e => (v.store.pendingOf e).has g) = fun e => (s.store.pendingOf e).has g := funext fun e => by
      by_cases same : e = d
      · rw [same, pending]
      · rw [(others e same).pendingOf]
    exact sets ▸ (laws.lanes g).keep (lanes g)

/-! ### Descriptors that are nobody's -/

/-- A Free descriptor is nobody's. -/
theorem State.LanesIn.unclaimed_of_free (laws : s.LanesIn o) (free : s.store.desc d = none) : s.Unclaimed d := by
  refine ⟨fun g f framed has => ?_, fun r t used has => ?_⟩
  · obtain ⟨⟨x, stored, _⟩, _⟩ := laws.frames g f d framed has
    rw [free] at stored
    cases stored
  · cases early : t.state.requestState (o == some r) with
    | none => exact (TxnState.requestState_none _ _).1 early
    | some w =>
      obtain ⟨x, stored, _⟩ := laws.requests r t d w used has early
      rw [free] at stored
      cases stored

/-- A descriptor on a lane is nobody's (R97, R99). -/
theorem State.LanesIn.unclaimed_of_pending (laws : s.LanesIn o) (pending : s.store.pendingOf d ≠ 0) : s.Unclaimed d := by
  refine ⟨fun g f framed has => ?_, fun r t used has => ?_⟩
  · obtain ⟨⟨x, stored, filling, _⟩, _⟩ := laws.frames g f d framed has
    exact pending ((Store.pendingOf_used stored).trans (laws.filling d x stored filling))
  · cases early : t.state.requestState (o == some r) with
    | none => exact (TxnState.requestState_none _ _).1 early
    | some w =>
      obtain ⟨x, stored, _, _, none_⟩ := laws.requests r t d w used has early
      exact absurd ((Store.pendingOf_used stored).trans none_) pending

/-- The descriptor of a Ready request is nobody's once its record is free or carried (R99). -/
theorem State.LanesIn.unclaimed_of_request (laws : s.LanesIn o) (used : s.txn r = some t) (has : t.reqDesc = some d)
    (early : t.state.requestState (o == some r) = some .ready) (frames : s.KeepsFrames v) (records : s.KeepsRecords v)
    (done : ∀ u, v.txn r = some u → u.state.stage = .sending) : v.Unclaimed d := by
  obtain ⟨x, stored, state, txn, _⟩ := laws.requests r t d .ready used has early
  refine ⟨fun g f framed hasd => ?_, fun q u usedq hasq => ?_⟩
  · obtain ⟨f', framed', has', _⟩ := frames g f d framed hasd
    obtain ⟨⟨y, stored', filling, _⟩, _⟩ := laws.frames g f' d framed' has'
    rw [stored, Option.some.injEq] at stored'
    subst stored'
    rw [state] at filling
    cases filling
  · obtain ⟨w, usedw, ⟨request, stage⟩ | ⟨_, carried⟩⟩ := records q u usedq
    · cases early' : w.state.requestState (o == some q) with
      | none => exact stage.trans ((TxnState.requestState_none _ _).1 early')
      | some a =>
        obtain ⟨y, stored', _, txn', _⟩ := laws.requests q w d a usedw (request ▸ hasq) early'
        rw [stored, Option.some.injEq] at stored'
        subst stored'
        rw [txn, Option.some.injEq] at txn'
        exact done u (txn' ▸ usedq)
    · exact carried

end

end Sys2Proof.Machine
end

