-- ==== Sys2Proof/Proofs/LaneMoves.lean ====
section
/-!
Copies leave a lane, a descriptor joins lanes, and the operations that touch neither (R97 to R100, R109, R110).
-/

namespace Sys2Proof.Machine

/-! ### Descriptors given up (R98 to R100) -/

section
variable {st : Store} {d e : Fin Config.numDescs}

/-- The test for release touches one descriptor, and frees it only where it is Ready, on no lane and without a transaction
(R100). -/
theorem Store.desc_releaseIfDone (st : Store) (d e : Fin Config.numDescs) : (st.releaseIfDone d).desc e = st.desc e
    ∨ e = d ∧ (st.releaseIfDone d).desc e = none ∧ ∃ x, st.desc d = some x ∧ x.pendingEgress = 0 := by
  unfold Store.releaseIfDone
  split
  · exact .inl rfl
  next x stored =>
    split
    next done =>
      obtain ⟨gone, others, _⟩ := Store.release_used stored
      by_cases same : e = d
      · exact .inr ⟨same, same ▸ gone, x, stored, done.2.1⟩
      · exact .inl (others e same)
    · exact .inl rfl

theorem Store.pendingOf_releaseIfDone (st : Store) (d e : Fin Config.numDescs) :
    (st.releaseIfDone d).pendingOf e = st.pendingOf e := by
  obtain same | ⟨rfl, gone, x, stored, none_⟩ := st.desc_releaseIfDone d e
  · rw [Store.pendingOf, same]
    rfl
  · rw [Store.pendingOf_used stored, none_, Store.pendingOf, gone]
    rfl

theorem Store.pendingOf_free (free : st.desc d = none) : st.pendingOf d = 0 := by
  simp only [Store.pendingOf, free]
  rfl

theorem SegSet.erase_zero (g : Seg) : SegSet.erase 0 g = 0 := by cases g <;> rfl

/-- A segment leaves a descriptor's pending egress set (R98). -/
theorem Store.pendingOf_leave (st : Store) (d e : Fin Config.numDescs) (g : Seg) :
    (st.leave d g).pendingOf e = if e = d then (st.pendingOf d).erase g else st.pendingOf e := by
  rw [Store.leave, Store.pendingOf_releaseIfDone, Store.pendingOf, Store.desc_modify]
  split
  · cases stored : st.desc d with
    | none => exact (SegSet.erase_zero g).symm.trans (congrArg (SegSet.erase · g) (Store.pendingOf_free stored).symm)
    | some x => rw [Store.pendingOf_used stored]; rfl
  · rfl

theorem Store.pendingOf_leaveAll (l : List (Fin Config.numDescs)) (st : Store) (e : Fin Config.numDescs) (g h : Seg) :
    ((l.foldl (fun st d => st.leave d g) st).pendingOf e).has h
      = ((st.pendingOf e).has h && !decide (h = g ∧ e ∈ l)) := by
  induction l generalizing st with
  | nil => simp
  | cons d l ih =>
    rw [List.foldl_cons, ih, Store.pendingOf_leave]
    by_cases same : e = d <;> by_cases here : h = g <;> simp [same, here]

/-- A transaction given up leaves the pending egress sets (R99). -/
theorem Store.pendingOf_dropTxn (st : Store) (d e : Fin Config.numDescs) :
    (st.dropTxn d).pendingOf e = st.pendingOf e := by
  rw [Store.dropTxn, Store.pendingOf_releaseIfDone, Store.pendingOf, Store.desc_modify]
  split
  next same => rw [same, Store.pendingOf]; cases st.desc d <;> rfl
  · rfl

/-- A descriptor that stays in the state it is in and joins no lane. -/
theorem Store.FillsApart.fade {st' : Store} (apart : st.FillsApart d)
    (fades : ∀ x, st'.desc d = some x → ∃ y, st.desc d = some y ∧ x.state = y.state)
    (pending : st.pendingOf d = 0 → st'.pendingOf d = 0) : st'.FillsApart d := by
  intro x stored filling
  obtain ⟨y, stored', state⟩ := fades x stored
  rw [← Store.pendingOf_used stored]
  exact pending ((Store.pendingOf_used stored').trans (apart y stored' (state ▸ filling)))

/-- A descriptor changed and tested for release, in use still, was in use before. -/
theorem Store.used_of_released {f : Desc → Desc} {x : Desc}
    (stored : ((st.modify d f).releaseIfDone d).desc e = some x) :
    ∃ y, st.desc e = some y ∧ x = if e = d then f y else y := by
  have kept : (st.modify d f).desc e = some x := by
    obtain same | ⟨_, gone, _⟩ := (st.modify d f).desc_releaseIfDone d e
    · exact same ▸ stored
    · rw [gone] at stored
      cases stored
  rw [Store.desc_modify] at kept
  split at kept
  next same =>
    obtain ⟨y, stored', result⟩ := Option.map_eq_some_iff.1 kept
    exact ⟨y, same ▸ stored', by rw [if_pos same, result]⟩
  next other => exact ⟨x, kept, (if_neg other).symm⟩

theorem Store.state_leaveAll (l : List (Fin Config.numDescs)) (g : Seg) {st : Store} {x : Desc}
    (stored : (l.foldl (fun st d => st.leave d g) st).desc e = some x) : ∃ y, st.desc e = some y ∧ x.state = y.state := by
  induction l generalizing st with
  | nil => exact ⟨x, stored, rfl⟩
  | cons d l ih =>
    obtain ⟨y, stored', state⟩ := ih stored
    obtain ⟨z, stored'', result⟩ := Store.used_of_released stored'
    refine ⟨z, stored'', state.trans ?_⟩
    rw [result]
    split <;> rfl

theorem Store.desc_leaveAll (l : List (Fin Config.numDescs)) (g : Seg) (st : Store) (away : e ∉ l) :
    (l.foldl (fun st d => st.leave d g) st).desc e = st.desc e := by
  induction l generalizing st with
  | nil => rfl
  | cons d l ih =>
    have other : e ≠ d := fun same => away (same ▸ List.mem_cons_self)
    rw [List.foldl_cons, ih _ fun mem => away (List.mem_cons_of_mem d mem), Store.leave]
    obtain same | ⟨same, _⟩ := (st.modify d fun x => { x with pendingEgress := x.pendingEgress.erase g }).desc_releaseIfDone d e
    · rw [same, Store.desc_modify, if_neg other]
    · exact absurd same other

theorem Store.FillsApart.releaseIfDone (apart : st.FillsApart d) : (st.releaseIfDone d).FillsApart d :=
  apart.fade (fun x stored => by
    obtain same | ⟨_, gone, _⟩ := st.desc_releaseIfDone d d
    · exact ⟨x, same ▸ stored, rfl⟩
    · rw [gone] at stored
      cases stored) fun none_ => (st.pendingOf_releaseIfDone d d).trans none_

theorem Store.FillsApart.dropTxn (apart : st.FillsApart d) : (st.dropTxn d).FillsApart d :=
  apart.fade (fun x stored => by
    obtain ⟨y, stored', result⟩ := Store.used_of_released stored
    exact ⟨y, stored', by rw [result]; split <;> rfl⟩) fun none_ => (st.pendingOf_dropTxn d d).trans none_

end

/-! ### Copies leave and join (R98, R108) -/

section
variable {s v : State} {o : Option (Fin Config.numTxns)} {r : Fin Config.numTxns} {t : Txn} {d : Fin Config.numDescs} {g : Seg}

/-- A copy is put into the lanes of a scheduler. -/
structure Egress.Gains (e e' : Egress) (d : Fin Config.numDescs) : Prop where
  copies : e'.copies.Perm (d :: e.copies)
  hand : e.HandIn → e'.HandIn

theorem Egress.gains_reply (e : Egress) (c : ReplyCopy) : e.Gains { e with replyLane := e.replyLane ++ [c] } c.desc :=
  ⟨e.copies_reply c, fun holds => holds.grow rfl (List.subset_append_left _ _) (List.Subset.refl _)⟩

theorem Egress.gains_bulk (e : Egress) (d : Fin Config.numDescs) : e.Gains { e with bulkLane := e.bulkLane ++ [d] } d :=
  ⟨e.copies_bulk d, fun holds => holds.grow rfl (List.Subset.refl _) (List.subset_append_left _ _)⟩

/-- Copies leave a lane of g: the lane has them no more, and g leaves their descriptors' pending egress sets (R98, R108). -/
theorem State.LanesIn.leaveAll (laws : s.LanesIn o) {l : List (Fin Config.numDescs)} {e : Egress}
    (drops : (s.egress.get g).Drops e l) (egress : v.egress = s.egress.set g e)
    (store : v.store = l.foldl (fun st d => st.leave d g) s.store) (receivers : v.receivers = s.receivers)
    (records : v.txns.records = s.txns.records) : v.LanesIn o := by
  have frames : s.KeepsFrames v := .of_same receivers
  have keeps : s.KeepsRecords v := .of_same records
  refine laws.change frames keeps (fun d => ?_) fun h => ?_
  · by_cases mem : d ∈ l
    · have copied := ((laws.lanes g).copied d).1 (drops.own d mem)
      have pending : s.store.pendingOf d ≠ 0 := fun none_ => by
        rw [none_, SegSet.has_zero] at copied
        cases copied
      refine .inr ⟨(laws.unclaimed_of_pending pending).keep frames keeps, ?_⟩
      rw [store]
      exact (laws.filling d).fade (fun x stored => Store.state_leaveAll l g stored) fun none_ => absurd none_ pending
    · exact .inl (.of_desc (by rw [store, Store.desc_leaveAll l g _ mem]))
  · have sets : ∀ d, (v.store.pendingOf d).has h = ((s.store.pendingOf d).has h && !decide (h = g ∧ d ∈ l)) := fun d => by
      rw [store, Store.pendingOf_leaveAll]
    rw [egress, PerSeg.get_set]
    split
    next here =>
      subst here
      exact (laws.lanes h).drop drops fun d => by simp [sets]
    next away =>
      have same : (fun d => (v.store.pendingOf d).has h) = fun d => (s.store.pendingOf d).has h :=
        funext fun d => by simp [sets, away]
      exact same ▸ laws.lanes h

/-- A descriptor that is nobody's is tested for release (R100). -/
theorem State.LanesIn.releaseIfDone (laws : s.LanesIn o) (free : s.Unclaimed d) :
    (s.mapStore fun st => st.releaseIfDone d).LanesIn o := by
  refine laws.changeDesc (d := d) (.of_same rfl) (.of_same rfl) (fun _ => .refl _) (fun f other => .of_desc ?_)
    (free.keep (.of_same rfl) (.of_same rfl)) (s.store.pendingOf_releaseIfDone d d) (laws.filling d).releaseIfDone
  obtain same | ⟨same, _⟩ := s.store.desc_releaseIfDone d f
  · exact same
  · exact absurd same other

/-- A descriptor that is nobody's gives up its transaction (R99). -/
theorem State.LanesIn.dropTxn (laws : s.LanesIn o) (free : s.Unclaimed d) :
    (s.mapStore fun st => st.dropTxn d).LanesIn o :=
  laws.changeDesc (d := d) (.of_same rfl) (.of_same rfl) (fun _ => .refl _)
    (fun f other => .of_desc ((s.store.dropTxn_leaves d).1 f other)) (free.keep (.of_same rfl) (.of_same rfl))
    (s.store.pendingOf_dropTxn d d) (laws.filling d).dropTxn

/-- A descriptor that is nobody's joins the lanes of the segments of m (R98, R108). -/
theorem State.LanesIn.joinAll (laws : s.LanesIn o) (frames : s.KeepsFrames v) (records : s.KeepsRecords v)
    (others : ∀ e, e ≠ d → s.store.SameAccount v.store e) (free : v.Unclaimed d) (apart : v.store.FillsApart d) {m : SegSet}
    (new : ∀ h, m.has h = true → (s.store.pendingOf d).has h = false)
    (pending : ∀ h, (v.store.pendingOf d).has h = ((s.store.pendingOf d).has h || m.has h))
    (gains : ∀ h, m.has h = true → (s.egress.get h).Gains (v.egress.get h) d)
    (keeps : ∀ h, m.has h = false → (s.egress.get h).KeepsCopies (v.egress.get h)) : v.LanesIn o := by
  refine laws.change frames records (fun e => ?_) fun h => ?_
  · by_cases same : e = d
    · exact .inr (same ▸ ⟨free, apart⟩)
    · exact .inl (others e same)
  · cases joins : m.has h with
    | true =>
      refine (laws.lanes h).join (new h joins) (gains h joins).copies (gains h joins).hand fun c => ?_
      by_cases same : c = d
      · simp [same, pending, joins]
      · simp [same, (others c same).pendingOf]
    | false =>
      have sets : (fun c => (v.store.pendingOf c).has h) = fun c => (s.store.pendingOf c).has h := funext fun c => by
        by_cases same : c = d
        · simp [same, pending, joins]
        · rw [(others c same).pendingOf]
      exact sets ▸ (laws.lanes h).keep (keeps h joins)

/-! ### Moves that touch no lane -/

/-- One scheduler replaced by one with its copies. -/
theorem State.KeepsLanes.of_egress {e : Egress} (egress : v.egress = s.egress.set g e) (store : v.store = s.store)
    (receivers : v.receivers = s.receivers) (records : v.txns.records = s.txns.records)
    (keeps : (s.egress.get g).KeepsCopies e) : s.KeepsLanes v := by
  refine ⟨fun h => ?_, fun d => .of_desc (by rw [store]), .of_same receivers, .of_same records⟩
  rw [egress, PerSeg.get_set]
  split
  next here => exact here ▸ keeps
  next => exact .refl _

theorem State.KeepsLanes.setEgress {e : Egress} (keeps : (s.egress.get g).KeepsCopies e) : s.KeepsLanes (s.setEgress g e) :=
  .of_egress rfl rfl rfl rfl keeps

theorem State.KeepsLanes.putTxn (used : s.txn r = some t) {u : Txn} (keeps : t.KeepsRequest u) :
    s.KeepsLanes (s.putTxn r (some u)) := by
  refine ⟨fun _ => .refl _, fun _ => .of_desc rfl, .of_same rfl, fun q w usedq => ?_⟩
  rw [State.txn_putTxn] at usedq
  split at usedq
  next same =>
    cases usedq
    exact ⟨t, same ▸ used, keeps⟩
  next => exact ⟨w, usedq, .refl w⟩

theorem State.freeRecord_keepsLanes (s : State) (r : Fin Config.numTxns) : s.KeepsLanes (s.freeRecord r) := by
  refine ⟨fun _ => .refl _, fun _ => .of_desc rfl, .of_same rfl, fun q w usedq => ?_⟩
  rw [State.txn_freeRecord] at usedq
  split at usedq
  · cases usedq
  · exact ⟨w, usedq, .refl w⟩

/-- A frame receiver that loses its frame. -/
theorem State.KeepsLanes.emptyReceiver {z : FrState} (empty : z.frame = none) : s.KeepsLanes (s.setReceiver g z) := by
  refine ⟨fun _ => .refl _, fun _ => .of_desc rfl, fun h f d framed has => ?_, .of_same rfl⟩
  simp only [State.setReceiver_fields, PerSeg.get_set] at framed
  split at framed
  · rw [empty] at framed
    cases framed
  · exact ⟨f, framed, has, rfl, rfl⟩

theorem State.countIf_keepsLanes (s : State) (b : Bool) (g : Seg) (c : SegCounter) : s.KeepsLanes (s.countIf b g c) := by
  obtain ⟨k, h⟩ := s.countIf_only b g c
  exact h ▸ .of_same rfl rfl rfl rfl

theorem State.settlePendingOwn_keepsLanes (s : State) : s.KeepsLanes s.settlePendingOwn := by
  obtain ⟨m, h⟩ := s.settlePendingOwn_only
  exact h ▸ .of_same rfl rfl rfl rfl

theorem State.learn_keepsLanes (s : State) (a : Byte) (g : Seg) : s.KeepsLanes (s.learn a g) := by
  obtain ⟨t, l, h⟩ := s.learn_only a g
  exact h ▸ .of_same rfl rfl rfl rfl

theorem State.dropLeaseOf_keepsLanes (s : State) (g : Seg) (n : Byte) : s.KeepsLanes (s.dropLeaseOf g n) := by
  obtain ⟨l, v, h⟩ := s.dropLeaseOf_only g n
  exact h ▸ .of_same rfl rfl rfl rfl

theorem State.releaseGrants_keepsLanes (s : State) (m : SegSet) : s.KeepsLanes (s.releaseGrants m) := by
  obtain ⟨h, released, _⟩ := s.releaseGrants_holders m
  exact released ▸ .of_same rfl rfl rfl rfl

/-- A notice placed is no copy (R109). -/
theorem State.notify_keepsLanes (s : State) (g : Seg) (c : NoticeCode) (a : Byte) : s.KeepsLanes (s.notify g c a) := by
  unfold State.notify State.placeNotice
  split
  · dsimp only
    split
    · exact .setEgress (.of_hand rfl rfl rfl)
    · refine .of_egress rfl rfl rfl rfl (.of_item rfl rfl fun h held => ?_)
      dsimp only at held
      split at held
      · cases held
        exact .inl fun d => by simp
      · exact .inr ⟨h, held, rfl⟩
  · exact .refl s

/-- The slot emptied (R27, R48). -/
theorem State.emptySlot_keepsLanes (s : State) (g : Seg) : s.KeepsLanes (s.emptySlot g) := by
  refine .setEgress (.of_item rfl rfl fun h held => ?_)
  dsimp only at held
  split at held
  · cases held
  · exact .inr ⟨h, held, rfl⟩

/-- A bulk copy set back stays in its lane (R112). -/
theorem State.setBackBulk_keepsLanes (s : State) (g : Seg) : s.KeepsLanes (s.setBackBulk g) := by
  unfold State.setBackBulk
  dsimp only
  split
  · split
    · exact .setEgress (.of_item rfl rfl fun h held => by cases held)
    · exact .refl s
  · exact .refl s

end

end Sys2Proof.Machine
end

