-- ==== Sys2Proof/Proofs/LaneLawsTransactions.lean ====
section
/-!
Transactions closed, abandoned, begun and launched keep the laws of the lanes (R27, R33, R37, R48, R49, R110).
-/

namespace Sys2Proof.Machine

section
variable {s v : State} {o : Option (Fin Config.numTxns)} {r : Fin Config.numTxns} {t : Txn} {d : Fin Config.numDescs} {g : Seg}
  {e : EngineState} {x : Option (Fin Config.numTxns)}

/-! ### Outcomes (R27, R37) -/

theorem State.closeTxn_keepsLanes (s : State) (r : Fin Config.numTxns) (c : TxnOutcome) : s.KeepsLanes (s.closeTxn r c) := by
  unfold State.closeTxn
  split
  · exact .refl s
  next t used =>
    dsimp only
    split
    · exact .refl s
    · have fixed : s.KeepsLanes (s.putTxn r (some { t with outcome := some c })) := .putTxn used (.inl ⟨rfl, rfl⟩)
      generalize s.putTxn r (some { t with outcome := some c }) = u at fixed
      have told : s.KeepsLanes (match c.notice with
          | some code => if t.superseded then u else u.notify t.origin code t.station
          | none => u) := by
        split
        · split
          · exact fixed
          · exact fixed.trans (u.notify_keepsLanes _ _ _)
        · exact fixed
      split
      · exact told.trans (State.freeRecord_keepsLanes _ r)
      · exact told

/-- A transaction that waits is closed: its request's descriptor is given up with its record (R27, R49). -/
theorem State.LanesIn.cancelWaiting (laws : s.LanesIn o) (used : s.txn r = some t) (pending : t.state = .pending)
    (unfixed : t.outcome = none) (alone : t.copies = 0) (c : TxnOutcome) : (s.cancelWaiting r c).LanesIn o := by
  have engine := s.cancelWaiting_leavesEngine used unfixed alone c
  have records : s.KeepsRecords (s.cancelWaiting r c) := fun q u usedq =>
    (s.freeRecord_keepsLanes r).records q u ((engine.txn q).symm.trans usedq)
  have freed : (s.cancelWaiting r c).txn r = none := by rw [engine.txn, State.txn_freeRecord, if_pos rfl]
  have frames : s.KeepsFrames (s.cancelWaiting r c) := .of_same engine.receivers
  have closes := (s.dropRequest t).closeTxn_keepsLanes r c
  have result : s.cancelWaiting r c = (s.dropRequest t).closeTxn r c := by simp only [State.cancelWaiting, used]
  rw [← result] at closes
  have store : (s.cancelWaiting r c).store = (s.dropRequest t).store := by
    obtain ⟨y, eg, k, h⟩ := (s.dropRequest t).closeTxn_only r c
    rw [result, h]
  cases has : t.reqDesc with
  | none =>
    have same : s.dropRequest t = s := by simp only [State.dropRequest, has]
    rw [same] at closes
    exact laws.keep closes
  | some d =>
    have dropped : (s.cancelWaiting r c).store = s.store.dropTxn d := by
      rw [store, State.dropRequest, has]
      rfl
    have lanes : ∀ g, (s.egress.get g).KeepsCopies ((s.cancelWaiting r c).egress.get g) := fun g => by
      have kept := closes.lanes g
      rwa [State.dropRequest_store] at kept
    refine laws.changeDesc (d := d) frames records lanes (fun f other => .of_desc ?_) ?_ ?_ ?_
    · rw [dropped, (s.store.dropTxn_leaves d).1 f other]
    · exact laws.unclaimed_of_request used has (by rw [pending]; rfl) frames records fun u h => by
        cases freed.symm.trans h
    · rw [dropped, Store.pendingOf_dropTxn]
    · exact dropped ▸ (laws.filling d).dropTxn

/-- A superseded transaction keeps its request (R27). -/
theorem State.supersede_keepsLanes (used : s.txn r = some t) : s.KeepsLanes (s.putTxn r (some { t with superseded := true })) :=
  .putTxn used (.inl ⟨rfl, rfl⟩)

/-- The live transaction of an origin is abandoned (R27, R48). -/
theorem State.LanesIn.abandonLive (laws : s.LanesIn o) (engine : s.LawsIn e x) (g : Seg) : (s.abandonLive g).LanesIn o := by
  unfold State.abandonLive
  split
  · exact laws
  next r _ =>
    split
    · exact laws
    next t used =>
      split
      next pending =>
        obtain ⟨copies, _, outcome⟩ := (engine.records r t used).unlaunched (by simp [pending, TxnState.stage])
        exact (laws.cancelWaiting used pending outcome copies _).keep (.of_same rfl rfl rfl rfl)
      · exact laws.keep ((State.supersede_keepsLanes used).trans (State.countIf_keepsLanes _ _ g _))

/-- The unstarted replies of a lane withdrawn (R27, R48). -/
theorem Egress.drops_withdrawn {e : Egress} (once : e.copies.Nodup) : e.Drops e.withdrawn (e.unstarted.map ReplyCopy.desc) := by
  have apart := (List.nodup_append.1 once).2.2
  have gone : ∀ d, d ∈ e.unstarted.map ReplyCopy.desc ↔ d ∈ e.replyLane.map ReplyCopy.desc ∧ e.startedReply ≠ some d := by
    intro d
    simp only [Egress.unstarted, List.mem_map, List.mem_filter, bne_iff_ne, ne_eq]
    constructor
    · rintro ⟨c, ⟨mem, unstarted⟩, rfl⟩
      exact ⟨⟨c, mem, rfl⟩, unstarted⟩
    · rintro ⟨⟨c, mem, rfl⟩, unstarted⟩
      exact ⟨c, ⟨mem, unstarted⟩, rfl⟩
  have stays : ∀ d, d ∈ e.withdrawn.replyLane.map ReplyCopy.desc
      ↔ d ∈ e.replyLane.map ReplyCopy.desc ∧ e.startedReply = some d := by
    intro d
    simp only [Egress.withdrawn, List.mem_map, List.mem_filter, beq_iff_eq]
    constructor
    · rintro ⟨c, ⟨mem, started⟩, rfl⟩
      exact ⟨⟨c, mem, rfl⟩, started⟩
    · rintro ⟨⟨c, mem, rfl⟩, started⟩
      exact ⟨c, ⟨mem, started⟩, rfl⟩
  refine ⟨?_, fun d => ?_, fun d mem => ?_, fun holds h d held => ?_⟩
  · exact ((List.filter_sublist).map _).append (List.Sublist.refl _)
  · rw [Egress.copies, List.mem_append, stays, gone, Egress.copies, List.mem_append]
    have not_both : d ∈ e.replyLane.map ReplyCopy.desc → d ∉ e.bulkLane := fun reply bulk => apart d reply d bulk rfl
    have bulk : e.withdrawn.bulkLane = e.bulkLane := rfl
    rw [bulk]
    tauto
  · exact List.mem_append_left _ ((gone d).1 mem).1
  · have kept : e.hand = some h ∧ ∀ c, h.item = .reply c → h.started = true := by
      simp only [Egress.withdrawn] at held
      split at held
      · cases held
      next other =>
        refine ⟨held, fun c item => ?_⟩
        obtain ⟨i, started, n⟩ := h
        cases started
        · exact absurd (held.trans (by rw [show i = .reply c from item])) (other c n)
        · rfl
    obtain ⟨reply, bulk⟩ := holds h d kept.1
    refine ⟨fun item => (stays d).2 ⟨reply item, ?_⟩, bulk⟩
    obtain ⟨i, started, n⟩ := h
    have begun : started = true := kept.2 d item
    have is : i = .reply d := item
    rw [Egress.startedReply, kept.1, begun, is]

theorem State.LanesIn.withdrawReplies (laws : s.LanesIn o) (g : Seg) : (s.withdrawReplies g).LanesIn o := by
  obtain ⟨k, m, withdrawn⟩ := s.withdrawReplies_eq g
  exact laws.leaveAll (Egress.drops_withdrawn (laws.lanes g).once) (by rw [withdrawn]) (by rw [withdrawn]) (by rw [withdrawn])
    (by rw [withdrawn])

/-- An origin is abandoned (R27, R48). -/
theorem State.LanesIn.abandonOrigin (laws : s.LanesIn o) (engine : s.LawsIn e x) (g : Seg) :
    (s.abandonOrigin g).LanesIn o :=
  ((laws.abandonLive engine g).withdrawReplies g).keep (State.emptySlot_keepsLanes _ g)

/-! ### Becoming PENDING or EXECUTING (R27, R49) -/

/-- A record whose frame has ended intact leaves FORMING. -/
theorem State.LanesIn.enters (laws : s.LanesIn (some r)) (used : s.txn r = some t) (forming : t.state = .forming) {u : Txn}
    (request : u.reqDesc = t.reqDesc) (later : u.state.requestState false = some .ready) (unframed : s.Unframed r) :
    (s.putTxn r (some u)).LanesIn none := by
  refine ⟨laws.lanes, laws.filling, fun g f d framed has => ?_, fun q w d a usedq has early => ?_⟩
  · obtain ⟨stored, record⟩ := laws.frames g f d framed has
    refine ⟨stored, fun q w has usedq => record q w has ?_⟩
    have other : q ≠ r := fun same => unframed g f framed (same ▸ Frame.formingRecord_txn has)
    rwa [State.txn_putTxn, if_neg other] at usedq
  · rw [State.txn_putTxn] at usedq
    split at usedq
    next same =>
      subst same
      cases usedq
      have ready := later.symm.trans early
      refine laws.requests q t d a used (request ▸ has) ?_
      rw [forming, ← ready]
      simp [TxnState.requestState]
    next other =>
      refine laws.requests q w d a usedq has ?_
      have away : (some r == some q) = false := by simpa using Ne.symm other
      rw [away]
      exact early

/-- A record that is free was not the one to leave FORMING. -/
theorem State.LanesIn.settle (laws : s.LanesIn (some r)) (free : s.txn r = none) : s.LanesIn none := by
  refine ⟨laws.lanes, laws.filling, laws.frames, fun q w d a used has early => laws.requests q w d a used has ?_⟩
  have away : (some r == some q) = false := by
    simp only [beq_eq_false_iff_ne, ne_eq, Option.some.injEq]
    rintro rfl
    rw [free] at used
    cases used
  rw [away]
  exact early

theorem State.LanesIn.becomePending (laws : s.LanesIn (some r)) (used : s.txn r = some t) (forming : t.state = .forming)
    (lawful : t.Lawful) (unframed : s.Unframed r) : (s.becomePending r).LanesIn none := by
  obtain ⟨copies, _, outcome⟩ := lawful.unlaunched (by simp [forming, TxnState.stage])
  have entered := laws.enters used forming (u := { t with state := .pending, egress := t.egress &&& s.downstream }) rfl rfl
    unframed
  unfold State.becomePending
  simp only [used]
  split
  · exact entered.cancelWaiting ((s.txn_putTxn r r _).trans (if_pos rfl)) rfl outcome copies _
  · exact entered.keep (.of_same rfl rfl rfl rfl)

theorem State.LanesIn.becomeExecuting (laws : s.LanesIn (some r)) (used : s.txn r = some t) (forming : t.state = .forming)
    (unframed : s.Unframed r) (command sequence : Byte) : (s.becomeExecuting r command sequence).LanesIn none := by
  unfold State.becomeExecuting
  simp only [used]
  exact (laws.enters used forming (u := { t with state := .executing, command := command, sequence := sequence }) rfl rfl
    unframed).keep (.of_same rfl rfl rfl rfl)

/-- An origin abandoned leaves a FORMING record and the frame receivers (R27). -/
theorem State.abandonOrigin_forming (used : s.txn r = some t) (forming : t.state = .forming) (g : Seg) :
    (s.abandonOrigin g).txn r = some t ∧ (s.abandonOrigin g).receivers = s.receivers := by
  have leaves := (State.withdrawReplies_leavesEngine (s.abandonLive g) g).trans (State.emptySlot_leavesEngine _ g)
  refine ⟨(leaves.txn r).trans ?_, ?_⟩
  · cases live : s.liveOf g with
    | none => rw [State.abandonLive_none live, used]
    | some q =>
      obtain ⟨w, usedq, alive, _⟩ := State.liveOf_some live
      have other : r ≠ q := by
        rintro rfl
        rw [used, Option.some.injEq] at usedq
        simp [← usedq, Txn.live, forming] at alive
      exact ((State.abandonLive_others live).2.2 r other).trans used
  · obtain ⟨y, eg, k, st, m, only⟩ := s.abandonOrigin_only g
    rw [only]

/-- A frame's record enters service, or is adopted (R27, R28, R87). -/
theorem State.LanesIn.enterService (laws : s.LanesIn (some r)) (engine : s.LawsIn e x) (used : s.txn r = some t)
    (forming : t.state = .forming) (has : t.reqDesc = some d) (unframed : s.Unframed r) (g : Seg) (cls : FrameClass) :
    (s.enterService g cls r d).LanesIn none := by
  unfold State.enterService
  dsimp only
  split
  · have frees := s.freeRecord_keepsLanes r
    have freed : (s.freeRecord r).txn r = none := (s.txn_freeRecord r r).trans (if_pos rfl)
    have ready : t.state.requestState (some r == some r) = some .ready := by simp [forming, TxnState.requestState]
    refine State.LanesIn.settle (r := r) ?_ freed
    exact laws.changeDesc (d := d) (v := (s.freeRecord r).mapStore fun st => st.dropTxn d) frees.frames frees.records
      frees.lanes (fun f other => .of_desc ((s.store.dropTxn_leaves d).1 f other))
      (laws.unclaimed_of_request used has ready frees.frames frees.records fun u h => by cases freed.symm.trans h)
      (s.store.pendingOf_dropTxn d d)
      (laws.filling d).dropTxn
  · obtain ⟨used', receivers⟩ := State.abandonOrigin_forming used forming g
    have unframed' : (s.abandonOrigin g).Unframed r := fun h f framed => unframed h f (receivers ▸ framed)
    have abandoned := laws.abandonOrigin engine g
    refine State.LanesIn.keep ?_ (State.setBackBulk_keepsLanes _ g)
    split
    · exact abandoned.becomeExecuting used' forming unframed' _ _
    · exact abandoned.becomePending used' forming (engine.records r t used) unframed'

/-! ### Replies and Unsolicited frames offered (R88, R103, R110) -/

theorem Store.FillsApart.of_ready {st : Store} (ready : ∀ y, st.desc d = some y → y.state = .ready) : st.FillsApart d := by
  intro y stored filling
  rw [ready y stored] at filling
  cases filling

/-- A Ready descriptor that is nobody's and on no lane joins the lanes of the segments of m (R98). -/
theorem State.LanesIn.offer (laws : s.LanesIn o) (free : s.Unclaimed d) {y z : Desc} (stored : s.store.desc d = some y)
    (alone : y.pendingEgress = 0) (ready : z.state = .ready) (store : v.store = s.store.putDesc d (some z))
    (receivers : v.receivers = s.receivers) (records : v.txns.records = s.txns.records)
    (gains : ∀ h, z.pendingEgress.has h = true → (s.egress.get h).Gains (v.egress.get h) d)
    (keeps : ∀ h, z.pendingEgress.has h = false → v.egress.get h = s.egress.get h) : v.LanesIn o := by
  have now : v.store.desc d = some z := by rw [store, Store.desc_putDesc, if_pos rfl]
  have pendingOf : ∀ h, (s.store.pendingOf d).has h = false := fun h => by
    rw [Store.pendingOf_used stored, alone]
    exact SegSet.has_zero h
  refine laws.joinAll (.of_same receivers) (.of_same records) (fun e other => .of_desc ?_)
    (free.keep (.of_same receivers) (.of_same records)) (.of_ready fun w stored' => ?_) (fun h _ => pendingOf h) (fun h => ?_)
    gains fun h away => keeps h away ▸ .refl _
  · rw [store, Store.desc_putDesc, if_neg other]
  · rw [now, Option.some.injEq] at stored'
    exact stored' ▸ ready
  · rw [Store.pendingOf_used now, pendingOf, Bool.false_or]

/-- A Ready descriptor that is nobody's and on no lane is offered to a reply lane (R110). -/
theorem State.LanesIn.offerReply (laws : s.LanesIn o) (free : s.Unclaimed d)
    {y : Desc} (stored : s.store.desc d = some y) (ready : y.state = .ready) (alone : y.pendingEgress = 0) (g : Seg)
    (a : Option Armed) : (s.offerReply g d a).LanesIn o := by
  have joins : ∀ h, (y.pendingEgress.insert g).has h = decide (h = g) := fun h => by
    rw [SegSet.has_insert, alone, SegSet.has_zero, Bool.or_false]
  unfold State.offerReply
  dsimp only
  split
  · refine laws.offer free stored alone (z := { y with pendingEgress := y.pendingEgress.insert g }) ready
      (Store.modify_used stored _) rfl rfl (fun h has => ?_) fun h away => ?_
    · have here : h = g := by simpa [joins] using has
      rw [here]
      simpa using (s.egress.get g).gains_reply ⟨d, a⟩
    · have other : h ≠ g := by simpa [joins] using away
      simp [other]
  · exact (laws.releaseIfDone free).keep (.of_same rfl rfl rfl rfl)

/-- An Unsolicited frame is offered to the Upstream segments (R88). -/
theorem State.LanesIn.forwardUnsolicited (laws : s.LanesIn o) (free : s.Unclaimed d) {y : Desc}
    (stored : s.store.desc d = some y) (ready : y.state = .ready) (alone : y.pendingEgress = 0) :
    (s.forwardUnsolicited d).LanesIn o := by
  obtain ⟨e, k, m, offered, taken⟩ := State.offerBulk_fold (d := d) Seg.all (by decide) stored
  have joins : ∀ h, m.has h = s.takesBulk h := fun h => by
    rw [taken.pending, alone, SegSet.has_zero, Bool.false_or]
    simp [Seg.mem_all]
  have lanes : (Seg.all.foldl (State.offerBulk d) s).LanesIn o := by
    rw [offered]
    refine laws.offer free stored alone (z := { y with pendingEgress := m }) ready rfl rfl rfl (fun h has => ?_) fun h away => ?_
    · have gets := taken.lanes h
      rw [if_pos ⟨Seg.mem_all h, joins h ▸ has⟩] at gets
      exact gets ▸ Egress.gains_bulk _ d
    · have gets := taken.lanes h
      rw [joins] at away
      rwa [if_neg fun both => by simp [away] at both] at gets
  rw [State.forwardUnsolicited_eq]
  refine lanes.releaseIfDone (free.keep (.of_same ?_) (.of_same ?_)) <;> rw [offered]

/-! ### The launch (R33, R34) -/

/-- A bypass changes no request (R34). -/
theorem State.raiseBypass_keepsLanes (older : List (Fin Config.numTxns)) (m : SegSet) (s : State) :
    s.KeepsLanes (s.raiseBypass older m) := by
  induction older generalizing s with
  | nil => exact .refl s
  | cons q l ih =>
    unfold State.raiseBypass at ih ⊢
    rw [List.foldl_cons]
    split
    next u used =>
      split
      · exact ih s
      · exact State.KeepsLanes.trans (.putTxn used (u := u.bypassed s.bridge.bypassLimit) (.inl ⟨rfl, rfl⟩)) (ih _)
    · exact ih s

/-- A launch puts the request's descriptor in the lanes of its segments (R33, R99). -/
theorem State.LanesIn.launch (laws : s.LanesIn o) (used : s.txn r = some t) (pending : t.state = .pending)
    (older : List (Fin Config.numTxns)) : (s.launch older r).LanesIn o := by
  have unlaunched : t.KeepsRequest t.launched := .inr ⟨by simp [pending], rfl⟩
  obtain ⟨v, h, e, launched, result, _, lanes⟩ := s.launch_eq older used
  rw [launched]
  refine State.LanesIn.keep ?_ (State.raiseBypass_keepsLanes older t.egress v)
  have written : s.KeepsLanes (s.putTxn r (some t.launched)) := .putTxn used unlaunched
  cases has : t.reqDesc with
  | none =>
    refine (laws.keep written).keep ⟨fun g => ?_, fun d => .of_desc ?_, .of_same ?_, .of_same ?_⟩
    · have same : v.egress.get g = s.egress.get g := by
        rw [result]
        refine (lanes g).trans ?_
        rw [has]
        split <;> simp
      exact same ▸ .refl _
    · rw [result, has]
      rfl
    · rw [result]
      rfl
    · rw [result]
  | some d =>
    have early : t.state.requestState (o == some r) = some .ready := by rw [pending]; rfl
    obtain ⟨y, stored, ready, _, alone⟩ := laws.requests r t d .ready used has early
    have free : (s.putTxn r (some t.launched)).Unclaimed d :=
      laws.unclaimed_of_request used has early written.frames written.records fun u usedu => by
        rw [State.txn_putTxn, if_pos rfl, Option.some.injEq] at usedu
        rw [← usedu]
        rfl
    refine (laws.keep written).offer free (y := y) (z := { y with txn := none, pendingEgress := t.egress }) stored alone ready
      ?_ ?_ ?_ (fun g joins => ?_) fun g away => ?_
    · rw [result, has]
      exact Store.modify_used stored _
    · rw [result]
      rfl
    · rw [result]
    · have gets := lanes g
      rw [if_pos joins, has] at gets
      rw [result]
      exact gets ▸ Egress.gains_bulk _ d
    · have gets := lanes g
      rw [if_neg (by simp [show t.egress.has g = false from away])] at gets
      rw [result]
      exact gets

/-- A scan launches what waits (R32). -/
theorem State.LanesIn.scanFrom {l : List (Fin Config.numTxns)} (laws : s.LanesIn o) (engine : s.LawsIn e x) (once : l.Nodup)
    (wait : ∀ r ∈ l, r ∈ s.txns.waiting) (older : List (Fin Config.numTxns)) : (s.scanFrom older l).LanesIn o := by
  induction l generalizing s older with
  | nil => exact laws
  | cons r l ih =>
    obtain ⟨new, once⟩ := List.nodup_cons.1 once
    have waits := wait r List.mem_cons_self
    unfold State.scanFrom
    split
    · obtain ⟨t, used, pending⟩ := (engine.waiting.2 r).1 waits
      refine ih (laws.launch used pending older) (engine.launch waits older) once (fun q mem => ?_) older
      have other : q ≠ r := fun same => new (same ▸ mem)
      simp [s.launch_waiting older used, wait q (List.mem_cons_of_mem r mem), other]
    · exact ih laws engine once (fun q mem => wait q (List.mem_cons_of_mem r mem)) (older ++ [r])

theorem State.LanesIn.scan (laws : s.LanesIn o) (engine : s.LawsIn e x) : s.scan.LanesIn o :=
  laws.scanFrom engine engine.waiting.1 (fun _ mem => mem) []

/-! ### Copies, responses and timeouts (R35 to R42) -/

/-- What follows the last copy of a carried transaction (R36, R37). -/
theorem State.copiesDone_keepsLanes (used : s.txn r = some t) (carried : t.state.stage = .sending) :
    s.KeepsLanes (s.copiesDone r) := by
  have formed : t.state ≠ .forming := fun state => by simp [state, TxnState.stage] at carried
  have given : ∀ u : Txn, u.state.stage = .sending → s.KeepsLanes (s.putTxn r (some u)) := fun u sent =>
    .putTxn used (.inr ⟨formed, sent⟩)
  unfold State.copiesDone
  simp only [used]
  split
  · exact .refl s
  · have dropped := given { t with reqDesc := none } carried
    split
    · exact dropped.trans (State.freeRecord_keepsLanes _ r)
    · split
      · split
        · exact dropped.trans (State.closeTxn_keepsLanes _ r _)
        · rw [State.putTxn_putTxn]
          exact given _ rfl
      · exact dropped
      · exact dropped.trans (State.closeTxn_keepsLanes _ r _)
      · exact dropped

/-- A request copy that has reached send completion (R35). -/
theorem State.copyCompleted_keepsLanes (engine : s.LawsIn e x) (g : Seg) : s.KeepsLanes (s.copyCompleted g) := by
  unfold State.copyCompleted
  split
  · exact .refl s
  next r held =>
    split
    · exact .refl s
    next t used =>
      have carried := (engine.holds held used).2.2.2
      have reported : ∀ (u : Txn) (v : State), u.state = t.state → u.reqDesc = t.reqDesc →
          (s.putTxn r (some u)).KeepsLanes v → v.txns.records = (s.putTxn r (some u)).txns.records →
          s.KeepsLanes (v.copiesDone r) := by
        intro u v state request keeps records
        have now : v.txn r = some u := by
          rw [State.txn, records]
          exact (s.txn_putTxn r r _).trans (if_pos rfl)
        exact (State.KeepsLanes.trans (.putTxn used (.inl ⟨request, by rw [state]⟩)) keeps).trans
          (State.copiesDone_keepsLanes now (state ▸ carried))
      dsimp only
      split
      · exact reported { t with copies := t.copies.erase g } _ rfl rfl (.of_same rfl rfl rfl rfl) rfl
      · split
        · exact reported { t with copies := t.copies.erase g, windows := t.windows.insert g } _ rfl rfl
            (.of_same rfl rfl rfl rfl) rfl
        · exact reported { t with copies := t.copies.erase g, copyOk := true } _ rfl rfl (.of_same rfl rfl rfl rfl) rfl
        · exact reported { t with copies := t.copies.erase g } _ rfl rfl (.of_same rfl rfl rfl rfl) rfl

/-- A request copy lost to a collision (R36). -/
theorem State.copyFailed_keepsLanes (engine : s.LawsIn e x) (g : Seg) : s.KeepsLanes (s.copyFailed g) := by
  unfold State.copyFailed
  split
  · exact .refl s
  next r held =>
    split
    · exact .refl s
    next t used =>
      have put : s.KeepsLanes ((s.putTxn r (some { t with copies := t.copies.erase g })).releaseGrant g) :=
        State.KeepsLanes.trans (.putTxn used (u := { t with copies := t.copies.erase g }) (.inl ⟨rfl, rfl⟩))
          (.of_same rfl rfl rfl rfl)
      exact put.trans (State.copiesDone_keepsLanes ((s.txn_putTxn r r _).trans (if_pos rfl)) (engine.holds held used).2.2.2)

/-- An address character matched (R38). -/
theorem State.matchWindow_keepsLanes (engine : s.LawsIn e x) (window : s.windowOn g = some (r, t)) :
    s.KeepsLanes (s.matchWindow r t g) := by
  obtain ⟨_, used, has⟩ := State.windowOn_some window
  have carried := ((engine.records r t used).windowed has).2.2.2
  exact State.KeepsLanes.trans (.putTxn used
    (u := { t with state := .receiving, deadline := none, windows := 0, responseSeg := some g })
    (.inr ⟨fun forming => by simp [forming, TxnState.stage] at carried, rfl⟩)) (State.releaseGrants_keepsLanes _ _)

/-- A response that ended intact is placed, or released (R42, R104). -/
theorem State.LanesIn.responseIntact (laws : s.LanesIn o) (free : s.Unclaimed d) {y : Desc}
    (stored : s.store.desc d = some y) (ready : y.state = .ready) (alone : y.pendingEgress = 0) (r : Fin Config.numTxns)
    (g : Seg) : (s.responseIntact r g d).LanesIn o := by
  unfold State.responseIntact
  split
  · exact laws.dropTxn free
  next t _ =>
    have ends : ∀ u : State, u.LanesIn o → (((u.releaseGrant g).closeTxn r .answered).learn t.station g).LanesIn o :=
      fun u now => (State.LanesIn.keep (s := u.releaseGrant g) (now.keep (.of_same rfl rfl rfl rfl))
        (State.closeTxn_keepsLanes _ r _)).keep (State.learn_keepsLanes _ _ _)
    refine ends _ ?_
    split
    · exact laws.dropTxn free
    · have given : (s.mapStore fun st => st.modify d fun x => { x with txn := none })
          = s.mapStore fun st => st.putDesc d (some { y with txn := none }) := by
        simp only [State.mapStore, Store.modify_used stored]
      have now : (s.mapStore fun st => st.putDesc d (some { y with txn := none })).store.desc d = some { y with txn := none } :=
        (s.store.desc_putDesc d d _).trans (if_pos rfl)
      have still : (s.mapStore fun st => st.putDesc d (some { y with txn := none })).Unclaimed d :=
        free.keep (.of_same rfl) (.of_same rfl)
      rw [given]
      refine State.LanesIn.offerReply ?_ still now ready alone _ _
      refine laws.changeDesc (d := d) (.of_same rfl) (.of_same rfl) (fun _ => .refl _)
        (fun f other => .of_desc ((s.store.desc_putDesc d f _).trans (if_neg other))) still ?_
        (.of_ready fun z stored' => by
          rw [now, Option.some.injEq] at stored'
          exact stored' ▸ ready)
      rw [Store.pendingOf_used now, Store.pendingOf_used stored]

/-- A response timer's expiry (R41). -/
theorem State.timeOut_keepsLanes (used : s.txn r = some t) : s.KeepsLanes (s.timeOut r t) := by
  have stations : ∀ (l : List Seg) (s : State), s.KeepsLanes (l.foldl (fun s g => s.setLastTimedOut g (some t.station)) s) := by
    intro l
    induction l with
    | nil => exact .refl
    | cons g l ih =>
      exact fun s => (State.KeepsLanes.of_same (s := s) (v := s.setLastTimedOut g (some t.station)) rfl rfl rfl rfl).trans (ih _)
  have missed : ∀ s : State, s.KeepsLanes (s.countMiss t.station) := fun s => by
    obtain ⟨b, k, h⟩ := s.countMiss_only t.station
    exact h ▸ .of_same rfl rfl rfl rfl
  unfold State.timeOut
  have put : s.KeepsLanes (s.putTxn r (some { t with windows := 0, deadline := none })) := .putTxn used (.inl ⟨rfl, rfl⟩)
  have counted := ((put.trans (State.releaseGrants_keepsLanes _ t.windows)).trans (stations t.windows.members _)).trans (missed _)
  exact (counted.same (v := State.raise (State.count _ t.origin .timeouts) .timeout (some t.origin) (some t.station) 0) rfl rfl
    rfl rfl).trans (State.closeTxn_keepsLanes _ r .timeout)

/-! ### A segment leaving Downstream (R49) -/

/-- The waiting transactions lose a segment, those left with none close (R49). -/
theorem State.LanesIn.pruneWaiting (laws : s.LanesIn o) (engine : s.LawsIn e x) (g : Seg) : (s.pruneWaiting g).LanesIn o := by
  unfold State.pruneWaiting
  have wait : ∀ q ∈ s.txns.waiting, ∀ w, s.txn q = some w → w.state = .pending ∧ w.outcome = none ∧ w.copies = 0 := by
    intro q mem w used
    obtain ⟨w', used', pending⟩ := (engine.waiting.2 q).1 mem
    rw [used, Option.some.injEq] at used'
    subst used'
    obtain ⟨copies, _, outcome⟩ := (engine.records q w used).unlaunched (by simp [pending, TxnState.stage])
    exact ⟨pending, outcome, copies⟩
  generalize s.txns.waiting = l at wait
  clear engine
  induction l generalizing s with
  | nil => exact laws
  | cons q l ih =>
    rw [List.foldl_cons]
    have rest := fun p mem => wait p (List.mem_cons_of_mem q mem)
    split
    · exact ih laws rest
    next t used =>
      obtain ⟨pending, outcome, copies⟩ := wait q List.mem_cons_self t used
      have erased : (s.putTxn q (some { t with egress := t.egress.erase g })).LanesIn o :=
        laws.keep (.putTxn used (.inl ⟨rfl, rfl⟩))
      have now : (s.putTxn q (some { t with egress := t.egress.erase g })).txn q = some { t with egress := t.egress.erase g } :=
        (s.txn_putTxn q q _).trans (if_pos rfl)
      have stillWait : ∀ p ∈ l, ∀ w, (s.putTxn q (some { t with egress := t.egress.erase g })).txn p = some w →
          w.state = .pending ∧ w.outcome = none ∧ w.copies = 0 := by
        intro p mem w usedp
        rw [State.txn_putTxn] at usedp
        split at usedp
        · cases usedp
          exact ⟨pending, outcome, copies⟩
        · exact rest p mem w usedp
      dsimp only
      split
      · split
        · refine ih (erased.cancelWaiting now pending outcome copies .noRoute) fun p mem w usedp => stillWait p mem w ?_
          rw [(State.cancelWaiting_leavesEngine _ now outcome copies .noRoute).txn, State.txn_freeRecord] at usedp
          split at usedp
          · cases usedp
          · exact usedp
        · exact ih erased stillWait
      · exact ih laws rest

end

end Sys2Proof.Machine
end

