-- ==== Sys2Proof/Proofs/LaneLawsReception.lean ====
section
/-!
The frame receivers keep the laws of the lanes (R73 to R90, R97).
-/

namespace Sys2Proof.Machine

section
variable {s v : State} {o : Option (Fin Config.numTxns)} {r : Fin Config.numTxns} {t : Txn} {d : Fin Config.numDescs} {g : Seg}
  {f : Frame} {e : EngineState} {x : Option (Fin Config.numTxns)}

/-! ### Descriptors taken and grown (R76, R79, R80) -/

/-- A descriptor claimed for a frame: one that was Free, Filling now (R76, R97). -/
theorem Store.openFrame_claims {st st' : Store} (lawful : st.Lawful) {cls : FrameClass} {ch : Ch} {bad : Bool}
    (claimed : st.openFrame cls g ch bad x = some (d, st')) : st.desc d = none ∧ (∀ q, q ≠ d → st'.desc q = st.desc q)
      ∧ ∃ y, st'.desc d = some y ∧ y.state = .filling ∧ y.ingress = some g ∧ y.txn = x ∧ y.pendingEgress = 0 := by
  unfold Store.openFrame at claimed
  split at claimed
  next q ds c cs descs cells =>
    simp only [Option.some.injEq, Prod.mk.injEq] at claimed
    obtain ⟨rfl, rfl⟩ := claimed
    refine ⟨(lawful.2.2 q).1 (by simp [descs]), fun p other => ?_, _,
      (Store.desc_congr rfl q).trans ((Store.desc_putDesc _ q q _).trans (if_pos rfl)), rfl, rfl, rfl, rfl⟩
    exact (Store.desc_congr rfl p).trans ((Store.desc_putDesc _ q p _).trans (if_neg other))
  · cases claimed

/-- A descriptor in use, rewritten with the account it has. -/
theorem Store.SameAccount.of_rewrite {st st' : Store} {y z : Desc} (stored : st.desc d = some y)
    (now : ∀ q, st'.desc q = if q = d then some z else st.desc q) (account : z.account = y.account)
    (q : Fin Config.numDescs) : st.SameAccount st' q := by
  unfold Store.SameAccount
  rw [now]
  split
  next same => rw [same, stored, Option.map_some, Option.map_some, account]
  next => rfl

theorem Store.sameAccount_append (st : Store) (d : Fin Config.numDescs) (ch : Ch) (bad : Bool) (q : Fin Config.numDescs) :
    st.SameAccount (st.append d ch bad) q := by
  unfold Store.append
  split
  · exact .of_desc rfl
  next y stored =>
    dsimp only
    refine .of_rewrite stored (fun p => (Store.desc_putDesc _ d p _).trans (congrArg (ite _ _) ?_)) (by rfl) q
    split <;> rfl

theorem Store.sameAccount_grow {st st' : Store} (grown : st.grow d = some st') (q : Fin Config.numDescs) :
    st.SameAccount st' q := by
  unfold Store.grow at grown
  split at grown
  next y c cs stored cells =>
    cases grown
    exact .of_rewrite stored (fun p => Store.desc_putDesc _ d p _) (by rfl) q
  · cases grown

/-! ### Frame receivers -/

/-- A frame receiver is replaced by one whose frame, where it has one with a descriptor, is its own (R97). -/
theorem State.LanesIn.setReceiver (laws : s.LanesIn o) {z : FrState}
    (assembles : ∀ f d, z.frame = some f → f.desc = some d → s.Assembles g f d) : (s.setReceiver g z).LanesIn o := by
  refine ⟨laws.lanes, laws.filling, fun h f d framed has => ?_, laws.requests⟩
  simp only [State.setReceiver_fields, PerSeg.get_set] at framed
  split at framed
  next here => exact here ▸ assembles f d framed has
  next => exact laws.frames h f d framed has

/-- A frame passed over has no descriptor (R71). -/
theorem State.skipFrame_keepsLanes (s : State) (g : Seg) (cls : Option FrameClass) (reason : SkipReason) (a : Byte)
    (r : Option (Fin Config.numTxns)) (i : Option NoticeIntent) : s.KeepsLanes (s.skipFrame g cls reason a r i) := by
  refine ⟨fun _ => .refl _, fun _ => .of_desc rfl, fun h f d framed has => ?_, .of_same rfl⟩
  simp only [State.skipFrame, State.setReceiver_fields, PerSeg.get_set] at framed
  split at framed
  · cases framed
    cases has
  · exact ⟨f, framed, has, rfl, rfl⟩

theorem State.refuseFrame_keepsLanes (s : State) (g : Seg) (cls : FrameClass) (a : Byte) (r : Option (Fin Config.numTxns)) :
    s.KeepsLanes (s.refuseFrame g cls a r) :=
  (s.skipFrame_keepsLanes g _ _ a r _).same rfl rfl rfl rfl

/-- A frame goes on with the descriptor, the transaction and the class it has. -/
theorem State.KeepsLanes.setFrame (framed : (s.receivers.get g).frame = some f) {z : FrState} {f' : Frame}
    (now : z.frame = some f') (desc : f'.desc = f.desc) (txn : f'.txn = f.txn) (cls : f'.cls = f.cls) :
    s.KeepsLanes (s.setReceiver g z) := by
  refine ⟨fun _ => .refl _, fun _ => .of_desc rfl, fun h f'' d framed'' has => ?_, .of_same rfl⟩
  simp only [State.setReceiver_fields, PerSeg.get_set] at framed''
  split at framed''
  next here =>
    rw [now, Option.some.injEq] at framed''
    subst framed''
    exact ⟨f, here ▸ framed, desc ▸ has, txn.symm, (Frame.formingRecord_congr cls txn).symm⟩
  next => exact ⟨f'', framed'', has, rfl, rfl⟩

/-! ### Admission (R25, R76) -/

/-- A record that is free is no frame's (R71). -/
theorem State.LawsIn.unframed_of_free (engine : s.LawsIn e x) (free : s.txn r = none) : s.Unframed r := by
  intro g f framed own
  obtain ⟨forming, response, either⟩ := engine.frames g f framed r
  obtain has | cls := either own
  · obtain ⟨t, used, _⟩ := forming has
    rw [free] at used
    cases used
  · obtain ⟨t, used, _⟩ := response cls own
    rw [free] at used
    cases used

/-- A descriptor claimed for a frame keeps the laws before the frame has it (R76). -/
theorem State.LanesIn.openFrame (laws : s.LanesIn o) (lawful : s.store.Lawful) {cls : FrameClass} {ch : Ch} {bad : Bool}
    {st : Store} {q : Option (Fin Config.numTxns)} (claimed : s.store.openFrame cls g ch bad q = some (d, st)) :
    State.LanesIn { s with store := st } o := by
  obtain ⟨free, others, y, stored, _, _, _, alone⟩ := Store.openFrame_claims lawful claimed
  refine laws.changeDesc (d := d) (.of_same rfl) (.of_same rfl) (fun _ => .refl _) (fun q other => .of_desc (others q other))
    ((laws.unclaimed_of_free free).keep (.of_same rfl) (.of_same rfl)) ?_ fun z stored' _ => ?_
  · rw [Store.pendingOf_used stored, alone, Store.pendingOf_free free]
  · have same : some z = some y := stored'.symm.trans stored
    rw [Option.some.inj same]
    exact alone

/-- A record is reserved with the descriptor that is Filling for it (R25, R97). -/
theorem State.LanesIn.reserve (laws : s.LanesIn none) (unframed : s.Unframed r) (forming : t.state = .forming)
    (has : t.reqDesc = some d) {y : Desc} (stored : s.store.desc d = some y) (filling : y.state = .filling)
    (txn : y.txn = some r) : (s.putTxn r (some t)).LanesIn none := by
  refine ⟨laws.lanes, laws.filling, fun g f d framed hasd => ?_, fun q w c a usedq hasq early => ?_⟩
  · obtain ⟨own, record⟩ := laws.frames g f d framed hasd
    refine ⟨own, fun q w hasq usedq => record q w hasq ?_⟩
    have other : q ≠ r := fun same => unframed g f framed (same ▸ Frame.formingRecord_txn hasq)
    rwa [State.txn_putTxn, if_neg other] at usedq
  · rw [State.txn_putTxn] at usedq
    split at usedq
    next same =>
      subst same
      cases usedq
      rw [has, Option.some.injEq] at hasq
      subst hasq
      rw [forming] at early
      cases early
      exact ⟨y, stored, filling, txn, laws.filling d y stored filling⟩
    next => exact laws.requests q w c a usedq hasq early

/-- Admission with a record (R25, R76). -/
theorem State.LanesIn.admitRecord (laws : s.LanesIn none) (engine : s.LawsIn e x) (lawful : s.store.Lawful)
    (g : Seg) (cls : FrameClass) (kind : TxnKind) (m : SegSet) (tc : Option TimeoutClass) (c : RxChar) :
    (s.admitRecord g cls kind m tc c).LanesIn none := by
  have refused := laws.keep (s.refuseFrame_keepsLanes g cls c.value none)
  unfold State.admitRecord
  dsimp only
  split
  · exact refused
  · split
    · exact refused
    next r lowest =>
      split
      · exact refused
      next d st claimed =>
        obtain ⟨_, _, y, stored, filling, ingress, txn, _⟩ := Store.openFrame_claims lawful claimed
        refine State.LanesIn.setReceiver ((laws.openFrame lawful claimed).reserve (d := d) (y := y)
          (engine.unframed_of_free (State.lowestFree_free lowest)) rfl rfl stored filling txn) fun f q framed has => ?_
        cases framed
        cases has
        refine ⟨⟨y, stored, filling, ingress, txn⟩, fun q w forming used => ?_⟩
        have own := Frame.formingRecord_txn forming
        cases own
        rw [State.txn_putTxn, if_pos rfl, Option.some.injEq] at used
        rw [← used]
        exact ⟨rfl, rfl⟩

/-- Admission of a frame that bears no record (R76). -/
theorem State.LanesIn.admitPlain (laws : s.LanesIn o) (lawful : s.store.Lawful) (g : Seg) {cls : FrameClass}
    (bears : cls.bearsRecord = false) (q : Option (Fin Config.numTxns)) (c : RxChar) :
    (s.admitPlain g cls q c).LanesIn o := by
  have refused := laws.keep (s.refuseFrame_keepsLanes g cls c.value q)
  unfold State.admitPlain
  dsimp only
  split
  · exact refused
  · split
    · exact refused
    next d st claimed =>
      obtain ⟨_, _, y, stored, filling, ingress, txn, _⟩ := Store.openFrame_claims lawful claimed
      refine State.LanesIn.setReceiver (laws.openFrame lawful claimed) fun f p framed has => ?_
      cases framed
      cases has
      refine ⟨⟨y, stored, filling, ingress, txn⟩, fun q w forming _ => ?_⟩
      simp [Frame.formingRecord, bears] at forming

/-- A frame's beginning (R73). -/
theorem State.LanesIn.beginFrame (laws : s.LanesIn none) (engine : s.LawsIn e x) (lawful : s.store.Lawful) (g : Seg)
    (c : RxChar) : (s.beginFrame g c).LanesIn none := by
  have skipped : ∀ cls reason i, s.KeepsLanes (s.skipFrame g cls reason c.value none i) := fun cls reason i =>
    s.skipFrame_keepsLanes g cls reason c.value none i
  unfold State.beginFrame
  split
  · exact laws
  · exact laws.admitRecord engine lawful g _ _ _ _ c
  next r t classed =>
    have window := State.classify_window classed
    obtain ⟨y, matched⟩ := s.matchWindow_only r t g
    exact (laws.keep (State.matchWindow_keepsLanes engine window)).admitPlain (by rw [matched]; exact lawful) g rfl _ c
  · exact State.LanesIn.admitPlain (s := s.count g .unsolicited) (laws.keep (.of_same rfl rfl rfl rfl)) lawful g rfl _ c
  · split
    · exact laws.keep ((skipped _ _ _).same rfl rfl rfl rfl)
    · exact laws.keep ((skipped _ _ _).same rfl rfl rfl rfl)
    · exact laws.keep ((skipped _ _ _).same rfl rfl rfl rfl)
    · exact laws.keep ((skipped _ _ _).same rfl rfl rfl rfl)
    all_goals exact laws.keep (skipped _ _ _)

/-! ### Growth (R79 to R82) -/

theorem Frame.intend_desc (f : Frame) (i : NoticeIntent) : (f.intend i).desc = f.desc := by
  unfold Frame.intend
  split <;> rfl

/-- A data character taken leaves the descriptor's account as it is (R79). -/
theorem State.growFrame_keepsLanes (stored : s.receivers.get g = .store f) (c : RxChar) :
    s.KeepsLanes (s.growFrame g f c) := by
  have framed : (s.receivers.get g).frame = some f := by rw [stored]; rfl
  have turned : ∀ reason i, s.KeepsLanes (s.setReceiver g (.skip reason (f.intend i))) := fun reason i =>
    .setFrame framed rfl (f.intend_desc i) (f.intend_txn i) (f.intend_cls i)
  have kept : ∀ (st : Store) (b : Nat), (∀ d, s.store.SameAccount st d) → s.KeepsLanes (State.setReceiver { s with store := st } g
      (.store (if erroneous (s.active g).noisePolicy c = true then Frame.intend { f with taken := b } .damaged
        else { f with taken := b }))) := by
    intro st b same
    have filled : s.KeepsLanes { s with store := st } := ⟨fun _ => .refl _, same, .of_same rfl, .of_same rfl⟩
    refine filled.trans ?_
    split
    · exact .setFrame (s := { s with store := st }) (z := .store (Frame.intend { f with taken := b } .damaged)) framed rfl
        (Frame.intend_desc _ _) (Frame.intend_txn _ _) (Frame.intend_cls _ _)
    · exact .setFrame (s := { s with store := st }) (z := .store { f with taken := b }) framed rfl rfl rfl rfl
  unfold State.growFrame
  split
  · exact .refl s
  · split
    · exact .refl s
    · dsimp only
      split
      · exact turned _ _
      · split
        · split
          · exact turned _ _
          next grown =>
            exact kept _ _ fun d => (Store.sameAccount_grow grown d).trans (Store.sameAccount_append _ _ _ _ d)
        · exact kept _ _ fun d => Store.sameAccount_append _ _ _ _ d

/-! ### Frame end (R83 to R89) -/

/-- The descriptor of a frame taken from its receiver is nobody's once its FORMING record, where it has one, is free or
carried (R71, R97). -/
theorem State.LanesIn.unclaimed_of_frame (laws : s.LanesIn none) (fits : s.Fits g f)
    (clear : (s.receivers.get g).frame = none) (assembles : s.Assembles g f d) (frames : s.KeepsFrames v)
    (records : s.KeepsRecords v)
    (done : ∀ r u, f.formingRecord = some r → v.txn r = some u → u.state.stage = .sending) : v.Unclaimed d := by
  obtain ⟨⟨y, stored, filling, ingress, txn⟩, _⟩ := assembles
  refine ⟨fun h f' framed has => ?_, fun q u used has => ?_⟩
  · obtain ⟨f'', framed', has', _⟩ := frames h f' d framed has
    obtain ⟨⟨z, stored', _, ingress', _⟩, _⟩ := laws.frames h f'' d framed' has'
    rw [stored, Option.some.injEq] at stored'
    rw [← stored', ingress, Option.some.injEq] at ingress'
    rw [← ingress', clear] at framed'
    cases framed'
  · obtain ⟨w, usedw, ⟨request, stage⟩ | ⟨_, carried⟩⟩ := records q u used
    · cases early : w.state.requestState (none == some q) with
      | none => exact stage.trans ((TxnState.requestState_none _ _).1 early)
      | some a =>
        obtain ⟨z, stored', _, txn', _⟩ := laws.requests q w d a usedw (request ▸ has) early
        rw [stored, Option.some.injEq] at stored'
        rw [← stored', txn] at txn'
        obtain ⟨_, response, either⟩ := fits q
        obtain forming | cls := either txn'
        · exact done q u forming used
        · obtain ⟨w', usedw', receiving, _⟩ := response cls txn'
          rw [usedw, Option.some.injEq] at usedw'
          subst usedw'
          rw [stage, receiving]
          rfl
    · exact carried

/-- A frame's descriptor that is nobody's is released (R86, R97). -/
theorem State.LanesIn.releaseFrame (laws : s.LanesIn o) (free : ∀ d, f.desc = some d → s.Unclaimed d)
    (alone : ∀ d, f.desc = some d → s.store.pendingOf d = 0) : (s.releaseFrame f).LanesIn o := by
  unfold State.releaseFrame
  split
  next d has =>
    cases stored : s.store.desc d with
    | none =>
      have same : (s.mapStore fun st => st.release d) = s := by
        rw [State.mapStore, Store.release_free stored]
      exact same.symm ▸ laws
    | some y =>
      obtain ⟨gone, others, _⟩ := Store.release_used stored
      refine laws.changeDesc (d := d) (.of_same rfl) (.of_same rfl) (fun _ => .refl _) (fun q other => .of_desc (others q other))
        ((free d has).keep (.of_same rfl) (.of_same rfl)) ((Store.pendingOf_free gone).trans (alone d has).symm)
        fun z stored' => ?_
      cases gone.symm.trans stored'
  · exact laws

/-- A frame discarded: its descriptor released, its FORMING record freed where it has one (R86, R90). -/
theorem State.LanesIn.discard (laws : s.LanesIn none) (fits : s.Fits g f) (clear : (s.receivers.get g).frame = none)
    (assembles : ∀ d, f.desc = some d → s.Assembles g f d) :
    (f.formingRecord = none → (s.releaseFrame f).LanesIn none)
      ∧ ∀ r, f.formingRecord = some r → ((s.releaseFrame f).freeRecord r).LanesIn none := by
  have alone : ∀ d, f.desc = some d → s.store.pendingOf d = 0 := fun d has => by
    obtain ⟨⟨y, stored, filling, _⟩, _⟩ := assembles d has
    rw [Store.pendingOf_used stored]
    exact laws.filling d y stored filling
  refine ⟨fun none_ => ?_, fun r has => ?_⟩
  · refine laws.releaseFrame (fun d hasd => ?_) alone
    refine laws.unclaimed_of_frame fits clear (assembles d hasd) (.of_same rfl) (.of_same rfl) fun q u forming => ?_
    rw [none_] at forming
    cases forming
  · have frees := s.freeRecord_keepsLanes r
    have order : (s.releaseFrame f).freeRecord r = (s.freeRecord r).releaseFrame f := by
      unfold State.releaseFrame
      cases f.desc <;> rfl
    rw [order]
    refine (laws.keep frees).releaseFrame (fun d hasd => ?_) alone
    refine laws.unclaimed_of_frame fits clear (assembles d hasd) frees.frames frees.records fun q u forming used => ?_
    rw [has, Option.some.injEq] at forming
    rw [State.txn_freeRecord, if_pos forming.symm] at used
    cases used

theorem State.responseFailed_keepsLanes (s : State) (r : Fin Config.numTxns) (g : Seg) (c : TxnOutcome) :
    s.KeepsLanes (s.responseFailed r g c) :=
  (State.KeepsLanes.of_same (s := s) (v := s.releaseGrant g) rfl rfl rfl rfl).trans (State.closeTxn_keepsLanes _ r c)

/-- A frame that did not end intact acts on its transaction (R86). -/
theorem State.endUnkept_keepsLanes (s : State) (g : Seg) (f : Frame) (c : Option TxnOutcome) :
    s.KeepsLanes (s.endUnkept g f c) := by
  unfold State.endUnkept
  split
  · exact s.freeRecord_keepsLanes _
  · split
    · exact s.responseFailed_keepsLanes _ _ _
    · exact .refl s

/-- A Damaged or Truncated frame (R86). -/
theorem State.LanesIn.endReleased (laws : s.LanesIn none) (fits : s.Fits g f) (clear : (s.receivers.get g).frame = none)
    (assembles : ∀ d, f.desc = some d → s.Assembles g f d) (c : Option TxnOutcome) :
    ((s.releaseFrame f).endUnkept g f c).LanesIn none := by
  obtain ⟨plain, recorded⟩ := laws.discard fits clear assembles
  cases forming : f.formingRecord with
  | none => exact (plain forming).keep (State.endUnkept_keepsLanes _ g f c)
  | some r =>
    simp only [State.endUnkept, forming]
    exact recorded r forming

/-- The frame of a FORMING record has ended intact: its descriptor is Ready (R87, R97). -/
theorem State.LanesIn.frameEnds (laws : s.LanesIn none) (clear : (s.receivers.get g).frame = none)
    (assembles : s.Assembles g f d) (used : s.txn r = some t) (forming : f.formingRecord = some r) :
    State.LanesIn (s.mapStore fun st => st.modify d fun y => { y with state := .ready }) (some r) := by
  obtain ⟨⟨y, stored, filling, ingress, txn⟩, record⟩ := assembles
  have alone := laws.filling d y stored filling
  have own := Frame.formingRecord_txn forming
  obtain ⟨isForming, has⟩ := record r t forming used
  generalize result : (s.mapStore fun st => st.modify d fun y => { y with state := .ready }) = v
  have store : v.store = s.store.putDesc d (some { y with state := .ready }) := by
    rw [← result]
    exact Store.modify_used stored _
  have now : v.store.desc d = some { y with state := .ready } := by rw [store, Store.desc_putDesc, if_pos rfl]
  have others : ∀ c, c ≠ d → v.store.desc c = s.store.desc c := fun c other => by rw [store, Store.desc_putDesc, if_neg other]
  have txns : ∀ q, v.txn q = s.txn q := fun q => by rw [← result]; rfl
  refine ⟨fun h => ?_, fun c => ?_, fun h f' c framed hasc => ?_, fun q w c a usedq hasq early => ?_⟩
  · have sets : (fun c => (v.store.pendingOf c).has h) = fun c => (s.store.pendingOf c).has h := funext fun c => by
      by_cases same : c = d
      · rw [same, Store.pendingOf_used now, Store.pendingOf_used stored]
      · rw [Store.pendingOf, others c same]
        rfl
    have egress : v.egress = s.egress := by rw [← result]; rfl
    exact sets ▸ egress ▸ laws.lanes h
  · by_cases same : c = d
    · refine same ▸ .of_ready fun z stored' => ?_
      rw [now, Option.some.injEq] at stored'
      exact stored' ▸ rfl
    · exact (laws.filling c).same (.of_desc (others c same))
  · have framed' : (s.receivers.get h).frame = some f' := by rw [← framed, ← result]; rfl
    obtain ⟨⟨z, storedz, fillingz, ingressz, txnz⟩, recordz⟩ := laws.frames h f' c framed' hasc
    have other : c ≠ d := by
      rintro rfl
      rw [stored, Option.some.injEq] at storedz
      rw [← storedz, ingress, Option.some.injEq] at ingressz
      rw [← ingressz, clear] at framed'
      cases framed'
    exact ⟨⟨z, (others c other).trans storedz, fillingz, ingressz, txnz⟩, fun q w hasq usedq =>
      recordz q w hasq ((txns q).symm.trans usedq)⟩
  · rw [txns] at usedq
    by_cases same : q = r
    · subst same
      rw [used, Option.some.injEq] at usedq
      subst usedq
      rw [has, Option.some.injEq] at hasq
      subst hasq
      have ready : a = .ready := by
        rw [isForming] at early
        simpa [TxnState.requestState] using early.symm
      exact ⟨_, now, ready.symm, txn.trans own, alone⟩
    · have away : (some r == some q) = false := by simpa using Ne.symm same
      rw [away] at early
      obtain ⟨z, storedz, statez, txnz, alonez⟩ := laws.requests q w c a usedq hasq early
      have other : c ≠ d := by
        rintro rfl
        rw [stored, Option.some.injEq] at storedz
        rw [← storedz, txn, own, Option.some.injEq] at txnz
        exact same txnz.symm
      exact ⟨z, (others c other).trans storedz, statez, txnz, alonez⟩

/-- A frame handed on (R87). -/
theorem State.LanesIn.handOn (laws : s.LanesIn none) (engine : s.LawsIn e x) (fits : s.Fits g f)
    (clear : (s.receivers.get g).frame = none) (assembles : s.Assembles g f d) : (s.handOn g f d).LanesIn none := by
  have ⟨⟨y, stored, filling, _⟩, record⟩ := assembles
  have leaves := s.mapStore_leavesEngine fun st => st.modify d fun x => { x with state := .ready }
  have serves : ∀ (c : FrameClass) (r : Fin Config.numTxns), c.bearsRecord = true → f.cls = some c → f.txn = some r →
      ((s.mapStore fun st => st.modify d fun x => { x with state := .ready }).enterService g c r d).LanesIn none := by
    intro c r bears cls own
    have forming := (Frame.formingRecord_of_bears cls bears).trans own
    obtain ⟨t, used, isForming, _⟩ := (fits r).1 forming
    exact (laws.frameEnds clear assembles used forming).enterService (engine.of_leaves leaves) used isForming
      (record r t forming used).2 (engine.unframed_of_fits fits own clear) g c
  have alone := laws.filling d y stored filling
  have ready : f.formingRecord = none →
      (s.mapStore fun st => st.modify d fun x => { x with state := .ready }).LanesIn none
        ∧ (s.mapStore fun st => st.modify d fun x => { x with state := .ready }).Unclaimed d
        ∧ (s.mapStore fun st => st.modify d fun x => { x with state := .ready }).store.desc d
          = some { y with state := .ready } := by
    intro none_
    have free : (s.mapStore fun st => st.modify d fun x => { x with state := .ready }).Unclaimed d :=
      laws.unclaimed_of_frame fits clear assembles (.of_same rfl) (.of_same rfl) fun q u forming => by
        rw [none_] at forming
        cases forming
    have now : (s.store.modify d fun x => { x with state := .ready }).desc d = some { y with state := .ready } := by
      rw [Store.desc_modify, if_pos rfl, stored]
      rfl
    refine ⟨laws.changeDesc (d := d) (.of_same rfl) (.of_same rfl) (fun _ => .refl _) (fun q other => .of_desc ?_) free ?_
      (.of_ready fun z stored' => ?_), free, now⟩
    · exact (s.store.desc_modify d q _).trans (if_neg other)
    · exact (Store.pendingOf_used now).trans (Store.pendingOf_used stored).symm
    · exact Option.some.inj (now.symm.trans stored') ▸ rfl
  have unborn : ∀ c : FrameClass, c.bearsRecord = false → f.cls = some c → f.formingRecord = none := fun c bears cls => by
    simp [Frame.formingRecord, cls, bears]
  unfold State.handOn
  dsimp only
  split
  next r cls own => exact serves .request r rfl cls own
  next r cls own => exact serves .broadcast r rfl cls own
  next r cls own => exact serves .management r rfl cls own
  next r cls own =>
    obtain ⟨made, free, now⟩ := ready (unborn .response rfl cls)
    exact made.responseIntact free now rfl alone r g
  next cls =>
    obtain ⟨made, free, now⟩ := ready (unborn .unsolicited rfl cls)
    exact made.forwardUnsolicited free now rfl alone
  next unsolicited request broadcast management response =>
    refine (ready ?_).1
    cases cls : f.cls with
    | none => simp [Frame.formingRecord, cls]
    | some c =>
      cases own : f.txn with
      | none => simp [Frame.formingRecord, cls, own]
      | some r =>
        refine unborn c ?_ cls
        cases c
        · exact absurd own (request r cls)
        · exact absurd own (broadcast r cls)
        · exact absurd own (management r cls)
        all_goals rfl

theorem State.placeIntent_keepsLanes (s : State) (g : Seg) (f : Frame) (cause : EndCause) :
    s.KeepsLanes (s.placeIntent g f cause) := by
  unfold State.placeIntent
  split
  · split
    · exact .refl s
    · exact s.notify_keepsLanes _ _ _
  · exact .refl s

/-- The end of a frame (R86). -/
theorem State.LanesIn.endFrameOf (laws : s.LanesIn none) (engine : s.LawsIn e x) (framed : (s.receivers.get g).frame = some f)
    (cause : EndCause) (skip : Option SkipReason) : (s.endFrameOf g cause skip f).LanesIn none := by
  have fits := engine.frames g f framed
  have assembles : ∀ d, f.desc = some d → s.Assembles g f d := fun d => laws.frames g f d framed
  unfold State.endFrameOf
  dsimp only
  generalize endingOf cause skip _ = ending
  refine State.LanesIn.keep ?_ (State.placeIntent_keepsLanes _ g f cause)
  obtain ⟨k, counted⟩ : ∃ k, ((((s.setReceiver g .hunt).count g .framesReceived).countIf
      (ending == .damaged) g .damaged).countIf (ending == .truncated) g .noBuffer) = { s.setReceiver g .hunt with
        counters := k } := by
    obtain ⟨k, h⟩ := State.countIf_only ((s.setReceiver g .hunt).count g .framesReceived) (ending == .damaged) g .damaged
    obtain ⟨k', h'⟩ := State.countIf_only { (s.setReceiver g .hunt).count g .framesReceived with counters := k }
      (ending == .truncated) g .noBuffer
    exact ⟨k', by rw [h, h']; rfl⟩
  rw [counted]
  have now : State.LanesIn { s.setReceiver g .hunt with counters := k } none :=
    laws.keep ((State.KeepsLanes.emptyReceiver (g := g) (z := .hunt) rfl).same rfl rfl rfl rfl)
  have engine' : State.LawsIn { s.setReceiver g .hunt with counters := k } e x :=
    (engine.emptyReceiver g (z := .hunt) rfl).of_leaves ⟨rfl, rfl, rfl, rfl, rfl, rfl⟩
  have clear : ((State.receivers { s.setReceiver g .hunt with counters := k }).get g).frame = none := by simp [FrState.frame]
  split
  · split
    next d has => exact now.handOn engine' fits clear (assembles d has)
    · exact now
  · exact now.endReleased fits clear assembles _
  · exact now.endReleased fits clear assembles _
  · exact now.keep (State.endUnkept_keepsLanes _ g f _)

theorem State.LanesIn.endFrame (laws : s.LanesIn none) (engine : s.LawsIn e x) (g : Seg) (cause : EndCause) :
    (s.endFrame g cause).LanesIn none := by
  unfold State.endFrame
  split
  next f stored => exact laws.endFrameOf engine (by rw [stored]; rfl) cause none
  next reason f skipped => exact laws.endFrameOf engine (by rw [skipped]; rfl) cause (some reason)
  · exact laws
  · exact laws

/-! ### Items delivered (R62, R73, R79, R84, R85) -/

theorem State.countErrors_keepsLanes (s : State) (g : Seg) (c : RxChar) : s.KeepsLanes (s.countErrors g c) :=
  (s.countIf_keepsLanes _ g .charErrors).trans (State.countIf_keepsLanes _ _ g .noiseChars)

/-- A character delivered to a frame receiver (R73, R79, R84). -/
theorem State.LanesIn.receiveChar (laws : s.LanesIn none) (engine : s.LawsIn e x) (lawful : s.store.Lawful) (g : Seg)
    (c : RxChar) : (s.receiveChar g c).LanesIn none := by
  have leaves := s.countErrors_leavesEngine g c
  have counted := laws.keep (s.countErrors_keepsLanes g c)
  have engine' := engine.of_leaves leaves
  have lawful' : (s.countErrors g c).store.Lawful := by
    obtain ⟨k, h⟩ := s.countErrors_only g c
    rw [h]
    exact lawful
  have next : (((s.countErrors g c).endFrame g .nextAddress).beginFrame g c).LanesIn none :=
    (counted.endFrame engine' g .nextAddress).beginFrame (engine'.endFrame g .nextAddress)
      (State.endFrame_keepsStore _ g .nextAddress lawful') g c
  unfold State.receiveChar
  split
  · exact laws
  · split
    · exact counted.beginFrame engine' lawful' g c
    · exact counted.keep (.of_same rfl rfl rfl rfl)
  next f stored =>
    split
    · exact next
    · exact counted.keep (State.growFrame_keepsLanes (by rw [leaves.receivers]; exact stored) c)
  · split
    · exact next
    · exact counted

/-- A break delivered to a frame receiver (R48, R85). -/
theorem State.LanesIn.receiveBreak (laws : s.LanesIn none) (engine : s.LawsIn e x) (g : Seg) :
    (s.receiveBreak g).LanesIn none := by
  by_cases sees : s.receivers.get g = .blind
  · simp only [State.receiveBreak, sees]
    exact laws
  · rw [State.receiveBreak_eq sees]
    have ended : ((s.endFrame g .aborted).count g .breaks).LanesIn none :=
      (laws.endFrame engine g .aborted).keep (.of_same rfl rfl rfl rfl)
    have engine' : ((s.endFrame g .aborted).count g .breaks).LawsIn e x :=
      (engine.endFrame g .aborted).of_leaves (State.count_leavesEngine _ g .breaks)
    split
    · exact ended.abandonOrigin engine' g
    · exact ended

end

end Sys2Proof.Machine
end

