-- ==== Sys2Proof/Proofs/LaneLawsSending.lean ====
section
/-!
The egress schedulers, the restarts and the settings applies keep the laws of the lanes (R50, R51, R107, R111 to R122, R135, R160,
R164 to R166).
-/

namespace Sys2Proof.Machine

section
variable {s v : State} {o : Option (Fin Config.numTxns)} {r : Fin Config.numTxns} {t : Txn} {d : Fin Config.numDescs} {g : Seg}
  {f : Frame} {e : EngineState} {x : Option (Fin Config.numTxns)}

/-! ### Sending characters (R111 to R118) -/

theorem State.requestNext_keepsLanes (s : State) (g : Seg) (a : Attempt) : s.KeepsLanes (s.requestNext g a) := by
  unfold State.requestNext
  dsimp only
  split
  · exact .setEgress (.of_hand rfl rfl rfl)
  · split
    · exact .setEgress (.of_hand rfl rfl rfl)
    · exact .of_egress rfl rfl rfl rfl (.of_hand rfl rfl rfl)

/-- An item whose send starts is the one in hand, or a notice (R115). -/
theorem Egress.startItem_keepsCopies (e : Egress) : e.KeepsCopies e.startItem := by
  unfold Egress.startItem
  split
  · exact .refl e
  next h held =>
    split
    · refine .of_item rfl rfl fun h' held' => ?_
      cases held'
      exact .inl fun d => by simp
    · refine .of_item rfl rfl fun h' held' => ?_
      cases held'
      exact .inr ⟨h, held, rfl⟩

theorem State.enterTransmit_keepsLanes (s : State) (g : Seg) (b : Bool) : s.KeepsLanes (s.enterTransmit g b) := by
  have started : s.KeepsLanes (s.setEgress g (s.egress.get g).startItem) := .setEgress (Egress.startItem_keepsCopies _)
  have first := started.trans (State.requestNext_keepsLanes _ g ⟨b, (s.setEgress g (s.egress.get g).startItem).bridge.own, 0, 0⟩)
  unfold State.enterTransmit
  dsimp only
  split
  · exact first
  · exact first.trans (State.requestNext_keepsLanes _ g _)

theorem State.enterTail_keepsLanes (s : State) (g : Seg) (a : Attempt) : s.KeepsLanes (s.enterTail g a) :=
  .setEgress (.of_hand rfl rfl rfl)

/-- What a scheduler takes in hand is at the head of a lane (R111, R112). -/
theorem State.handOrChoice_in (holds : (s.egress.get g).HandIn) {h : InHand} (taken : s.handOrChoice g = some h)
    (d : Fin Config.numDescs) : (h.item = .reply d → d ∈ (s.egress.get g).replyLane.map ReplyCopy.desc)
      ∧ (h.item = .bulk d → d ∈ (s.egress.get g).bulkLane) := by
  unfold State.handOrChoice at taken
  split at taken
  next h' held =>
    cases taken
    exact holds h d held
  · obtain ⟨i, chosen, rfl⟩ := Option.map_eq_some_iff.1 taken
    unfold State.choose at chosen
    dsimp only at chosen
    split at chosen
    · cases chosen
      simp
    next c l _ lane =>
      cases chosen
      rw [lane]
      simp +contextual
    next q l _ _ lane =>
      split at chosen
      · cases chosen
      · cases chosen
        rw [lane]
        simp +contextual
    · cases chosen

theorem State.releaseLine_keepsLanes (s : State) (g : Seg) : s.KeepsLanes (s.releaseLine g) :=
  (State.KeepsLanes.of_same (s := s) (v := s.setLine g _) rfl rfl rfl rfl).trans (.emptyReceiver rfl)

/-- Taking the line (R111, R114). -/
theorem State.takeLine_keepsLanes (s : State) (g : Seg) : s.KeepsLanes (s.takeLine g) := by
  have taken : ∀ (u : LineUnit) (st : EgState), s.KeepsLanes (((s.setLine g u).setReceiver g .blind).setEgress g
      { s.egress.get g with state := st, hand := s.handOrChoice g, echoes := [], collision := false }) := by
    intro u st
    have blind : s.KeepsLanes ((s.setLine g u).setReceiver g .blind) :=
      (State.KeepsLanes.of_same (s := s) (v := s.setLine g u) rfl rfl rfl rfl).trans (.emptyReceiver rfl)
    exact blind.trans (.setEgress ⟨rfl, rfl, fun holds h d held => State.handOrChoice_in holds held d⟩)
  unfold State.takeLine
  dsimp only
  split
  · exact (taken _ _).trans (State.enterTransmit_keepsLanes _ g _)
  · exact taken _ _

theorem State.endLead_keepsLanes (s : State) (g : Seg) : s.KeepsLanes (s.endLead g) := by
  unfold State.endLead
  split
  · exact s.enterTransmit_keepsLanes g _
  all_goals exact .refl s

theorem State.characterSent_keepsLanes (s : State) (g : Seg) : s.KeepsLanes (s.characterSent g) := by
  have ended : ∀ u, s.KeepsLanes (s.setLine g u) := fun u => .of_same rfl rfl rfl rfl
  have counted : ∀ (u : LineUnit) (st : EgState) (l : List Echo), s.KeepsLanes ((s.setLine g u).setEgress g
      { s.egress.get g with state := st, echoes := l }) := fun u st l =>
    .of_egress rfl rfl rfl rfl (.of_hand rfl rfl rfl)
  unfold State.characterSent
  dsimp only
  split
  · split
    · exact counted _ _ _
    · split
      · exact counted _ _ _
      · split
        · exact (counted _ _ _).trans (State.enterTail_keepsLanes _ g _)
        · split
          · exact counted _ _ _
          · exact (counted _ _ _).trans (State.requestNext_keepsLanes _ g _)
  all_goals exact ended _

/-- An attempt failed keeps the item in hand (R116). -/
theorem State.failAttempt_keepsLanes (s : State) (g : Seg) : s.KeepsLanes (s.failAttempt g) := by
  refine .of_egress rfl rfl rfl rfl (.of_item rfl rfl fun h held => ?_)
  obtain ⟨h', held', rfl⟩ := Option.map_eq_some_iff.1 held
  exact .inr ⟨h', held', rfl⟩

theorem State.foundCollision_keepsLanes (s : State) (g : Seg) : s.KeepsLanes (s.foundCollision g) :=
  (s.failAttempt_keepsLanes g).trans (.of_egress (g := g) rfl rfl rfl rfl (.of_hand rfl rfl rfl))

theorem State.echoCompare_keepsLanes (s : State) (g : Seg) (i : EchoItem) : s.KeepsLanes (s.echoCompare g i) := by
  have heard : s.KeepsLanes (s.setEgress g { s.egress.get g with echoes := (s.egress.get g).echoes.tail }) :=
    .setEgress (.of_hand rfl rfl rfl)
  unfold State.echoCompare
  dsimp only
  split
  · split
    · split
      · exact heard.trans (State.requestNext_keepsLanes _ g _)
      · exact s.foundCollision_keepsLanes g
    · exact .refl s
  · split
    · split
      · exact heard
      · exact s.foundCollision_keepsLanes g
    · exact .refl s
  all_goals exact .refl s

theorem State.breakSent_keepsLanes (s : State) (g : Seg) : s.KeepsLanes (s.breakSent g) := by
  have ended : ∀ u, s.KeepsLanes (s.setLine g u) := fun u => .of_same rfl rfl rfl rfl
  unfold State.breakSent
  dsimp only
  split
  · exact (ended _).trans (State.enterTail_keepsLanes _ g _)
  · exact (ended _).trans (State.enterTail_keepsLanes _ g _)
  · exact (ended _).trans (State.releaseLine_keepsLanes _ g)
  · exact ended _
  · exact (ended _).trans (State.releaseLine_keepsLanes _ g)

/-! ### Characters and silences heard (R60 to R62, R83) -/

/-- A break found (R60, R62). -/
theorem State.LanesIn.breakFound (laws : s.LanesIn none) (engine : s.LawsIn e x) (g : Seg) : (s.breakFound g).LanesIn none := by
  have heard : (s.setRx g (.recover s.time)).LanesIn none := laws.keep (.of_same rfl rfl rfl rfl)
  unfold State.breakFound State.deliverBreak
  split
  · exact heard.keep (State.echoCompare_keepsLanes _ g none)
  · exact heard.receiveBreak (engine.of_leaves (s.setRx_leavesEngine g _)) g

/-- The receiver's verdict on a character period (R57 to R62). -/
theorem State.LanesIn.characterComplete (laws : s.LanesIn none) (engine : s.LawsIn e x) (lawful : s.store.Lawful) (g : Seg)
    (y : Samples) : (s.characterComplete g y).LanesIn none := by
  unfold State.characterComplete
  dsimp only
  split
  · exact laws.keep (.of_same rfl rfl rfl rfl)
  · exact laws.breakFound engine g
  next c _ =>
    have heard : (s.setRx g (.ready s.time (endsHigh (s.active g) y) false)).LanesIn none :=
      laws.keep (.of_same rfl rfl rfl rfl)
    unfold State.deliverChar
    split
    · exact heard.keep (State.echoCompare_keepsLanes _ g (some c))
    · exact heard.receiveChar (engine.of_leaves (s.setRx_leavesEngine g _)) lawful g c

/-- An idle-gap expiry (R61, R83). -/
theorem State.LanesIn.idleGap (laws : s.LanesIn none) (engine : s.LawsIn e x) (g : Seg) : (s.idleGap g).LanesIn none := by
  have taken : ∀ u, (s.setLine g u).LanesIn none := fun u => laws.keep (.of_same rfl rfl rfl rfl)
  unfold State.idleGap
  dsimp only
  split
  · exact taken _
  · exact (taken _).endFrame (engine.of_leaves ⟨rfl, rfl, rfl, rfl, rfl, rfl⟩) g .idleGap

/-! ### How a send ends (R121, R122) -/

/-- A reply copy leaves its lane. -/
theorem Egress.drops_reply {e : Egress} (once : e.copies.Nodup) (mem : d ∈ e.replyLane.map ReplyCopy.desc) :
    e.Drops { e with hand := none, replyLane := e.replyLane.filter fun c => c.desc != d } [d] := by
  have apart : d ∉ e.bulkLane := fun bulk => (List.nodup_append.1 once).2.2 d mem d bulk rfl
  have stays : ∀ q, q ∈ (e.replyLane.filter fun c => c.desc != d).map ReplyCopy.desc
      ↔ q ∈ e.replyLane.map ReplyCopy.desc ∧ q ≠ d := by
    intro q
    simp only [List.mem_map, List.mem_filter, bne_iff_ne, ne_eq]
    constructor
    · rintro ⟨c, ⟨there, other⟩, rfl⟩
      exact ⟨⟨c, there, rfl⟩, other⟩
    · rintro ⟨⟨c, there, rfl⟩, other⟩
      exact ⟨c, ⟨there, other⟩, rfl⟩
  refine ⟨(List.filter_sublist.map _).append (List.Sublist.refl _), fun q => ?_, fun q own => ?_, fun _ h q held => by cases held⟩
  · simp only [Egress.copies, List.mem_append, stays, List.mem_singleton]
    have other : q ∈ e.bulkLane → q ≠ d := fun bulk same => apart (same ▸ bulk)
    tauto
  · rw [List.mem_singleton.1 own]
    exact List.mem_append_left _ mem

/-- A bulk copy leaves its lane. -/
theorem Egress.drops_bulk {e : Egress} (once : e.copies.Nodup) (mem : d ∈ e.bulkLane) :
    e.Drops { e with hand := none, bulkLane := e.bulkLane.filter fun q => q != d } [d] := by
  have apart : d ∉ e.replyLane.map ReplyCopy.desc := fun reply => (List.nodup_append.1 once).2.2 d reply d mem rfl
  refine ⟨(List.Sublist.refl _).append List.filter_sublist, fun q => ?_, fun q own => ?_, fun _ h q held => by cases held⟩
  · simp only [Egress.copies, List.mem_append, List.mem_filter, bne_iff_ne, ne_eq, List.mem_singleton]
    have other : q ∈ e.replyLane.map ReplyCopy.desc → q ≠ d := fun reply same => apart (same ▸ reply)
    tauto
  · rw [List.mem_singleton.1 own]
    exact List.mem_append_right _ mem

/-- The item in hand leaves its lane or slot (R98, R121, R122). -/
theorem State.LanesIn.dropItem (laws : s.LanesIn o) {h : InHand} (held : (s.egress.get g).hand = some h) :
    (s.dropItem g h.item).LanesIn o := by
  obtain ⟨once, _, inLane⟩ := laws.lanes g
  unfold State.dropItem
  dsimp only
  split
  · exact laws.keep (.setEgress (.of_item rfl rfl fun h' held' => by cases held'))
  · exact laws.keep (.setEgress (.of_item rfl rfl fun h' held' => by cases held'))
  next d item => exact laws.leaveAll (Egress.drops_reply once ((inLane h d held).1 item)) rfl rfl rfl rfl
  next d item => exact laws.leaveAll (Egress.drops_bulk once ((inLane h d held).2 item)) rfl rfl rfl rfl

/-- A send that ends Collision (R36, R121). -/
theorem State.LanesIn.sendCollided (laws : s.LanesIn o) (engine : s.LawsIn e x) (g : Seg) : (s.sendCollided g).LanesIn o := by
  have ends : ∀ (request notice : Bool) (v : State), v.LawsIn e x → v.LanesIn o → State.LanesIn
      (if request = true then (if notice = true then v.countNoticeLost else v).copyFailed g
        else if notice = true then v.countNoticeLost else v) o := by
    intro request notice v engine now
    have counted : v.KeepsLanes (if notice = true then v.countNoticeLost else v)
        ∧ v.LeavesEngine (if notice = true then v.countNoticeLost else v) := by
      split
      · exact ⟨.of_same rfl rfl rfl rfl, ⟨rfl, rfl, rfl, rfl, rfl, rfl⟩⟩
      · exact ⟨.refl v, .refl v⟩
    split
    · exact now.keep (counted.1.trans (State.copyFailed_keepsLanes (engine.of_leaves counted.2) g))
    · exact now.keep counted.1
  unfold State.sendCollided
  split
  · exact laws
  next h held =>
    have served := ends (s.isRequestCopy h.item) h.item.isNotice _
      (engine.of_leaves (s.dropItem_leavesEngine g h.item)) (laws.dropItem held)
    exact (served.keep (State.settlePendingOwn_keepsLanes _)).keep (.of_same rfl rfl rfl rfl)

/-- BACKOFF's beginning (R116, R119). -/
theorem State.LanesIn.backOff (laws : s.LanesIn o) (engine : s.LawsIn e x) (g : Seg) : (s.backOff g).LanesIn o := by
  unfold State.backOff
  dsimp only
  split
  · exact (laws.sendCollided engine g).keep (.setEgress (.of_hand rfl rfl rfl))
  · exact laws.keep (.setEgress (.of_hand rfl rfl rfl))

/-- With every record and descriptor free, no frame in assembly and nothing to send, the laws hold (R52, R106, R126). -/
theorem State.LanesIn.of_empty (txns : s.txns = TxnEngine.allFree) (receivers : s.receivers = PerSeg.const .hunt)
    (store : ∃ cells, s.store = Store.allFree cells) (egress : s.egress = PerSeg.const Egress.empty) : s.LanesIn none := by
  obtain ⟨cells, store⟩ := store
  have free : ∀ d, s.store.desc d = none := fun d => by simp [store, Store.allFree, Store.desc]
  refine ⟨fun g => ?_, fun d y stored => ?_, fun g f d framed => ?_, fun r t d w used => ?_⟩
  · have pending : (fun d => (s.store.pendingOf d).has g) = fun _ => false := funext fun d => by
      rw [Store.pendingOf_free (free d)]
      exact SegSet.has_zero g
    rw [pending, egress, PerSeg.get_const]
    exact ⟨List.nodup_nil, fun d => by simp [Egress.copies, Egress.empty], fun h d held => by cases held⟩
  · rw [free] at stored
    cases stored
  · simp [receivers, FrState.frame] at framed
  · simp [State.txn, txns, TxnEngine.allFree] at used

theorem State.clearAll_lanes (s : State) : s.clearAll.LanesIn none := .of_empty rfl rfl ⟨_, rfl⟩ rfl

theorem State.trafficRestart_lanes (s : State) : s.trafficRestart.LanesIn none := .of_empty rfl rfl ⟨_, rfl⟩ rfl

/-- Disarming changes no copy (R135, R136). -/
theorem State.KeepsLanes.of_disarm {change : ReplyCopy → ReplyCopy} (desc : ∀ c, (change c).desc = c.desc)
    (egress : ∀ h, v.egress.get h = { s.egress.get h with replyLane := (s.egress.get h).replyLane.map change })
    (store : v.store = s.store) (receivers : v.receivers = s.receivers) (records : v.txns.records = s.txns.records) :
    s.KeepsLanes v := by
  refine ⟨fun h => ?_, fun d => .of_desc (by rw [store]), .of_same receivers, .of_same records⟩
  have same : ((s.egress.get h).replyLane.map change).map ReplyCopy.desc = (s.egress.get h).replyLane.map ReplyCopy.desc := by
    rw [List.map_map]
    exact List.map_congr_left fun c _ => desc c
  rw [egress]
  exact .of_item same rfl fun h' held => .inr ⟨h', held, rfl⟩

theorem ReplyCopy.disarmOwn_desc (c : ReplyCopy) : c.disarmOwn.desc = c.desc := by
  unfold ReplyCopy.disarmOwn
  split
  · split <;> rfl
  · rfl

theorem State.disarmOwn_keepsLanes (s : State) : s.KeepsLanes s.disarmOwn :=
  .of_disarm ReplyCopy.disarmOwn_desc (fun h => PerSeg.get_tabulate _ h) rfl rfl rfl

/-- An effect taken (R135, R156, R164, R165). -/
theorem State.LanesIn.takeDeferred (laws : s.LanesIn none) (g : Seg) (a : Armed) : (s.takeDeferred g a).LanesIn none := by
  unfold State.takeDeferred
  dsimp only
  split
  · exact (State.clearAll_lanes _).keep (.of_same rfl rfl rfl rfl)
  · exact State.trafficRestart_lanes _
  · exact laws.keep (.of_disarm (change := fun c => { c with armed := none }) (fun _ => rfl)
      (fun h => PerSeg.get_tabulate _ h) rfl rfl rfl)

/-- A send completed (R35, R122). -/
theorem State.LanesIn.sendCompleted (laws : s.LanesIn none) (engine : s.LawsIn e x) (g : Seg) :
    (s.sendCompleted g).LanesIn none := by
  unfold State.sendCompleted
  split
  · exact laws
  next h held =>
    have dropped : ((s.dropItem g h.item).count g .framesSent).LanesIn none :=
      (laws.dropItem held).keep (.of_same rfl rfl rfl rfl)
    have engine' := engine.of_leaves ((s.dropItem_leavesEngine g h.item).trans (State.count_leavesEngine _ g .framesSent))
    have reported : State.LanesIn (if s.isRequestCopy h.item = true
        then ((s.dropItem g h.item).count g .framesSent).copyCompleted g
        else (s.dropItem g h.item).count g .framesSent) none := by
      split
      · exact dropped.keep (State.copyCompleted_keepsLanes engine' g)
      · exact dropped
    dsimp only
    split
    next a _ => exact (reported.takeDeferred g a).keep (State.settlePendingOwn_keepsLanes _)
    · exact reported

/-- TAIL's end (R119, R121, R122). -/
theorem State.LanesIn.endTail (laws : s.LanesIn none) (engine : s.LawsIn e x) (g : Seg) : (s.endTail g).LanesIn none := by
  have released := laws.keep (s.releaseLine_keepsLanes g)
  have engine' := engine.releaseLine g
  unfold State.endTail
  dsimp only
  split
  · exact released.backOff engine' g
  · refine State.LanesIn.sendCompleted (s := (s.releaseLine g).setEgress g _) (released.keep ?_)
      (engine'.of_leaves (State.setEgress_leavesEngine _ g _)) g
    exact .setEgress (.of_hand rfl rfl rfl)

/-- Contention and a start bit heard (R57, R116). -/
theorem State.LanesIn.startHeard (laws : s.LanesIn o) (engine : s.LawsIn e x) (g : Seg) : (s.startHeard g).LanesIn o := by
  have taken : s.KeepsLanes (s.takeStart g) ∧ s.LeavesEngine (s.takeStart g) := by
    unfold State.takeStart
    dsimp only
    split
    · exact ⟨.of_same rfl rfl rfl rfl, ⟨rfl, rfl, rfl, rfl, rfl, rfl⟩⟩
    all_goals exact ⟨.refl s, .refl s⟩
  have heard := laws.keep taken.1
  have engine' := engine.of_leaves taken.2
  unfold State.startHeard
  dsimp only
  split
  · exact (heard.keep ((State.releaseLine_keepsLanes _ g).trans (State.failAttempt_keepsLanes _ g))).backOff
      ((engine'.releaseLine g).of_leaves (State.failAttempt_leavesEngine _ g)) g
  all_goals exact heard

/-! ### Segment restart (R50, R51, R107, R166) -/

/-- A frame discarded, its receiver left with none (R90). -/
theorem State.LanesIn.discardFrame (laws : s.LanesIn none) (engine : s.LawsIn e x) (g : Seg) {z : FrState}
    (empty : z.frame = none) : ((s.discardFrame g).setReceiver g z).LanesIn none := by
  have emptied := laws.keep (.emptyReceiver (g := g) empty)
  cases framed : (s.receivers.get g).frame with
  | none =>
    unfold State.discardFrame
    simp only [framed]
    exact emptied
  | some f =>
    have clear : ((s.setReceiver g z).receivers.get g).frame = none := by simp [empty]
    obtain ⟨plain, recorded⟩ := emptied.discard (f := f) (engine.frames g f framed) clear fun d => laws.frames g f d framed
    have order : (s.releaseFrame f).setReceiver g z = (s.setReceiver g z).releaseFrame f := by
      unfold State.releaseFrame
      cases f.desc <;> rfl
    obtain ⟨none_, released⟩ | ⟨r, has, freed⟩ := State.discardFrame_cases framed
    · rw [released, order]
      exact plain none_
    · rw [freed, show ((s.releaseFrame f).freeRecord r).setReceiver g z = ((s.releaseFrame f).setReceiver g z).freeRecord r
        from rfl, order]
      exact recorded r has

/-- Every copy of a scheduler is taken from it (R107). -/
theorem Egress.drops_all {e : Egress} (holds : e.HandIn) : e.Drops Egress.empty e.flushOrder := by
  have inHand : ∀ d, e.handDesc = some d → d ∈ e.copies := by
    intro d held
    unfold Egress.handDesc at held
    split at held
    next h hand =>
      obtain ⟨reply, bulk⟩ := holds h d hand
      split at held <;> cases held
      next item => exact List.mem_append_left _ (reply item)
      next item => exact List.mem_append_right _ (bulk item)
    · cases held
  have all : ∀ d, d ∈ e.flushOrder ↔ d ∈ e.copies := by
    intro d
    unfold Egress.flushOrder
    dsimp only
    split
    next q held =>
      simp only [List.mem_cons, List.mem_filter, bne_iff_ne, ne_eq]
      by_cases same : d = q
      · simpa [same] using inHand q held
      · simp [same, Egress.copies]
    · rfl
  refine ⟨List.nil_sublist _, fun d => ?_, fun d mem => (all d).1 mem, fun _ h d held => by cases held⟩
  rw [all]
  exact ⟨fun mem => by simp [Egress.copies, Egress.empty] at mem, fun ⟨mem, out⟩ => absurd mem out⟩

/-- What a Segment restart does to the transactions of the origin (R50). -/
theorem State.LanesIn.restartOrigins (l : List (Fin Config.numTxns)) (laws : s.LanesIn o) (engine : s.LawsIn e x) (g : Seg) :
    (l.foldl (State.restartOrigin g) s).LanesIn o := by
  induction l generalizing s with
  | nil => exact laws
  | cons r l ih =>
    refine ih ?_ (engine.restartOrigin g r)
    unfold State.restartOrigin
    split
    · exact laws
    next t used =>
      split
      · split
        next pending =>
          obtain ⟨copies, _, outcome⟩ := (engine.records r t used).unlaunched (by simp [pending, TxnState.stage])
          exact laws.cancelWaiting used pending outcome copies _
        · exact laws
        all_goals exact laws.keep (State.supersede_keepsLanes used)
      · exact laws

/-- What a Segment restart does to the transaction that holds the segment (R51). -/
theorem State.restartHolder_keepsLanes (engine : s.LawsIn e x) (g : Seg) : s.KeepsLanes (s.restartHolder g) := by
  unfold State.restartHolder
  split
  · exact .refl s
  next r held =>
    split
    · exact .of_same rfl rfl rfl rfl
    next t used =>
      have carried := (engine.holds held used).2.2.2
      have formed : t.state ≠ .forming := fun forming => by simp [forming, TxnState.stage] at carried
      dsimp only
      rw [State.putTxn_releaseGrant]
      have given : ∀ u : Txn, u.state = t.state → s.KeepsLanes ((s.releaseGrant g).putTxn r (some u)) := fun u state =>
        (State.KeepsLanes.of_same (s := s) (v := s.releaseGrant g) rfl rfl rfl rfl).trans
          (.putTxn (s := s.releaseGrant g) used (.inr ⟨formed, state ▸ carried⟩))
      split
      · rw [State.putTxn_releaseGrants, State.putTxn_putTxn, ← State.putTxn_releaseGrants]
        exact ((given { t with
          copies := t.copies.erase g, windows := 0, deadline := none
          reqDesc := if t.copies.erase g = 0 then none else t.reqDesc } rfl).trans
            (State.releaseGrants_keepsLanes _ _)).trans (State.closeTxn_keepsLanes _ r _)
      · exact (given { t with copies := t.copies.erase g, windows := t.windows.erase g } rfl).trans
          (State.copiesDone_keepsLanes ((State.txn_putTxn _ r r _).trans (if_pos rfl)) carried)

/-- What a Segment restart does once the segment's frame, copies and line are cut (R50, R51, R166). -/
theorem State.LanesIn.restartRest (laws : s.LanesIn none) (engine : s.LawsIn e x) {w : State}
    (served : w = (ascendingTxns.foldl (State.restartOrigin g) s).restartHolder g) :
    (((State.settlePendingOwn { w.setLastTimedOut g none with
      mgmt := { w.mgmt with caches := w.mgmt.caches.set g none } }).raise .restarted (some g) none 3).dropLeaseOf g
      2).LanesIn none := by
  have origins := laws.restartOrigins ascendingTxns engine g
  have ended : w.LanesIn none :=
    served ▸ origins.keep (State.restartHolder_keepsLanes (State.LawsIn.restartOrigins ascendingTxns engine g) g)
  have emptied : w.KeepsLanes { w.setLastTimedOut g none with mgmt := { w.mgmt with caches := w.mgmt.caches.set g none } } :=
    .of_same rfl rfl rfl rfl
  exact ended.keep (((emptied.trans (State.settlePendingOwn_keepsLanes _)).same (v := State.raise _ .restarted (some g) none 3)
    rfl rfl rfl rfl).trans (State.dropLeaseOf_keepsLanes _ g 2))

/-- A Segment restart (R166). -/
theorem State.LanesIn.segmentRestart (laws : s.LanesIn none) (engine : s.LawsIn e x) (g : Seg) :
    (s.segmentRestart g).LanesIn none := by
  have leaves : ∀ v : State, State.LeavesEngine v (v.flushCopies g) := fun v => by
    obtain ⟨st, flushed⟩ := State.leaveAll_only g (v.egress.get g).flushOrder v
    rw [State.flushCopies, flushed]
    exact ⟨rfl, rfl, rfl, rfl, rfl, rfl⟩
  have cut : ∀ (u : LineUnit) (z : FrState), z.frame = none →
      (((((s.discardFrame g).flushCopies g).setEgress g Egress.empty).setLine g u).setReceiver g z).LanesIn none
      ∧ (((((s.discardFrame g).flushCopies g).setEgress g Egress.empty).setLine g u).setReceiver g z).LawsIn e x := by
    intro u z empty
    have discarded := laws.discardFrame engine g empty
    have flushed : (s.discardFrame g).flushCopies g = { s.discardFrame g with
        store := ((s.discardFrame g).egress.get g).flushOrder.foldl (fun st d => st.leave d g) (s.discardFrame g).store } :=
      State.leaveAll_eq g _ _
    rw [flushed]
    refine ⟨discarded.leaveAll (Egress.drops_all (discarded.lanes g).hand) rfl rfl rfl rfl, ?_⟩
    exact (engine.discardFrame g empty).of_leaves ⟨rfl, rfl, rfl, rfl, rfl, rfl⟩
  have noFrame : ∀ b : Bool, (if b = true then FrState.blind else .hunt : FrState).frame = none := by decide
  unfold State.segmentRestart
  exact (cut _ _ (noFrame _)).1.restartRest (cut _ _ (noFrame _)).2 rfl

/-! ### Settings applies (R159, R160) -/

/-- The bulk lane flushed (R105, R124). -/
theorem Egress.drops_bulkLane {e : Egress} (once : e.copies.Nodup) :
    e.Drops { e with bulkLane := [], hand := e.hand.bind InHand.withoutBulk } e.bulkLane := by
  refine ⟨(List.Sublist.refl _).append (List.nil_sublist _), fun d => ?_, fun d mem => List.mem_append_right _ mem,
    fun holds h d held => ?_⟩
  · simp only [Egress.copies, List.mem_append, List.append_nil]
    have other : d ∈ e.replyLane.map ReplyCopy.desc → d ∉ e.bulkLane := fun reply bulk =>
      (List.nodup_append.1 once).2.2 d reply d bulk rfl
    tauto
  · obtain ⟨h', hand, kept⟩ := Option.bind_eq_some_iff.1 held
    obtain ⟨reply, _⟩ := holds h' d hand
    unfold InHand.withoutBulk at kept
    split at kept <;> cases kept
    all_goals exact ⟨reply, fun item => by simp_all⟩

theorem State.LanesIn.flushBulk (laws : s.LanesIn o) (g : Seg) : (s.flushBulk g).LanesIn o := by
  unfold State.flushBulk
  dsimp only
  rw [State.leaveAll_eq]
  exact laws.leaveAll (Egress.drops_bulkLane (laws.lanes g).once) rfl rfl rfl rfl

/-- A role change (R49, R160). -/
theorem State.LanesIn.changeRole (laws : s.LanesIn o) (engine : s.LawsIn e x) (g : Seg) (before after : Role) :
    (s.changeRole g before after).LanesIn o := by
  unfold State.changeRole
  split
  · exact laws
  · split
    · have unlearned : (s.unlearnSegment g).LanesIn o := laws.keep (.of_same rfl rfl rfl rfl)
      have engine' : (s.unlearnSegment g).LawsIn e x := engine.of_leaves ⟨rfl, rfl, rfl, rfl, rfl, rfl⟩
      exact (unlearned.pruneWaiting engine' g).keep (.of_same rfl rfl rfl rfl)
    · exact (laws.abandonLive engine g).flushBulk g
    · exact laws

/-- A settings apply (R159). -/
theorem State.LanesIn.applySettings (laws : s.LanesIn o) (engine : s.LawsIn e x) (g : Seg) : (s.applySettings g).LanesIn o := by
  unfold State.applySettings
  dsimp only
  have changed : ∀ (u : LineUnit) (a b : Role),
      ((State.setLine { s with settings := s.settings.apply g } g u).changeRole g a b).LanesIn o := fun u a b =>
    State.LanesIn.changeRole (s := State.setLine { s with settings := s.settings.apply g } g u)
      (laws.keep (.of_same rfl rfl rfl rfl)) (engine.of_leaves ⟨rfl, rfl, rfl, rfl, rfl, rfl⟩) g a b
  refine State.LanesIn.keep (s := State.applyLease _ g _) ?_ (.of_same rfl rfl rfl rfl)
  unfold State.applyLease
  split
  · exact (changed _ _ _).keep (State.dropLeaseOf_keepsLanes _ g 1)
  · exact changed _ _ _

end

end Sys2Proof.Machine
end

