-- ==== Sys2Proof/Proofs/LaneLawsSteps.lean ====
section
/-!
The management engine and every step keep the laws of the lanes (R99, R103, R108, R110, R130 to R134).
-/

namespace Sys2Proof.Machine

section
variable {s v : State} {r : Fin Config.numTxns} {e : EngineState} {x : Option (Fin Config.numTxns)}

/-! ### Ending a Local (R103, R134) -/

/-- A reply is handed on (R103, R110). -/
theorem State.LanesIn.handOver (laws : s.LanesIn none) (lawful : s.store.Lawful) (g : Seg) (reply : List Byte)
    (a : Option Armed) : (s.handOver g reply a).LanesIn none := by
  unfold State.handOver
  split
  · exact laws.keep (.of_same rfl rfl rfl rfl)
  next d st claimed =>
    obtain ⟨y, result, head, _, _, descs, _⟩ := Store.allocReply_some claimed
    have free : s.store.desc d = none := (lawful.2.2 d).1 (by simp [head])
    have stored : st.desc d = some y := (descs d).trans (if_pos rfl)
    have ready : y.state = .ready := by rw [result]
    have alone : y.pendingEgress = 0 := by rw [result]
    have nobodys : State.Unclaimed { s with store := st } d := (laws.unclaimed_of_free free).keep (.of_same rfl) (.of_same rfl)
    refine State.LanesIn.offerReply (s := { s with store := st }) ?_ nobodys stored ready alone g a
    refine laws.changeDesc (d := d) (.of_same rfl) (.of_same rfl) (fun _ => .refl _)
      (fun q other => .of_desc ((descs q).trans (if_neg other))) nobodys ?_ (.of_ready fun z stored' => ?_)
    · rw [Store.pendingOf_used stored, alone, Store.pendingOf_free free]
    · exact Option.some.inj (stored.symm.trans stored') ▸ ready

/-- A reply handed on, and a record freed: the order makes no difference. -/
theorem State.handOver_freeRecord (s : State) (g : Seg) (reply : List Byte) (a : Option Armed) (r : Fin Config.numTxns) :
    (s.handOver g reply a).freeRecord r = (s.freeRecord r).handOver g reply a := by
  have offer : ∀ (v : State) (d : Fin Config.numDescs), (v.offerReply g d a).freeRecord r = (v.freeRecord r).offerReply g d a :=
    fun v d => apply_ite (State.freeRecord · r) _ _ _
  unfold State.handOver
  rw [show (s.freeRecord r).store = s.store from rfl]
  split
  · rfl
  next d st _ => exact offer { s with store := st } d

/-- The end of an execution: the request's descriptor is given up with the record, the reply handed on (R134). -/
theorem State.LanesIn.endExecution (laws : s.LanesIn none) (engine : s.LawsIn e (some r)) (lawful : s.store.Lawful)
    (reply : List Byte) (a : Option Armed) : (s.endExecution r reply a).LanesIn none := by
  obtain ⟨t, used, executing⟩ := engine.taken_used
  have frees := s.freeRecord_keepsLanes r
  have order : (s.dropRequest t).freeRecord r = (s.freeRecord r).dropRequest t := by
    unfold State.dropRequest
    cases t.reqDesc <;> rfl
  have dropped : ((s.dropRequest t).freeRecord r).LanesIn none := by
    rw [order]
    unfold State.dropRequest
    split
    next d has =>
      refine (laws.keep frees).dropTxn (laws.unclaimed_of_request used has (by rw [executing]; rfl) frees.frames frees.records
        fun u usedr => ?_)
      rw [State.txn_freeRecord, if_pos rfl] at usedr
      cases usedr
    · exact laws.keep frees
  have ends : ∀ w : State, (w.freeRecord r).LanesIn none → (w.freeRecord r).idleEngine.settlePendingOwn.LanesIn none :=
    fun w now => State.LanesIn.keep (s := (w.freeRecord r).idleEngine) (now.keep (.of_same rfl rfl rfl rfl))
      (State.settlePendingOwn_keepsLanes _)
  unfold State.endExecution
  simp only [used]
  rw [State.closeFree _ r (by split <;> rfl)]
  refine ends _ ?_
  split
  · exact dropped
  · rw [State.handOver_freeRecord]
    exact dropped.handOver (s.dropRequest_keepsStore t lawful) t.origin reply a

/-- An execution that ends with a cached reply (R133). -/
theorem State.LanesIn.finishCached (laws : s.LanesIn none) (engine : s.LawsIn e (some r)) (lawful : s.store.Lawful) (t : Txn)
    (p : Reply) : (s.finishCached r t p).LanesIn none :=
  State.LanesIn.endExecution (s := s.setCache t.origin _) (laws.keep (.of_same rfl rfl rfl rfl))
    (engine.of_leaves ⟨rfl, rfl, rfl, rfl, rfl, rfl⟩) lawful _ _

/-- A request refused uncached (R132). -/
theorem State.LanesIn.refuseUncached (laws : s.LanesIn none) (engine : s.LawsIn e (some r)) (lawful : s.store.Lawful) (t : Txn)
    (c : Status) : (s.refuseUncached r t c).LanesIn none :=
  State.LanesIn.endExecution (s := { s with mgmt := { s.mgmt with buffer := s.buildReply t ⟨c, [], none⟩ } })
    (laws.keep (.of_same rfl rfl rfl rfl)) (engine.of_leaves ⟨rfl, rfl, rfl, rfl, rfl, rfl⟩) lawful _ _

/-- A Local answered from the cache (R133). -/
theorem State.LanesIn.answerCached (laws : s.LanesIn none) (engine : s.LawsIn e (some r)) (lawful : s.store.Lawful)
    (c : CacheEntry) : (s.answerCached r c).LanesIn none := by
  have pends : ∀ a, s.KeepsLanes (s.pendAgain a) ∧ s.LeavesEngine (s.pendAgain a) ∧ (s.pendAgain a).store = s.store := by
    intro a
    unfold State.pendAgain
    split
    · exact ⟨.refl s, .refl s, rfl⟩
    · exact ⟨s.disarmOwn_keepsLanes.same rfl rfl rfl rfl, ⟨rfl, rfl, rfl, rfl, rfl, rfl⟩, rfl⟩
  unfold State.answerCached
  dsimp only
  split
  next a _ =>
    obtain ⟨keeps, leaves, store⟩ := pends a
    exact (laws.keep keeps).endExecution (engine.of_leaves leaves) (store ▸ lawful) _ _
  · exact laws.endExecution engine lawful _ _
  · exact laws.endExecution engine lawful _ _

/-! ### Carrying a command out (R131) -/

/-- Carrying the command out keeps the laws of the lanes, the Local in execution being whichever. -/
def Carry.KeepsLanes (carry : Carry) : Prop :=
  ∀ (s : State) (g : Seg) (args : List Byte) (e : EngineState) (x : Option (Fin Config.numTxns)), s.LawsIn e x →
    s.LanesIn none → (carry s g args).state.LanesIn none

theorem Carry.KeepsLanes.of_keeps {carry : Carry} (keeps : ∀ (s : State) g args, s.KeepsLanes (carry s g args).state) :
    Carry.KeepsLanes carry := fun s g args _ _ _ laws => laws.keep (keeps s g args)

/-- A command that touches the engine, the store and the lanes as the laws allow. -/
structure Carry.Keeps (carry : Carry) : Prop where
  engine : Carry.KeepsLaws carry
  store : Carry.KeepsStore carry
  lanes : Carry.KeepsLanes carry

/-- A command that leaves the engine, the store and the lanes. -/
theorem Carry.Keeps.of_quiet {carry : Carry} (leaves : ∀ (s : State) g args, s.LeavesEngine (carry s g args).state)
    (store : ∀ (s : State) g args, (carry s g args).state.store = s.store)
    (egress : ∀ (s : State) g args, (carry s g args).state.egress = s.egress) : Carry.Keeps carry where
  engine := .of_leaves leaves
  store s g args := .of_same (store s g args)
  lanes := .of_keeps fun s g args =>
    .of_same (egress s g args) (store s g args) (leaves s g args).receivers (leaves s g args).records

/-- A command that changes nothing. -/
theorem Carry.Keeps.of_state {carry : Carry} (same : ∀ (s : State) g args, (carry s g args).state = s) : Carry.Keeps carry :=
  .of_quiet (fun s g args => .of_same (same s g args)) (fun s g args => by rw [same]) fun s g args => by rw [same]

/-- Steps 4 to 8 of R131. -/
theorem State.LanesIn.carryOut (laws : s.LanesIn none) (engine : s.LawsIn .idle (some r)) (lawful : s.store.Lawful)
    {carry : Carry} (keeps : carry.Keeps) (t : Txn) (args : List Byte) (c : MgmtCommand) :
    (s.carryOut r t args c carry).LanesIn none := by
  have lanes := keeps.lanes s t.origin args _ _ engine laws
  have engine' := keeps.engine s t.origin args _ _ engine
  have lawful' := keeps.store s t.origin args lawful
  unfold State.carryOut
  split
  · split
    · exact laws.finishCached engine lawful t _
    · split
      next v p result =>
        rw [result] at lanes engine' lawful'
        exact State.LanesIn.finishCached lanes engine' lawful' t p
      next v w result =>
        rw [result] at lanes
        exact State.LanesIn.keep (s := v) lanes (.of_same rfl rfl rfl rfl)
  · exact laws.refuseUncached engine lawful t _

/-- Steps 1 to 3 of R131, where what follows them keeps the laws. -/
theorem State.LanesIn.checked (laws : s.LanesIn none) (engine : s.LawsIn .idle (some r)) (lawful : s.store.Lawful)
    {after : State → List Byte → State} (follows : ∀ args, (after s args).LanesIn none) (t : Txn) :
    (s.checked r t after).LanesIn none := by
  unfold State.checked
  dsimp only
  split
  · exact laws.refuseUncached engine lawful t _
  · split
    · exact laws.refuseUncached engine lawful t _
    · split
      · exact laws.answerCached engine lawful _
      · exact follows _

/-- Taking a Local (R130, R131). -/
theorem State.LanesIn.takeLocal (laws : s.LanesIn none) (engine : s.TransactionLaws) (lawful : s.store.Lawful)
    {carry : Carry} (keeps : carry.Keeps) (c : MgmtCommand) : (s.takeLocal c carry).LanesIn none := by
  unfold State.takeLocal
  split
  · exact laws
  next r t head =>
    have taken := engine.dequeue head
    have now : s.dequeue.LanesIn none := laws.keep (.of_same rfl rfl rfl rfl)
    exact now.checked taken lawful (fun args => now.carryOut taken lawful keeps t args c) t

/-- Taking a Local of no command (R131). -/
theorem State.LanesIn.takeUnknown (laws : s.LanesIn none) (engine : s.TransactionLaws) (lawful : s.store.Lawful) :
    s.takeUnknown.LanesIn none := by
  unfold State.takeUnknown
  split
  · exact laws
  next r t head =>
    have taken := engine.dequeue head
    have now : s.dequeue.LanesIn none := laws.keep (.of_same rfl rfl rfl rfl)
    exact now.checked taken lawful (fun args => now.finishCached taken lawful t _) t

/-! ### Work that spans claims (R17, R130, R139, R145) -/

/-- Work that spans claims goes on, or ends with its reply (R130). -/
theorem State.LanesIn.works (laws : s.LanesIn none) (engine : s.TransactionLaws) (lawful : s.store.Lawful) {w : Work}
    (busy : s.mgmt.engine = .busy r w) {v : State} (leaves : s.LeavesEngine v) (store : v.store = s.store)
    (egress : v.egress = s.egress) :
    (∀ w', State.LanesIn { v with mgmt := { v.mgmt with engine := .busy r w' } } none)
      ∧ (∃ t, v.txn r = some t) ∧ ∀ t p, (v.finishCached r t p).LanesIn none := by
  have at_ := s.transactionLaws_iff.1 engine
  rw [busy] at at_
  have engine' : v.LawsIn (.busy r w) (some r) := State.LawsIn.of_leaves at_ leaves
  have now : v.LanesIn none := laws.keep (.of_same egress store leaves.receivers leaves.records)
  obtain ⟨t, used, _⟩ := engine'.taken_used
  exact ⟨fun w' => now.keep (.of_same rfl rfl rfl rfl), ⟨t, used⟩, fun t p =>
    now.finishCached engine' (store ▸ lawful) t p⟩

theorem State.LanesIn.readStations (laws : s.LanesIn none) (engine : s.TransactionLaws) (lawful : s.store.Lawful) (n : Nat) :
    (s.readStations n).LanesIn none := by
  unfold State.readStations
  split
  next r next left acc busy =>
    obtain ⟨goesOn, ⟨t, used⟩, ends⟩ := laws.works engine lawful busy (.refl s) rfl rfl
    dsimp only
    split
    · simp only [used]
      exact ends t _
    · exact goesOn _
  all_goals exact laws

theorem State.LanesIn.readCounterBlock (laws : s.LanesIn none) (engine : s.TransactionLaws) (lawful : s.store.Lawful)
    (n : Nat) : (s.readCounterBlock n).LanesIn none := by
  unfold State.readCounterBlock
  split
  next r clear code next left acc busy =>
    dsimp only
    generalize zeroed : (if clear = true then { s with counters := s.counters.zeroBlock code next (min n left) } else s) = v
    obtain ⟨k, counted⟩ : ∃ k, v = { s with counters := k } := by
      rw [← zeroed]
      split
      · exact ⟨_, rfl⟩
      · exact ⟨s.counters, rfl⟩
    obtain ⟨goesOn, ⟨t, used⟩, ends⟩ := laws.works (v := v) engine lawful busy (counted ▸ ⟨rfl, rfl, rfl, rfl, rfl, rfl⟩)
      (by rw [counted]) (by rw [counted])
    split
    · simp only [used]
      exact ends t _
    · exact goesOn _
  all_goals exact laws

theorem State.LanesIn.walkVisit (laws : s.LanesIn none) (engine : s.TransactionLaws) (lawful : s.store.Lawful) :
    s.walkVisit.LanesIn none := by
  unfold State.walkVisit
  split
  next r start cursor mask cleared busy =>
    dsimp only
    generalize visited : (if (s.entry cursor).learnedIn mask = true then s.putEntry cursor .unassigned else s) = v
    obtain ⟨b, cleared'⟩ : ∃ b, v = { s with table := b } := by
      rw [← visited]
      split
      · exact ⟨_, rfl⟩
      · exact ⟨s.table, rfl⟩
    split
    · obtain ⟨_, ⟨t, used⟩, ends⟩ := laws.works (v := v.raise .bulkUnlearn none none
        (if (s.entry cursor).learnedIn mask = true then cleared + 1 else cleared)) engine lawful busy
        (cleared' ▸ ⟨rfl, rfl, rfl, rfl, rfl, rfl⟩) (by rw [cleared']; rfl) (by rw [cleared']; rfl)
      simp only [used]
      exact ends t _
    · exact (laws.works (v := v) engine lawful busy (cleared' ▸ ⟨rfl, rfl, rfl, rfl, rfl, rfl⟩) (by rw [cleared'])
        (by rw [cleared'])).1 _
  all_goals exact laws

/-! ### The commands, each (R137 to R152) -/

theorem carryWriteStation_egress (s : State) (g : Seg) (args : List Byte) :
    (carryWriteStation s g args).state.egress = s.egress := by
  unfold carryWriteStation
  split <;> rfl

theorem carryWriteSegment_egress (s : State) (g : Seg) (args : List Byte) :
    (carryWriteSegment s g args).state.egress = s.egress := by
  unfold carryWriteSegment
  split
  · split <;> rfl
  · rfl

theorem carryApplySegment_egress (s : State) (g : Seg) (args : List Byte) :
    (carryApplySegment s g args).state.egress = s.egress := by
  unfold carryApplySegment
  split
  · rfl
  · split
    · rfl
    · split <;> rfl

theorem carryReadEvents_egress (s : State) (g : Seg) (args : List Byte) :
    (carryReadEvents s g args).state.egress = s.egress := by
  unfold carryReadEvents
  dsimp only
  split <;> rfl

theorem carryTakeLease_egress (s : State) (g : Seg) (args : List Byte) :
    (carryTakeLease s g args).state.egress = s.egress := by
  unfold carryTakeLease
  dsimp only
  split
  · rfl
  · split
    · rfl
    · split
      · rfl
      · split <;> rfl

theorem carryDropLease_egress (s : State) (g : Seg) (args : List Byte) :
    (carryDropLease s g args).state.egress = s.egress := by
  unfold carryDropLease
  split
  · rfl
  · split
    · obtain ⟨l, v, h⟩ := s.dropLeaseOf_only g 0
      simp only [Carried.answer, Carried.state, h]
    · rfl

/-- WriteBridge disarms copies and moves none (R135, R144). -/
theorem carryWriteBridge_keeps : Carry.Keeps carryWriteBridge := by
  have written : ∀ (s : State) (b : BridgeRecord) (a : Option Byte), s.KeepsLanes ((s.storeBridge b).setPendingOwn a) :=
    fun s b a => .of_disarm ReplyCopy.disarmOwn_desc (fun h => PerSeg.get_tabulate _ h) rfl rfl rfl
  refine ⟨.of_leaves carryWriteBridge_leavesEngine, fun s g args => .of_same (carryWriteBridge_store s g args),
    .of_keeps fun s g args => ?_⟩
  unfold carryWriteBridge
  split
  · exact .refl s
  · split
    · exact written s _ _
    · split
      · exact written s _ _
      · exact .refl s

/-- RestartSegment is carried out within its Local's execution (R151). -/
theorem carryRestartSegment_keeps : Carry.Keeps carryRestartSegment := by
  refine ⟨carryRestartSegment_keepsLaws, carryRestartSegment_keepsStore, fun s g args e x engine laws => ?_⟩
  unfold carryRestartSegment
  split
  · exact laws
  · split
    · exact laws
    · exact laws.segmentRestart engine _

/-! ### Every step -/

/-- An event taken keeps the laws where its effect, due, does. -/
theorem State.LanesIn.takeEvent {due : Option Nat} {effect : State → State} (laws : s.LanesIn none)
    (engine : s.TransactionLaws) (lawful : s.store.Lawful) (taken : s.takeEvent due effect = .next v)
    (keeps : ∀ m, due = some m → (s.advance m).TransactionLaws → (s.advance m).store.Lawful → (s.advance m).LanesIn none →
      (effect (s.advance m)).LanesIn none) : v.LanesIn none := by
  have result := Host.Outcome.next.inj taken
  split at result
  · exact result ▸ laws
  · split at result
    · exact result ▸ laws
    next m => exact result ▸ keeps m rfl engine lawful (laws.keep (.of_same rfl rfl rfl rfl))

/-- Every command keeps the laws of the lanes. -/
theorem exec_keepsLanes {c : Instr} (laws : s.LanesIn none) (engine : s.TransactionLaws) (lawful : s.store.Lawful)
    (taken : exec c s = .next v) : v.LanesIn none := by
  have event : ∀ {due : Option Nat} {effect : State → State}, s.takeEvent due effect = .next v →
      (∀ (u : State) e x, u.LawsIn e x → u.store.Lawful → u.LanesIn none → (effect u).LanesIn none) → v.LanesIn none :=
    fun took keeps => laws.takeEvent engine lawful took fun m _ engine' lawful' now =>
      keeps _ _ _ ((s.advance m).transactionLaws_iff.1 engine') lawful' now
  have quiet : ∀ {due : Option Nat} {effect : State → State}, s.takeEvent due effect = .next v →
      (∀ u : State, u.KeepsLanes (effect u)) → v.LanesIn none :=
    fun took keeps => event took fun u _ _ _ _ now => now.keep (keeps u)
  have command : ∀ {c : MgmtCommand} {carry : Carry}, s.command c carry = .next v → carry.Keeps → v.LanesIn none :=
    fun took keeps => laws.takeEvent engine lawful took fun _ _ engine' lawful' now => now.takeLocal engine' lawful' keeps _
  unfold exec at taken
  cases c with
  | characterComplete g y => exact event taken fun _ _ _ engine' lawful' now => now.characterComplete engine' lawful' g y
  | breakFound g => exact event taken fun _ _ _ engine' _ now => now.breakFound engine' g
  | falseStart g => exact quiet taken fun _ => .of_same rfl rfl rfl rfl
  | startWhileDriving g => exact event taken fun _ _ _ engine' _ now => now.startHeard engine' g
  | recoverEnd g => exact quiet taken fun _ => .of_same rfl rfl rfl rfl
  | idleGapExpiry g => exact event taken fun _ _ _ engine' _ now => now.idleGap engine' g
  | arbiterScan => exact event taken fun _ _ _ engine' _ now => now.scan engine'
  | takeLine g => exact quiet taken fun u => u.takeLine_keepsLanes g
  | leadGuardEnd g => exact quiet taken fun u => u.endLead_keepsLanes g
  | characterSent g => exact quiet taken fun u => u.characterSent_keepsLanes g
  | echoDeadline g => exact quiet taken fun u => u.foundCollision_keepsLanes g
  | breakSent g => exact quiet taken fun u => u.breakSent_keepsLanes g
  | tailGuardEnd g straps =>
    refine event taken fun u _ _ engine' _ now => ?_
    exact State.LanesIn.endTail (s := { u with straps := straps }) (now.keep (.of_same rfl rfl rfl rfl))
      (engine'.of_leaves ⟨rfl, rfl, rfl, rfl, rfl, rfl⟩) g
  | backoffEnd g => exact quiet taken fun _ => .setEgress (.of_hand rfl rfl rfl)
  | responseTimerExpiry r =>
    refine quiet taken fun u => ?_
    unfold State.responseTimer
    split
    · exact .refl u
    next t used => exact State.timeOut_keepsLanes used
  | agingTick =>
    refine quiet taken fun u => ?_
    unfold State.agingTick
    dsimp only
    split <;> exact .of_same rfl rfl rfl rfl
  | sweepVisit =>
    refine quiet taken fun u => ?_
    unfold State.sweepVisit
    split
    · exact .refl u
    next w _ =>
      obtain ⟨b, l, h⟩ := u.sweepEntry_only w.cursor
      dsimp only
      rw [h]
      exact .of_same rfl rfl rfl rfl
  | walkVisit => exact laws.takeEvent engine lawful taken fun _ _ engine' lawful' now => now.walkVisit engine' lawful'
  | leaseExpiry =>
    refine quiet taken fun u => ?_
    unfold State.expireLease
    split
    · exact .refl u
    · exact .of_same rfl rfl rfl rfl
  | settingsApply g => exact event taken fun _ _ _ engine' _ now => now.applySettings engine' g
  | identify => exact command taken (.of_state fun _ _ _ => rfl)
  | readStatus => exact command taken (.of_state fun _ _ _ => rfl)
  | readStation => exact command taken (.of_state fun _ _ _ => rfl)
  | writeStation =>
    exact command taken (.of_quiet carryWriteStation_leavesEngine carryWriteStation_store carryWriteStation_egress)
  | readStationRange claims =>
    refine laws.takeEvent engine lawful taken fun _ _ engine' lawful' now => ?_
    have keeps : Carry.Keeps carryReadStationRange := .of_state carryReadStationRange_state
    exact (now.takeLocal engine' lawful' keeps _).readStations (engine'.takeLocal keeps.engine _)
      (State.takeLocal_keepsStore _ _ keeps.store lawful') claims
  | clearLearned => exact command taken (.of_state carryClearLearned_state)
  | readSegment => exact command taken (.of_state carryReadSegment_state)
  | writeSegment =>
    exact command taken (.of_quiet carryWriteSegment_leavesEngine carryWriteSegment_store carryWriteSegment_egress)
  | applySegment =>
    exact command taken (.of_quiet carryApplySegment_leavesEngine carryApplySegment_store carryApplySegment_egress)
  | writeBridge => exact command taken carryWriteBridge_keeps
  | readBridge => exact command taken (.of_state fun _ _ _ => rfl)
  | readCounters claims =>
    refine laws.takeEvent engine lawful taken fun _ _ engine' lawful' now => ?_
    have keeps : Carry.Keeps (carryCounters false) := .of_state (carryCounters_state false)
    exact (now.takeLocal engine' lawful' keeps _).readCounterBlock (engine'.takeLocal keeps.engine _)
      (State.takeLocal_keepsStore _ _ keeps.store lawful') claims
  | readClearCounters claims =>
    refine laws.takeEvent engine lawful taken fun _ _ engine' lawful' now => ?_
    have keeps : Carry.Keeps (carryCounters true) := .of_state (carryCounters_state true)
    exact (now.takeLocal engine' lawful' keeps _).readCounterBlock (engine'.takeLocal keeps.engine _)
      (State.takeLocal_keepsStore _ _ keeps.store lawful') claims
  | readEvents => exact command taken (.of_quiet carryReadEvents_leavesEngine carryReadEvents_store carryReadEvents_egress)
  | takeLease => exact command taken (.of_quiet carryTakeLease_leavesEngine carryTakeLease_store carryTakeLease_egress)
  | dropLease => exact command taken (.of_quiet carryDropLease_leavesEngine carryDropLease_store carryDropLease_egress)
  | restart => exact command taken (.of_state carryRestart_state)
  | restartSegment => exact command taken carryRestartSegment_keeps
  | echo => exact command taken (.of_state fun _ _ _ => rfl)
  | badCommand => exact laws.takeEvent engine lawful taken fun _ _ engine' lawful' now => now.takeUnknown engine' lawful'
  | powerOnRestart cause =>
    have result := Host.Outcome.next.inj taken
    subst result
    cases cause <;> exact s.clearAll_lanes.keep (.of_same rfl rfl rfl rfl)
  | powerOnRestartEnd straps =>
    have result := Host.Outcome.next.inj taken
    subst result
    split
    · exact (State.clearAll_lanes { s with straps := straps }).keep (.of_same rfl rfl rfl rfl)
    · exact laws
  | fallingEdge g => exact quiet taken fun _ => .of_same rfl rfl rfl rfl

theorem State.idle_keepsLanes (s : State) : s.KeepsLanes s.idle := by
  unfold State.idle
  split
  · exact .refl s
  · split <;> exact .of_same rfl rfl rfl rfl

end

/-- Settles O59: every step keeps the laws, by the commands one by one. -/
theorem laneLawsAreKept : Obligations.LaneLawsAreKept := by
  intro s t lawful engine laws stepped
  have now := laws.lanesIn (s.transactionLaws_iff.1 engine)
  unfold step at stepped
  split at stepped
  · cases stepped
    exact (now.keep s.idle_keepsLanes).laneLaws
  next c rest _ =>
    exact (exec_keepsLanes (s := { s with pending := rest }) (now.keep (.of_same rfl rfl rfl rfl)) engine lawful stepped).laneLaws

end Sys2Proof.Machine
end

