-- ==== Sys2Proof/Proofs/TakeLine.lean ====
section
/-!
TAKE_LINE: the item a scheduler chooses, and LEAD (R111 to R114).
-/

namespace Sys2Proof.Machine

section
variable {s : State} {g : Seg} {h : InHand}

/-! ### The item chosen (R111, R112) -/

/-- The notice comes first (R111). -/
theorem State.choose_notice {n : Notice} (slot : (s.egress.get g).slot = some n) : s.choose g = some .slotNotice := by
  simp only [State.choose, slot]

/-- With no notice, the head of the reply lane (R111). -/
theorem State.choose_reply {c : ReplyCopy} {l : List ReplyCopy} (slot : (s.egress.get g).slot = none)
    (lane : (s.egress.get g).replyLane = c :: l) : s.choose g = some (.reply c.desc) := by
  simp only [State.choose, slot, lane]

/-- With neither, the head of the bulk lane, unless it waits for the live transaction of an Upstream segment (R111). -/
theorem State.choose_bulk {d : Fin Config.numDescs} {l : List (Fin Config.numDescs)}
    (slot : (s.egress.get g).slot = none) (replies : (s.egress.get g).replyLane = [])
    (lane : (s.egress.get g).bulkLane = d :: l) (idle : (s.active g).role = .upstream → s.liveOf g = none) :
    s.choose g = some (.bulk d) := by
  have goes : ¬ ((s.active g).role = .upstream ∧ (s.liveOf g).isSome = true) := fun ⟨up, live⟩ => by
    rw [idle up] at live
    exact Bool.false_ne_true live
  simp only [State.choose, slot, replies, lane, goes, reduceIte]

/-- An item in hand is kept (R112). -/
theorem State.handOrChoice_inHand (inHand : (s.egress.get g).hand = some h) : s.handOrChoice g = some h := by
  simp only [State.handOrChoice, inHand]

/-- With none in hand the one chosen is taken, not started, with no attempt made (R111, R112). -/
theorem State.handOrChoice_chosen (empty : (s.egress.get g).hand = none) (chosen : s.choose g = some h.item)
    (unstarted : h.started = false) (untried : h.attempts = 0) : s.handOrChoice g = some h := by
  simp only [State.handOrChoice, empty, chosen, Option.map_some, ← unstarted, ← untried]

/-! ### LEAD (R113, R114) -/

/-- The line is taken once the quiet time has reached the turn gap (R113). -/
theorem exec_takeLine (free : s.held = false) {since : Nat} {high taken : Bool}
    (ready : (s.lines.get g).rx = .ready since high taken) (on : (s.active g).role ≠ .off)
    (hunts : s.receivers.get g = .hunt) (quiet : (s.egress.get g).state = .quiet) (item : s.handOrChoice g = some h) :
    exec (.takeLine g) s
      = .next ((s.advance (since + (s.active g).turnGap.toNat * (s.active g).charTime)).takeLine g) := by
  have due : s.takeLineDue g = some (since + (s.active g).turnGap.toNat * (s.active g).charTime) := by
    simp [State.takeLineDue, ready, on, hunts, quiet, item]
  change s.takeEvent (s.takeLineDue g) (fun s => s.takeLine g) = _
  rw [due, State.takeEvent_due free]

/-- With a lead guard, taking the line enters LEAD (R114). -/
theorem State.takeLine_leads {since : Nat} {taken : Bool} (ready : (s.lines.get g).rx = .ready since true taken)
    (guard : (s.active g).leadGuard ≠ 0) : s.takeLine g = { s with
      lines := s.lines.set g { s.lines.get g with de := true }
      receivers := s.receivers.set g .blind
      egress := s.egress.set g { s.egress.get g with
        state := .lead (s.time + (s.active g).leadGuard.toNat * (s.active g).bitTime) (s.active g).echoCheck
        hand := s.handOrChoice g, echoes := [], collision := false } } := by
  have line : ∀ now gap, (s.lines.get g).quietFor now gap = s.lines.get g := by
    intro now gap
    simp only [LineUnit.quietFor, ready]
  unfold State.takeLine
  dsimp only
  rw [line]
  exact if_neg guard

end

/-- Settles O15: whichever item stands first, it is the one in hand as LEAD is entered. -/
theorem takeLineEntersLead : Obligations.TakeLineEntersLead := by
  intro s g since taken h free ready on hunts quiet guard item
  have inHand : s.handOrChoice g = some h := by
    rcases item with inHand | ⟨empty, unstarted, untried, source⟩
    · exact State.handOrChoice_inHand inHand
    · refine State.handOrChoice_chosen empty ?_ unstarted untried
      rcases source with ⟨n, slot, is⟩ | ⟨c, l, slot, lane, is⟩ | ⟨d, l, slot, replies, lane, is, idle⟩
      · exact is ▸ State.choose_notice slot
      · exact is ▸ State.choose_reply slot lane
      · exact is ▸ State.choose_bulk slot replies lane idle
  rw [exec_takeLine free ready on hunts quiet inHand, State.takeLine_leads (by exact ready) (by exact guard), ← inHand]
  rfl

end Sys2Proof.Machine
end

