-- ==== Sys2Proof/Proofs/SendsEnd.lean ====
section
/-!
The end of a send: TAIL_GUARD_END and BACKOFF_END (R119 to R122).
-/

namespace Sys2Proof.Machine

section
variable {s : State} {g : Seg} {h : InHand}

/-- TAIL ends once its guard has run, no echo is expected and no break is being sent; the strap pins are read then (R119,
R182). -/
theorem exec_tailGuardEnd (free : s.held = false) {ends : Nat} {a : Attempt} (tail : (s.egress.get g).state = .tail ends a)
    (silent : (s.egress.get g).echoes = []) (marking : (s.lines.get g).tx = .marking) (x : Straps) :
    exec (.tailGuardEnd g x) s = .next (State.endTail { s with time := max s.time ends, straps := x } g) := by
  have due : s.tailGuardDue g = some ends := by
    unfold State.tailGuardDue
    rw [tail]
    exact if_pos ⟨silent, marking⟩
  change s.takeEvent (s.tailGuardDue g) (fun s => State.endTail { s with straps := x } g) = _
  rw [due, State.takeEvent_due free]
  rfl

/-- With no character or break being sent, releasing DE discards no more than the held request (R64, R72). -/
theorem State.releaseLine_marking (marking : (s.lines.get g).tx = .marking) : s.releaseLine g = { s with
    lines := s.lines.set g { s.lines.get g with held := none, de := false }
    receivers := s.receivers.set g .hunt } := by
  simp only [State.releaseLine, State.setLine, State.setReceiver, LineUnit.releaseDE, marking]

/-- TAIL ends with a collision found (R119): DE is released and BACKOFF entered. -/
theorem State.endTail_collided (collided : (s.egress.get g).collision = true) :
    s.endTail g = (s.releaseLine g).backOff g := if_pos collided

/-- A send with no effect armed, of which the transaction engine does not hear, completes (R122): the item leaves and is
counted. -/
theorem State.sendCompleted_unheard (inHand : (s.egress.get g).hand = some h)
    (unarmed : (s.egress.get g).armedOn h.item = none) (unheard : s.isRequestCopy h.item = false) :
    s.sendCompleted g = (s.dropItem g h.item).count g .framesSent := by
  simp only [State.sendCompleted, inHand, unarmed, unheard, Bool.false_eq_true, reduceIte]

/-- A reply none of whose copies in the lane is armed has no effect armed (R135). -/
theorem Egress.armedOn_reply {e : Egress} {d : Fin Config.numDescs}
    (unarmed : ∀ c, c ∈ e.replyLane → c.desc = d → c.armed = none) : e.armedOn (.reply d) = none := by
  change (e.replyLane.find? fun c => c.desc == d).bind ReplyCopy.armed = none
  cases found : e.replyLane.find? fun c => c.desc == d with
  | none => rfl
  | some c => exact unarmed c (List.mem_of_find?_eq_some found) (by simpa using List.find?_some found)

/-- TAIL ends with no collision found, of an item of which neither the transaction engine nor the management engine hears:
the scheduler is QUIET, and the item has left (R119, R122). -/
theorem State.endTail_sent (clear : (s.egress.get g).collision = false) (inHand : (s.egress.get g).hand = some h)
    (unarmed : (s.egress.get g).armedOn h.item = none) (unheard : s.isRequestCopy h.item = false) : s.endTail g
      = (((s.releaseLine g).setEgress g { s.egress.get g with state := .quiet }).dropItem g h.item).count g .framesSent := by
  have here : ((s.releaseLine g).setEgress g { s.egress.get g with state := .quiet }).egress.get g
      = { s.egress.get g with state := .quiet } := (PerSeg.get_set ..).trans (if_pos rfl)
  rw [State.endTail_completes clear]
  exact State.sendCompleted_unheard (by rw [here]; exact inHand) (by rw [here]; exact unarmed) unheard

/-- BACKOFF of segment n lasts 2 (n + 1) character times (R120). -/
theorem exec_backoffEnd (free : s.held = false) {since : Nat} (backs : (s.egress.get g).state = .backoff since) :
    exec (.backoffEnd g) s = .next { s with
      time := max s.time (since + 2 * (g.num + 1) * (s.active g).charTime)
      egress := s.egress.set g { s.egress.get g with state := .quiet } } := by
  have due : s.backoffDue g = some (since + 2 * (g.num + 1) * (s.active g).charTime) := by
    simp only [State.backoffDue, backs]
  change s.takeEvent (s.backoffDue g) (fun s => s.setEgress g { s.egress.get g with state := .quiet }) = _
  rw [due, State.takeEvent_due free]
  rfl

end

/-- Settles O19: DE is released, and then the send completes by its item, or BACKOFF is entered by its retries. -/
theorem sendsEnd : Obligations.SendsEnd := by
  refine ⟨?_, fun s g since free backs => exec_backoffEnd free backs⟩
  intro s g x ends a h free tail silent marking inHand v hv
  obtain ⟨p, hp⟩ : ∃ p : State, p = { s with time := max s.time ends, straps := x } := ⟨_, rfl⟩
  have egress : p.egress = s.egress := by rw [hp]
  have store : p.store = s.store := by rw [hp]
  have there : (p.egress.get g).hand = some h := by rw [egress, inHand]
  have released : p.releaseLine g = v := by rw [hv, State.releaseLine_marking (by rw [hp]; exact marking), hp]
  rw [exec_tailGuardEnd free tail silent marking, ← hp]
  refine ⟨fun clear => ?_, fun collided => ?_⟩
  · have sent := State.endTail_sent (by rw [egress, clear]) there
    refine ⟨fun n is => ?_, fun d y is stored unsolicited => ?_, fun d is unarmed => ?_⟩
    · rw [sent (by rw [is]; rfl) (by rw [is]; rfl), is, released, egress, hv]
      simp [State.dropItem, State.setEgress, State.count, SegCounter.index]
    · have unheard : p.isRequestCopy (.bulk d) = false := by simp [State.isRequestCopy, store, stored, unsolicited]
      rw [sent (by rw [is]; rfl) (by rw [is, unheard]), is, released, egress, hv]
      simp [State.dropItem, State.setEgress, State.mapStore, State.count, SegCounter.index]
    · rw [sent (by rw [is, egress]; exact Egress.armedOn_reply unarmed) (by rw [is]; rfl), is, released, egress, hv]
      simp [State.dropItem, State.setEgress, State.mapStore, State.count, SegCounter.index]
  · rw [State.endTail_collided (by rw [egress, collided]), released]
    have active : v.active g = s.active g := by rw [hv]; rfl
    have here : (v.egress.get g).hand = some h := by rw [hv]; exact inHand
    refine ⟨fun left => ?_, fun spent => ⟨_, rfl, ?_⟩⟩
    · rw [State.backOff_retries here (by rw [active]; exact left), hv]
      rfl
    · rw [State.backOff_spent here (by rw [active]; exact spent)]
      exact v.sendGivenUp_sendLost g h

end Sys2Proof.Machine
end

