-- ==== Sys2Proof/Proofs/EchoCompare.lean ====
section
/-!
The echo compare, and a collision it finds (R62, R115, R117, R118).
-/

namespace Sys2Proof.Machine

section
variable {s : State} {g : Seg} {h : InHand} {a : Attempt} {i : EchoItem}

/-! ### Requests (R64, R65, R115) -/

/-- A character or break requested while MARKING starts at once (R64, R65). -/
theorem LineUnit.send_marking {u : LineUnit} (marking : u.tx = .marking) (now : Nat) :
    (∀ c, u.sendChar c now = { u with tx := .shifting c now }) ∧ u.sendBreak now = { u with tx := .breaking now } := by
  simp only [LineUnit.sendChar, LineUnit.sendBreak, marking, implies_true, and_self]

/-- One requested while a character is being sent is held (R64, R65). -/
theorem LineUnit.send_shifting {u : LineUnit} {f : Ch} {since : Nat} (shifting : u.tx = .shifting f since) (now : Nat) :
    (∀ c, u.sendChar c now = { u with held := some (.char c) }) ∧ u.sendBreak now = { u with held := some .brk } := by
  simp only [LineUnit.sendChar, LineUnit.sendBreak, shifting, implies_true, and_self]

/-- With no request held the transmitter is MARKING once a character or break has been sent (R64). -/
theorem LineUnit.endSending_free {u : LineUnit} (free : u.held = none) (now : Nat) :
    u.endSending now = { u with tx := .marking } := by
  simp only [LineUnit.endSending, free]

/-- A request held starts as the one before it ends (R64). -/
theorem LineUnit.endSending_held {u : LineUnit} (now : Nat) :
    (∀ c, u.held = some (.char c) → u.endSending now = { u with tx := .shifting c now, held := none })
      ∧ (u.held = some .brk → u.endSending now = { u with tx := .breaking now, held := none }) := by
  refine ⟨fun c held => ?_, fun held => ?_⟩ <;> simp only [LineUnit.endSending, held]

/-- Where a character is left it is requested, and with echo check on its echo expected (R115). -/
theorem State.requestNext_left (inHand : (s.egress.get g).hand = some h) {c : Ch}
    (left : s.itemChar a.own a.next h.item = some c) : s.requestNext g a = { s with
      lines := s.lines.set g ((s.lines.get g).sendChar c s.time)
      egress := s.egress.set g { s.egress.get g with
        state := .transmit { a with next := a.next + 1 }
        echoes := if a.echoOn then (s.egress.get g).echoes ++ [⟨a.next, c, none⟩] else (s.egress.get g).echoes } } := by
  simp only [State.requestNext, inHand, left]
  rfl

/-- Where none is left none is requested (R115). -/
theorem State.requestNext_done (inHand : (s.egress.get g).hand = some h) (done : s.itemChar a.own a.next h.item = none) :
    s.requestNext g a = s.setEgress g { s.egress.get g with state := .transmit a } := by
  simp only [State.requestNext, inHand, done]

/-! ### A collision found (R118) -/

/-- The attempt and Collisions are counted, no echo is expected, and a break is requested (R118). -/
theorem State.foundCollision_eq (inHand : (s.egress.get g).hand = some h) : s.foundCollision g = { s with
    lines := s.lines.set g ((s.lines.get g).sendBreak s.time)
    egress := s.egress.set g { s.egress.get g with
      hand := some { h with attempts := h.attempts + 1 }, collision := true, echoes := [] }
    counters := s.counters.write g 11 (saturatingSucc (s.counters.read g 11)) } := by
  simp [State.foundCollision, State.failAttempt, State.setEgress, State.setLine, State.count, SegCounter.index, inHand]

/-! ### The judgement (R117) -/

/-- A character matches an expected echo with its value and mark, heard without error, and without noise unless the segment
tolerates it (R117). -/
theorem echoMatches_iff {p : NoisePolicy} {e : Echo} {c : RxChar} : echoMatches p e c = true
    ↔ c.value = e.char.value ∧ c.mark = e.char.mark ∧ c.parityErr = false ∧ c.framingErr = false
      ∧ (c.noise = true → p = .tolerate) := by
  have policy : (!(c.noise && p == .damage)) = true ↔ (c.noise = true → p = .tolerate) := by
    cases c.noise <;> cases p <;> decide
  simp only [echoMatches, Bool.and_eq_true, beq_iff_eq, Bool.not_eq_true', policy, and_assoc]

/-- In TRANSMIT every item is judged; a match removes the echo and requests the next character (R115, R117). -/
theorem State.echoCompare_transmit (transmits : (s.egress.get g).state = .transmit a) (on : a.echoOn = true)
    (clear : (s.egress.get g).collision = false) : s.echoCompare g i
      = if (s.egress.get g).judges (s.active g).noisePolicy i then
          (s.setEgress g { s.egress.get g with echoes := (s.egress.get g).echoes.tail }).requestNext g a
        else s.foundCollision g := by
  simp only [State.echoCompare, transmits, on, clear, Bool.not_false, Bool.and_self, reduceIte]

/-- In TAIL items are judged while an echo is expected; a match removes it (R117). -/
theorem State.echoCompare_tail {ends : Nat} (tail : (s.egress.get g).state = .tail ends a) (on : a.echoOn = true)
    (clear : (s.egress.get g).collision = false) (expects : (s.egress.get g).echoes ≠ []) : s.echoCompare g i
      = if (s.egress.get g).judges (s.active g).noisePolicy i then
          s.setEgress g { s.egress.get g with echoes := (s.egress.get g).echoes.tail }
        else s.foundCollision g := by
  have expecting : (s.egress.get g).echoes.isEmpty = false := by simpa using expects
  simp only [State.echoCompare, tail, on, clear, expecting, Bool.not_false, Bool.and_self, reduceIte]

/-- With echo check off, after a collision, and in TAIL with no echo expected, nothing is judged (R117). -/
theorem State.echoCompare_unjudged (row : (∃ a, ((s.egress.get g).state = .transmit a
          ∨ ∃ ends, (s.egress.get g).state = .tail ends a) ∧ (a.echoOn = false ∨ (s.egress.get g).collision = true))
        ∨ ∃ ends a, (s.egress.get g).state = .tail ends a ∧ (s.egress.get g).echoes = []) : s.echoCompare g i = s := by
  rcases row with ⟨a, transmits | ⟨ends, tail⟩, off | collided⟩ | ⟨ends, a, tail, silent⟩
  · simp [State.echoCompare, transmits, off]
  · simp [State.echoCompare, transmits, collided]
  · simp [State.echoCompare, tail, off]
  · simp [State.echoCompare, tail, collided]
  · simp [State.echoCompare, tail, silent]

/-- Where items are judged, one that does not match the oldest expected echo is a collision (R117, R118). -/
theorem State.echoCompare_collides (judged : (s.egress.get g).state = .transmit a
      ∨ (s.egress.get g).echoes ≠ [] ∧ ∃ ends, (s.egress.get g).state = .tail ends a) (on : a.echoOn = true)
    (clear : (s.egress.get g).collision = false)
    (differs : (s.egress.get g).judges (s.active g).noisePolicy i = false) : s.echoCompare g i = s.foundCollision g := by
  rcases judged with transmits | ⟨expects, ends, tail⟩
  · rw [State.echoCompare_transmit transmits on clear, differs, if_neg Bool.false_ne_true]
  · rw [State.echoCompare_tail tail on clear expects, differs, if_neg Bool.false_ne_true]

/-- A character that matches the oldest expected echo is judged a match (R117). -/
theorem Egress.judges_matches {e : Egress} {p : NoisePolicy} {c : RxChar} {x : Echo} {l : List Echo}
    (expects : e.echoes = x :: l) (hears : echoMatches p x c = true) : e.judges p (some c) = true := by
  simpa only [Egress.judges, expects] using hears

/-- A character is judged a mismatch where no expected echo is the oldest and matches it (R117). -/
theorem Egress.judges_differs {e : Egress} {p : NoisePolicy} {c : RxChar}
    (differs : ∀ x l, e.echoes = x :: l → echoMatches p x c ≠ true) : e.judges p (some c) = false := by
  cases expected : e.echoes with
  | nil => simp only [Egress.judges, expected]
  | cons x l => simpa only [Egress.judges, expected, Bool.not_eq_true] using differs x l expected

/-! ### Delivery with DE asserted (R62) -/

/-- While driving, a break is delivered to the echo compare (R60, R62). -/
theorem exec_breakFound_driving (free : s.held = false) {edge : Nat} {taken : Bool}
    (hears : (s.lines.get g).rx = .assemble edge taken) (de : (s.lines.get g).de = true) :
    exec (.breakFound g) s = .next ((s.broken g edge).echoCompare g none) := by
  have due : s.assembleDue g (s.active g).firstStop = some (edge + (s.active g).middleOf (s.active g).firstStop) := by
    simp only [State.assembleDue, hears]
  have line : ((s.broken g edge).lines.get g).de = true :=
    (congrArg LineUnit.de ((PerSeg.get_set ..).trans (if_pos rfl))).trans de
  change s.takeEvent (s.assembleDue g (s.active g).firstStop) (fun s => s.breakFound g) = _
  rw [due, State.takeEvent_due free]
  exact congrArg Host.Outcome.next (if_pos line)

end

end Sys2Proof.Machine
end

