-- ==== Sys2Proof/Proofs/CollisionBreak.lean ====
section
/-!
ECHO_DEADLINE, a collision heard while sending, and BREAK_SENT (R65, R69, R117, R118).
-/

namespace Sys2Proof.Machine

section
variable {s : State} {g : Seg} {h : InHand} {a : Attempt}

/-- The echo of a character is awaited for one character time after its last stop bit (R117). -/
theorem exec_echoDeadline (free : s.held = false) {e : Echo} {l : List Echo} (expects : (s.egress.get g).echoes = e :: l)
    {at0 : Nat} (sent : e.sentAt = some at0) :
    exec (.echoDeadline g) s = .next ((s.advance (at0 + (s.active g).charTime)).foundCollision g) := by
  have due : s.echoDeadlineDue g = some (at0 + (s.active g).charTime) := by
    simp only [State.echoDeadlineDue, expects, sent, Option.map_some]
  change s.takeEvent (s.echoDeadlineDue g) (fun s => s.foundCollision g) = _
  rw [due, State.takeEvent_due free]

/-- A break lasts two character times (R65). -/
theorem exec_breakSent (free : s.held = false) {since : Nat} (breaks : (s.lines.get g).tx = .breaking since) :
    exec (.breakSent g) s = .next ((s.advance (since + 2 * (s.active g).charTime)).breakSent g) := by
  have due : s.breakSentDue g = some (since + 2 * (s.active g).charTime) := by simp only [State.breakSentDue, breaks]
  change s.takeEvent (s.breakSentDue g) (fun s => s.breakSent g) = _
  rw [due, State.takeEvent_due free]

/-- The break of a collision has been sent in TRANSMIT: TAIL is entered (R118). -/
theorem State.breakSent_transmit (unheld : (s.lines.get g).held = none) (transmits : (s.egress.get g).state = .transmit a) :
    s.breakSent g = { s with
      lines := s.lines.set g { s.lines.get g with tx := .marking }
      egress := s.egress.set g { s.egress.get g with
        state := .tail (s.time + (s.active g).tailGuard.toNat * (s.active g).bitTime) a } } := by
  unfold State.breakSent
  rw [LineUnit.endSending_free unheld]
  simp only [State.setLine, transmits]
  rfl

/-- The break of a Segment restart has been sent: DE is released (R69). -/
theorem State.breakSent_quiet (unheld : (s.lines.get g).held = none) (quiet : (s.egress.get g).state = .quiet) :
    s.breakSent g = { s with
      lines := s.lines.set g { s.lines.get g with tx := .marking, de := false }
      receivers := s.receivers.set g .hunt } := by
  unfold State.breakSent
  rw [LineUnit.endSending_free unheld]
  simp [State.setLine, quiet, State.releaseLine, State.setReceiver, LineUnit.releaseDE, unheld]

end

/-- Settles O17: a missing echo, a character that does not match and a break each come to `foundCollision`; what the break it
requests leads to is the scheduler's state at its end. -/
theorem collisionSendsABreak : Obligations.CollisionSendsABreak := by
  refine ⟨?_, ?_, ?_⟩
  · intro s g e l at0 h free expects sent inHand marking
    obtain ⟨_, breaks⟩ := LineUnit.send_marking marking (max s.time (at0 + (s.active g).charTime))
    rw [exec_echoDeadline free expects sent, State.foundCollision_eq (by exact inHand), ← breaks]
    rfl
  · intro s g edge taken a h free hears de judged on clear inHand w v item
    obtain ⟨rx, t, hv⟩ : ∃ rx t, v = { s with time := t, lines := s.lines.set g { s.lines.get g with rx := rx } } := by
      rcases item with ⟨x, c, _, _, rfl, _⟩ | ⟨_, now, _, rfl⟩ <;> exact ⟨_, _, rfl⟩
    have egress : v.egress = s.egress := by rw [hv]
    have counters : v.counters = s.counters := by rw [hv]
    have active : v.active g = s.active g := by rw [hv]; rfl
    have line : (v.lines.get g).tx = (s.lines.get g).tx := by simp only [hv, PerSeg.get_set, reduceIte]
    have compared : ∀ i, (s.egress.get g).judges (s.active g).noisePolicy i = false →
        v.echoCompare g i = v.foundCollision g := by
      rw [← egress] at judged clear ⊢
      rw [← active]
      exact fun i => State.echoCompare_collides judged on clear
    have found : exec w s = .next (v.foundCollision g) := by
      rcases item with ⟨x, c, heard, rfl, rfl, differs⟩ | ⟨rfl, now, rfl, rfl⟩
      · rw [heard.delivered, if_pos de]
        refine congrArg Host.Outcome.next (compared _ (Egress.judges_differs fun e l expected => ?_))
        exact mt echoMatches_iff.1 (differs e l expected)
      · rw [exec_breakFound_driving free hears de]
        exact congrArg Host.Outcome.next (compared none rfl)
    rw [found, State.foundCollision_eq (by rw [egress]; exact inHand), egress, counters]
    refine ⟨fun marking => ?_, fun f t0 shifting => ?_⟩
    · rw [(LineUnit.send_marking (line.trans marking) v.time).2]
    · rw [(LineUnit.send_shifting (line.trans shifting) v.time).2]
  · intro s g since free breaks unheld
    rw [exec_breakSent free breaks]
    exact ⟨fun a transmits => congrArg Host.Outcome.next (State.breakSent_transmit unheld transmits),
      fun quiet => congrArg Host.Outcome.next (State.breakSent_quiet unheld quiet)⟩

end Sys2Proof.Machine
end

