-- ==== Sys2Proof/Proofs/TransmitItem.lean ====
section
/-!
An item sent: LEAD_GUARD_END, CHARACTER_SENT and the echoes heard (R64, R114, R115, R117, R123).
-/

namespace Sys2Proof.Machine

section
variable {s : State} {g : Seg} {h : InHand} {a : Attempt}

/-! ### The first character (R109, R114, R115, R123) -/

/-- LEAD ends as its guard has run, and TRANSMIT is entered (R114). -/
theorem exec_leadGuardEnd (free : s.held = false) {ends : Nat} {on : Bool} (lead : (s.egress.get g).state = .lead ends on) :
    exec (.leadGuardEnd g) s = .next ((s.advance ends).enterTransmit g on) := by
  have due : s.leadGuardDue g = some ends := by simp only [State.leadGuardDue, lead]
  have enters : (s.advance ends).endLead g = (s.advance ends).enterTransmit g on := by
    simp only [State.endLead, State.advance_fields, lead]
  change s.takeEvent (s.leadGuardDue g) (fun s => s.endLead g) = _
  rw [due, State.takeEvent_due free, enters]

/-- A stored frame is marked started (R112). -/
theorem Egress.startItem_stored {e : Egress} {d : Fin Config.numDescs} (inHand : e.hand = some h)
    (stored : h.item = .bulk d ∨ h.item = .reply d) : e.startItem = { e with hand := some { h with started := true } } := by
  rcases stored with item | item <;> simp only [Egress.startItem, inHand, item]

/-- A notice leaves the slot as its send starts (R109). -/
theorem Egress.startItem_notice {e : Egress} {n : Notice} (inHand : e.hand = some h) (item : h.item = .slotNotice)
    (slot : e.slot = some n) : e.startItem
      = { e with slot := none, hand := some { h with item := .sentNotice n, started := true } } := by
  simp only [Egress.startItem, inHand, item, slot]

/-- A stored frame sends its characters as they stand (R101, R115). -/
theorem State.itemChar_stored {d : Fin Config.numDescs} {i : Item} (stored : i = .bulk d ∨ i = .reply d) (own : Byte)
    (k : Nat) : s.itemChar own k i = s.store.charAt d k := by
  rcases stored with rfl | rfl <;> rfl

/-- The item once its send has started, and its first character requested while MARKING (R115). -/
theorem State.startItem_requests {e : Egress} (starts : (s.egress.get g).startItem = e) (inHand : e.hand = some h)
    (marking : (s.lines.get g).tx = .marking) {c : Ch} {on : Bool}
    (first : s.itemChar s.bridge.own 0 h.item = some c) :
    (s.setEgress g (s.egress.get g).startItem).requestNext g ⟨on, s.bridge.own, 0, 0⟩ = { s with
      lines := s.lines.set g { s.lines.get g with tx := .shifting c s.time }
      egress := s.egress.set g { e with
        state := .transmit ⟨on, s.bridge.own, 1, 0⟩
        echoes := if on then e.echoes ++ [⟨0, c, none⟩] else e.echoes } } := by
  have here : (s.setEgress g e).egress.get g = e := (PerSeg.get_set ..).trans (if_pos rfl)
  rw [starts, State.requestNext_left (h := h) (c := c) (by rw [here]; exact inHand) first, here]
  simp [State.setEgress, (LineUnit.send_marking marking s.time).1]

/-- With echo check on TRANSMIT is entered with the first character sent and its echo expected (R114, R115). -/
theorem State.enterTransmit_checked {e : Egress} (starts : (s.egress.get g).startItem = e) (inHand : e.hand = some h)
    (marking : (s.lines.get g).tx = .marking) {c : Ch} (first : s.itemChar s.bridge.own 0 h.item = some c) :
    s.enterTransmit g true = { s with
      lines := s.lines.set g { s.lines.get g with tx := .shifting c s.time }
      egress := s.egress.set g { e with
        state := .transmit ⟨true, s.bridge.own, 1, 0⟩, echoes := e.echoes ++ [⟨0, c, none⟩] } } :=
  State.startItem_requests (on := true) starts inHand marking first

/-- With echo check off the second character is requested as the first starts (R115). -/
theorem State.enterTransmit_unchecked {e : Egress} (starts : (s.egress.get g).startItem = e) (inHand : e.hand = some h)
    (marking : (s.lines.get g).tx = .marking) {c d : Ch} (first : s.itemChar s.bridge.own 0 h.item = some c)
    (second : s.itemChar s.bridge.own 1 h.item = some d) :
    s.enterTransmit g false = { s with
      lines := s.lines.set g { s.lines.get g with tx := .shifting c s.time, held := some (.char d) }
      egress := s.egress.set g { e with state := .transmit ⟨false, s.bridge.own, 2, 0⟩ } } := by
  have twice : ∀ v, (s.setEgress g (s.egress.get g).startItem).requestNext g ⟨false, s.bridge.own, 0, 0⟩ = v →
      s.enterTransmit g false = v.requestNext g ⟨false, v.bridge.own, 1, 0⟩ := by
    rintro _ rfl
    rfl
  rw [twice _ (State.startItem_requests (on := false) starts inHand marking first),
    State.requestNext_left (h := h) (c := d) (by simpa using inHand) second]
  simp [LineUnit.sendChar, State.bridge]

/-! ### The characters after it (R64, R115, R117) -/

/-- A character being sent ends one character time after it began (R53, R64). -/
theorem exec_characterSent (free : s.held = false) {c : Ch} {since : Nat}
    (shifting : (s.lines.get g).tx = .shifting c since) :
    exec (.characterSent g) s = .next ((s.advance (since + (s.active g).charTime)).characterSent g) := by
  have due : s.characterSentDue g = some (since + (s.active g).charTime) := by simp only [State.characterSentDue, shifting]
  change s.takeEvent (s.characterSentDue g) (fun s => s.characterSent g) = _
  rw [due, State.takeEvent_due free]

/-- s once the character being sent in attempt a on g has ended: the held request starts, and the deadline of its echo runs
(R64, R117). -/
def State.characterEnded (s : State) (g : Seg) (a : Attempt) : State :=
  { s with
    lines := s.lines.set g ((s.lines.get g).endSending s.time)
    egress := s.egress.set g { s.egress.get g with
      state := .transmit { a with sent := a.sent + 1 }, echoes := markSent a.sent s.time (s.egress.get g).echoes } }

/-- After the last character TAIL is entered; before it, with echo check off, the next character is requested. After a collision
neither happens (R115, R117). -/
theorem State.characterSent_eq (transmits : (s.egress.get g).state = .transmit a)
    (inHand : (s.egress.get g).hand = some h) : s.characterSent g
      = if (s.egress.get g).collision then s.characterEnded g a
        else if s.itemLength h.item ≤ a.sent + 1 then (s.characterEnded g a).enterTail g { a with sent := a.sent + 1 }
        else if a.echoOn then s.characterEnded g a
        else (s.characterEnded g a).requestNext g { a with sent := a.sent + 1 } := by
  simp only [State.characterSent, State.characterEnded, State.setLine_fields, transmits, inHand]
  rfl

/-- With echo check off the held character starts, and the one after it is requested (R64, R115). -/
theorem State.characterEnded_requests (inHand : (s.egress.get g).hand = some h) (off : a.echoOn = false) {e f : Ch}
    (held : (s.lines.get g).held = some (.char e)) (left : s.itemChar a.own a.next h.item = some f) :
    (s.characterEnded g a).requestNext g { a with sent := a.sent + 1 } = { s with
      lines := s.lines.set g { s.lines.get g with tx := .shifting e s.time, held := some (.char f) }
      egress := s.egress.set g { s.egress.get g with
        state := .transmit { a with sent := a.sent + 1, next := a.next + 1 }
        echoes := markSent a.sent s.time (s.egress.get g).echoes } } := by
  have there : ((s.characterEnded g a).egress.get g).hand = some h :=
    (congrArg Egress.hand ((PerSeg.get_set ..).trans (if_pos rfl))).trans inHand
  rw [State.requestNext_left there (by exact left)]
  simp [State.characterEnded, (LineUnit.endSending_held s.time).1 e held, LineUnit.sendChar, off]

/-! ### The echo heard (R115, R117) -/

section
variable {e : Echo} {l : List Echo} {c : RxChar} (expects : (s.egress.get g).echoes = e :: l)
  (hears : echoMatches (s.active g).noisePolicy e c = true) (clear : (s.egress.get g).collision = false)
  (on : a.echoOn = true)
include expects hears clear on

/-- In TRANSMIT a match removes the oldest expected echo, and the next character is requested (R115, R117). -/
theorem State.echoCompare_matched (transmits : (s.egress.get g).state = .transmit a) : s.echoCompare g (some c)
    = (s.setEgress g { s.egress.get g with echoes := l }).requestNext g a := by
  rw [State.echoCompare_transmit transmits on clear, if_pos (Egress.judges_matches expects hears), expects,
    List.tail_cons]

/-- After the last character only the echo is removed (R115, R117). -/
theorem State.echoCompare_done (transmits : (s.egress.get g).state = .transmit a) (inHand : (s.egress.get g).hand = some h)
    (done : s.itemChar a.own a.next h.item = none) :
    s.echoCompare g (some c) = s.setEgress g { s.egress.get g with echoes := l } := by
  have there : ((s.setEgress g { s.egress.get g with echoes := l }).egress.get g).hand = some h :=
    (congrArg Egress.hand ((PerSeg.get_set ..).trans (if_pos rfl))).trans inHand
  rw [State.echoCompare_matched expects hears clear on transmits, State.requestNext_done there done, ← transmits]
  simp [State.setEgress]

/-- Before it the next character is requested and its echo expected (R115, R117). -/
theorem State.echoCompare_requests (transmits : (s.egress.get g).state = .transmit a)
    (inHand : (s.egress.get g).hand = some h) {f : Ch} (left : s.itemChar a.own a.next h.item = some f) :
    s.echoCompare g (some c) = { s with
      lines := s.lines.set g ((s.lines.get g).sendChar f s.time)
      egress := s.egress.set g { s.egress.get g with
        state := .transmit { a with next := a.next + 1 }, echoes := l ++ [⟨a.next, f, none⟩] } } := by
  have there : ((s.setEgress g { s.egress.get g with echoes := l }).egress.get g).hand = some h :=
    (congrArg Egress.hand ((PerSeg.get_set ..).trans (if_pos rfl))).trans inHand
  rw [State.echoCompare_matched expects hears clear on transmits, State.requestNext_left there left, if_pos on]
  simp [State.setEgress]

/-- In TAIL a match removes the oldest expected echo (R117). -/
theorem State.echoCompare_removes {ends : Nat} (tail : (s.egress.get g).state = .tail ends a) : s.echoCompare g (some c)
    = s.setEgress g { s.egress.get g with echoes := l } := by
  rw [State.echoCompare_tail tail on clear (by simp [expects]), if_pos (Egress.judges_matches expects hears), expects,
    List.tail_cons]

end

end

/-- Settles O16: the four rows each come to a request for the next character, or to none. -/
theorem transmitSendsTheItem : Obligations.TransmitSendsTheItem := by
  refine ⟨?_, ?_, ?_, ?_⟩
  · intro s g ends h free lead inHand marking
    rw [exec_leadGuardEnd free lead]
    refine ⟨fun d c stored first => ?_, fun n item slot => ?_⟩
    · refine congrArg Host.Outcome.next ?_
      exact State.enterTransmit_checked (s := s.advance ends) (Egress.startItem_stored inHand stored) rfl marking
        ((State.itemChar_stored stored _ 0).trans first)
    · refine congrArg Host.Outcome.next ?_
      exact State.enterTransmit_checked (s := s.advance ends) (Egress.startItem_notice inHand item slot) rfl marking rfl
  · intro s g ends h d c e free lead inHand marking stored first second
    rw [exec_leadGuardEnd free lead]
    refine congrArg Host.Outcome.next ?_
    exact State.enterTransmit_unchecked (s := s.advance ends) (Egress.startItem_stored inHand stored) rfl marking
      ((State.itemChar_stored stored _ 0).trans first) ((State.itemChar_stored stored _ 1).trans second)
  · intro s g c since a h free shifting transmits inHand now hnow
    obtain ⟨p, hp⟩ : ∃ p : State, p = { s with time := now } := ⟨_, rfl⟩
    have ended : exec (.characterSent g) s = .next (p.characterSent g) := by
      rw [exec_characterSent free shifting, hp, hnow]
      rfl
    have length : p.itemLength h.item = s.itemLength h.item := by rw [hp]; rfl
    rw [ended, State.characterSent_eq (h := h) (a := a) (by rw [hp]; exact transmits) (by rw [hp]; exact inHand), length, hp]
    refine ⟨fun on clear => ⟨fun unheld => ?_, fun e held more => ?_⟩, fun e f off clear silent held more next => ?_,
      fun collided silent held => ?_⟩
    · by_cases last : s.itemLength h.item ≤ a.sent + 1 <;>
        simp [State.characterEnded, LineUnit.endSending_free unheld, State.enterTail, State.setEgress, markSent, State.active,
          on, clear, last]
    · simp [State.characterEnded, (LineUnit.endSending_held now).1 e held, markSent, on, clear, Nat.not_le.2 more]
    · rw [State.characterEnded_requests (s := { s with time := now }) inHand off held next]
      simp [markSent, off, clear, silent, Nat.not_le.2 more]
    · simp [State.characterEnded, (LineUnit.endSending_held now).2 held, markSent, collided, silent]
  · intro s g edge taken x c hears de v u hv hu
    have egress : v.egress = s.egress := by rw [hv]; rfl
    have active : v.active g = s.active g := by rw [hv]; rfl
    have chars : ∀ own k i, v.itemChar own k i = s.itemChar own k i := by rw [hv]; exact fun _ _ _ => rfl
    have heard : exec (.characterComplete g x) s = .next (v.echoCompare g (some c)) := by
      rw [hears.delivered, if_pos de, hv]
    rw [heard]
    refine ⟨fun e l expects clear value mark parity framing noise => ?_, fun row => ?_⟩
    · have hears := echoMatches_iff.2 ⟨value, mark, parity, framing, noise⟩
      rw [← egress] at expects clear ⊢
      rw [← active] at hears
      refine ⟨fun a h transmits on inHand => ⟨fun done => ?_, fun f left => ?_⟩, fun ends a tail on => ?_⟩
      · rw [State.echoCompare_done expects hears clear on transmits inHand ((chars ..).trans done)]
        rfl
      · rw [State.echoCompare_requests expects hears clear on transmits inHand ((chars ..).trans left), hu]
        refine ⟨fun f' t0 shifting => ?_, fun marking => ?_⟩
        · rw [(LineUnit.send_shifting shifting v.time).1]
        · rw [(LineUnit.send_marking marking v.time).1]
      · rw [State.echoCompare_removes expects hears clear on tail]
        rfl
    · rw [← egress] at row
      rw [State.echoCompare_unjudged row]

end Sys2Proof.Machine
end

