-- ==== Sys2Proof/Proofs/CommandAnswers.lean ====
section
/-!
A Local that passes steps 1 to 6 of R131 is carried out and answered: the rows that read the bridge (R137 to R139, R142,
R144), the event records (R146), the lease (R148, R149), Restart (R150), ClearLearned (R141) and ApplySegment (R143), each by
what its command carries out.
-/

namespace Sys2Proof

/-! ### Segment numbers and sets -/

/-- Segment g alone has its number. -/
theorem Seg.ofNum?_eq_some {n : Nat} {g : Seg} : Seg.ofNum? n = some g ↔ n = g.num := by
  unfold Seg.ofNum?
  split
  case h_5 zero one two three =>
    refine ⟨nofun, fun same => ?_⟩
    cases g
    · exact absurd same zero
    · exact absurd same one
    · exact absurd same two
    · exact absurd same three
  all_goals cases g <;> simp [Seg.num]

/-- A number above 3 is no segment's. -/
theorem Seg.ofNum?_eq_none {n : Nat} (above : 4 ≤ n) : Seg.ofNum? n = none := by
  cases found : Seg.ofNum? n with
  | none => rfl
  | some g =>
    have number := Seg.ofNum?_eq_some.1 found
    cases g <;> simp [Seg.num] at number <;> omega

/-- The character of a segment number reads back. -/
theorem Seg.toNat_byte (g : Seg) : g.byte.toNat = g.num := by cases g <;> rfl

/-- A segment in either of two sets. -/
theorem SegSet.has_or (m n : SegSet) (g : Seg) : SegSet.has (m ||| n) g = (m.has g || n.has g) := by
  revert m n
  cases g <;> decide

end Sys2Proof

namespace Sys2Proof.Machine

/-! ### What a row carries out comes to (R130, R131, R134) -/

/-- s with the engine BUSY in Local r (R130). -/
def State.working (s : State) (r : Fin Config.numTxns) (x : Work) : State :=
  { s with mgmt := { s.mgmt with engine := .busy r x } }

/-- A bridge whose engine is BUSY already. -/
theorem State.working_of_busy {s : State} {r : Fin Config.numTxns} {x : Work} (busy : s.mgmt.engine = .busy r x) :
    s.working r x = s := by
  unfold State.working
  rw [← busy]

section
variable {s w : State} {r : Fin Config.numTxns} {t : Txn} {c : MgmtCommand} {args : List Byte} {carry : Carry}

/-- A Local that is carried out stands in its record. -/
theorem State.Carries.used (carries : s.Carries r t c args) : s.txn r = some t := by
  obtain ⟨⟨⟨_, _, _, used⟩, _⟩, _⟩ := carries
  exact used

/-- A command carried out with a reply is answered with it (R134). -/
theorem State.Carries.answers (carries : s.Carries r t c args) {p : Reply}
    (carried : carry s.dequeue t.origin args = .replied w p) (used : w.txn r = some t) :
    ∃ u, s.command c carry = .next u ∧ w.Answered u r t p.status p.results p.deferred := by
  refine ⟨_, carries.command carry, ?_⟩
  rw [carries.takes carry, carried]
  exact State.finishCached_answered w r t p used

/-- A command refused changes nothing but what its reply takes (R131, R134). -/
theorem State.Carries.refused (carries : s.Carries r t c args) {st : Status}
    (carried : carry s.dequeue t.origin args = .answer s.dequeue st []) :
    ∃ u, s.command c carry = .next u ∧ s.dequeue.Answered u r t st [] none :=
  carries.answers (p := ⟨st, [], none⟩) carried carries.used

/-- A command whose work spans further claims leaves the engine BUSY with it (R130). -/
theorem State.Carries.takes_working (carries : s.Carries r t c args) {x : Work}
    (carried : carry s.dequeue t.origin args = .working s.dequeue x) :
    s.takeLocal c carry = s.dequeue.working r x := by
  rw [carries.takes carry, carried]
  rfl

end

/-! ### The rows that read (R137 to R139, R142, R144) -/

/-- The segment an argument names, where it is the character of one. -/
theorem segArg_byte (g : Seg) (l : List Byte) : segArg (g.byte :: l) 0 = some g :=
  Seg.ofNum?_eq_some.2 g.toNat_byte

/-- An argument above 3 names no segment. -/
theorem segArg_above {n : Byte} (above : 4 ≤ n.toNat) (l : List Byte) : segArg (n :: l) 0 = none :=
  Seg.ofNum?_eq_none above

/-- The figures of ReadStatus, the lease's two by whether one is held (R138). -/
theorem State.statusFigures_eq (s : State) : s.statusFigures
    = [BitVec.ofNat 8 s.store.freeCells.length, BitVec.ofNat 8 s.store.freeDescs.length, BitVec.ofNat 8 s.recordsInUse,
       BitVec.ofNat 8 s.events.queue.length, (s.lease.map fun l => l.holder.byte).getD 0xFF,
       (s.lease.map fun l => BitVec.ofNat 8 (s.leaseSeconds l)).getD 0, if s.table.sweep.isSome then 1 else 0,
       s.settings.applyPending.setWidth 8] := by
  unfold State.statusFigures
  cases s.lease <;> rfl

/-- ReadSegment of the active or of the staged record (R142). -/
theorem carryReadSegment_record (s : State) (o g : Seg) :
    carryReadSegment s o [g.byte, 0] = .answer s .done (s.active g).encode
      ∧ carryReadSegment s o [g.byte, 1] = .answer s .done (s.settings.staged.get g).encode := by
  constructor <;> · unfold carryReadSegment; rw [segArg_byte]; rfl

/-- ReadSegment of no segment, or of a record that is neither active nor staged (R142). -/
theorem carryReadSegment_refused (s : State) (o : Seg) {a b : Byte} (out : 3 < a.toNat ∨ 1 < b.toNat) :
    carryReadSegment s o [a, b] = .answer s .badArgument [] := by
  unfold carryReadSegment
  cases named : segArg [a, b] 0 with
  | none => rfl
  | some g =>
    have selector : 1 < b.toNat := out.resolve_left fun above => by simp [segArg_above above] at named
    have active : b ≠ 0 := by rintro rfl; exact absurd selector (by decide)
    have staged : b ≠ 1 := by rintro rfl; exact absurd selector (by decide)
    exact (if_neg active).trans (if_neg staged)

/-- Settles O35: each row by what its command reads. -/
theorem readCommandsAnswer : Obligations.ReadCommandsAnswer := by
  intro s r t args
  refine ⟨State.Carries.identified, fun carries => ?_, fun a carries => ?_, fun g carries => ?_, fun g carries => ?_,
    fun a b carries out => ?_, fun carries => ?_⟩
  · exact carries.answers (carry := carryReadStatus) (p := ⟨.done, _, none⟩)
      (congrArg (Carried.answer s.dequeue .done) s.dequeue.statusFigures_eq) carries.used
  · exact carries.answers (carry := carryReadStation) (p := ⟨.done, _, none⟩) rfl carries.used
  · exact carries.answers (p := ⟨.done, _, none⟩) (carryReadSegment_record s.dequeue t.origin g).1 carries.used
  · exact carries.answers (p := ⟨.done, _, none⟩) (carryReadSegment_record s.dequeue t.origin g).2 carries.used
  · exact carries.refused (carryReadSegment_refused s.dequeue t.origin out)
  · exact carries.answers (carry := carryReadBridge) (p := ⟨.done, _, none⟩) rfl carries.used

/-! ### The event records (R146) -/

/-- Settles O44: the count is in its range, or it is refused. -/
theorem eventsAreRead : Obligations.EventsAreRead := by
  intro s r t n carries
  by_cases range : 1 ≤ n.toNat ∧ n.toNat ≤ 8
  · simp only [if_pos range]
    rw [← List.length_take]
    exact carries.answers (carry := carryReadEvents) (p := ⟨.done, _, none⟩) (if_pos range) carries.used
  · simp only [if_neg range]
    exact carries.refused (carry := carryReadEvents) (if_neg range)

/-! ### The lease (R148, R149) -/

/-- The lease of n seconds expires that many thousand milliseconds from now (R161). -/
theorem State.holdLease_eq (s : State) (g : Seg) (n : Byte) :
    s.holdLease g n = { s with lease := some ⟨g, s.nowMs + BitVec.ofNat 32 (1000 * n.toNat)⟩ } := by
  have span : n.setWidth 32 * 1000 = BitVec.ofNat 32 (1000 * n.toNat) := by
    apply BitVec.eq_of_toNat_eq
    rw [BitVec.toNat_mul, BitVec.toNat_setWidth, BitVec.toNat_ofNat, Nat.mod_mul_mod, Nat.mul_comm]
    rfl
  unfold State.holdLease
  rw [span]

/-- The seconds left are the milliseconds left, rounded up, and 1 at an expiry reached (R161; log 20). -/
theorem State.leaseSeconds_rounds_up (s : State) (l : Lease) (near : (l.expiry - s.nowMs).toNat ≤ 255000) :
    1 ≤ s.leaseSeconds l ∧ s.leaseSeconds l ≤ 255 ∧ (l.expiry - s.nowMs).toNat ≤ 1000 * s.leaseSeconds l
      ∧ 1000 * s.leaseSeconds l < (l.expiry - s.nowMs).toNat + (if l.expiry = s.nowMs then 1001 else 1000) := by
  have reached : (l.expiry - s.nowMs).toNat = 0 ↔ l.expiry = s.nowMs := by
    rw [← BitVec.toNat_inj]
    have := l.expiry.isLt
    have := s.nowMs.isLt
    simp only [BitVec.toNat_sub]
    omega
  unfold State.leaseSeconds
  simp only [← reached]
  generalize (l.expiry - s.nowMs).toNat = ahead at near
  by_cases now : ahead = 0
  · simp [now]
  · rw [if_neg (by omega), if_neg now]
    omega

/-- TakeLease from a segment with management access, for some seconds, by who holds the lease (R148). -/
theorem carryTakeLease_access {s : State} {g : Seg} {n : Byte} (some_ : n ≠ 0)
    (access : (s.active g).mgmtAccess = true) :
    let taken : State := { s with lease := some ⟨g, s.nowMs + BitVec.ofNat 32 (1000 * n.toNat)⟩ }
    (s.lease = none →
        carryTakeLease s g [n] = .answer (taken.raise .leaseTaken (some g) none n) .done [g.byte, n])
      ∧ ∀ l, s.lease = some l → carryTakeLease s g [n] = if l.holder = g then .answer taken .done [g.byte, n]
        else .answer s .leaseBusy [l.holder.byte, BitVec.ofNat 8 (s.leaseSeconds l)] := by
  have granted : ¬ (s.active g).mgmtAccess = false := by simp [access]
  rw [← State.holdLease_eq]
  unfold carryTakeLease
  rw [show arg [n] 0 = n from rfl, if_neg some_, if_neg granted]
  exact ⟨fun nobody => by rw [nobody], fun l held => by rw [held]⟩

/-- Settles O45: the checks of R148 in their order, and who holds the lease. -/
theorem leaseIsTaken : Obligations.LeaseIsTaken := by
  refine ⟨fun s r t n carries => ?_, fun s l => s.leaseSeconds_rounds_up l⟩
  by_cases zero : n = 0
  · obtain ⟨u, row, answered⟩ := carries.refused (carry := carryTakeLease) (if_pos zero)
    exact ⟨u, row, fun _ => answered, fun some_ => absurd zero some_, fun some_ => absurd zero some_⟩
  cases access : (s.active t.origin).mgmtAccess with
  | false =>
    obtain ⟨u, row, answered⟩ := carries.refused (carry := carryTakeLease) ((if_neg zero).trans (if_pos access))
    exact ⟨u, row, fun none_ => absurd none_ zero, fun _ _ => answered, fun _ => nofun⟩
  | true =>
    obtain ⟨nobody, held⟩ := carryTakeLease_access (s := s.dequeue) zero access
    cases lease : s.lease with
    | none =>
      obtain ⟨u, row, answered⟩ := carries.answers (p := ⟨.done, _, none⟩) (nobody lease) carries.used
      exact ⟨u, row, fun none_ => absurd none_ zero, fun _ => nofun, fun _ _ => ⟨fun _ => answered, nofun, nofun⟩⟩
    | some l =>
      by_cases own : l.holder = t.origin
      · obtain ⟨u, row, answered⟩ :=
          carries.answers (p := ⟨.done, _, none⟩) ((held l lease).trans (if_pos own)) carries.used
        refine ⟨u, row, fun none_ => absurd none_ zero, fun _ => nofun, fun _ _ => ⟨nofun, fun _ _ _ => answered, ?_⟩⟩
        rintro _ ⟨⟩ other
        exact absurd own other
      · obtain ⟨u, row, answered⟩ :=
          carries.answers (p := ⟨.leaseBusy, _, none⟩) ((held l lease).trans (if_neg own)) carries.used
        refine ⟨u, row, fun none_ => absurd none_ zero, fun _ => nofun, fun _ _ => ⟨nofun, ?_, ?_⟩⟩
        · rintro _ ⟨⟩ same
          exact absurd same own
        · rintro _ ⟨⟩ _
          exact answered

/-- DropLease where a lease is held (R149). -/
theorem carryDropLease_held {s : State} {l : Lease} (held : s.lease = some l) (g : Seg) (args : List Byte) :
    carryDropLease s g args = if l.holder = g
      then .answer (State.raise { s with lease := none } .leaseDropped (some g) none 0) .done []
      else .answer s .notHolder [] := by
  unfold carryDropLease State.dropLeaseOf
  rw [held]
  dsimp only
  split <;> rfl

/-- Settles O46: who holds the lease decides. -/
theorem leaseIsDropped : Obligations.LeaseIsDropped := by
  intro s r t carries
  cases held : s.lease with
  | none =>
    have nobody : carryDropLease s.dequeue t.origin [] = .answer s.dequeue .notHolder [] := by
      unfold carryDropLease
      rw [show s.dequeue.lease = none from held]
    obtain ⟨u, row, answered⟩ := carries.refused nobody
    exact ⟨u, row, nofun, nofun, fun _ => answered⟩
  | some l =>
    have drops := carryDropLease_held (s := s.dequeue) held t.origin []
    by_cases own : l.holder = t.origin
    · obtain ⟨u, row, answered⟩ := carries.answers (p := ⟨.done, [], none⟩) (drops.trans (if_pos own)) carries.used
      refine ⟨u, row, fun _ _ _ => answered, ?_, nofun⟩
      rintro _ ⟨⟩ other
      exact absurd own other
    · obtain ⟨u, row, answered⟩ := carries.refused (drops.trans (if_neg own))
      refine ⟨u, row, ?_, fun _ _ _ => answered, nofun⟩
      rintro _ ⟨⟩ same
      exact absurd same own

/-! ### Restart (R150) -/

/-- Settles O47: the two levels, and any other. -/
theorem restartIsDeferred : Obligations.RestartIsDeferred := by
  intro s r t n carries
  by_cases full : n = 1
  · simp only [if_pos full]
    exact carries.answers (carry := carryRestart) (p := ⟨.accepted, [], some (.restart .full)⟩) (if_pos full)
      carries.used
  · simp only [if_neg full]
    by_cases traffic : n = 2
    · simp only [if_pos traffic]
      exact carries.answers (carry := carryRestart) (p := ⟨.accepted, [], some (.restart .traffic)⟩)
        ((if_neg full).trans (if_pos traffic)) carries.used
    · simp only [if_neg traffic]
      exact carries.refused (carry := carryRestart) ((if_neg full).trans (if_neg traffic))

/-! ### Masks (R141, R143) -/

/-- A mask that names some of S0 to S3 and nothing else is their set. -/
theorem maskOf_valid {m : Byte} (some_ : 1 ≤ m.toNat) (named : m.toNat < 16) :
    maskOf m = some (m.setWidth 4) ∧ m.setWidth 4 ≠ (0 : SegSet) := by
  refine ⟨if_pos named, fun empty => ?_⟩
  have number := congrArg BitVec.toNat empty
  rw [BitVec.toNat_setWidth, Nat.mod_eq_of_lt named] at number
  exact absurd number (Nat.ne_of_gt some_)

/-- A mask of 0x00, or with a bit of 0x10 or above, is no set or the empty one. -/
theorem maskOf_invalid {m : Byte} (bad : m.toNat = 0 ∨ 16 ≤ m.toNat) : maskOf m = none ∨ maskOf m = some 0 := by
  rcases bad with zero | above
  · exact .inr (by rw [show m = 0 from BitVec.eq_of_toNat_eq zero]; rfl)
  · exact .inl (if_neg (Nat.not_lt.2 above))

/-- Settles O39: a valid mask starts the walk, any other is refused. -/
theorem clearLearnedStartsTheWalk : Obligations.ClearLearnedStartsTheWalk := by
  intro s r t mask carries
  refine ⟨fun some_ named => ?_, fun bad => ?_⟩
  · obtain ⟨set, full⟩ := maskOf_valid some_ named
    have walks : carryClearLearned s.dequeue t.origin [mask]
        = .working s.dequeue (.walk s.nowMs 0 (mask.setWidth 4) 0) := by
      unfold carryClearLearned
      rw [show arg [mask] 0 = mask from rfl, set]
      exact if_neg full
    exact (carries.command carryClearLearned).trans (congrArg _ (carries.takes_working walks))
  · refine carries.refused (carry := carryClearLearned) ?_
    unfold carryClearLearned
    rw [show arg [mask] 0 = mask from rfl]
    rcases maskOf_invalid bad with none_ | empty
    · rw [none_]
    · rw [empty]
      rfl

/-- Whether some segment has a role, as the model asks it. -/
theorem any_role_iff (role : Seg → Role) (x : Role) :
    (Seg.all.any fun h => role h == x) = true ↔ ∃ h, role h = x := by
  simp [Seg.mem_all]

/-- The role a segment would have once the set m is marked beside those apply-pending (R143). -/
theorem State.prospectiveRole_eq (s : State) (m : SegSet) (h : Seg) : s.prospectiveRole m h
    = if SegSet.has (m ||| s.settings.applyPending) h then (s.settings.staged.get h).role else (s.active h).role := by
  unfold State.prospectiveRole
  rw [SegSet.has_or]

/-- ApplySegment of a set of segments: marked where some segment would stay Upstream (R143). -/
theorem carryApplySegment_set {s : State} {mask : Byte} (some_ : 1 ≤ mask.toNat) (named : mask.toNat < 16) (g : Seg) :
    carryApplySegment s g [mask] = if (Seg.all.any fun u => s.prospectiveRole (mask.setWidth 4) u == .upstream)
      then .answer
        { s with settings := { s.settings with applyPending := s.settings.applyPending ||| mask.setWidth 4 } } .accepted
        [(s.settings.applyPending ||| mask.setWidth 4).setWidth 8]
      else .answer s .badArgument [] := by
  obtain ⟨set, full⟩ := maskOf_valid some_ named
  unfold carryApplySegment
  rw [show arg [mask] 0 = mask from rfl, set]
  exact if_neg full

/-- Settles O41: a valid mask that leaves a segment Upstream is marked, any other refused. -/
theorem applyIsMarked : Obligations.ApplyIsMarked := by
  intro s r t mask carries
  by_cases valid : 1 ≤ mask.toNat ∧ mask.toNat < 16
  · obtain ⟨some_, named⟩ := valid
    have marks := carryApplySegment_set (s := s.dequeue) some_ named t.origin
    have stays := any_role_iff (s.dequeue.prospectiveRole (mask.setWidth 4)) .upstream
    simp only [State.prospectiveRole_eq] at stays marks
    by_cases upstream : ∃ h, (if SegSet.has (mask.setWidth 4 ||| s.settings.applyPending) h
        then (s.settings.staged.get h).role else (s.active h).role) = .upstream
    · obtain ⟨u, row, answered⟩ :=
        carries.answers (p := ⟨.accepted, _, none⟩) (marks.trans (if_pos (stays.2 upstream))) carries.used
      refine ⟨u, row, fun _ _ _ => answered, fun bad => ?_⟩
      obtain ⟨h, up⟩ := upstream
      rcases bad with zero | above | down
      · omega
      · omega
      · exact absurd up (down h)
    · obtain ⟨u, row, answered⟩ := carries.refused (marks.trans (if_neg fun up => upstream (stays.1 up)))
      exact ⟨u, row, fun _ _ up => absurd up upstream, fun _ => answered⟩
  · have bad : carryApplySegment s.dequeue t.origin [mask] = .answer s.dequeue .badArgument [] := by
      unfold carryApplySegment
      rw [show arg [mask] 0 = mask from rfl]
      rcases maskOf_invalid (m := mask) (by omega) with none_ | empty
      · rw [none_]
      · rw [empty]
        rfl
    obtain ⟨u, row, answered⟩ := carries.refused bad
    exact ⟨u, row, fun some_ named => absurd ⟨some_, named⟩ valid, fun _ => answered⟩

end Sys2Proof.Machine
end

