-- ==== Sys2Proof/Proofs/SegmentRestartAnswer.lean ====
section
/-!
RestartSegment (R151): the Segment restart of another segment leaves the Local that asked for it in its record, so that
the Local is answered after it.
-/

namespace Sys2Proof.Machine

/-! ### What a Segment restart leaves of another segment's transaction (R50, R51, R90) -/

/-- What follows copies that are all out touches one record only (R36, R37). -/
theorem State.copiesDone_others (s : State) (r : Fin Config.numTxns) : s.OtherRecords (s.copiesDone r) r := by
  unfold State.copiesDone
  split
  · exact .of_txns rfl
  next t _ =>
    dsimp only
    have given := s.putTxn_others r (some { t with reqDesc := none })
    have closes := fun o => given.trans (State.closeTxn_others (s.putTxn r (some { t with reqDesc := none })) r o)
    split
    · exact .of_txns rfl
    · split
      · exact given.trans (State.freeRecord_others _ r)
      · split
        · split
          · exact closes _
          · exact given.trans (State.putTxn_others _ r _)
        · exact given
        · exact closes _
        · exact given

section
variable {s : State} {g : Seg} {r : Fin Config.numTxns}

/-- Discarding the frame in assembly leaves a record that is not the frame's, and every holder (R90). -/
theorem State.discardFrame_others (away : ∀ f, (s.receivers.get g).frame = some f → f.txn ≠ some r) :
    (s.discardFrame g).txn r = s.txn r ∧ (s.discardFrame g).holder g = s.holder g := by
  cases framed : (s.receivers.get g).frame with
  | none =>
    have same : s.discardFrame g = s := by simp only [State.discardFrame, framed]
    rw [same]
    exact ⟨rfl, rfl⟩
  | some f =>
    have leaves := s.releaseFrame_leavesEngine f
    have holders : (s.releaseFrame f).holder g = s.holder g := congrArg (PerSeg.get · g) leaves.holders
    obtain ⟨_, released⟩ | ⟨q, forming, freed⟩ := State.discardFrame_cases framed
    · rw [released]
      exact ⟨leaves.txn r, holders⟩
    · have own : f.txn = some q := by
        unfold Frame.formingRecord at forming
        split at forming
        · split at forming
          · exact forming
          · cases forming
        · cases forming
      have other : r ≠ q := fun same => away f framed (same ▸ own)
      rw [freed]
      exact ⟨((s.releaseFrame f).freeRecord_others q).2.2 r other |>.trans (leaves.txn r), holders⟩

/-- What a Segment restart does to the transactions of its own origin leaves another origin's, and every holder (R50). -/
theorem State.restartOrigins_others {t : Txn} (other : t.origin ≠ g) (l : List (Fin Config.numTxns)) {s : State}
    (used : s.txn r = some t) : (l.foldl (State.restartOrigin g) s).txn r = some t
      ∧ (l.foldl (State.restartOrigin g) s).holder g = s.holder g := by
  induction l generalizing s with
  | nil => exact ⟨used, rfl⟩
  | cons q l ih =>
    have one : (State.restartOrigin g s q).txn r = some t ∧ (State.restartOrigin g s q).holder g = s.holder g := by
      unfold State.restartOrigin
      split
      · exact ⟨used, rfl⟩
      next w usedq =>
        split
        next own =>
          have away : r ≠ q := by
            rintro rfl
            rw [used, Option.some.injEq] at usedq
            exact other (usedq ▸ own)
          split
          · obtain ⟨holders, _, records⟩ := s.cancelWaiting_others q .cancelled
            exact ⟨(records r away).trans used, congrArg (PerSeg.get · g) holders⟩
          · exact ⟨used, rfl⟩
          all_goals exact ⟨((s.putTxn_others q _).2.2 r away).trans used, rfl⟩
        · exact ⟨used, rfl⟩
    obtain ⟨kept, holder⟩ := ih one.1
    exact ⟨kept, holder.trans one.2⟩

/-- What a Segment restart does to the holder of the segment leaves the record of another (R51). -/
theorem State.restartHolder_others (away : s.holder g ≠ some r) : (s.restartHolder g).txn r = s.txn r := by
  unfold State.restartHolder
  split
  · rfl
  next q held =>
    have other : r ≠ q := fun same => away (same ▸ held)
    split
    · rfl
    · dsimp only
      split
      · refine ((State.closeTxn_others _ q .restart).2.2 r other).trans ?_
        refine ((State.putTxn_others _ q _).2.2 r other).trans ?_
        obtain ⟨h, released, _⟩ := State.releaseGrants_holders (State.releaseGrant (s.putTxn q _) g) _
        rw [released]
        exact (s.putTxn_others q _).2.2 r other
      · exact ((State.copiesDone_others _ q).2.2 r other).trans ((s.putTxn_others q _).2.2 r other)

/-- A Segment restart leaves a transaction of another origin that neither holds the segment nor receives there (R166). -/
theorem State.segmentRestart_txn {t : Txn} (used : s.txn r = some t) (origin : t.origin ≠ g)
    (holder : s.holder g ≠ some r) (frame : ∀ f, (s.receivers.get g).frame = some f → f.txn ≠ some r) : (s.segmentRestart g).txn r = some t := by
  obtain ⟨discarded, holders⟩ := State.discardFrame_others frame
  have cut : ∀ (u : LineUnit) (z : FrState), s.txn r = some t → (((((s.discardFrame g).flushCopies g).setEgress g
      Egress.empty).setLine g u).setReceiver g z).txn r = some t ∧ (((((s.discardFrame g).flushCopies g).setEgress g
      Egress.empty).setLine g u).setReceiver g z).holder g = s.holder g := by
    intro u z used
    obtain ⟨st, flushed⟩ := State.leaveAll_only g ((s.discardFrame g).egress.get g).flushOrder (s.discardFrame g)
    rw [State.flushCopies, flushed]
    exact ⟨discarded.trans used, holders⟩
  have rest : ∀ w : State, w.txn r = some t → (((State.settlePendingOwn { w.setLastTimedOut g none with
      mgmt := { w.mgmt with caches := w.mgmt.caches.set g none } }).raise .restarted (some g) none 3).dropLeaseOf g
        2).txn r = some t := by
    intro w kept
    refine ((State.dropLeaseOf_leavesEngine _ g 2).txn r).trans ?_
    refine ((State.raise_leavesEngine _ .restarted (some g) none 3).txn r).trans ?_
    exact ((State.settlePendingOwn_leavesEngine _).txn r).trans kept
  have served : ∀ w : State, w.txn r = some t → w.holder g = s.holder g →
      ((ascendingTxns.foldl (State.restartOrigin g) w).restartHolder g).txn r = some t := by
    intro w kept same
    obtain ⟨left, held⟩ := State.restartOrigins_others origin ascendingTxns kept
    exact (State.restartHolder_others (by rw [held, same]; exact holder)).trans left
  unfold State.segmentRestart
  obtain ⟨kept, same⟩ := cut _ _ used
  exact rest _ (served _ kept same)

end

/-! ### The row (R151) -/

/-- RestartSegment of a segment: refused for the origin's own, else taken (R151). -/
theorem carryRestartSegment_byte (s : State) (o g : Seg) : carryRestartSegment s o [g.byte]
    = if g = o then .answer s .conflict [] else .answer (s.segmentRestart g) .done [] := by
  unfold carryRestartSegment
  rw [segArg_byte]

/-- Settles O48: a number above 3, the origin's own, and another segment's, which leaves the Local in its record. -/
theorem segmentIsRestarted : Obligations.SegmentIsRestarted := by
  intro s r t n carries
  cases named : Seg.ofNum? n.toNat with
  | none =>
    have refuses : carryRestartSegment s.dequeue t.origin [n] = .answer s.dequeue .badArgument [] := by
      unfold carryRestartSegment
      rw [show segArg [n] 0 = none from named]
    have noSegment : ∀ g : Seg, n ≠ g.byte := by
      rintro g rfl
      rw [Seg.toNat_byte, Seg.ofNum?_eq_some.2 rfl] at named
      cases named
    obtain ⟨u, row, answered⟩ := carries.refused refuses
    exact ⟨u, row, fun _ => answered, fun own => absurd own (noSegment _), fun g same => absurd same (noSegment g)⟩
  | some g =>
    obtain rfl : n = g.byte := BitVec.eq_of_toNat_eq ((Seg.ofNum?_eq_some.1 named).trans g.toNat_byte.symm)
    have inRange : ¬ 4 ≤ g.byte.toNat := by cases g <;> decide
    have only : ∀ {h : Seg}, g.byte = h.byte → g = h := fun {h} same => by
      have numbers := congrArg BitVec.toNat same
      rw [Seg.toNat_byte, Seg.toNat_byte] at numbers
      exact Option.some.inj ((Seg.ofNum?_eq_some.2 rfl).symm.trans (Seg.ofNum?_eq_some.2 numbers))
    have carried := carryRestartSegment_byte s.dequeue t.origin g
    by_cases own : g = t.origin
    · obtain ⟨u, row, answered⟩ := carries.refused (carried.trans (if_pos own))
      refine ⟨u, row, fun above => absurd above inRange, fun _ => answered, fun h same other => ?_⟩
      exact absurd ((only same).symm.trans own) other
    · by_cases clear : s.holder g ≠ some r ∧ ∀ f, (s.receivers.get g).frame = some f → f.txn ≠ some r
      · have kept : (s.dequeue.segmentRestart g).txn r = some t :=
          State.segmentRestart_txn (s := s.dequeue) carries.used (Ne.symm own) clear.1 clear.2
        obtain ⟨u, row, answered⟩ := carries.answers (p := ⟨.done, [], none⟩) (carried.trans (if_neg own)) kept
        refine ⟨u, row, fun above => absurd above inRange, fun same => absurd (only same) own, fun h same _ _ _ => ?_⟩
        cases only same
        exact answered
      · refine ⟨_, carries.command carryRestartSegment, fun above => absurd above inRange,
          fun same => absurd (only same) own, fun h same _ holder frame => ?_⟩
        cases only same
        exact absurd ⟨holder, frame⟩ clear

end Sys2Proof.Machine
end

