-- ==== Sys2Proof/Proofs/ReadsByClaims.lean ====
section
/-!
The rows that read several entries (R139) or counters (R145), claim by claim (R130): what a row reads of what is left, and
what it leaves for the next row.
-/

namespace Sys2Proof.Machine

section
variable {s : State} {r : Fin Config.numTxns} {t : Txn} {claims : Nat}

/-! ### Entries (R139) -/

section
variable {next left : Nat} {acc : List Byte}

/-- With fewer claims than entries left, as many are read and the engine stays BUSY with the rest (R130). -/
theorem State.readStations_fewer (fewer : claims < left) : (s.working r (.stations next left acc)).readStations claims
    = s.working r (.stations (next + claims) (left - claims) (acc ++ s.entriesFrom next claims)) := by
  have count : min claims left = claims := Nat.min_eq_left (Nat.le_of_lt fewer)
  refine (if_neg (Nat.not_le.2 fewer)).trans ?_
  rw [count]
  rfl

/-- After the last entry the Local is answered (R130, R139). -/
theorem State.readStations_last (enough : left ≤ claims) (used : s.txn r = some t) : s.Answered
    ((s.working r (.stations next left acc)).readStations claims) r t .done (acc ++ s.entriesFrom next left) none := by
  have read : (s.working r (.stations next left acc)).readStations claims
      = (s.working r (.stations next left acc)).finishCached r t ⟨.done, acc ++ s.entriesFrom next left, none⟩ := by
    refine (if_pos enough).trans ?_
    rw [show (s.working r (.stations next left acc)).txn r = some t from used, Nat.min_eq_right enough]
    rfl
  rw [read]
  exact State.finishCached_answered (s.working r (.stations next left acc)) r t ⟨.done, _, none⟩ used

end

/-- READ_STATION_RANGE of a Local with entries left reads on (R130). -/
theorem exec_readStationRange_busy {next left : Nat} {acc : List Byte} (free : s.held = false)
    (busy : s.mgmt.engine = .busy r (.stations next left acc)) :
    exec (.readStationRange claims) s = .next (s.readStations claims) := by
  have due : s.readStationRangeDue = some s.time := by simp only [State.readStationRangeDue, busy]
  have nobody : s.headLocal = none := by simp only [State.headLocal, busy]
  have untaken : s.takeLocal .readStationRange carryReadStationRange = s := by simp only [State.takeLocal, nobody]
  show execReadStationRange claims s = _
  unfold execReadStationRange
  rw [due, State.takeEvent_due free, State.advance_time, untaken]

/-- READ_STATION_RANGE of a Local at the head of the queue takes it and reads (R130). -/
theorem State.Carries.readsStations {args : List Byte} (carries : s.Carries r t .readStationRange args) :
    exec (.readStationRange claims) s
      = .next ((s.takeLocal .readStationRange carryReadStationRange).readStations claims) := by
  obtain ⟨⟨head, _⟩, code, _⟩ := carries
  obtain ⟨free, idle, _⟩ := id head
  have due : s.readStationRangeDue = some s.time := by simp only [State.readStationRangeDue, idle, head.due code]
  show execReadStationRange claims s = _
  unfold execReadStationRange
  rw [due, State.takeEvent_due free, State.advance_time]

/-- A row that reads claim by claim, its Local refused: nothing is read (R130). -/
theorem State.Carries.refusedIdle {c : MgmtCommand} {args : List Byte} (carries : s.Carries r t c args) {carry : Carry}
    (carried : carry s.dequeue t.origin args = .answer s.dequeue .badArgument []) :
    (s.takeLocal c carry).mgmt.engine = .idle ∧ s.dequeue.Answered (s.takeLocal c carry) r t .badArgument [] none := by
  have answered : s.dequeue.Answered (s.takeLocal c carry) r t .badArgument [] none := by
    rw [carries.takes carry, carried]
    exact State.finishCached_answered s.dequeue r t ⟨.badArgument, [], none⟩ carries.used
  obtain ⟨_, idle, _⟩ := id answered
  exact ⟨idle, answered⟩

/-- Settles O37: the Local taken and read, or refused, and the Local read on. -/
theorem stationRangeIsRead : Obligations.StationRangeIsRead := by
  refine ⟨fun s r t first count claims n carries => ⟨fun some_ most number => ?_, fun bad => ?_⟩,
    fun s r t next left claims acc free busy used => ?_⟩
  · have carried : carryReadStationRange s.dequeue t.origin [first, count]
        = .working s.dequeue (.stations first.toNat n [BitVec.ofNat 8 n]) := by
      rw [number]
      exact if_pos ⟨some_, most⟩
    have row := carries.readsStations (claims := claims)
    rw [carries.takes_working carried] at row
    exact ⟨fun enough => ⟨_, row, State.readStations_last enough carries.used⟩,
      fun fewer => row.trans (congrArg _ (State.readStations_fewer fewer))⟩
  · have carried : carryReadStationRange s.dequeue t.origin [first, count] = .answer s.dequeue .badArgument [] :=
      if_neg fun ⟨some_, most⟩ => by
        change 1 ≤ count.toNat at some_
        change count.toNat ≤ 16 at most
        omega
    obtain ⟨idle, answered⟩ := carries.refusedIdle carried
    exact ⟨_, carries.readsStations.trans (congrArg _ (State.readStations_idle idle claims)), answered⟩
  · have row := exec_readStationRange_busy (claims := claims) free busy
    have working := State.working_of_busy busy
    refine ⟨fun fewer => ?_, fun enough => ⟨_, row, ?_⟩⟩
    · have reads := State.readStations_fewer (s := s) (r := r) (next := next) (acc := acc) fewer
      rw [working] at reads
      exact row.trans (congrArg _ reads)
    · have reads := State.readStations_last (next := next) (acc := acc) enough used
      rw [working] at reads
      exact reads

/-! ### What is read and zeroed (R145, R176) -/

/-- The counters of a code are as many as it holds, each with its value. -/
theorem Counters.Holds.reads {c : Counters} {code last : Nat} {val : Nat → Word32} (holds : c.Holds code last val) :
    code ≤ 4 ∧ last = countersOf code ∧ ∀ first n, c.block code first n
      = (List.range n).flatMap fun i => bytes4 (val (first + i)) := by
  have block : (∀ i, c.at code i = val i) → ∀ first n, c.block code first n
      = (List.range n).flatMap fun i => bytes4 (val (first + i)) := by
    intro same first n
    unfold Counters.block
    simp only [same]
  rcases holds with ⟨g, rfl, rfl, value⟩ | ⟨rfl, rfl, value⟩
  · refine ⟨by cases g <;> decide, by cases g <;> rfl, block fun i => ?_⟩
    unfold Counters.at
    rw [Seg.ofNum?_eq_some.2 rfl]
    exact (value i).symm
  · exact ⟨Nat.le_refl 4, rfl, block fun i => (value i).symm⟩

/-- One counter set to 0 beside those before it. -/
theorem Counters.Zeroed.one_more {c v : Counters} {code first n : Nat} (zeroed : c.Zeroed v code first n)
    (inside : first + n < countersOf code) : c.Zeroed (v.zeroAt code (first + n)) code first (n + 1) := by
  obtain ⟨segments, notices, sweeps⟩ := zeroed
  unfold Counters.zeroAt
  cases named : Seg.ofNum? code with
  | some g =>
    have number := Seg.ofNum?_eq_some.1 named
    have below : code < 4 := by rw [number]; cases g <;> decide
    have index : first + n < 14 := by rwa [countersOf, if_pos below] at inside
    refine ⟨fun h i => ?_, by simp [notices, Nat.ne_of_lt below], by simp [sweeps, Nat.ne_of_lt below]⟩
    have same : h = g ↔ h.num = code := by rw [number]; cases h <;> cases g <;> decide
    have here : i = Fin.ofNat 14 (first + n) ↔ i.val = first + n := by
      rw [← Fin.val_inj, Fin.val_ofNat, Nat.mod_eq_of_lt index]
    rw [Counters.read_write, segments]
    simp only [same, here]
    split
    next hit => rw [if_pos (by omega)]
    next miss => exact if_congr (by omega) rfl rfl
  | none =>
    have four : code = 4 := by
      by_contra other
      have away : ¬ code < 4 := fun below => by
        obtain ⟨g, number⟩ : ∃ g : Seg, code = g.num := by
          interval_cases code
          exacts [⟨.s0, rfl⟩, ⟨.s1, rfl⟩, ⟨.s2, rfl⟩, ⟨.s3, rfl⟩]
        rw [number, Seg.ofNum?_eq_some.2 rfl] at named
        cases named
      rw [countersOf, if_neg away, if_neg other] at inside
      omega
    subst four
    have two : first + n < 2 := inside
    have apart : ∀ h : Seg, h.num ≠ 4 := fun h => by cases h <;> decide
    dsimp only
    split
    next zero =>
      refine ⟨fun h i => (segments h i).trans ?_, ?_, sweeps.trans ?_⟩
      · simp [apart]
      · exact (if_pos (by omega)).symm
      · exact if_congr (by omega) rfl rfl
    next later =>
      refine ⟨fun h i => (segments h i).trans ?_, notices.trans ?_, ?_⟩
      · simp [apart]
      · exact if_congr (by omega) rfl rfl
      · exact (if_pos (by omega)).symm

/-- The counters of a range, all of its code, set to 0 one after the other (R145). -/
theorem Counters.zeroBlock_zeroed (c : Counters) {code first n : Nat} (inside : first + n ≤ countersOf code) :
    c.Zeroed (c.zeroBlock code first n) code first n := by
  unfold Counters.zeroBlock
  induction n with
  | zero =>
    exact ⟨fun g i => (if_neg (by omega)).symm, (if_neg (by omega)).symm, (if_neg (by omega)).symm⟩
  | succ n ih =>
    rw [List.range_succ, List.foldl_append, List.foldl_cons, List.foldl_nil]
    exact (ih (Nat.le_of_succ_le inside)).one_more inside

/-! ### Counters (R145) -/

/-- The command that reads counters, and zeroes them where it clears. -/
def counterCommand (clear : Bool) : MgmtCommand := if clear then .readClearCounters else .readCounters

/-- The row of that command. -/
def counterRow (clear : Bool) (claims : Nat) : Instr :=
  if clear then .readClearCounters claims else .readCounters claims

/-- The counters once n of a code from an index on are read (R145). -/
def Counters.afterRead (c : Counters) (clear : Bool) (code first n : Nat) : Counters :=
  if clear then c.zeroBlock code first n else c

/-- A read that clears zeroes what it reads, another leaves the counters (R145). -/
theorem Counters.afterRead_zeroed (c : Counters) (clear : Bool) {code first n : Nat}
    (inside : first + n ≤ countersOf code) :
    if clear then c.Zeroed (c.afterRead clear code first n) code first n else c.afterRead clear code first n = c := by
  cases clear
  · rfl
  · exact c.zeroBlock_zeroed inside

/-- The row of a counter read, whether it clears or not. -/
theorem exec_counterRow (s : State) (clear : Bool) (claims : Nat) : exec (counterRow clear claims) s
    = s.takeEvent (s.countersDue clear) fun s =>
      (s.takeLocal (counterCommand clear) (carryCounters clear)).readCounterBlock claims := by
  cases clear <;> rfl

section
variable {clear : Bool} {code next left : Nat} {acc : List Byte}

/-- With fewer claims than counters left, as many are read and the engine stays BUSY with the rest (R130). -/
theorem State.readCounterBlock_fewer (fewer : claims < left) :
    (s.working r (.counters clear code next left acc)).readCounterBlock claims
      = State.working { s with counters := s.counters.afterRead clear code next claims } r
        (.counters clear code (next + claims) (left - claims) (acc ++ s.counters.block code next claims)) := by
  have count : min claims left = claims := Nat.min_eq_left (Nat.le_of_lt fewer)
  refine (if_neg (Nat.not_le.2 fewer)).trans ?_
  rw [count]
  cases clear <;> rfl

/-- After the last counter the Local is answered (R130, R145). -/
theorem State.readCounterBlock_last (enough : left ≤ claims) (used : s.txn r = some t) :
    State.Answered { s with counters := s.counters.afterRead clear code next left }
      ((s.working r (.counters clear code next left acc)).readCounterBlock claims) r t .done
      (acc ++ s.counters.block code next left) none := by
  obtain ⟨v, read⟩ : ∃ v, v = State.working { s with counters := s.counters.afterRead clear code next left } r
    (.counters clear code next left acc) := ⟨_, rfl⟩
  have usedv : v.txn r = some t := by rw [read]; exact used
  have last : (s.working r (.counters clear code next left acc)).readCounterBlock claims
      = v.finishCached r t ⟨.done, acc ++ s.counters.block code next left, none⟩ := by
    refine (if_pos enough).trans ?_
    rw [Nat.min_eq_right enough]
    have same : (if clear = true then
        { s.working r (.counters clear code next left acc) with counters := s.counters.zeroBlock code next left }
        else s.working r (.counters clear code next left acc)) = v := by
      rw [read]
      cases clear <;> rfl
    refine Eq.trans ?_ (show (match v.txn r with
      | some t => v.finishCached r t ⟨.done, acc ++ s.counters.block code next left, none⟩
      | none => v.idleEngine) = _ by rw [usedv])
    rw [← same]
    rfl
  have answered := State.finishCached_answered v r t ⟨.done, acc ++ s.counters.block code next left, none⟩ usedv
  rw [last]
  subst read
  exact answered

end

/-- The row of a Local with counters left reads on (R130). -/
theorem exec_counterRow_busy {clear : Bool} {code next left : Nat} {acc : List Byte} (free : s.held = false)
    (busy : s.mgmt.engine = .busy r (.counters clear code next left acc)) :
    exec (counterRow clear claims) s = .next (s.readCounterBlock claims) := by
  have due : s.countersDue clear = some s.time := by simp only [State.countersDue, busy, reduceIte]
  have nobody : s.headLocal = none := by simp only [State.headLocal, busy]
  have untaken : s.takeLocal (counterCommand clear) (carryCounters clear) = s := by simp only [State.takeLocal, nobody]
  rw [exec_counterRow, due, State.takeEvent_due free, State.advance_time, untaken]

/-- The row of a Local at the head of the queue takes it and reads (R130). -/
theorem State.Carries.readsCounters {clear : Bool} {args : List Byte}
    (carries : s.Carries r t (counterCommand clear) args) :
    exec (counterRow clear claims) s
      = .next ((s.takeLocal (counterCommand clear) (carryCounters clear)).readCounterBlock claims) := by
  obtain ⟨⟨head, _⟩, code, _⟩ := carries
  obtain ⟨free, idle, _⟩ := id head
  have due : s.countersDue clear = some s.time := by
    simp only [State.countersDue, idle]
    exact head.due code
  rw [exec_counterRow, due, State.takeEvent_due free, State.advance_time]

/-- A range of counters of a code, taken: read to its end, or as far as the claims go (R130, R145). -/
theorem State.Carries.countersTaken {clear : Bool} {code first count : Byte} {last : Nat} {val : Nat → Word32}
    (carries : s.Carries r t (counterCommand clear) [code, first, count]) (holds : s.counters.Holds code.toNat last val)
    (some_ : 1 ≤ count.toNat) (inside : first.toNat + count.toNat ≤ last) :
    (count.toNat ≤ claims → ∃ u, exec (counterRow clear claims) s = .next u
      ∧ State.Answered
        { s.dequeue with counters := s.counters.afterRead clear code.toNat first.toNat count.toNat } u r t .done
        ((List.range count.toNat).flatMap fun i => bytes4 (val (first.toNat + i))) none)
    ∧ (claims < count.toNat → exec (counterRow clear claims) s = .next (State.working
      { s.dequeue with counters := s.counters.afterRead clear code.toNat first.toNat claims } r
      (.counters clear code.toNat (first.toNat + claims) (count.toNat - claims)
        ((List.range claims).flatMap fun i => bytes4 (val (first.toNat + i)))))) := by
  obtain ⟨known, size, block⟩ := holds.reads
  have carried : carryCounters clear s.dequeue t.origin [code, first, count]
      = .working s.dequeue (.counters clear code.toNat first.toNat count.toNat []) :=
    if_pos ⟨known, some_, size ▸ inside⟩
  have row := carries.readsCounters (claims := claims)
  rw [carries.takes_working carried] at row
  rw [← block, ← block]
  exact ⟨fun enough => ⟨_, row, State.readCounterBlock_last enough carries.used⟩,
    fun fewer => row.trans (congrArg _ (State.readCounterBlock_fewer fewer))⟩

/-- A range that is no code's, or empty, is refused (R145). -/
theorem State.Carries.countersRefused {clear : Bool} {code first count : Byte}
    (carries : s.Carries r t (counterCommand clear) [code, first, count])
    (bad : 4 < code.toNat ∨ count.toNat = 0 ∨ (code.toNat < 4 ∧ 14 < first.toNat + count.toNat)
      ∨ (code.toNat = 4 ∧ 2 < first.toNat + count.toNat)) :
    ∃ u, exec (counterRow clear claims) s = .next u ∧ s.dequeue.Answered u r t .badArgument [] none := by
  have carried : carryCounters clear s.dequeue t.origin [code, first, count] = .answer s.dequeue .badArgument [] :=
    if_neg fun ⟨known, some_, inside⟩ => by
      change code.toNat ≤ 4 at known
      change 1 ≤ count.toNat at some_
      change first.toNat + count.toNat ≤ countersOf code.toNat at inside
      unfold countersOf at inside
      split at inside
      · omega
      · split at inside <;> omega
  obtain ⟨idle, answered⟩ := carries.refusedIdle carried
  exact ⟨_, carries.readsCounters.trans (congrArg _ (State.readCounterBlock_idle idle claims)), answered⟩

/-- Settles O43: a Local taken and read, or refused, by either command, and one read on. -/
theorem countersAreRead : Obligations.CountersAreRead := by
  refine ⟨fun s r t claims last val code first count => ⟨fun holds some_ inside => ?_, fun bad => ?_⟩, ?_⟩
  · obtain ⟨_, size, _⟩ := holds.reads
    have zeroed := fun n (most : n ≤ count.toNat) =>
      s.counters.zeroBlock_zeroed (code := code.toNat) (first := first.toNat) (n := n) (by omega)
    refine ⟨fun carries => State.Carries.countersTaken (clear := false) carries holds some_ inside, fun carries => ?_⟩
    obtain ⟨enough, fewer⟩ := State.Carries.countersTaken (claims := claims) (clear := true) carries holds some_ inside
    refine ⟨fun all => ?_, fun part => ⟨_, zeroed claims (Nat.le_of_lt part), fewer part⟩⟩
    obtain ⟨u, row, answered⟩ := enough all
    exact ⟨u, _, row, zeroed _ (Nat.le_refl _), answered⟩
  · exact ⟨fun carries => State.Carries.countersRefused (clear := false) carries bad,
      fun carries => State.Carries.countersRefused (clear := true) carries bad⟩
  · rintro s r t clear code next left claims last val acc free busy used holds inside w rfl
    obtain ⟨_, size, block⟩ := holds.reads
    have row := exec_counterRow_busy (claims := claims) free busy
    have zeroed := fun n (most : n ≤ left) =>
      s.counters.afterRead_zeroed clear (code := code) (first := next) (n := n) (by omega)
    rw [← block, ← block]
    have working := State.working_of_busy busy
    refine ⟨fun fewer => ⟨_, zeroed claims (Nat.le_of_lt fewer), ?_⟩,
      fun enough => ⟨_, _, row, zeroed left (Nat.le_refl left), ?_⟩⟩
    · have reads := State.readCounterBlock_fewer (s := s) (r := r) (clear := clear) (code := code) (next := next)
        (acc := acc) fewer
      rw [working] at reads
      exact row.trans (congrArg _ reads)
    · have reads := State.readCounterBlock_last (clear := clear) (code := code) (next := next) (acc := acc) enough used
      rw [working] at reads
      exact reads

end

end Sys2Proof.Machine
end

