-- ==== Sys2Proof/Proofs/SettingsRecords.lean ====
section
/-!
The records that WriteSegment and WriteBridge carry (R142, R144, R153, R155, R181): a record in its ranges reads back from
its characters, and no other characters give one.
-/

namespace Sys2Proof.Machine

/-! ### Codes and ranges of single characters (R181) -/

theorem Role.ofCode_iff {b : Byte} {x : Role} : Role.ofCode b = some x ↔ b = x.code := by
  revert b; cases x <;> decide

theorem Parity.ofCode_iff {b : Byte} {x : Parity} : Parity.ofCode b = some x ↔ b = x.code := by
  revert b; cases x <;> decide

theorem StopBits.ofCode_iff {b : Byte} {x : StopBits} : StopBits.ofCode b = some x ↔ b = x.code := by
  revert b; cases x <;> decide

theorem NoisePolicy.ofCode_iff {b : Byte} {x : NoisePolicy} : NoisePolicy.ofCode b = some x ↔ b = x.code := by
  revert b; cases x <;> decide

theorem switchOf_iff {b : Byte} {x : Bool} : switchOf b = some x ↔ b = switchCode x := by
  revert b; cases x <;> decide

/-- A character in a range is its number. -/
theorem inRange_iff {lo hi n : Nat} {b : Byte} : inRange lo hi b = some n ↔ lo ≤ n ∧ n ≤ hi ∧ b.toNat = n := by
  unfold inRange
  split
  next inside =>
    rw [Option.some.injEq]
    exact ⟨fun same => ⟨same ▸ inside.1, same ▸ inside.2, same⟩, fun ⟨_, _, same⟩ => same⟩
  next outside => exact ⟨nofun, fun ⟨low, high, same⟩ => absurd (same ▸ ⟨low, high⟩) outside⟩

/-- Two characters in a range are their number. -/
theorem inRange2_iff {lo hi n : Nat} {h l : Byte} :
    inRange2 lo hi h l = some n ↔ lo ≤ n ∧ n ≤ hi ∧ number2 h l = n := by
  unfold inRange2
  split
  next inside =>
    rw [Option.some.injEq]
    exact ⟨fun same => ⟨same ▸ inside.1, same ▸ inside.2, same⟩, fun ⟨_, _, same⟩ => same⟩
  next outside => exact ⟨nofun, fun ⟨low, high, same⟩ => absurd (same ▸ ⟨low, high⟩) outside⟩

/-- A field narrower than a character, written and read back. -/
theorem toNat_widened {w : Nat} (narrow : w ≤ 8) (x : BitVec w) : (x.setWidth 8).toNat = x.toNat := by
  rw [BitVec.toNat_setWidth, Nat.mod_eq_of_lt (Nat.lt_of_lt_of_le x.isLt (Nat.pow_le_pow_right (by decide) narrow))]

/-- A field narrower than a character, in a range that its width bounds above. -/
theorem inRange_widened {w lo hi : Nat} {x : BitVec w} (narrow : w ≤ 8) (low : lo ≤ x.toNat) (high : 2 ^ w ≤ hi + 1) :
    inRange lo hi (x.setWidth 8) = some x.toNat :=
  inRange_iff.2 ⟨low, Nat.le_of_lt_succ (Nat.lt_of_lt_of_le x.isLt high), toNat_widened narrow x⟩

/-- A character that fits a narrower field, read and written back. -/
theorem widened_ofNat {w : Nat} {b : Byte} (fits : b.toNat < 2 ^ w) : (BitVec.ofNat w b.toNat).setWidth 8 = b := by
  apply BitVec.eq_of_toNat_eq
  rw [BitVec.toNat_setWidth, BitVec.toNat_ofNat, Nat.mod_eq_of_lt fits, Nat.mod_eq_of_lt b.isLt]

/-- A two-character number, written and read back. -/
theorem number2_bytes2 {n : Nat} (fits : n < 65536) : number2 (BitVec.ofNat 8 (n / 256)) (BitVec.ofNat 8 n) = n := by
  unfold number2
  rw [BitVec.toNat_ofNat, BitVec.toNat_ofNat]
  omega

/-- A two-character number has 16 bits. -/
theorem number2_lt (h l : Byte) : number2 h l < 65536 := by
  have high := h.isLt
  have low := l.isLt
  unfold number2
  omega

/-- A two-character number, read and written back. -/
theorem bytes2_number2 (h l : Byte) : bytes2 (number2 h l) = [h, l] := by
  have high := h.isLt
  have low := l.isLt
  have first : BitVec.ofNat 8 (number2 h l / 256) = h := BitVec.eq_of_toNat_eq (by
    rw [BitVec.toNat_ofNat, number2]
    omega)
  have second : BitVec.ofNat 8 (number2 h l) = l := BitVec.eq_of_toNat_eq (by
    rw [BitVec.toNat_ofNat, number2]
    omega)
  rw [bytes2, first, second]

/-- A field read before the rest of a record: what is known of its value, and the rest. -/
theorem field_of_read {α β : Type} {o : Option α} {f : α → Option β} {x : β} {p : α → Prop}
    (known : ∀ a, o = some a → p a) (read : (o >>= f) = some x) : ∃ a, p a ∧ f a = some x := by
  obtain ⟨a, field, rest⟩ := Option.bind_eq_some_iff.1 read
  exact ⟨a, known a field, rest⟩

/-- A field that reads, and the rest of a record that reads after it. -/
theorem read_of_field {α β : Type} {o : Option α} {f : α → Option β} {x : β} {a : α} (field : o = some a)
    (rest : f a = some x) : (o >>= f) = some x := Option.bind_eq_some_iff.2 ⟨a, field, rest⟩

/-! ### The segment record (R142, R153) -/

/-- The characters a segment record is read from are its own, and it is in its ranges. -/
theorem SegRecord.of_decode {l : List Byte} {rec : SegRecord} (read : SegRecord.decode l = some rec) :
    rec.wf = true ∧ l = rec.encode := by
  unfold SegRecord.decode at read
  split at read
  next role rate parity stops idle turn lead tail echo retry access notices noise =>
    obtain ⟨roleOf, isRole, read⟩ := field_of_read (fun _ => Role.ofCode_iff.1) read
    obtain ⟨_, ⟨_, rates, rfl⟩, read⟩ := field_of_read (fun _ => inRange_iff.1) read
    obtain ⟨parityOf, isParity, read⟩ := field_of_read (fun _ => Parity.ofCode_iff.1) read
    obtain ⟨stopsOf, isStops, read⟩ := field_of_read (fun _ => StopBits.ofCode_iff.1) read
    obtain ⟨_, ⟨lowIdle, idles, rfl⟩, read⟩ := field_of_read (fun _ => inRange_iff.1) read
    obtain ⟨_, ⟨lowTurn, turns, rfl⟩, read⟩ := field_of_read (fun _ => inRange_iff.1) read
    obtain ⟨_, ⟨_, leads, rfl⟩, read⟩ := field_of_read (fun _ => inRange_iff.1) read
    obtain ⟨_, ⟨_, tails, rfl⟩, read⟩ := field_of_read (fun _ => inRange_iff.1) read
    obtain ⟨echoOf, isEcho, read⟩ := field_of_read (fun _ => switchOf_iff.1) read
    obtain ⟨_, ⟨_, retries, rfl⟩, read⟩ := field_of_read (fun _ => inRange_iff.1) read
    obtain ⟨accessOf, isAccess, read⟩ := field_of_read (fun _ => switchOf_iff.1) read
    obtain ⟨noticesOf, isNotices, read⟩ := field_of_read (fun _ => switchOf_iff.1) read
    obtain ⟨noiseOf, isNoise, read⟩ := field_of_read (fun _ => NoisePolicy.ofCode_iff.1) read
    cases read
    constructor
    · simp only [SegRecord.wf, Bool.and_eq_true, decide_eq_true_eq, BitVec.toNat_ofNat]
      omega
    · have rateBack : BitVec.ofNat 8 (Fin.ofNat 10 rate.toNat).val = rate := by
        rw [Fin.val_ofNat, Nat.mod_eq_of_lt (Nat.lt_succ_of_le rates), BitVec.ofNat_toNat, BitVec.setWidth_eq]
      simp only [SegRecord.encode, rateBack, isRole, isParity, isStops, isEcho, isAccess, isNotices, isNoise]
      rw [widened_ofNat (w := 4) (by omega), widened_ofNat (w := 4) (by omega), widened_ofNat (w := 5) (by omega),
        widened_ofNat (w := 5) (by omega), widened_ofNat (w := 2) (by omega)]
  next => cases read

/-- A segment record in its ranges is read from its characters. -/
theorem SegRecord.decode_encode {rec : SegRecord} (wf : rec.wf = true) : SegRecord.decode rec.encode = some rec := by
  simp only [SegRecord.wf, Bool.and_eq_true, decide_eq_true_eq] at wf
  obtain ⟨idle, turn⟩ := wf
  have rate : inRange 0 9 (BitVec.ofNat 8 rec.rate.val) = some rec.rate.val := by
    refine inRange_iff.2 ⟨Nat.zero_le _, Nat.le_of_lt_succ rec.rate.isLt, ?_⟩
    rw [BitVec.toNat_ofNat, Nat.mod_eq_of_lt (Nat.lt_trans rec.rate.isLt (by decide))]
  unfold SegRecord.encode SegRecord.decode
  refine read_of_field (Role.ofCode_iff.2 rfl) (read_of_field rate (read_of_field (Parity.ofCode_iff.2 rfl)
    (read_of_field (StopBits.ofCode_iff.2 rfl) (read_of_field (inRange_widened (by decide) idle (by decide))
    (read_of_field (inRange_widened (by decide) turn (by decide))
    (read_of_field (inRange_widened (by decide) (Nat.zero_le _) (by decide))
    (read_of_field (inRange_widened (by decide) (Nat.zero_le _) (by decide)) (read_of_field (switchOf_iff.2 rfl)
    (read_of_field (inRange_widened (by decide) (Nat.zero_le _) (by decide)) (read_of_field (switchOf_iff.2 rfl)
    (read_of_field (switchOf_iff.2 rfl) (read_of_field (NoisePolicy.ofCode_iff.2 rfl) ?_))))))))))))
  simp

/-! ### The bridge record (R144, R155) -/

/-- An event mask is read from its two characters, where its positions 0 and 15 are clear (R155). -/
theorem eventMaskOf_iff {h l : Byte} {m : BitVec 16} : eventMaskOf h l = some m
    ↔ m.getLsbD 0 = false ∧ m.getLsbD 15 = false ∧ BitVec.ofNat 16 (number2 h l) = m := by
  unfold eventMaskOf
  dsimp only
  generalize BitVec.ofNat 16 (number2 h l) = x
  by_cases bits : (x.getLsbD 0 || x.getLsbD 15) = true
  · rw [if_pos bits]
    refine ⟨nofun, fun ⟨first, last, same⟩ => ?_⟩
    rw [same, first, last] at bits
    cases bits
  · rw [if_neg bits, Option.some.injEq]
    rw [Bool.or_eq_true, not_or, Bool.not_eq_true, Bool.not_eq_true] at bits
    exact ⟨fun same => ⟨same ▸ bits.1, same ▸ bits.2, same⟩, fun ⟨_, _, same⟩ => same⟩

/-- A two-character field is read in a range that holds its number. -/
theorem inRange2_bytes2 {lo hi n : Nat} (low : lo ≤ n) (high : n ≤ hi) (fits : hi < 65536) :
    inRange2 lo hi (BitVec.ofNat 8 (n / 256)) (BitVec.ofNat 8 n) = some n :=
  inRange2_iff.2 ⟨low, high, number2_bytes2 (Nat.lt_of_le_of_lt high fits)⟩

/-- The characters a bridge record is read from are its own, and it is in its ranges. -/
theorem BridgeRecord.of_decode {l : List Byte} {b : BridgeRecord} (read : BridgeRecord.decode l = some b) :
    b.wf = true ∧ l = b.encode := by
  unfold BridgeRecord.decode at read
  split at read
  next own flood floodClass learnClass unsol reserve t0h t0l t1h t1l t2h t2l t3h t3l bypass miss agingH agingL age maskH
      maskL =>
    obtain ⟨_, ⟨lowOwn, owns, rfl⟩, read⟩ := field_of_read (fun _ => inRange_iff.1) read
    obtain ⟨floodOf, isFlood, read⟩ := field_of_read (fun _ => switchOf_iff.1) read
    obtain ⟨_, ⟨_, floods, rfl⟩, read⟩ := field_of_read (fun _ => inRange_iff.1) read
    obtain ⟨_, ⟨_, learns, rfl⟩, read⟩ := field_of_read (fun _ => inRange_iff.1) read
    obtain ⟨unsolOf, isUnsol, read⟩ := field_of_read (fun _ => switchOf_iff.1) read
    obtain ⟨_, ⟨_, reserves, rfl⟩, read⟩ := field_of_read (fun _ => inRange_iff.1) read
    obtain ⟨n0, ⟨low0, high0, is0⟩, read⟩ := field_of_read (fun _ => inRange2_iff.1) read
    obtain ⟨n1, ⟨low1, high1, is1⟩, read⟩ := field_of_read (fun _ => inRange2_iff.1) read
    obtain ⟨n2, ⟨low2, high2, is2⟩, read⟩ := field_of_read (fun _ => inRange2_iff.1) read
    obtain ⟨n3, ⟨low3, high3, is3⟩, read⟩ := field_of_read (fun _ => inRange2_iff.1) read
    obtain ⟨_, ⟨lowBypass, bypasses, rfl⟩, read⟩ := field_of_read (fun _ => inRange_iff.1) read
    obtain ⟨_, ⟨_, misses, rfl⟩, read⟩ := field_of_read (fun _ => inRange_iff.1) read
    obtain ⟨aging, ⟨_, agings, isAging⟩, read⟩ := field_of_read (fun _ => inRange2_iff.1) read
    obtain ⟨_, ⟨lowAge, ages, rfl⟩, read⟩ := field_of_read (fun _ => inRange_iff.1) read
    obtain ⟨mask, ⟨first, last, isMask⟩, read⟩ := field_of_read (fun _ => eventMaskOf_iff.1) read
    cases read
    constructor
    · simp only [BridgeRecord.wf, Bool.and_eq_true, decide_eq_true_eq, BitVec.toNat_ofNat, Bool.not_eq_true', first,
        last, and_true]
      omega
    · have byte : ∀ x : Byte, BitVec.ofNat 8 x.toNat = x := fun x => by rw [BitVec.ofNat_toNat, BitVec.setWidth_eq]
      have two : ∀ {n : Nat} {h l : Byte}, n ≤ 4095 → number2 h l = n → bytes2 (BitVec.ofNat 12 n).toNat = [h, l] := by
        rintro _ h l most rfl
        rw [BitVec.toNat_ofNat, Nat.mod_eq_of_lt (Nat.lt_succ_of_le most), bytes2_number2]
      have maskBack : bytes2 mask.toNat = [maskH, maskL] := by
        rw [← isMask, BitVec.toNat_ofNat, Nat.mod_eq_of_lt (number2_lt maskH maskL), bytes2_number2]
      simp only [BridgeRecord.encode, two high0 is0, two high1 is1, two high2 is2, two high3 is3,
        two (Nat.le_trans agings (by decide)) isAging, maskBack, byte, isFlood, isUnsol]
      rw [widened_ofNat (w := 2) (by omega), widened_ofNat (w := 2) (by omega), widened_ofNat (w := 3) (by omega),
        widened_ofNat (w := 4) (by omega)]
      rfl
  next => cases read

/-- A bridge record in its ranges is read from its characters. -/
theorem BridgeRecord.decode_encode {b : BridgeRecord} (wf : b.wf = true) : BridgeRecord.decode b.encode = some b := by
  simp only [BridgeRecord.wf, Bool.and_eq_true, decide_eq_true_eq, Bool.not_eq_true'] at wf
  obtain ⟨⟨⟨⟨⟨⟨⟨⟨⟨⟨own, reserve⟩, class0⟩, class1⟩, class2⟩, class3⟩, bypass⟩, aging⟩, age⟩, first⟩, last⟩ := wf
  have byte : ∀ {lo hi : Nat} {x : Byte}, lo ≤ x.toNat → x.toNat ≤ hi → inRange lo hi x = some x.toNat :=
    fun low high => inRange_iff.2 ⟨low, high, rfl⟩
  have twelve : ∀ {x : BitVec 12}, 1 ≤ x.toNat →
      inRange2 1 4095 (BitVec.ofNat 8 (x.toNat / 256)) (BitVec.ofNat 8 x.toNat) = some x.toNat :=
    fun {x} low => inRange2_bytes2 low (Nat.le_of_lt_succ x.isLt) (by decide)
  have mask : eventMaskOf (BitVec.ofNat 8 (b.eventMask.toNat / 256)) (BitVec.ofNat 8 b.eventMask.toNat)
      = some b.eventMask := by
    refine eventMaskOf_iff.2 ⟨first, last, ?_⟩
    rw [number2_bytes2 b.eventMask.isLt, BitVec.ofNat_toNat, BitVec.setWidth_eq]
  unfold BridgeRecord.encode BridgeRecord.decode
  refine read_of_field (byte own.1 own.2) (read_of_field (switchOf_iff.2 rfl)
    (read_of_field (inRange_widened (by decide) (Nat.zero_le _) (by decide))
    (read_of_field (inRange_widened (by decide) (Nat.zero_le _) (by decide)) (read_of_field (switchOf_iff.2 rfl)
    (read_of_field (byte (Nat.zero_le _) reserve) (read_of_field (twelve class0) (read_of_field (twelve class1)
    (read_of_field (twelve class2) (read_of_field (twelve class3)
    (read_of_field (inRange_widened (by decide) bypass (by decide))
    (read_of_field (inRange_widened (by decide) (Nat.zero_le _) (by decide))
    (read_of_field (inRange2_bytes2 (Nat.zero_le _) aging (by decide))
    (read_of_field (byte age (Nat.le_of_lt_succ b.ageLimit.isLt)) (read_of_field mask ?_))))))))))))))
  simp

end Sys2Proof.Machine
end

