-- ==== Sys2Proof/Proofs/SettingsWrites.lean ====
section
/-!
WriteSegment stages a record (R142) and WriteBridge writes the bridge record (R144, R4, R11, R12, R135).
-/

namespace Sys2Proof.Machine

/-! ### WriteSegment (R142) -/

/-- WriteSegment of a record in its ranges: staged where some segment would stay Upstream (R142). -/
theorem carryWriteSegment_record (s : State) (o g : Seg) {rec : SegRecord} (wf : rec.wf = true) :
    carryWriteSegment s o (g.byte :: rec.encode)
      = if (Seg.all.any fun h => (if h = g then rec.role else s.prospectiveRole 0 h) == .upstream)
        then .answer { s with settings := { s.settings with staged := s.settings.staged.set g rec } } .done []
        else .answer s .badArgument [] := by
  unfold carryWriteSegment
  rw [segArg_byte, List.drop_succ_cons, List.drop_zero, SegRecord.decode_encode wf]

/-- WriteSegment to no segment, or of characters that are no record (R142). -/
theorem carryWriteSegment_refused (s : State) (o : Seg) {n : Byte} {l : List Byte}
    (bad : 4 ≤ n.toNat ∨ ∀ rec : SegRecord, rec.wf = true → l ≠ rec.encode) :
    carryWriteSegment s o (n :: l) = .answer s .badArgument [] := by
  unfold carryWriteSegment
  rw [List.drop_succ_cons, List.drop_zero]
  rcases bad with above | other
  · rw [segArg_above above]
  · cases read : SegRecord.decode l with
    | none => cases segArg (n :: l) 0 <;> rfl
    | some rec =>
      obtain ⟨wf, same⟩ := SegRecord.of_decode read
      exact absurd same (other rec wf)

/-- The role a segment is on its way to (R142). -/
theorem State.prospectiveRole_zero (s : State) (h : Seg) : s.prospectiveRole 0 h
    = if s.settings.applyPending.has h then (s.settings.staged.get h).role else (s.active h).role := by
  unfold State.prospectiveRole
  rw [SegSet.has_zero, Bool.false_or]

/-- Settles O40: the record is staged where a segment stays Upstream, and refused otherwise, as what is no record is. -/
theorem segmentIsStaged : Obligations.SegmentIsStaged := by
  refine ⟨fun s r t g rec carries wf => ?_, fun s r t n l carries bad =>
    carries.refused (carryWriteSegment_refused s.dequeue t.origin bad)⟩
  have writes := carryWriteSegment_record s.dequeue t.origin g wf
  have stays := any_role_iff (fun h => if h = g then rec.role else s.dequeue.prospectiveRole 0 h) .upstream
  simp only [State.prospectiveRole_zero] at writes stays
  by_cases upstream : ∃ h, (if h = g then rec.role
      else if s.settings.applyPending.has h then (s.settings.staged.get h).role else (s.active h).role) = .upstream
  · obtain ⟨u, row, answered⟩ :=
      carries.answers (p := ⟨.done, [], none⟩) (writes.trans (if_pos (stays.2 upstream))) carries.used
    obtain ⟨h, up⟩ := upstream
    exact ⟨u, row, fun _ => answered, fun down => absurd up (down h)⟩
  · obtain ⟨u, row, answered⟩ := carries.refused (writes.trans (if_neg fun up => upstream (stays.1 up)))
    exact ⟨u, row, fun up => absurd up upstream, fun _ => answered⟩

/-! ### WriteBridge (R144, R4) -/

/-- A change of the miss limit that lowers it below a count, in numbers (R11, log 24). -/
theorem limitLowered_eq (before after miss : BitVec 4) : limitLowered before after miss
    = decide (after.toNat ≠ 0 ∧ (before.toNat = 0 ∨ after.toNat < before.toNat) ∧ after.toNat < miss.toNat) := by
  have zero : ∀ x : BitVec 4, x = 0 ↔ x.toNat = 0 := fun x => BitVec.toNat_inj.symm
  rw [Bool.eq_iff_iff]
  simp only [limitLowered, Bool.and_eq_true, Bool.or_eq_true, bne_iff_ne, beq_iff_eq, decide_eq_true_eq, BitVec.lt_def,
    ne_eq, zero, and_assoc]

/-- The bridge record written, by what that does to each entry and each copy (R11, R12, R135, R144). -/
theorem State.storeBridge_eq (s : State) (b : BridgeRecord) (f : Entry → Entry) (k : ReplyCopy → ReplyCopy)
    (limits : ∀ e, f e = e.limitChanged s.bridge.missLimit b.missLimit) (disarms : ∀ c, k c = c.disarmOwn) :
    s.storeBridge b = { s with
      settings := { s.settings with bridge := { b with own := s.bridge.own } }
      table := { s.table with
        entries := s.table.entries.map f
        agingRef := if s.bridge.agingInterval = 0 ∧ b.agingInterval ≠ 0 then s.nowMs else s.table.agingRef }
      egress := PerSeg.tabulate fun g =>
        { s.egress.get g with replyLane := (s.egress.get g).replyLane.map k } } := by
  rw [funext limits, funext disarms]
  rfl

/-- WriteBridge of a record in its ranges: in conflict, or written (R4, R144). -/
theorem carryWriteBridge_record (s : State) (o : Seg) {b : BridgeRecord} (wf : b.wf = true) :
    (b.own ≠ s.bridge.own → s.entry b.own ≠ .unassigned → carryWriteBridge s o b.encode = .answer s .conflict [])
      ∧ (b.own = s.bridge.own ∨ s.entry b.own = .unassigned → carryWriteBridge s o b.encode
        = .replied ((s.storeBridge b).setPendingOwn (if b.own = s.bridge.own then none else some b.own))
          ⟨.done, [], if b.own = s.bridge.own then none else some (.ownAddress b.own)⟩) := by
  unfold carryWriteBridge
  rw [BridgeRecord.decode_encode wf]
  dsimp only
  by_cases own : b.own = s.bridge.own
  · simp only [if_pos own]
    exact ⟨fun other => absurd own other, fun _ => rfl⟩
  · simp only [if_neg own]
    exact ⟨fun _ taken => if_neg taken, fun free => if_pos (free.resolve_left own)⟩

/-- Settles O42: a record in its ranges is in conflict or written, and what is no record is refused. -/
theorem bridgeIsWritten : Obligations.BridgeIsWritten := by
  refine ⟨fun s r t b carries wf => ?_, fun s r t l carries other => ?_⟩
  · obtain ⟨conflict, writes⟩ := carryWriteBridge_record s.dequeue t.origin wf
    by_cases free : b.own = s.bridge.own ∨ s.entry b.own = .unassigned
    · have carried := writes free
      rw [State.storeBridge_eq s.dequeue b (fun e => match e with
          | .static m c k q => .static m c k (q || decide (b.missLimit.toNat ≠ 0
              ∧ (s.bridge.missLimit.toNat = 0 ∨ b.missLimit.toNat < s.bridge.missLimit.toNat)
              ∧ b.missLimit.toNat < k.toNat))
          | other => other) (fun c => { c with armed := match c.armed with
            | some ⟨.ownAddress _, _, _⟩ => none
            | other => other })] at carried
      · obtain ⟨u, row, answered⟩ := carries.answers carried carries.used
        refine ⟨u, row, fun other taken => absurd free (not_or.2 ⟨other, taken⟩), fun _ => answered⟩
      · intro e
        cases e with
        | static m c k q => exact congrArg (fun low => Entry.static m c k (q || low)) (limitLowered_eq _ _ k).symm
        | unassigned => rfl
        | learned => rfl
        | blocked => rfl
      · rintro ⟨d, _ | ⟨_ | _, _, _⟩⟩ <;> rfl
    · obtain ⟨other, taken⟩ := not_or.1 free
      obtain ⟨u, row, answered⟩ := carries.refused (conflict other taken)
      exact ⟨u, row, fun _ _ => answered, fun allowed => absurd allowed free⟩
  · have unread : BridgeRecord.decode l = none := by
      cases read : BridgeRecord.decode l with
      | none => rfl
      | some b =>
        obtain ⟨wf, same⟩ := BridgeRecord.of_decode read
        exact absurd same (other b wf)
    refine carries.refused (carry := carryWriteBridge) ?_
    unfold carryWriteBridge
    rw [unread]

end Sys2Proof.Machine
end

