-- ==== Sys2Proof/Proofs/RequestsNotCarriedOut.lean ====
section
/-!
Requests that end before step 7 of R131: refused at steps 1, 2, 4, 5 and 6 (R132), or answered from the cache at step 3 with
its deferred effect (R133, R135). Echo (R152), whose one refusal is that of step 5, stands here too.
-/

namespace Sys2Proof.Machine

/-! ### The reply that is sent (R103, R110) -/

/-- Cells whose free list names none twice are taken once each, and so is the one cell of a short reply. -/
theorem Store.takes_once {st : Store} {reply : List Byte} (room : reply.length ≤ 16 ∨ st.freeCells.Nodup) :
    (st.freeCells.take ((reply.length + 15) / 16)).Nodup := by
  rcases room with short | once
  · have one : (reply.length + 15) / 16 ≤ 1 := by omega
    refine List.Nodup.sublist (List.take_sublist_take_left one) ?_
    cases st.freeCells <;> simp
  · exact once.sublist (List.take_sublist _ _)

/-- A store that holds its law names no free cell twice (R92). -/
theorem Store.Lawful.freeCells_nodup {st : Store} (lawful : st.Lawful) : st.freeCells.Nodup := by
  obtain ⟨cells, _⟩ := lawful
  have all : ascendingCells.Nodup := List.nodup_ofFn.2 fun _ _ same => same
  exact (cells.nodup_iff.2 all).of_append_left

/-- The request's descriptor given up keeps the law of the store (R99). -/
theorem State.storeWithout_lawful {s : State} (lawful : s.store.Lawful) (t : Txn) : (s.storeWithout t).Lawful := by
  unfold State.storeWithout
  split
  · exact lawful.dropTxn _
  · exact lawful

/-- Where the reply of an answered request joins the lane, its descriptor holds the reply (R103, R110). -/
theorem State.OnlyReplied.sends {s u : State} {r : Fin Config.numTxns} {t : Txn} {reply : List Byte}
    {armed : Option Armed} (replied : s.OnlyReplied u r t reply armed) (room : reply.length ≤ 16 ∨ s.store.Lawful) :
    s.Sends u t.origin reply := by
  obtain ⟨_, _, _, _, _, _, _, _, _, _, ⟨silent, spoken⟩, _⟩ := replied
  intro d x joined
  have stays : u.egress ≠ s.egress := by
    intro same
    rw [same] at joined
    simp at joined
  have shown : ¬ (t.superseded = true ∨ (s.active t.origin).role = .off) := fun held => stays (silent held).2.1
  obtain ⟨live, role⟩ := not_or.1 shown
  obtain ⟨unstored, stored⟩ := spoken (Bool.eq_false_iff.2 live) role
  cases claimed : (s.storeWithout t).allocReply reply with
  | none => exact absurd (unstored claimed).2.1 stays
  | some taken =>
    obtain ⟨d', st'⟩ := taken
    obtain ⟨fits, full⟩ := stored d' st' claimed
    by_cases lane : (s.egress.get t.origin).replyLane.length < 2
    · obtain ⟨store, lanes, _⟩ := fits lane
      obtain ⟨y, result, _, _, _, allocated, _⟩ := Store.allocReply_some claimed
      have held : st'.desc d' = some y := (allocated d').trans (if_pos rfl)
      have once := Store.takes_once (room.imp id fun lawful => (State.storeWithout_lawful lawful t).freeCells_nodup)
      obtain ⟨now, _, _, reads⟩ := Store.modify_pending held t.origin
      rw [← store] at now reads
      rw [lanes, PerSeg.get_set, if_pos rfl] at joined
      obtain rfl : d' = d := by simpa using congrArg (List.map ReplyCopy.desc) joined
      refine Store.values_of_charAt now (by rw [result]) fun k => ?_
      rw [reads, Store.charAt_allocReply once claimed]
      cases reply[k]? <;> rfl
    · exact absurd (full (Nat.le_of_not_lt lane)).2.1 stays

/-! ### What is not cached, or is answered from the cache, leaves the caches (R132, R133) -/

/-- The end of an execution leaves every reply cache entry (R134). -/
theorem State.endExecution_caches (s : State) (r : Fin Config.numTxns) (reply : List Byte) (a : Option Armed) :
    (s.endExecution r reply a).mgmt.caches = s.mgmt.caches := by
  have idle : ∀ v : State, v.idleEngine.settlePendingOwn.mgmt.caches = v.mgmt.caches := by
    intro v
    unfold State.settlePendingOwn
    split <;> rfl
  unfold State.endExecution
  split
  · exact idle s
  next t _ =>
    obtain ⟨e, st, k, placed, _⟩ := s.reply_placed t reply a
    dsimp only
    rw [idle, State.closeFree _ r (by split <;> rfl), placed]
    rfl

/-- A row that comes to the end of an execution with a reply that is not cached: the reply is placed, the caches stay. -/
theorem exec_ends {s w : State} {r : Fin Config.numTxns} {t : Txn} {claims : Nat}
    {after : State → List Byte → State} {reply : List Byte} {a : Option Armed}
    (row : ∀ u, u = s.dequeue.checked r t after → u.mgmt.engine = .idle →
      exec (takingRow (MgmtCommand.ofCode t.command) claims) s = .next u)
    (ends : s.dequeue.checked r t after = w.endExecution r reply a) (used : w.txn r = some t)
    (caches : w.mgmt.caches = s.mgmt.caches) (room : reply.length ≤ 16 ∨ w.store.Lawful) :
    ∃ u, exec (takingRow (MgmtCommand.ofCode t.command) claims) s = .next u ∧ w.OnlyReplied u r t reply a
      ∧ u.mgmt.caches = s.mgmt.caches ∧ w.Sends u t.origin reply := by
  have replied := State.endExecution_replied w r t reply a used
  obtain ⟨idle, _⟩ := id replied
  exact ⟨_, row _ ends.symm idle, replied, (w.endExecution_caches r reply a).trans caches, replied.sends room⟩

/-! ### Steps 1 to 3 of R131 -/

section
variable {s : State} {r : Fin Config.numTxns} {t : Txn} {after : State → List Byte → State}

/-- A request shorter than 4 characters (step 1). -/
theorem State.checked_short (short : (s.requestOf t).length < 4) :
    s.checked r t after = s.refuseUncached r t .badLength := if_pos short

/-- A request that fails its check (step 2). -/
theorem State.checked_unsound (long : 4 ≤ (s.requestOf t).length) (unsound : wellChecked (s.requestOf t) = false) :
    s.checked r t after = s.refuseUncached r t .badCheck :=
  (if_neg (Nat.not_lt.2 long)).trans (if_pos unsound)

/-- A request that its origin's cache entry answers (step 3). -/
theorem State.checked_cached (long : 4 ≤ (s.requestOf t).length) (sound : wellChecked (s.requestOf t) = true)
    {c : CacheEntry} (cached : s.cacheMatch t = some c) : s.checked r t after = s.answerCached r c := by
  unfold State.checked
  simp only [if_neg (Nat.not_lt.2 long), sound, cached, reduceCtorEq, if_false]

/-- What the cache entry of the origin comes to for a Local of its command and sequence (R133, R135). -/
theorem State.cacheMatch_same {c : CacheEntry} (entry : s.mgmt.caches.get t.origin = some c)
    (command : c.command = t.command) (sequence : c.sequence = t.sequence) :
    (c.deferred = none ∨ (∃ level, c.deferred = some (.restart level)) → s.cacheMatch t = some c)
      ∧ ∀ a, c.deferred = some (.ownAddress a) → s.cacheMatch t = if s.ownAllowed a then some c else none := by
  have found : s.cacheMatch t = match c.deferred with
      | some (.ownAddress a) => if s.ownAllowed a then some c else none
      | some (.restart _) => some c
      | none => some c := by
    unfold State.cacheMatch
    rw [entry]
    exact if_pos ⟨command, sequence⟩
  refine ⟨?_, fun a own => by rw [found, own]⟩
  rintro (nothing | ⟨level, restart⟩)
  · rw [found, nothing]
  · rw [found, restart]

end

/-- An address pending anew, by what that does to each copy (R135; log 25). -/
theorem State.pendAgain_eq (s : State) (a : Byte) (f : ReplyCopy → ReplyCopy) (disarms : ∀ c, f c = c.disarmOwn) :
    s.pendAgain a = if s.mgmt.pendingOwn = some a then s else { s with
      egress := PerSeg.tabulate fun g => { s.egress.get g with replyLane := (s.egress.get g).replyLane.map f }
      mgmt := { s.mgmt with pendingOwn := some a } } := by
  rw [funext disarms]
  rfl

/-- An address pending anew leaves the records, the store and the reply caches. -/
theorem State.pendAgain_leaves (s : State) (a : Byte) : (s.pendAgain a).txns = s.txns
    ∧ (s.pendAgain a).store = s.store ∧ (s.pendAgain a).mgmt.caches = s.mgmt.caches := by
  unfold State.pendAgain
  split <;> exact ⟨rfl, rfl, rfl⟩

/-- Whether an address may become the own address (R4). -/
theorem State.ownAllowed_iff (s : State) (a : Byte) :
    s.ownAllowed a = true ↔ a ≠ s.bridge.own ∧ s.entry a = .unassigned := by
  simp [State.ownAllowed]

section
variable {s : State} {r : Fin Config.numTxns} {t : Txn}

/-- A request refused and not cached, at step 1, 2 or 5 of R131 (R132). -/
theorem State.AtHead.refusedUncached (head : s.AtHead r t) (claims : Nat) {st : Status}
    (bad : (s.requestOf t).length < 4 ∧ st = .badLength
      ∨ 4 ≤ (s.requestOf t).length ∧ wellChecked (s.requestOf t) = false ∧ st = .badCheck
      ∨ s.Fresh r t ∧ st = .badLength ∧ ∃ c, MgmtCommand.ofCode t.command = some c
        ∧ c.argCountOk (argsOf (s.requestOf t)).length = false) :
    ∃ u, exec (takingRow (MgmtCommand.ofCode t.command) claims) s = .next u
      ∧ s.dequeue.OnlyReplied u r t (replyFrame s.bridge.own t.command t.sequence st []) none
      ∧ u.mgmt.caches = s.mgmt.caches
      ∧ s.Sends u t.origin (replyFrame s.bridge.own t.command t.sequence st []) := by
  obtain ⟨after, row, _, carried⟩ := head.row claims
  have refused : s.dequeue.checked r t after = s.dequeue.refuseUncached r t st := by
    rcases bad with ⟨short, rfl⟩ | ⟨long, unsound, rfl⟩ | ⟨fresh, rfl, c, code, count⟩
    · exact State.checked_short short
    · exact State.checked_unsound long unsound
    · obtain ⟨carry, rfl⟩ := carried c code
      rw [fresh.checked]
      exact if_neg (by rw [count]; exact Bool.false_ne_true)
  obtain ⟨_, _, _, used⟩ := head
  refine exec_ends (w := { s.dequeue with mgmt := { s.dequeue.mgmt with
    buffer := replyFrame s.bridge.own t.command t.sequence st [] } }) row refused used rfl (.inl ?_)
  show 5 ≤ 16
  decide

/-- A request refused and cached, its code no command's (step 4 of R131). -/
theorem State.Fresh.unknown (fresh : s.Fresh r t) (code : MgmtCommand.ofCode t.command = none) :
    ∃ u, exec .badCommand s = .next u ∧ s.dequeue.Answered u r t .badCommand [] none := by
  obtain ⟨after, row, unknown, _⟩ := fresh.1.row 0
  obtain ⟨⟨_, _, _, used⟩, _⟩ := id fresh
  have answered := State.finishCached_answered s.dequeue r t ⟨.badCommand, [], none⟩ used
  obtain ⟨_, idle, _⟩ := id answered
  have ends : s.dequeue.checked r t after = s.dequeue.finishCached r t ⟨.badCommand, [], none⟩ := by
    rw [unknown code, fresh.checked]
  rw [code] at row
  exact ⟨_, row _ ends.symm idle, answered⟩

/-- A request refused by the lease check and cached (step 6 of R131). -/
theorem State.Fresh.unleased (fresh : s.Fresh r t) {c : MgmtCommand} (code : MgmtCommand.ofCode t.command = some c)
    (count : c.argCountOk (argsOf (s.requestOf t)).length = true) {st : Status}
    (lease : s.leaseRefusal t.origin c = some st) (claims : Nat) :
    ∃ u, exec (takingRow (some c) claims) s = .next u ∧ s.dequeue.Answered u r t st [] none := by
  obtain ⟨after, row, _, carried⟩ := fresh.1.row claims
  obtain ⟨carry, rfl⟩ := carried c code
  obtain ⟨⟨_, _, _, used⟩, _⟩ := id fresh
  have answered := State.finishCached_answered s.dequeue r t ⟨st, [], none⟩ used
  obtain ⟨_, idle, _⟩ := id answered
  have ends : s.dequeue.checked r t (fun s args => s.carryOut r t args c carry)
      = s.dequeue.finishCached r t ⟨st, [], none⟩ := by
    have refusal : s.dequeue.leaseRefusal t.origin c = some st := lease
    rw [fresh.checked, State.carryOut, if_pos count, refusal]
  rw [code] at row
  exact ⟨_, row _ ends.symm idle, answered⟩

/-- The lease check, by who holds the lease (R147). -/
theorem State.leaseRefusal_eq (s : State) (g : Seg) (c : MgmtCommand) :
    (c.needsLease = false → s.leaseRefusal g c = none)
      ∧ (c.needsLease = true → s.lease = none → s.leaseRefusal g c = some .noLease)
      ∧ (∀ l, c.needsLease = true → s.lease = some l → l.holder ≠ g → s.leaseRefusal g c = some .notHolder)
      ∧ ∀ l, s.lease = some l → l.holder = g → s.leaseRefusal g c = none := by
  unfold State.leaseRefusal
  refine ⟨fun free => ?_, fun needs nobody => ?_, fun l needs held other => ?_, fun l held own => ?_⟩
  · rw [if_neg (by rw [free]; exact Bool.false_ne_true)]
  · rw [if_pos needs, nobody]
  · rw [if_pos needs, held]
    exact if_neg other
  · rw [held]
    simp only [if_pos own, ite_self]

/-- A Local that its origin's cache entry answers (R133), with the state its deferred effect leaves (R135). -/
theorem State.AtHead.answeredCached (head : s.AtHead r t) (claims : Nat) {c : CacheEntry} {w : State}
    (long : 4 ≤ (s.requestOf t).length) (sound : wellChecked (s.requestOf t) = true)
    (cached : s.cacheMatch t = some c) (command : c.command = t.command) (sequence : c.sequence = t.sequence)
    (armed : s.dequeue.answerCached r c = w.endExecution r c.reply c.armed) (used : w.txn r = some t)
    (caches : w.mgmt.caches = s.mgmt.caches) (lawful : w.store.Lawful) :
    ∃ u, exec (takingRow (MgmtCommand.ofCode t.command) claims) s = .next u
      ∧ w.OnlyReplied u r t c.reply (c.deferred.map fun e => ⟨e, t.command, t.sequence⟩)
      ∧ u.mgmt.caches = s.mgmt.caches ∧ w.Sends u t.origin c.reply := by
  obtain ⟨after, row, _⟩ := head.row claims
  have ends : s.dequeue.checked r t after = w.endExecution r c.reply c.armed :=
    (State.checked_cached (s := s.dequeue) long sound cached).trans armed
  rw [show (c.deferred.map fun e => (⟨e, t.command, t.sequence⟩ : Armed)) = c.armed by
    rw [← command, ← sequence]
    rfl]
  exact exec_ends row ends used caches (.inr lawful)

end

/-! ### The statements -/

/-- Settles O32: the requests refused, those answered from the cache, and the tables of R147 and section 7.4. -/
theorem requestsNotCarriedOut : Obligations.RequestsNotCarriedOut := by
  refine ⟨?_, ?_, ?_, ?_⟩
  · rintro s r t st claims head bad _ rfl
    exact head.refusedUncached claims bad
  · intro s r t claims fresh
    refine ⟨fresh.unknown, fun c code count needs => ?_⟩
    obtain ⟨_, nobody, other, _⟩ := s.leaseRefusal_eq t.origin c
    exact ⟨fun none_ => fresh.unleased code count (nobody needs none_) claims,
      fun l held away => fresh.unleased code count (other l needs held away) claims⟩
  · intro s r t c claims head long sound entry command sequence
    obtain ⟨same, own⟩ := State.cacheMatch_same entry command sequence
    obtain ⟨_, _, _, used⟩ := id head
    refine ⟨fun lawful deferred => ?_, fun a deferred => ⟨fun lawful new free w hw => ?_, fun taken => ?_⟩⟩
    · refine head.answeredCached claims (w := s.dequeue) long sound (same deferred) command sequence ?_ used rfl lawful
      unfold State.answerCached
      rcases deferred with none_ | ⟨level, restart⟩
      · rw [none_]
      · rw [restart]
    · have allowed := (own a deferred).trans (if_pos ((s.ownAllowed_iff a).2 ⟨new, free⟩))
      obtain rfl : w = s.dequeue.pendAgain a := by
        refine hw.trans (State.pendAgain_eq s.dequeue a _ ?_).symm
        rintro ⟨d, _ | ⟨_ | _, _, _⟩⟩ <;> rfl
      obtain ⟨txns, store, caches⟩ := s.dequeue.pendAgain_leaves a
      have armed : s.dequeue.answerCached r c = (s.dequeue.pendAgain a).endExecution r c.reply c.armed := by
        unfold State.answerCached
        rw [deferred]
      have usedAgain : (s.dequeue.pendAgain a).txn r = some t := by
        unfold State.txn
        rw [txns]
        exact used
      have answered := head.answeredCached claims long sound allowed command sequence armed usedAgain caches
        (store.symm ▸ lawful)
      rw [deferred] at answered
      exact answered
    · have fresh : s.Fresh r t := by
        refine ⟨head, long, sound, (own a deferred).trans (if_neg fun allowed => ?_)⟩
        obtain ⟨new, free⟩ := (s.ownAllowed_iff a).1 allowed
        exact taken.elim new fun used => used free
      refine ⟨fresh, ?_⟩
      rintro b carries wf rfl new
      exact carries.refused ((carryWriteBridge_record s.dequeue t.origin wf).1 new (taken.resolve_left new))
  · intro s g c
    obtain ⟨free, nobody, other, own⟩ := s.leaseRefusal_eq g c
    refine ⟨?_, free, nobody, other, own, fun n => ?_⟩
    · cases c <;> simp [MgmtCommand.needsLease]
    · cases c <;> simp [MgmtCommand.argCountOk]

/-- Settles O36: Echo carried out, the checks it passes without a lease, and its refusal beyond 88 arguments. -/
theorem echoReturnsItsArguments : Obligations.EchoReturnsItsArguments := by
  intro s r t args
  refine ⟨fun carries => carries.answers (carry := carryEcho) (p := ⟨.done, args, none⟩) rfl carries.used,
    fun fresh code same few => ⟨fresh, code, same, decide_eq_true few, rfl⟩, ?_⟩
  rintro fresh code many _ rfl
  have refused := fresh.1.refusedUncached 0
    (.inr (.inr ⟨fresh, rfl, .echo, code, decide_eq_false (Nat.not_le.2 many)⟩))
  rw [code] at refused
  exact refused

end Sys2Proof.Machine
end

