-- ==== Sys2Proof/Proofs/ArmedRestart.lean ====
section
/-!
A Full or Traffic restart taken at the send completion of the reply it is armed on (R135, R150, R164, R165, R182).
-/

namespace Sys2Proof.Machine

section
variable {s : State} {g : Seg} {x : Straps} {ends : Nat} {a : Attempt} {h : InHand} {d : Fin Config.numDescs} {e : Armed}
  {l : List ReplyCopy}

/-- s once the reply at the head of its lane has been sent at TAIL_GUARD_END (R119, R122), with the straps sampled, before
the effect armed on it is taken. -/
def State.replySent (s : State) (g : Seg) (x : Straps) (ends : Nat) (d : Fin Config.numDescs) : State :=
  let p := { s with time := max s.time ends, straps := x }
  (((p.releaseLine g).setEgress g { s.egress.get g with state := .quiet }).dropItem g (.reply d)).count g .framesSent

/-- TAIL_GUARD_END of a reply with an effect armed takes the effect once the reply has been sent (R119, R122, R135). -/
theorem exec_tailGuardEnd_armed (free : s.held = false) (tail : (s.egress.get g).state = .tail ends a)
    (silent : (s.egress.get g).echoes = []) (marking : (s.lines.get g).tx = .marking)
    (clear : (s.egress.get g).collision = false) (inHand : (s.egress.get g).hand = some h) (reply : h.item = .reply d)
    (lane : (s.egress.get g).replyLane = ⟨d, some e⟩ :: l) :
    exec (.tailGuardEnd g x) s = .next ((s.replySent g x ends d).takeDeferred g e).settlePendingOwn := by
  have due : s.tailGuardDue g = some ends := by
    unfold State.tailGuardDue
    rw [tail]
    exact if_pos ⟨silent, marking⟩
  obtain ⟨p, sampled⟩ : ∃ p : State, p = { s with time := max s.time ends, straps := x } := ⟨_, rfl⟩
  have egress : p.egress = s.egress := by rw [sampled]
  obtain ⟨v, quiet⟩ : ∃ v, v = (p.releaseLine g).setEgress g { s.egress.get g with state := .quiet } := ⟨_, rfl⟩
  have here : v.egress.get g = { s.egress.get g with state := .quiet } := by
    rw [quiet]
    exact (PerSeg.get_set _ _ _ _).trans (if_pos rfl)
  have completes : p.endTail g
      = (((v.dropItem g (.reply d)).count g .framesSent).takeDeferred g e).settlePendingOwn := by
    rw [State.endTail_completes (by rw [egress, clear]), egress, ← quiet]
    exact State.sendCompleted_armed (by rw [here]; exact inHand) reply (by rw [here]; exact lane)
  have taken : exec (.tailGuardEnd g x) s = .next (p.endTail g) := by
    change s.takeEvent (s.tailGuardDue g) (fun s => State.endTail { s with straps := x } g) = _
    rw [due, State.takeEvent_due free, sampled]
    rfl
  rw [taken, completes, quiet, sampled]
  rfl

end

/-- A Full restart leaves what the straps give (R164, R182). -/
theorem State.fullRestart_leaves (s : State) : (∀ r, s.fullRestart.txn r = none)
    ∧ (∀ b, s.fullRestart.entry b = .unassigned) ∧ (∀ q i, s.fullRestart.counters.read q i = 0)
    ∧ s.fullRestart.events.queue = [⟨0, 0, .restarted, none, none, 1⟩]
    ∧ ∀ q, (s.fullRestart.lines.get q).de = false := by
  refine ⟨fun r => ?_, fun b => ?_, fun q i => ?_, ?_, fun q => congrArg LineUnit.de (PerSeg.get_tabulate _ q)⟩
  · show (Vector.replicate Config.numTxns (none : Option Txn))[r] = none
    simp
  · show (Vector.replicate 256 Entry.unassigned)[b.toNat]'(by omega) = .unassigned
    simp
  · show ((PerSeg.const (Vector.replicate 14 (0 : Word32))).get q)[i] = 0
    simp
  · show (EventUnit.empty.raise (BridgeRecord.default s.straps).eventMask _ _ _ _ _).queue = _
    have on : (BridgeRecord.default s.straps).eventMask.getLsbD EventKind.restarted.code = true := by
      show (0x7FBE#16).getLsbD 13 = true
      decide
    have now : s.clearAll.nowMs = 0 := by
      show BitVec.ofNat 32 (0 / 73728) = 0
      decide
    unfold EventUnit.raise
    rw [now, if_pos on, if_pos (by decide)]
    rfl

/-- Settles O21: the effect taken, by its level. -/
theorem armedRestartIsTaken : Obligations.ArmedRestartIsTaken := by
  intro s g x ends a h d cmd seq level free tail silent marking clear inHand reply lane
  have taken := exec_tailGuardEnd_armed (x := x) free tail silent marking clear inHand reply lane
  cases level with
  | full =>
    rw [State.settlePendingOwn_none (s := (s.replySent g x ends d).takeDeferred g ⟨.restart .full, cmd, seq⟩) rfl]
      at taken
    obtain ⟨txns, entries, counters, events, de⟩ := State.fullRestart_leaves
      { s.replySent g x ends d with mgmt := _ }
    exact ⟨_, taken, txns, rfl, rfl, rfl, rfl, rfl,
      fun q => ⟨PerSeg.get_const _ q, PerSeg.get_const _ q, de q, PerSeg.get_const _ q⟩, ⟨rfl, rfl, rfl, rfl, rfl⟩,
      rfl, rfl, rfl, entries, fun q => PerSeg.get_const _ q, counters, events⟩
  | traffic =>
    rw [State.settlePendingOwn_none (s := (s.replySent g x ends d).takeDeferred g ⟨.restart .traffic, cmd, seq⟩) rfl]
      at taken
    refine ⟨_, taken, fun r => ?_, rfl, rfl, rfl, rfl, rfl, fun q => ⟨PerSeg.get_const _ q, PerSeg.get_const _ q, ?_,
      PerSeg.get_const _ q⟩, ⟨rfl, rfl, rfl, rfl, rfl⟩, rfl, rfl, rfl, rfl, fun q i other => ?_, rfl, rfl,
      fun q away => ?_, rfl⟩
    · show (Vector.replicate Config.numTxns (none : Option Txn))[r] = none
      simp
    · exact congrArg LineUnit.de (PerSeg.get_tabulate _ q)
    · exact (Counters.read_write s.counters g q 1 i _).trans (if_neg other)
    · exact (PerSeg.get_set s.mgmt.caches g q _).trans (if_neg away)

end Sys2Proof.Machine
end

