-- ==== Sys2Proof/Proofs/ConfigurationRules.lean ====
section
/-!
The lease law and the ranges of the settings (R4, R153, R155, R158, R162). Nearly every operation leaves the settings and the
lease as they are, and brings no own address on its way but one it is handed: `KeepsConfiguration` says so, and passes both laws
on. Here are the operations of the schedulers and of the transaction engine.
-/

namespace Sys2Proof.Machine

/-! ### What the laws look at -/

/-- An own address that may be set (R155). -/
def OwnInRange (a : Byte) : Prop := 1 ≤ a.toNat ∧ a.toNat ≤ 0xFE

/-- The ranges of the settings, and that some segment is Upstream (R153, R155, R158). -/
def Settings.Lawful (t : Settings) : Prop :=
  (∀ g, (t.active.get g).wf = true ∧ (t.staged.get g).wf = true) ∧ t.bridge.wf = true
    ∧ ∃ g, (t.active.get g).role = .upstream

/-- A reply copy armed with a change of the own address to a (R135). -/
def ReplyCopy.Sets (c : ReplyCopy) (a : Byte) : Prop := ∃ x, c.armed = some x ∧ x.effect = .ownAddress a

/-- The own address a is on its way: a copy in a lane or a cached reply carries it (R135). -/
def State.Conveys (s : State) (a : Byte) : Prop :=
  (∃ g c, c ∈ (s.egress.get g).replyLane ∧ c.Sets a)
    ∨ ∃ g c, s.mgmt.caches.get g = some c ∧ c.deferred = some (.ownAddress a)

theorem State.settingsLawful_iff (s : State) :
    s.SettingsLawful ↔ s.settings.Lawful ∧ ∀ a, s.Conveys a → OwnInRange a := by
  constructor
  · rintro ⟨records, bridge, up, lanes, caches⟩
    refine ⟨⟨records, bridge, up⟩, ?_⟩
    rintro a (⟨g, c, copy, x, armed, effect⟩ | ⟨g, c, cached, deferred⟩)
    · exact lanes g c x a copy armed effect
    · exact caches g c a cached deferred
  · rintro ⟨⟨records, bridge, up⟩, range⟩
    exact ⟨records, bridge, up, fun g c x a copy armed effect => range a (.inl ⟨g, c, copy, x, armed, effect⟩),
      fun g c a cached deferred => range a (.inr ⟨g, c, cached, deferred⟩)⟩

/-- Both laws pass from s to t. -/
structure State.CarriesConfiguration (s t : State) : Prop where
  lease : s.LeaseLaw → t.LeaseLaw
  settings : s.SettingsLawful → t.SettingsLawful

theorem State.CarriesConfiguration.refl (s : State) : s.CarriesConfiguration s := ⟨id, id⟩

theorem State.CarriesConfiguration.trans {s t u : State} (first : s.CarriesConfiguration t)
    (next : t.CarriesConfiguration u) : s.CarriesConfiguration u :=
  ⟨next.lease ∘ first.lease, next.settings ∘ first.settings⟩

/-- t has the settings and the lease of s, and conveys no own address that s does not, but `new`. -/
structure State.KeepsConfiguration (s t : State) (new : Option Deferred) : Prop where
  settings : t.settings = s.settings
  lease : t.lease = s.lease
  conveys : ∀ a, t.Conveys a → s.Conveys a ∨ new = some (.ownAddress a)

section
variable {s t u : State} {n : Option Deferred} {g : Seg} {e : Egress}

theorem State.KeepsConfiguration.trans (first : s.KeepsConfiguration t n) (next : t.KeepsConfiguration u n) :
    s.KeepsConfiguration u n :=
  ⟨next.settings.trans first.settings, next.lease.trans first.lease,
    fun a conveys => (next.conveys a conveys).elim (first.conveys a) .inr⟩

/-- The reply lanes hold no copy that they did not. -/
theorem State.KeepsConfiguration.of_lanes (settings : t.settings = s.settings) (lease : t.lease = s.lease)
    (caches : t.mgmt.caches = s.mgmt.caches) (lanes : ∀ g, (t.egress.get g).replyLane ⊆ (s.egress.get g).replyLane) :
    s.KeepsConfiguration t n := by
  refine ⟨settings, lease, ?_⟩
  rintro a (⟨g, c, copy, sets⟩ | ⟨g, c, cached, deferred⟩)
  · exact .inl (.inl ⟨g, c, lanes g copy, sets⟩)
  · exact .inl (.inr ⟨g, c, caches ▸ cached, deferred⟩)

theorem State.KeepsConfiguration.of_same (settings : t.settings = s.settings) (lease : t.lease = s.lease)
    (caches : t.mgmt.caches = s.mgmt.caches) (egress : t.egress = s.egress) : s.KeepsConfiguration t n :=
  .of_lanes settings lease caches fun _ => egress ▸ List.Subset.refl _

theorem State.KeepsConfiguration.refl (s : State) : s.KeepsConfiguration s n := .of_same rfl rfl rfl rfl

/-- One scheduler is replaced. -/
theorem State.KeepsConfiguration.of_egress (settings : t.settings = s.settings) (lease : t.lease = s.lease)
    (caches : t.mgmt.caches = s.mgmt.caches) (egress : t.egress = s.egress.set g e)
    (lane : e.replyLane ⊆ (s.egress.get g).replyLane) : s.KeepsConfiguration t n := by
  refine .of_lanes settings lease caches fun h => ?_
  rw [egress, PerSeg.get_set]
  split
  next here => exact here ▸ lane
  next => exact List.Subset.refl _

theorem State.KeepsConfiguration.setEgress (lane : e.replyLane ⊆ (s.egress.get g).replyLane) :
    s.KeepsConfiguration (s.setEgress g e) n := .of_egress rfl rfl rfl rfl lane

/-- Nothing the laws look at changes after what is kept. -/
theorem State.KeepsConfiguration.same (first : s.KeepsConfiguration t n) (settings : u.settings = t.settings)
    (lease : u.lease = t.lease) (caches : u.mgmt.caches = t.mgmt.caches) (egress : u.egress = t.egress) :
    s.KeepsConfiguration u n := first.trans (.of_same settings lease caches egress)

/-- What keeps the configuration carries both laws, where the own address it is handed is in range. -/
theorem State.KeepsConfiguration.carries (keeps : s.KeepsConfiguration t n)
    (range : s.SettingsLawful → ∀ a, n = some (.ownAddress a) → OwnInRange a) : s.CarriesConfiguration t := by
  refine ⟨fun law l held => ?_, fun lawful => ?_⟩
  · rw [keeps.lease] at held
    rw [State.active, keeps.settings]
    exact law l held
  · have new := range lawful
    rw [State.settingsLawful_iff] at lawful ⊢
    refine ⟨keeps.settings ▸ lawful.1, fun a conveys => ?_⟩
    rcases keeps.conveys a conveys with before | handed
    · exact lawful.2 a before
    · exact new a handed

/-- What keeps the configuration and is handed no own address carries both laws. -/
theorem State.KeepsConfiguration.plain (keeps : s.KeepsConfiguration t none) : s.CarriesConfiguration t :=
  keeps.carries fun _ => nofun

/-- Both laws pass where nothing they look at changes. -/
theorem State.CarriesConfiguration.of_same (settings : t.settings = s.settings) (lease : t.lease = s.lease)
    (caches : t.mgmt.caches = s.mgmt.caches) (egress : t.egress = s.egress) : s.CarriesConfiguration t :=
  (State.KeepsConfiguration.of_same settings lease caches egress).plain

/-! ### Notices and lanes (R109 to R112) -/

theorem State.notify_keepsConfiguration (s : State) (g : Seg) (c : NoticeCode) (a : Byte) :
    s.KeepsConfiguration (s.notify g c a) n := by
  unfold State.notify State.placeNotice
  split
  · dsimp only
    split
    · exact .setEgress (List.Subset.refl _)
    · exact .of_egress rfl rfl rfl rfl (List.Subset.refl _)
  · exact .refl s

theorem State.settlePendingOwn_keepsConfiguration (s : State) : s.KeepsConfiguration s.settlePendingOwn n := by
  unfold State.settlePendingOwn
  split <;> exact .of_same rfl rfl rfl rfl

theorem State.withdrawReplies_keepsConfiguration (s : State) (g : Seg) : s.KeepsConfiguration (s.withdrawReplies g) n := by
  unfold State.withdrawReplies
  dsimp only
  rw [State.withdraw_fold]
  refine State.KeepsConfiguration.trans ?_ (State.settlePendingOwn_keepsConfiguration _)
  exact .of_egress (g := g) rfl rfl rfl rfl List.filter_sublist.subset

theorem State.setBackBulk_keepsConfiguration (s : State) (g : Seg) : s.KeepsConfiguration (s.setBackBulk g) n := by
  unfold State.setBackBulk
  dsimp only
  split
  · split
    · exact .setEgress (List.Subset.refl _)
    · exact .refl s
  · exact .refl s

/-- A copy offered to a reply lane conveys at most the own address it is armed with (R110, R135). -/
theorem State.offerReply_keepsConfiguration (s : State) (g : Seg) (d : Fin Config.numDescs) {armed : Option Armed}
    (carries : ∀ x, armed = some x → n = some x.effect) : s.KeepsConfiguration (s.offerReply g d armed) n := by
  unfold State.offerReply
  dsimp only
  split
  · refine ⟨rfl, rfl, ?_⟩
    rintro a (⟨h, c, copy, sets⟩ | cached)
    · simp only [State.mapStore_fields, State.setEgress_fields, PerSeg.get_set] at copy
      split at copy
      next here =>
        rcases List.mem_append.1 copy with before | new
        · exact .inl (.inl ⟨h, c, here ▸ before, sets⟩)
        · rw [List.mem_singleton] at new
          obtain ⟨x, isArmed, effect⟩ := sets
          rw [new] at isArmed
          exact .inr (effect ▸ carries x isArmed)
      next => exact .inl (.inl ⟨h, c, copy, sets⟩)
    · exact .inl (.inr cached)
  · exact .of_same rfl rfl rfl rfl

/-! ### Transactions (R27 to R51) -/

theorem State.countIf_keepsConfiguration (s : State) (b : Bool) (g : Seg) (c : SegCounter) :
    s.KeepsConfiguration (s.countIf b g c) n := by
  obtain ⟨k, h⟩ := s.countIf_only b g c
  exact h ▸ .of_same rfl rfl rfl rfl

theorem State.learn_keepsConfiguration (s : State) (a : Byte) (g : Seg) : s.KeepsConfiguration (s.learn a g) n := by
  obtain ⟨b, l, h⟩ := s.learn_only a g
  exact h ▸ .of_same rfl rfl rfl rfl

theorem State.releaseGrants_keepsConfiguration (s : State) (m : SegSet) :
    s.KeepsConfiguration (s.releaseGrants m) n := by
  obtain ⟨x, h⟩ := s.releaseGrants_only m
  exact h ▸ .of_same rfl rfl rfl rfl

theorem State.dropRequest_keepsConfiguration (s : State) (t : Txn) : s.KeepsConfiguration (s.dropRequest t) n := by
  obtain ⟨st, h⟩ := s.dropRequest_only t
  exact h ▸ .of_same rfl rfl rfl rfl

theorem State.closeTxn_keepsConfiguration (s : State) (r : Fin Config.numTxns) (o : TxnOutcome) :
    s.KeepsConfiguration (s.closeTxn r o) n := by
  unfold State.closeTxn
  split
  · exact .refl s
  next t _ =>
    dsimp only
    split
    · exact .refl s
    · have fixed : s.KeepsConfiguration (s.putTxn r (some { t with outcome := some o })) n := .of_same rfl rfl rfl rfl
      generalize s.putTxn r (some { t with outcome := some o }) = u at fixed
      have told : s.KeepsConfiguration (match o.notice with
          | some code => if t.superseded then u else u.notify t.origin code t.station
          | none => u) n := by
        split
        · split
          · exact fixed
          · exact fixed.trans (u.notify_keepsConfiguration _ _ _)
        · exact fixed
      split
      · exact told.same rfl rfl rfl rfl
      · exact told

theorem State.cancelWaiting_keepsConfiguration (s : State) (r : Fin Config.numTxns) (o : TxnOutcome) :
    s.KeepsConfiguration (s.cancelWaiting r o) n := by
  unfold State.cancelWaiting
  split
  · exact .refl s
  · exact (s.dropRequest_keepsConfiguration _).trans (State.closeTxn_keepsConfiguration _ r o)

theorem State.abandonLive_keepsConfiguration (s : State) (g : Seg) : s.KeepsConfiguration (s.abandonLive g) n := by
  obtain ⟨x, k, st, h⟩ := s.abandonLive_silent g
  exact h ▸ .of_same rfl rfl rfl rfl

theorem State.abandonOrigin_keepsConfiguration (s : State) (g : Seg) : s.KeepsConfiguration (s.abandonOrigin g) n :=
  ((s.abandonLive_keepsConfiguration g).trans (State.withdrawReplies_keepsConfiguration _ g)).trans
    (.setEgress (List.Subset.refl _))

theorem State.becomePending_keepsConfiguration (s : State) (r : Fin Config.numTxns) :
    s.KeepsConfiguration (s.becomePending r) n := by
  unfold State.becomePending
  split
  · exact .refl s
  · dsimp only
    split
    · exact .trans (t := s.putTxn r _) (.of_same rfl rfl rfl rfl) (State.cancelWaiting_keepsConfiguration _ r _)
    · exact .of_same rfl rfl rfl rfl

theorem State.becomeExecuting_keepsConfiguration (s : State) (r : Fin Config.numTxns) (c q : Byte) :
    s.KeepsConfiguration (s.becomeExecuting r c q) n := by
  unfold State.becomeExecuting
  split <;> exact .of_same rfl rfl rfl rfl

/-- A launch puts copies in bulk lanes only (R33). -/
theorem State.launch_keepsConfiguration (s : State) (older : List (Fin Config.numTxns)) (r : Fin Config.numTxns) :
    s.KeepsConfiguration (s.launch older r) n := by
  cases used : s.txn r with
  | none =>
    simp only [State.launch, used]
    exact .refl s
  | some t =>
    obtain ⟨v, _, _, launched, result, _, lanes⟩ := s.launch_eq older used
    obtain ⟨k, bypassed⟩ := v.raiseBypass_eq older t.egress
    rw [launched, bypassed, result]
    refine .of_lanes rfl rfl rfl fun g => ?_
    dsimp only
    rw [lanes]
    split <;> exact List.Subset.refl _

theorem State.scanFrom_keepsConfiguration (l : List (Fin Config.numTxns)) (s : State) (older : List (Fin Config.numTxns)) :
    s.KeepsConfiguration (s.scanFrom older l) n := by
  induction l generalizing s older with
  | nil => exact .refl s
  | cons r l ih =>
    unfold State.scanFrom
    split
    · exact (s.launch_keepsConfiguration older r).trans (ih _ older)
    · exact ih s (older ++ [r])

theorem State.copiesDone_keepsConfiguration (s : State) (r : Fin Config.numTxns) :
    s.KeepsConfiguration (s.copiesDone r) n := by
  have closes : ∀ (t : Txn) (o : TxnOutcome), s.KeepsConfiguration ((s.putTxn r (some t)).closeTxn r o) n := fun t o =>
    .trans (t := s.putTxn r (some t)) (.of_same rfl rfl rfl rfl) (State.closeTxn_keepsConfiguration _ r o)
  unfold State.copiesDone
  split
  · exact .refl s
  · dsimp only
    split
    · exact .refl s
    · split
      · exact .of_same rfl rfl rfl rfl
      · split
        · split
          · exact closes _ _
          · exact .of_same rfl rfl rfl rfl
        · exact .of_same rfl rfl rfl rfl
        · exact closes _ _
        · exact .of_same rfl rfl rfl rfl

theorem State.copyCompleted_keepsConfiguration (s : State) (g : Seg) : s.KeepsConfiguration (s.copyCompleted g) n := by
  unfold State.copyCompleted
  split
  · exact .refl s
  next r _ =>
    split
    · exact .refl s
    · refine .trans ?_ (State.copiesDone_keepsConfiguration _ r)
      dsimp only
      split
      · exact .of_same rfl rfl rfl rfl
      · split <;> exact .of_same rfl rfl rfl rfl

theorem State.copyFailed_keepsConfiguration (s : State) (g : Seg) : s.KeepsConfiguration (s.copyFailed g) n := by
  unfold State.copyFailed
  split
  · exact .refl s
  next r _ =>
    split
    · exact .refl s
    · exact .trans (t := State.releaseGrant (s.putTxn r _) g) (.of_same rfl rfl rfl rfl)
        (State.copiesDone_keepsConfiguration _ r)

theorem State.responseFailed_keepsConfiguration (s : State) (r : Fin Config.numTxns) (g : Seg) (o : TxnOutcome) :
    s.KeepsConfiguration (s.responseFailed r g o) n :=
  .trans (t := s.releaseGrant g) (.of_same rfl rfl rfl rfl) (State.closeTxn_keepsConfiguration _ r o)

/-- A response is placed with nothing armed (R104). -/
theorem State.responseIntact_keepsConfiguration (s : State) (r : Fin Config.numTxns) (g : Seg) (d : Fin Config.numDescs) :
    s.KeepsConfiguration (s.responseIntact r g d) n := by
  have ends : ∀ (v : State) (a : Byte),
      v.KeepsConfiguration (((v.releaseGrant g).closeTxn r .answered).learn a g) n := fun v a =>
    (v.responseFailed_keepsConfiguration r g .answered).trans (State.learn_keepsConfiguration _ a g)
  unfold State.responseIntact
  split
  · exact .of_same rfl rfl rfl rfl
  · refine .trans ?_ (ends _ _)
    split
    · exact .of_same rfl rfl rfl rfl
    · exact .trans (t := s.mapStore fun st => st.modify d fun x => { x with txn := none }) (.of_same rfl rfl rfl rfl)
        (State.offerReply_keepsConfiguration _ _ d nofun)

theorem State.timeOut_keepsConfiguration (s : State) (r : Fin Config.numTxns) (t : Txn) :
    s.KeepsConfiguration (s.timeOut r t) n := by
  have stations : ∀ v : State, v.KeepsConfiguration
      (t.windows.members.foldl (fun s g => s.setLastTimedOut g (some t.station)) v) n := fun v => by
    obtain ⟨x, h⟩ := State.setLastTimedOutAll_only (some t.station) t.windows.members v
    exact h ▸ .of_same rfl rfl rfl rfl
  have missed : ∀ v : State, v.KeepsConfiguration (v.countMiss t.station) n := fun v => by
    obtain ⟨b, k, h⟩ := v.countMiss_only t.station
    exact h ▸ .of_same rfl rfl rfl rfl
  have closed := ((State.releaseGrants_keepsConfiguration (s.putTxn r (some { t with windows := 0, deadline := none }))
    t.windows).trans (stations _)).trans (missed _) (n := n)
  unfold State.timeOut
  refine .trans (t := s.putTxn r (some { t with windows := 0, deadline := none })) (.of_same rfl rfl rfl rfl)
    (closed.trans ?_)
  exact .trans (t := State.raise (State.count _ t.origin .timeouts) .timeout (some t.origin) (some t.station) 0)
    (.of_same rfl rfl rfl rfl) (State.closeTxn_keepsConfiguration _ r .timeout)

theorem State.pruneWaiting_keepsConfiguration (s : State) (g : Seg) : s.KeepsConfiguration (s.pruneWaiting g) n := by
  unfold State.pruneWaiting
  generalize s.txns.waiting = l
  induction l generalizing s with
  | nil => exact .refl s
  | cons q l ih =>
    rw [List.foldl_cons]
    refine .trans ?_ (ih _)
    split
    · exact .refl s
    · dsimp only
      split
      · split
        · exact .trans (t := s.putTxn q _) (.of_same rfl rfl rfl rfl) (State.cancelWaiting_keepsConfiguration _ q _)
        · exact .of_same rfl rfl rfl rfl
      · exact .refl s

/-! ### Sending (R111 to R122) -/

theorem State.requestNext_keepsConfiguration (s : State) (g : Seg) (a : Attempt) :
    s.KeepsConfiguration (s.requestNext g a) n := by
  unfold State.requestNext
  dsimp only
  split
  · exact .setEgress (List.Subset.refl _)
  · split
    · exact .setEgress (List.Subset.refl _)
    · exact .of_egress rfl rfl rfl rfl (List.Subset.refl _)

/-- An item whose send starts leaves the reply lane as it is (R115). -/
theorem Egress.startItem_replyLane (e : Egress) : e.startItem.replyLane = e.replyLane := by
  unfold Egress.startItem
  split
  · rfl
  · split <;> rfl

theorem State.enterTransmit_keepsConfiguration (s : State) (g : Seg) (b : Bool) :
    s.KeepsConfiguration (s.enterTransmit g b) n := by
  have first : s.KeepsConfiguration ((s.setEgress g (s.egress.get g).startItem).requestNext g
      ⟨b, (s.setEgress g (s.egress.get g).startItem).bridge.own, 0, 0⟩) n :=
    .trans (.setEgress fun _ mem => Egress.startItem_replyLane _ ▸ mem) (State.requestNext_keepsConfiguration _ g _)
  unfold State.enterTransmit
  dsimp only
  split
  · exact first
  · exact first.trans (State.requestNext_keepsConfiguration _ g _)

theorem State.dropItem_keepsConfiguration (s : State) (g : Seg) (i : Item) : s.KeepsConfiguration (s.dropItem g i) n := by
  unfold State.dropItem
  dsimp only
  split
  · exact .setEgress (List.Subset.refl _)
  · exact .setEgress (List.Subset.refl _)
  · exact .of_egress rfl rfl rfl rfl List.filter_sublist.subset
  · exact .of_egress rfl rfl rfl rfl (List.Subset.refl _)

theorem State.sendCollided_keepsConfiguration (s : State) (g : Seg) : s.KeepsConfiguration (s.sendCollided g) n := by
  have reports : ∀ (request notice : Bool) (v : State), v.KeepsConfiguration
      (if request = true then (if notice = true then v.countNoticeLost else v).copyFailed g
        else if notice = true then v.countNoticeLost else v) n := by
    intro request notice v
    have lost : v.KeepsConfiguration (if notice = true then v.countNoticeLost else v) n := by
      split <;> exact .of_same rfl rfl rfl rfl
    split
    · exact lost.trans (State.copyFailed_keepsConfiguration _ g)
    · exact lost
  unfold State.sendCollided
  split
  · exact .refl s
  next h _ =>
    exact (((s.dropItem_keepsConfiguration g h.item).trans (reports (s.isRequestCopy h.item) h.item.isNotice _)).trans
      (State.settlePendingOwn_keepsConfiguration _)).same rfl rfl rfl rfl

theorem State.backOff_keepsConfiguration (s : State) (g : Seg) : s.KeepsConfiguration (s.backOff g) n := by
  unfold State.backOff
  dsimp only
  split
  · exact (s.sendCollided_keepsConfiguration g).trans (.setEgress (List.Subset.refl _))
  · exact .setEgress (List.Subset.refl _)

theorem State.foundCollision_keepsConfiguration (s : State) (g : Seg) : s.KeepsConfiguration (s.foundCollision g) n :=
  .trans (t := s.failAttempt g) (.of_egress (g := g) rfl rfl rfl rfl (List.Subset.refl _))
    (.of_egress (g := g) rfl rfl rfl rfl (List.Subset.refl _))

theorem State.echoCompare_keepsConfiguration (s : State) (g : Seg) (i : EchoItem) :
    s.KeepsConfiguration (s.echoCompare g i) n := by
  have heard : s.KeepsConfiguration (s.setEgress g { s.egress.get g with echoes := (s.egress.get g).echoes.tail }) n :=
    .setEgress (List.Subset.refl _)
  unfold State.echoCompare
  dsimp only
  split
  · split
    · split
      · exact heard.trans (State.requestNext_keepsConfiguration _ g _)
      · exact s.foundCollision_keepsConfiguration g
    · exact .refl s
  · split
    · split
      · exact heard
      · exact s.foundCollision_keepsConfiguration g
    · exact .refl s
  all_goals exact .refl s

theorem State.takeLine_keepsConfiguration (s : State) (g : Seg) : s.KeepsConfiguration (s.takeLine g) n := by
  have taken : ∀ (u : LineUnit) (st : EgState), s.KeepsConfiguration (((s.setLine g u).setReceiver g .blind).setEgress g
      { s.egress.get g with state := st, hand := s.handOrChoice g, echoes := [], collision := false }) n := fun u st =>
    .of_egress rfl rfl rfl rfl (List.Subset.refl _)
  unfold State.takeLine
  dsimp only
  split
  · exact (taken _ _).trans (State.enterTransmit_keepsConfiguration _ g _)
  · exact taken _ _

theorem State.endLead_keepsConfiguration (s : State) (g : Seg) : s.KeepsConfiguration (s.endLead g) n := by
  unfold State.endLead
  split
  · exact s.enterTransmit_keepsConfiguration g _
  all_goals exact .refl s

theorem State.characterSent_keepsConfiguration (s : State) (g : Seg) : s.KeepsConfiguration (s.characterSent g) n := by
  have counted : ∀ (u : LineUnit) (st : EgState) (l : List Echo), s.KeepsConfiguration ((s.setLine g u).setEgress g
      { s.egress.get g with state := st, echoes := l }) n := fun u st l =>
    .of_egress rfl rfl rfl rfl (List.Subset.refl _)
  unfold State.characterSent
  dsimp only
  split
  · split
    · exact counted _ _ _
    · split
      · exact counted _ _ _
      · split
        · exact (counted _ _ _).trans (.setEgress (List.Subset.refl _))
        · split
          · exact counted _ _ _
          · exact (counted _ _ _).trans (State.requestNext_keepsConfiguration _ g _)
  all_goals exact .of_same rfl rfl rfl rfl

theorem State.breakSent_keepsConfiguration (s : State) (g : Seg) : s.KeepsConfiguration (s.breakSent g) n := by
  unfold State.breakSent
  dsimp only
  split
  · exact .of_egress rfl rfl rfl rfl (List.Subset.refl _)
  · exact .of_egress rfl rfl rfl rfl (List.Subset.refl _)
  all_goals exact .of_same rfl rfl rfl rfl

theorem State.startHeard_keepsConfiguration (s : State) (g : Seg) : s.KeepsConfiguration (s.startHeard g) n := by
  have taken : s.KeepsConfiguration (s.takeStart g) n := by
    unfold State.takeStart
    dsimp only
    split <;> exact .of_same rfl rfl rfl rfl
  refine taken.trans ?_
  unfold State.startHeard
  dsimp only
  split
  · exact .trans (t := ((s.takeStart g).releaseLine g).failAttempt g)
      (.of_egress (g := g) rfl rfl rfl rfl (List.Subset.refl _)) (State.backOff_keepsConfiguration _ g)
  all_goals exact .refl _

end

end Sys2Proof.Machine
end

