-- ==== Sys2Proof/Proofs/ConfigurationReceived.lean ====
section
/-!
The lease law and the ranges of the settings (R4, R153, R155, R158, R162), continued: reception, the restarts, the changes of
the settings and the deferred effects.
-/

namespace Sys2Proof.Machine

section
variable {s t : State} {n : Option Deferred} {g : Seg}

/-! ### Frames received (R76 to R90) -/

theorem State.beginFrame_keepsConfiguration (s : State) (g : Seg) (c : RxChar) :
    s.KeepsConfiguration (s.beginFrame g c) n := by
  obtain ⟨f, k, st, x, v, h⟩ := s.beginFrame_only g c
  exact h ▸ .of_same rfl rfl rfl rfl

theorem State.growFrame_keepsConfiguration (s : State) (g : Seg) (f : Frame) (c : RxChar) :
    s.KeepsConfiguration (s.growFrame g f c) n := by
  obtain ⟨r, st, h⟩ := s.growFrame_only g f c
  exact h ▸ .of_same rfl rfl rfl rfl

/-- A frame offered to a segment goes to its bulk lane (R88). -/
theorem State.offerBulk_keepsConfiguration (d : Fin Config.numDescs) (s : State) (u : Seg) :
    s.KeepsConfiguration (State.offerBulk d s u) n := by
  unfold State.offerBulk
  split
  · split
    · exact .of_egress (g := u) rfl rfl rfl rfl (List.Subset.refl _)
    · exact .of_same rfl rfl rfl rfl
  · exact .refl s

theorem State.forwardUnsolicited_keepsConfiguration (s : State) (d : Fin Config.numDescs) :
    s.KeepsConfiguration (s.forwardUnsolicited d) n := by
  have offers : ∀ (l : List Seg) (v : State), v.KeepsConfiguration (l.foldl (State.offerBulk d) v) n := by
    intro l
    induction l with
    | nil => exact .refl
    | cons u l ih => exact fun v => (State.offerBulk_keepsConfiguration d v u).trans (ih _)
  have offered := offers Seg.all s
  rw [State.forwardUnsolicited_eq]
  generalize Seg.all.foldl (State.offerBulk d) s = v at offered ⊢
  exact offered.same rfl rfl rfl rfl

theorem State.enterService_keepsConfiguration (s : State) (g : Seg) (cls : FrameClass) (r : Fin Config.numTxns)
    (d : Fin Config.numDescs) : s.KeepsConfiguration (s.enterService g cls r d) n := by
  unfold State.enterService
  dsimp only
  split
  · exact .of_same rfl rfl rfl rfl
  · refine ((s.abandonOrigin_keepsConfiguration g).trans ?_).trans (State.setBackBulk_keepsConfiguration _ g)
    split
    · exact State.becomeExecuting_keepsConfiguration _ r _ _
    · exact State.becomePending_keepsConfiguration _ r

theorem State.handOn_keepsConfiguration (s : State) (g : Seg) (f : Frame) (d : Fin Config.numDescs) :
    s.KeepsConfiguration (s.handOn g f d) n := by
  refine .trans (t := s.mapStore fun st => st.modify d fun x => { x with state := .ready }) (.of_same rfl rfl rfl rfl) ?_
  unfold State.handOn
  dsimp only
  split
  · exact State.enterService_keepsConfiguration _ g _ _ d
  · exact State.enterService_keepsConfiguration _ g _ _ d
  · exact State.enterService_keepsConfiguration _ g _ _ d
  · exact State.responseIntact_keepsConfiguration _ _ g d
  · exact State.forwardUnsolicited_keepsConfiguration _ d
  · exact .refl _

theorem State.endUnkept_keepsConfiguration (s : State) (g : Seg) (f : Frame) (o : Option TxnOutcome) :
    s.KeepsConfiguration (s.endUnkept g f o) n := by
  unfold State.endUnkept
  split
  · exact .of_same rfl rfl rfl rfl
  · split
    · exact s.responseFailed_keepsConfiguration _ g _
    · exact .refl s

theorem State.placeIntent_keepsConfiguration (s : State) (g : Seg) (f : Frame) (cause : EndCause) :
    s.KeepsConfiguration (s.placeIntent g f cause) n := by
  unfold State.placeIntent
  split
  · split
    · exact .refl s
    · exact s.notify_keepsConfiguration g _ _
  · exact .refl s

theorem State.releaseFrame_keepsConfiguration (s : State) (f : Frame) : s.KeepsConfiguration (s.releaseFrame f) n := by
  unfold State.releaseFrame
  split <;> exact .of_same rfl rfl rfl rfl

theorem State.endFrameOf_keepsConfiguration (s : State) (g : Seg) (cause : EndCause) (skip : Option SkipReason)
    (f : Frame) : s.KeepsConfiguration (s.endFrameOf g cause skip f) n := by
  have counts : ∀ b b' : Bool, s.KeepsConfiguration ((((s.setReceiver g .hunt).count g .framesReceived).countIf b g
      .damaged).countIf b' g .noBuffer) n := fun b b' =>
    .trans (t := ((s.setReceiver g .hunt).count g .framesReceived).countIf b g .damaged)
      (.trans (t := (s.setReceiver g .hunt).count g .framesReceived) (.of_same rfl rfl rfl rfl)
        (State.countIf_keepsConfiguration _ b g .damaged))
      (State.countIf_keepsConfiguration _ b' g .noBuffer)
  unfold State.endFrameOf
  dsimp only
  generalize endingOf cause skip _ = ending
  refine .trans ?_ (State.placeIntent_keepsConfiguration _ g f cause)
  have counted := counts (ending == .damaged) (ending == .truncated)
  split
  · split
    · exact counted.trans (State.handOn_keepsConfiguration _ g f _)
    · exact counted
  · exact (counted.trans (State.releaseFrame_keepsConfiguration _ f)).trans (State.endUnkept_keepsConfiguration _ g f _)
  · exact (counted.trans (State.releaseFrame_keepsConfiguration _ f)).trans (State.endUnkept_keepsConfiguration _ g f _)
  · exact counted.trans (State.endUnkept_keepsConfiguration _ g f _)

theorem State.endFrame_keepsConfiguration (s : State) (g : Seg) (cause : EndCause) :
    s.KeepsConfiguration (s.endFrame g cause) n := by
  unfold State.endFrame
  split
  · exact s.endFrameOf_keepsConfiguration g cause _ _
  · exact s.endFrameOf_keepsConfiguration g cause _ _
  · exact .refl s
  · exact .refl s

theorem State.receiveChar_keepsConfiguration (s : State) (g : Seg) (c : RxChar) :
    s.KeepsConfiguration (s.receiveChar g c) n := by
  have counted : s.KeepsConfiguration (s.countErrors g c) n := by
    obtain ⟨k, h⟩ := s.countErrors_only g c
    exact h ▸ .of_same rfl rfl rfl rfl
  have next : s.KeepsConfiguration (((s.countErrors g c).endFrame g .nextAddress).beginFrame g c) n :=
    (counted.trans (State.endFrame_keepsConfiguration _ g _)).trans (State.beginFrame_keepsConfiguration _ g c)
  unfold State.receiveChar
  split
  · exact .refl s
  · split
    · exact counted.trans (State.beginFrame_keepsConfiguration _ g c)
    · exact counted.same rfl rfl rfl rfl
  · split
    · exact next
    · exact counted.trans (State.growFrame_keepsConfiguration _ g _ c)
  · split
    · exact next
    · exact counted

theorem State.receiveBreak_keepsConfiguration (s : State) (g : Seg) : s.KeepsConfiguration (s.receiveBreak g) n := by
  by_cases sees : s.receivers.get g = .blind
  · simp only [State.receiveBreak, sees]
    exact .refl s
  · rw [State.receiveBreak_eq sees]
    have ended : s.KeepsConfiguration ((s.endFrame g .aborted).count g .breaks) n :=
      (s.endFrame_keepsConfiguration g .aborted).same rfl rfl rfl rfl
    split
    · exact ended.trans (State.abandonOrigin_keepsConfiguration _ g)
    · exact ended

theorem State.breakFound_keepsConfiguration (s : State) (g : Seg) : s.KeepsConfiguration (s.breakFound g) n := by
  refine .trans (t := s.setRx g (.recover s.time)) (.of_same rfl rfl rfl rfl) ?_
  unfold State.breakFound State.deliverBreak
  split
  · exact State.echoCompare_keepsConfiguration _ g none
  · exact State.receiveBreak_keepsConfiguration _ g

theorem State.characterComplete_keepsConfiguration (s : State) (g : Seg) (x : Samples) :
    s.KeepsConfiguration (s.characterComplete g x) n := by
  unfold State.characterComplete
  dsimp only
  split
  · exact .of_same rfl rfl rfl rfl
  · exact s.breakFound_keepsConfiguration g
  next c _ =>
    refine .trans (t := s.setRx g (.ready s.time (endsHigh (s.active g) x) false)) (.of_same rfl rfl rfl rfl) ?_
    unfold State.deliverChar
    split
    · exact State.echoCompare_keepsConfiguration _ g (some c)
    · exact State.receiveChar_keepsConfiguration _ g c

theorem State.idleGap_keepsConfiguration (s : State) (g : Seg) : s.KeepsConfiguration (s.idleGap g) n := by
  unfold State.idleGap
  dsimp only
  split
  · exact .of_same rfl rfl rfl rfl
  · exact .trans (t := s.setLine g _) (.of_same rfl rfl rfl rfl) (State.endFrame_keepsConfiguration _ g .idleGap)

/-! ### What changes the lease or a cache -/

/-- A lease that was not held before has access (R162). -/
theorem State.CarriesConfiguration.of_lease (settings : t.settings = s.settings) (caches : t.mgmt.caches = s.mgmt.caches)
    (egress : t.egress = s.egress)
    (lease : ∀ l, t.lease = some l → s.lease = some l ∨ (s.active l.holder).mgmtAccess = true) :
    s.CarriesConfiguration t := by
  have kept : s.KeepsConfiguration { t with lease := s.lease } none := .of_same settings rfl caches egress
  refine ⟨fun law l held => ?_, kept.plain.settings⟩
  rw [State.active, settings]
  exact (lease l held).elim (law l) id

theorem State.dropLeaseOf_carriesConfiguration (s : State) (g : Seg) (d : Byte) :
    s.CarriesConfiguration (s.dropLeaseOf g d) := by
  unfold State.dropLeaseOf
  split
  · exact .refl s
  · split
    · exact .of_lease rfl rfl rfl nofun
    · exact .refl s

theorem State.expireLease_carriesConfiguration (s : State) : s.CarriesConfiguration s.expireLease := by
  unfold State.expireLease
  split
  · exact .refl s
  · exact .of_lease rfl rfl rfl nofun

/-- A cache is replaced by one that conveys no new own address. -/
theorem State.KeepsConfiguration.of_cache {x : Option CacheEntry} (settings : t.settings = s.settings)
    (lease : t.lease = s.lease) (egress : t.egress = s.egress) (caches : t.mgmt.caches = s.mgmt.caches.set g x)
    (own : ∀ c a, x = some c → c.deferred = some (.ownAddress a) → s.Conveys a ∨ n = some (.ownAddress a)) :
    s.KeepsConfiguration t n := by
  refine ⟨settings, lease, ?_⟩
  rintro a (⟨h, c, copy, sets⟩ | ⟨h, c, cached, deferred⟩)
  · exact .inl (.inl ⟨h, c, egress ▸ copy, sets⟩)
  · rw [caches, PerSeg.get_set] at cached
    split at cached
    · exact own c a cached deferred
    · exact .inl (.inr ⟨h, c, cached, deferred⟩)

/-! ### A Segment restart (R50, R51, R166) -/

theorem State.discardFrame_keepsConfiguration (s : State) (g : Seg) : s.KeepsConfiguration (s.discardFrame g) n := by
  cases framed : (s.receivers.get g).frame with
  | none =>
    simp only [State.discardFrame, framed]
    exact .refl s
  | some f =>
    obtain ⟨_, released⟩ | ⟨r, _, freed⟩ := State.discardFrame_cases framed
    · exact released ▸ s.releaseFrame_keepsConfiguration f
    · exact freed ▸ (s.releaseFrame_keepsConfiguration f).same rfl rfl rfl rfl

theorem State.restartOrigins_keepsConfiguration (g : Seg) (l : List (Fin Config.numTxns)) (s : State) :
    s.KeepsConfiguration (l.foldl (State.restartOrigin g) s) n := by
  induction l generalizing s with
  | nil => exact .refl s
  | cons r l ih =>
    refine .trans ?_ (ih (State.restartOrigin g s r))
    unfold State.restartOrigin
    split
    · exact .refl s
    · split
      · split
        · exact s.cancelWaiting_keepsConfiguration r _
        · exact .refl s
        all_goals exact .of_same rfl rfl rfl rfl
      · exact .refl s

theorem State.restartHolder_keepsConfiguration (s : State) (g : Seg) : s.KeepsConfiguration (s.restartHolder g) n := by
  unfold State.restartHolder
  split
  · exact .refl s
  next r _ =>
    split
    · exact .of_same rfl rfl rfl rfl
    · dsimp only
      split
      · exact .trans (t := State.putTxn (State.releaseGrants _ _) r _)
          (.trans (t := State.releaseGrant (s.putTxn r _) g) (.of_same rfl rfl rfl rfl)
            ((State.releaseGrants_keepsConfiguration _ _).same rfl rfl rfl rfl))
          (State.closeTxn_keepsConfiguration _ r _)
      · exact .trans (t := State.releaseGrant (s.putTxn r _) g) (.of_same rfl rfl rfl rfl)
          (State.copiesDone_keepsConfiguration _ r)

/-- A Segment restart brings no own address on its way; the lease of its segment is dropped (R162, R166). -/
theorem State.segmentRestart_carriesConfiguration (s : State) (g : Seg) :
    s.CarriesConfiguration (s.segmentRestart g) := by
  have flushed : s.KeepsConfiguration ((s.discardFrame g).flushCopies g) none := by
    refine (s.discardFrame_keepsConfiguration g).trans ?_
    rw [State.flushCopies, State.leaveAll_eq]
    exact .of_same rfl rfl rfl rfl
  have emptied : s.KeepsConfiguration (((s.discardFrame g).flushCopies g).setEgress g Egress.empty) none :=
    flushed.trans (.setEgress (List.nil_subset _))
  have cut : ∀ (u : LineUnit) (z : FrState), s.KeepsConfiguration (((((s.discardFrame g).flushCopies g).setEgress g
      Egress.empty).setLine g u).setReceiver g z) none := fun u z => emptied.same rfl rfl rfl rfl
  have served : ∀ v : State, v.KeepsConfiguration ((ascendingTxns.foldl (State.restartOrigin g) v).restartHolder g) none :=
    fun v => (State.restartOrigins_keepsConfiguration g ascendingTxns v).trans (State.restartHolder_keepsConfiguration _ g)
  have ends : ∀ w : State, w.CarriesConfiguration (((State.settlePendingOwn { w.setLastTimedOut g none with
      mgmt := { w.mgmt with caches := w.mgmt.caches.set g none } }).raise .restarted (some g) none 3).dropLeaseOf g 2) := by
    intro w
    have dropped : w.KeepsConfiguration { w.setLastTimedOut g none with
        mgmt := { w.mgmt with caches := w.mgmt.caches.set g none } } none :=
      .of_cache (g := g) (x := none) rfl rfl rfl rfl nofun
    have settled := dropped.trans (State.settlePendingOwn_keepsConfiguration _)
    refine .trans (State.KeepsConfiguration.plain ?_) (State.dropLeaseOf_carriesConfiguration _ g 2)
    exact settled.same rfl rfl rfl rfl
  unfold State.segmentRestart
  exact ((cut _ _).trans (served _)).plain.trans (ends _)

/-! ### The bridge record and the defaults (R4, R154, R155) -/

theorem BridgeRecord.own_inRange {b : BridgeRecord} (wf : b.wf = true) : OwnInRange b.own := by
  simp only [BridgeRecord.wf, Bool.and_eq_true, decide_eq_true_eq] at wf
  obtain ⟨⟨⟨⟨⟨⟨⟨⟨⟨⟨own, _⟩, _⟩, _⟩, _⟩, _⟩, _⟩, _⟩, _⟩, _⟩, _⟩ := wf
  exact own

/-- A bridge record in its ranges stays so with another own address that may be set. -/
theorem BridgeRecord.wf_withOwn {b : BridgeRecord} (wf : b.wf = true) {a : Byte} (range : OwnInRange a) :
    BridgeRecord.wf { b with own := a } = true := by
  simp only [BridgeRecord.wf, Bool.and_eq_true, decide_eq_true_eq] at wf ⊢
  obtain ⟨⟨⟨⟨⟨⟨⟨⟨⟨⟨_, b0⟩, b1⟩, b2⟩, b3⟩, b4⟩, b5⟩, b6⟩, b7⟩, b8⟩, b9⟩ := wf
  exact ⟨⟨⟨⟨⟨⟨⟨⟨⟨⟨range, b0⟩, b1⟩, b2⟩, b3⟩, b4⟩, b5⟩, b6⟩, b7⟩, b8⟩, b9⟩

theorem SegRecord.default_wf (straps : Straps) (g : Seg) : (SegRecord.default straps g).wf = true := rfl

/-- Every address the strap pins give may be set (R155). -/
theorem BridgeRecord.default_wf (straps : Straps) : (BridgeRecord.default straps).wf = true := by
  obtain ⟨a, b, c⟩ := straps
  have range : OwnInRange (0xF0#8 + a.setWidth 8) := by
    unfold OwnInRange
    rw [BitVec.toNat_add, BitVec.toNat_setWidth]
    have := a.isLt
    norm_num
    omega
  exact BridgeRecord.wf_withOwn (b := BridgeRecord.default ⟨0, false, 0⟩) (by decide) range

/-- With any straps the settings are in range, and S0 is Upstream (R153 to R155, R158). -/
theorem Settings.default_lawful (straps : Straps) : (Settings.default straps).Lawful := by
  refine ⟨fun g => ?_, BridgeRecord.default_wf straps, .s0, ?_⟩
  · simp only [Settings.default, PerSeg.get_tabulate]
    exact ⟨SegRecord.default_wf straps g, SegRecord.default_wf straps g⟩
  · simp only [Settings.default, PerSeg.get_tabulate]
    rfl

/-- Nothing is on its way where the lanes and the caches are empty. -/
theorem State.not_conveys (lanes : s.egress = PerSeg.const Egress.empty) (caches : s.mgmt.caches = PerSeg.const none)
    (a : Byte) : ¬ s.Conveys a := by
  rintro (⟨g, c, copy, _⟩ | ⟨g, c, cached, _⟩)
  · rw [lanes, PerSeg.get_const] at copy
    cases copy
  · rw [caches, PerSeg.get_const] at cached
    cases cached

/-- The settings of the straps, no lease and nothing on its way: both laws hold. -/
theorem State.CarriesConfiguration.of_default (straps : Straps) (settings : t.settings = Settings.default straps)
    (lease : t.lease = none) (lanes : t.egress = PerSeg.const Egress.empty) (caches : t.mgmt.caches = PerSeg.const none) :
    s.CarriesConfiguration t := by
  refine ⟨fun _ l held => ?_, fun _ => ?_⟩
  · rw [lease] at held
    cases held
  · rw [State.settingsLawful_iff, settings]
    exact ⟨Settings.default_lawful straps, fun a conveys => absurd conveys (State.not_conveys lanes caches a)⟩

theorem State.trafficRestart_keepsConfiguration (s : State) : s.KeepsConfiguration s.trafficRestart n := by
  refine .of_lanes rfl rfl rfl fun g => ?_
  change ((PerSeg.const Egress.empty).get g).replyLane ⊆ _
  rw [PerSeg.get_const]
  exact List.nil_subset _

/-- The settings change with the active records and the lease as they are. -/
theorem State.CarriesConfiguration.of_settings (active : t.settings.active = s.settings.active) (lease : t.lease = s.lease)
    (lawful : s.settings.Lawful → t.settings.Lawful) (conveys : ∀ a, t.Conveys a → s.Conveys a) :
    s.CarriesConfiguration t := by
  refine ⟨fun law l held => ?_, fun before => ?_⟩
  · rw [State.active, active]
    exact law l (lease ▸ held)
  · rw [State.settingsLawful_iff] at before ⊢
    exact ⟨lawful before.1, fun a out => before.2 a (conveys a out)⟩

/-! ### The deferred effects (R135, R136) -/

/-- No copy is armed, and the caches are empty: the changed own address is in range (R136, R155). -/
theorem State.changeOwn_carriesConfiguration (s : State) {a : Byte} (range : OwnInRange a) :
    s.CarriesConfiguration (s.changeOwn a) := by
  refine .of_settings rfl rfl (fun lawful => ⟨lawful.1, BridgeRecord.wf_withOwn lawful.2.1 range, lawful.2.2⟩) ?_
  rintro b (⟨g, c, copy, x, armed, _⟩ | ⟨g, c, cached, _⟩)
  · simp only [State.changeOwn, State.disarmAll, PerSeg.get_tabulate] at copy
    obtain ⟨_, _, rfl⟩ := List.mem_map.1 copy
    cases armed
  · simp only [State.changeOwn, PerSeg.get_const] at cached
    cases cached

/-- What a cache is left with at the send completion of its reply's copy conveys nothing new (R135). -/
theorem CacheEntry.clearDeferred_own {x : Armed} {c : CacheEntry} {a : Byte}
    (deferred : (c.clearDeferred x).deferred = some (.ownAddress a)) : c.deferred = some (.ownAddress a) := by
  unfold CacheEntry.clearDeferred at deferred
  split at deferred
  · cases deferred
  · exact deferred

/-- An armed effect is taken (R135), an own address change to an address in range. -/
theorem State.takeDeferred_carriesConfiguration (s : State) (g : Seg) {x : Armed}
    (own : ∀ a, x.effect = .ownAddress a → OwnInRange a) : s.CarriesConfiguration (s.takeDeferred g x) := by
  have cleared : s.KeepsConfiguration { s with mgmt := { s.mgmt with
      caches := s.mgmt.caches.set g ((s.mgmt.caches.get g).map (CacheEntry.clearDeferred x)) } } none := by
    refine .of_cache rfl rfl rfl rfl fun c a held deferred => ?_
    obtain ⟨before, cached, rfl⟩ := Option.map_eq_some_iff.1 held
    exact .inl (.inr ⟨g, before, cached, CacheEntry.clearDeferred_own deferred⟩)
  unfold State.takeDeferred
  refine cleared.plain.trans ?_
  split
  · exact .of_default s.straps rfl rfl rfl rfl
  · exact (State.trafficRestart_keepsConfiguration _).plain
  next a effect => exact State.changeOwn_carriesConfiguration _ (own a effect)

/-- Whatever own address is set, no lease is taken by it. -/
theorem State.takeDeferred_leaseLaw (s : State) (g : Seg) (x : Armed) (law : s.LeaseLaw) :
    (s.takeDeferred g x).LeaseLaw := by
  unfold State.takeDeferred
  dsimp only
  split
  · exact nofun
  · exact law
  · exact law

/-- The effect armed on the item in hand is on its way (R135). -/
theorem Egress.conveys_of_armedOn {i : Item} {x : Armed} {a : Byte} (armed : (s.egress.get g).armedOn i = some x)
    (effect : x.effect = .ownAddress a) : s.Conveys a := by
  unfold Egress.armedOn at armed
  split at armed
  · obtain ⟨c, found, arms⟩ := Option.bind_eq_some_iff.1 armed
    exact .inl ⟨g, c, List.mem_of_find?_eq_some found, x, arms, effect⟩
  all_goals cases armed

theorem State.sendCompleted_carriesConfiguration (s : State) (g : Seg) : s.CarriesConfiguration (s.sendCompleted g) := by
  unfold State.sendCompleted
  split
  · exact .refl s
  next h _ =>
    have dropped : s.KeepsConfiguration ((s.dropItem g h.item).count g .framesSent) none :=
      (s.dropItem_keepsConfiguration g h.item).same rfl rfl rfl rfl
    have reported : s.KeepsConfiguration (if s.isRequestCopy h.item = true
        then ((s.dropItem g h.item).count g .framesSent).copyCompleted g
        else (s.dropItem g h.item).count g .framesSent) none := by
      split
      · exact dropped.trans (State.copyCompleted_keepsConfiguration _ g)
      · exact dropped
    dsimp only
    split
    next x armed =>
      have settles := fun v : State => (v.settlePendingOwn_keepsConfiguration (n := none)).plain
      refine ⟨fun law => (settles _).lease (State.takeDeferred_leaseLaw _ g x (reported.plain.lease law)), fun lawful => ?_⟩
      have range : ∀ a, x.effect = .ownAddress a → OwnInRange a := fun a effect =>
        (s.settingsLawful_iff.1 lawful).2 a (Egress.conveys_of_armedOn armed effect)
      exact ((reported.plain.trans (State.takeDeferred_carriesConfiguration _ g range)).trans (settles _)).settings lawful
    · exact reported.plain

theorem State.endTail_carriesConfiguration (s : State) (g : Seg) : s.CarriesConfiguration (s.endTail g) := by
  unfold State.endTail
  dsimp only
  split
  · exact (State.KeepsConfiguration.trans (s := s) (t := s.releaseLine g) (.of_same rfl rfl rfl rfl)
      (State.backOff_keepsConfiguration _ g)).plain
  · refine .trans (t := (s.releaseLine g).setEgress g _) (State.KeepsConfiguration.plain ?_)
      (State.sendCompleted_carriesConfiguration _ g)
    exact .of_egress (g := g) rfl rfl rfl rfl (List.Subset.refl _)

/-! ### Settings applies (R158 to R160, R162) -/

theorem State.changeRole_keepsConfiguration (s : State) (g : Seg) (before after : Role) :
    s.KeepsConfiguration (s.changeRole g before after) n := by
  unfold State.changeRole
  split
  · exact .refl s
  · split
    · exact .same (.trans (t := s.unlearnSegment g) (.of_same rfl rfl rfl rfl) (State.pruneWaiting_keepsConfiguration _ g))
        rfl rfl rfl rfl
    · refine (s.abandonLive_keepsConfiguration g).trans ?_
      rw [State.flushBulk_eq]
      exact .of_egress (g := g) rfl rfl rfl rfl (List.Subset.refl _)
    · exact .refl s

/-- The settings stay in range through an apply whose quiet point leaves a segment Upstream (R153, R158). -/
theorem Settings.apply_lawful (lawful : s.settings.Lawful) (up : s.upstreamAfter g = true) :
    (s.settings.apply g).Lawful := by
  obtain ⟨records, bridge, _⟩ := lawful
  have active : ∀ h, (s.settings.apply g).active.get h = if h = g then s.settings.staged.get h else s.active h := by
    intro h
    refine (PerSeg.get_set _ _ _ _).trans ?_
    split
    next here => rw [here]
    next => rfl
  refine ⟨fun h => ⟨?_, (records h).2⟩, bridge, ?_⟩
  · rw [active]
    split
    · exact (records h).2
    · exact (records h).1
  · obtain ⟨h, _, role⟩ := List.any_eq_true.1 up
    exact ⟨h, (congrArg SegRecord.role (active h)).trans (eq_of_beq role)⟩

/-- An apply drops the lease of a segment it leaves without access (R159, R162). -/
theorem State.applyLease_leaseLaw (s : State) (g : Seg)
    (others : ∀ l, s.lease = some l → l.holder ≠ g → (s.active l.holder).mgmtAccess = true) :
    (s.applyLease g (s.active g)).LeaseLaw := by
  intro l held
  unfold State.applyLease at held ⊢
  split at held
  · unfold State.dropLeaseOf at held
    split at held
    next none_ =>
      rw [none_] at held
      cases held
    next k has =>
      split at held
      · cases held
      next other =>
        obtain rfl : k = l := Option.some.inj (has.symm.trans held)
        obtain ⟨l', v, only⟩ := s.dropLeaseOf_only g 1
        rw [if_pos ‹_›, only]
        exact others k has other
  next access =>
    rw [if_neg access]
    rw [not_or, Bool.not_eq_false] at access
    by_cases here : l.holder = g
    · rw [here]
      exact access.1
    · exact others l held here

theorem State.applyLease_settingsLawful (s : State) (g : Seg) (after : SegRecord) (lawful : s.SettingsLawful) :
    (s.applyLease g after).SettingsLawful := by
  unfold State.applyLease
  split
  · exact (s.dropLeaseOf_carriesConfiguration g 1).settings lawful
  · exact lawful

/-- An apply at its quiet point (R158, R159, R162). -/
theorem State.applySettings_carriesConfiguration (s : State) (g : Seg) (up : s.upstreamAfter g = true) :
    s.CarriesConfiguration (s.applySettings g) := by
  have changed : ∀ u : LineUnit, State.KeepsConfiguration { s with settings := s.settings.apply g }
      (State.changeRole (State.setLine { s with settings := s.settings.apply g } g u) g (s.active g).role
        (s.settings.staged.get g).role) none := fun u =>
    .trans (t := State.setLine { s with settings := s.settings.apply g } g u) (.of_same rfl rfl rfl rfl)
      (State.changeRole_keepsConfiguration _ g _ _)
  have ends : ∀ v : State, State.KeepsConfiguration { s with settings := s.settings.apply g } v none →
      s.CarriesConfiguration ((v.applyLease g (s.settings.staged.get g)).raise .segmentApplied (some g) none
        (s.settings.staged.get g).role.code) := by
    intro v kept
    have raised := fun u : State => State.CarriesConfiguration.of_same (s := u)
      (t := u.raise .segmentApplied (some g) none (s.settings.staged.get g).role.code) rfl rfl rfl rfl
    have active : ∀ h, v.active h = (s.settings.apply g).active.get h := fun h => by rw [State.active, kept.settings]
    refine ⟨fun law => (raised _).lease ?_, fun lawful => (raised _).settings (v.applyLease_settingsLawful g _ ?_)⟩
    · have here : v.active g = s.settings.staged.get g := (active g).trans ((PerSeg.get_set _ _ _ _).trans (if_pos rfl))
      rw [← here]
      refine v.applyLease_leaseLaw g fun l held other => ?_
      rw [active]
      have same : (s.settings.apply g).active.get l.holder = s.active l.holder :=
        (PerSeg.get_set _ _ _ _).trans (if_neg other)
      rw [same]
      exact law l (kept.lease ▸ held)
    · rw [State.settingsLawful_iff] at lawful
      refine kept.plain.settings ((State.settingsLawful_iff _).2 ⟨Settings.apply_lawful lawful.1 up, ?_⟩)
      exact lawful.2
  exact ends _ (changed _)

end

end Sys2Proof.Machine
end

