-- ==== Sys2Proof/Proofs/ConfigurationLaws.lean ====
section
/-!
The lease law and the ranges of the settings (R4, R153, R155, R158, R162), concluded: the management engine, which alone
writes settings, takes leases and sets own addresses on their way, and every step.
-/

namespace Sys2Proof.Machine

section
variable {s t : State} {n : Option Deferred} {r : Fin Config.numTxns}

/-! ### Replies and their caches (R103, R132 to R135) -/

theorem ReplyCopy.not_sets_disarmOwn (c : ReplyCopy) (a : Byte) : ¬ c.disarmOwn.Sets a := by
  rintro ⟨x, armed, effect⟩
  unfold ReplyCopy.disarmOwn at armed
  split at armed
  next y before =>
    split at armed
    · cases armed
    next restarts =>
      obtain rfl : y = x := Option.some.inj (before.symm.trans armed)
      rw [restarts] at effect
      cases effect
  next none_ =>
    rw [none_] at armed
    cases armed

/-- Where the own address changes are disarmed, no lane conveys one (R135). -/
theorem State.Conveys.of_disarmOwn {a : Byte} (conveys : s.disarmOwn.Conveys a) : s.Conveys a := by
  obtain ⟨g, c, copy, sets⟩ | cached := conveys
  · simp only [State.disarmOwn, PerSeg.get_tabulate] at copy
    obtain ⟨before, _, rfl⟩ := List.mem_map.1 copy
    exact absurd sets (before.not_sets_disarmOwn a)
  · exact .inr cached

theorem State.handOver_keepsConfiguration (s : State) (g : Seg) (reply : List Byte) {armed : Option Armed}
    (carries : ∀ x, armed = some x → n = some x.effect) : s.KeepsConfiguration (s.handOver g reply armed) n := by
  unfold State.handOver
  split
  · exact .of_same rfl rfl rfl rfl
  next d st _ =>
    exact .trans (t := { s with store := st }) (.of_same rfl rfl rfl rfl) (State.offerReply_keepsConfiguration _ g d carries)

/-- An execution ends with no own address on its way but the one its reply is armed with (R134, R135). -/
theorem State.endExecution_keepsConfiguration (s : State) (r : Fin Config.numTxns) (reply : List Byte)
    {armed : Option Armed} (carries : ∀ x, armed = some x → n = some x.effect) :
    s.KeepsConfiguration (s.endExecution r reply armed) n := by
  have ends : ∀ v : State, s.KeepsConfiguration v n →
      s.KeepsConfiguration (v.freeRecord r).idleEngine.settlePendingOwn n := fun v kept =>
    .trans (t := (v.freeRecord r).idleEngine) (kept.same rfl rfl rfl rfl) (State.settlePendingOwn_keepsConfiguration _)
  unfold State.endExecution
  split
  · exact .trans (t := s.idleEngine) (.of_same rfl rfl rfl rfl) (State.settlePendingOwn_keepsConfiguration _)
  next t _ =>
    have dropped := s.dropRequest_keepsConfiguration t (n := n)
    dsimp only
    rw [State.closeFree _ r (by split <;> rfl)]
    refine ends _ ?_
    split
    · exact dropped
    · exact dropped.trans (State.handOver_keepsConfiguration _ t.origin reply carries)

/-- A reply's copy is armed with the effect its cache holds (R133, R135). -/
theorem CacheEntry.effect_of_armed {c : CacheEntry} {x : Armed} (armed : c.armed = some x) :
    c.deferred = some x.effect := by
  obtain ⟨e, deferred, rfl⟩ := Option.map_eq_some_iff.1 armed
  exact deferred

theorem State.finishCached_keepsConfiguration (s : State) (r : Fin Config.numTxns) (t : Txn) (p : Reply) :
    s.KeepsConfiguration (s.finishCached r t p) p.deferred := by
  have cached : s.KeepsConfiguration
      (s.setCache t.origin (some ⟨t.command, t.sequence, s.buildReply t p, p.deferred⟩)) p.deferred :=
    .of_cache rfl rfl rfl rfl fun c a held deferred => .inr (by
      obtain rfl := Option.some.inj held
      exact deferred)
  exact cached.trans (State.endExecution_keepsConfiguration _ r _ fun _ => CacheEntry.effect_of_armed)

/-- A reply with no deferred effect (R135). -/
theorem State.finishCached_carriesConfiguration (s : State) (r : Fin Config.numTxns) (t : Txn) (status : Status)
    (results : List Byte) : s.CarriesConfiguration (s.finishCached r t ⟨status, results, none⟩) :=
  (s.finishCached_keepsConfiguration r t ⟨status, results, none⟩).plain

theorem State.refuseUncached_keepsConfiguration (s : State) (r : Fin Config.numTxns) (t : Txn) (status : Status) :
    s.KeepsConfiguration (s.refuseUncached r t status) n :=
  .trans (t := { s with mgmt := { s.mgmt with buffer := s.buildReply t ⟨status, [], none⟩ } }) (.of_same rfl rfl rfl rfl)
    (State.endExecution_keepsConfiguration _ r _ nofun)

theorem State.pendAgain_keepsConfiguration (s : State) (a : Byte) : s.KeepsConfiguration (s.pendAgain a) n := by
  unfold State.pendAgain
  split
  · exact .refl s
  · exact ⟨rfl, rfl, fun _ conveys => .inl (State.Conveys.of_disarmOwn conveys)⟩

/-- A reply from the cache brings on its way only what the cache held (R133, R135). -/
theorem State.answerCached_carriesConfiguration {c : CacheEntry} {g : Seg} (cached : s.mgmt.caches.get g = some c) :
    s.CarriesConfiguration (s.answerCached r c) := by
  have keeps : s.KeepsConfiguration (s.answerCached r c) c.deferred := by
    unfold State.answerCached
    refine .trans ?_ (State.endExecution_keepsConfiguration _ r _ fun _ => CacheEntry.effect_of_armed)
    split
    · exact s.pendAgain_keepsConfiguration _
    · exact .refl s
    · exact .refl s
  exact keeps.carries fun lawful a deferred => (s.settingsLawful_iff.1 lawful).2 a (.inr ⟨g, c, cached, deferred⟩)

/-- A Local is answered from the cache of its origin (R131, R133). -/
theorem State.cached_of_cacheMatch {t : Txn} {c : CacheEntry} (found : s.cacheMatch t = some c) :
    s.mgmt.caches.get t.origin = some c := by
  unfold State.cacheMatch at found
  split at found
  · cases found
  next k held =>
    have same : k = c := by
      split at found
      · split at found
        · split at found
          · exact Option.some.inj found
          · cases found
        · exact Option.some.inj found
        · exact Option.some.inj found
      · cases found
    exact same ▸ held

/-! ### Carrying a command out (R131) -/

/-- The deferred effect of the reply a command is carried out with (R135). -/
def Carried.deferred : Carried → Option Deferred
  | .replied _ p => p.deferred
  | .working _ _ => none

/-- A command carried out passes both laws on, and its reply defers no own address out of range (R144, R155). -/
structure State.FitsConfiguration (s : State) (c : Carried) : Prop where
  state : s.CarriesConfiguration c.state
  own : ∀ a, c.deferred = some (.ownAddress a) → OwnInRange a

theorem State.FitsConfiguration.answer {status : Status} {results : List Byte} (carries : s.CarriesConfiguration t) :
    s.FitsConfiguration (.answer t status results) := ⟨carries, nofun⟩

/-- A command that changes nothing, and defers no own address. -/
theorem State.FitsConfiguration.of_state {c : Carried} (same : c.state = s) (own : ∀ a, c.deferred ≠ some (.ownAddress a)) : s.FitsConfiguration c :=
  ⟨same ▸ .refl _, fun a deferred => absurd deferred (own a)⟩

theorem State.checked_carriesConfiguration (s : State) (r : Fin Config.numTxns) (t : Txn)
    {after : State → List Byte → State} (follows : ∀ args, s.CarriesConfiguration (after s args)) :
    s.CarriesConfiguration (s.checked r t after) := by
  unfold State.checked
  dsimp only
  split
  · exact (s.refuseUncached_keepsConfiguration r t _).plain
  · split
    · exact (s.refuseUncached_keepsConfiguration r t _).plain
    · split
      next c found => exact State.answerCached_carriesConfiguration (State.cached_of_cacheMatch found)
      · exact follows _

theorem State.carryOut_carriesConfiguration (s : State) (r : Fin Config.numTxns) (t : Txn) (args : List Byte)
    (c : MgmtCommand) {carry : Carry} (fits : s.FitsConfiguration (carry s t.origin args)) :
    s.CarriesConfiguration (s.carryOut r t args c carry) := by
  unfold State.carryOut
  split
  · split
    · exact s.finishCached_carriesConfiguration r t _ _
    · split
      next v p result =>
        rw [result] at fits
        exact .trans (t := v) fits.state ((v.finishCached_keepsConfiguration r t p).carries fun _ => fits.own)
      next v w result =>
        rw [result] at fits
        exact .trans (t := v) fits.state (.of_same rfl rfl rfl rfl)
  · exact (s.refuseUncached_keepsConfiguration r t _).plain

theorem State.dequeue_carriesConfiguration (s : State) : s.CarriesConfiguration s.dequeue :=
  (.of_same rfl rfl rfl rfl)

theorem State.takeLocal_carriesConfiguration (s : State) (c : MgmtCommand) {carry : Carry}
    (fits : ∀ (s : State) g args, s.FitsConfiguration (carry s g args)) : s.CarriesConfiguration (s.takeLocal c carry) := by
  unfold State.takeLocal
  split
  · exact .refl s
  next r t _ =>
    exact s.dequeue_carriesConfiguration.trans (s.dequeue.checked_carriesConfiguration r t fun args =>
      s.dequeue.carryOut_carriesConfiguration r t args c (fits _ _ _))

theorem State.takeUnknown_carriesConfiguration (s : State) : s.CarriesConfiguration s.takeUnknown := by
  unfold State.takeUnknown
  split
  · exact .refl s
  next r t _ =>
    exact s.dequeue_carriesConfiguration.trans (s.dequeue.checked_carriesConfiguration r t fun _ =>
      s.dequeue.finishCached_carriesConfiguration r t _ _)

/-! ### Work of several claims (R17, R139, R145) -/

theorem State.readStations_carriesConfiguration (s : State) (k : Nat) : s.CarriesConfiguration (s.readStations k) := by
  unfold State.readStations
  split
  · dsimp only
    split
    · split
      · exact s.finishCached_carriesConfiguration _ _ _ _
      · exact (.of_same rfl rfl rfl rfl)
    · exact (.of_same rfl rfl rfl rfl)
  all_goals exact .refl s

theorem State.readCounterBlock_carriesConfiguration (s : State) (k : Nat) :
    s.CarriesConfiguration (s.readCounterBlock k) := by
  unfold State.readCounterBlock
  split
  next r clear code next left acc _ =>
    dsimp only
    generalize zeroed : (if clear = true then { s with counters := s.counters.zeroBlock code next (min k left) } else s) = v
    have kept : s.KeepsConfiguration v none := by
      rw [← zeroed]
      split <;> exact .of_same rfl rfl rfl rfl
    split
    · split
      · exact kept.plain.trans (v.finishCached_carriesConfiguration _ _ _ _)
      · exact .trans kept.plain (.of_same rfl rfl rfl rfl)
    · exact .trans kept.plain (.of_same rfl rfl rfl rfl)
  all_goals exact .refl s

theorem State.walkVisit_carriesConfiguration (s : State) : s.CarriesConfiguration s.walkVisit := by
  unfold State.walkVisit
  split
  next r start cursor mask cleared _ =>
    dsimp only
    generalize visited : (if (s.entry cursor).learnedIn mask = true then s.putEntry cursor .unassigned else s) = v
    have kept : s.KeepsConfiguration v none := by
      rw [← visited]
      split <;> exact .of_same rfl rfl rfl rfl
    have raised : ∀ k, s.KeepsConfiguration (v.raise .bulkUnlearn none none k) none := fun _ => kept.same rfl rfl rfl rfl
    split
    · split
      · exact (raised _).plain.trans (State.finishCached_carriesConfiguration _ _ _ _ _)
      · exact .trans kept.plain (.of_same rfl rfl rfl rfl)
    · exact .trans kept.plain (.of_same rfl rfl rfl rfl)
  all_goals exact .refl s

/-! ### The commands (R137 to R152) -/

theorem carryWriteStation_fitsConfiguration (s : State) (g : Seg) (args : List Byte) : s.FitsConfiguration (carryWriteStation s g args) := by
  unfold carryWriteStation
  split
  · exact .answer (.refl s)
  · exact .answer (.of_same rfl rfl rfl rfl)

theorem carryReadStationRange_fitsConfiguration (s : State) (g : Seg) (args : List Byte) :
    s.FitsConfiguration (carryReadStationRange s g args) := by
  refine .of_state (carryReadStationRange_state s g args) fun a => ?_
  unfold carryReadStationRange
  dsimp only
  split <;> exact nofun

theorem carryClearLearned_fitsConfiguration (s : State) (g : Seg) (args : List Byte) : s.FitsConfiguration (carryClearLearned s g args) := by
  refine .of_state (carryClearLearned_state s g args) fun a => ?_
  unfold carryClearLearned
  split
  · exact nofun
  · split <;> exact nofun

theorem carryReadSegment_fitsConfiguration (s : State) (g : Seg) (args : List Byte) : s.FitsConfiguration (carryReadSegment s g args) := by
  refine .of_state (carryReadSegment_state s g args) fun a => ?_
  unfold carryReadSegment
  split
  · exact nofun
  · split
    · exact nofun
    · split <;> exact nofun

/-- A staged record is written only where its characters read, in range (R142, R153). -/
theorem carryWriteSegment_fitsConfiguration (s : State) (g : Seg) (args : List Byte) : s.FitsConfiguration (carryWriteSegment s g args) := by
  unfold carryWriteSegment
  split
  next u rec _ read =>
    split
    · refine .answer (.of_settings rfl rfl (fun lawful => ⟨fun h => ⟨(lawful.1 h).1, ?_⟩, lawful.2⟩) fun _ => id)
      rw [PerSeg.get_set]
      split
      · exact (SegRecord.of_decode read).1
      · exact (lawful.1 h).2
    · exact .answer (.refl s)
  · exact .answer (.refl s)

theorem carryApplySegment_fitsConfiguration (s : State) (g : Seg) (args : List Byte) : s.FitsConfiguration (carryApplySegment s g args) := by
  unfold carryApplySegment
  split
  · exact .answer (.refl s)
  · split
    · exact .answer (.refl s)
    · split
      · exact .answer (.of_settings rfl rfl id fun _ => id)
      · exact .answer (.refl s)

/-- The bridge record is written with its own address kept, and the copies disarmed (R4, R135, R144). -/
theorem State.storeBridge_carriesConfiguration (s : State) {b : BridgeRecord} (wf : b.wf = true) (a : Option Byte) :
    s.CarriesConfiguration ((s.storeBridge b).setPendingOwn a) :=
  .of_settings rfl rfl
    (fun lawful => ⟨lawful.1, BridgeRecord.wf_withOwn wf (BridgeRecord.own_inRange lawful.2.1), lawful.2.2⟩)
    fun _ conveys => State.Conveys.of_disarmOwn (s := s) conveys

/-- A new own address becomes pending only where it reads, in range (R4, R144, R155). -/
theorem carryWriteBridge_fitsConfiguration (s : State) (g : Seg) (args : List Byte) : s.FitsConfiguration (carryWriteBridge s g args) := by
  unfold carryWriteBridge
  split
  · exact .answer (.refl s)
  next b read =>
    have wf := (BridgeRecord.of_decode read).1
    split
    · exact .answer (s.storeBridge_carriesConfiguration wf none)
    · split
      · refine ⟨s.storeBridge_carriesConfiguration wf _, fun a deferred => ?_⟩
        obtain rfl : b.own = a := by injection Option.some.inj deferred
        exact BridgeRecord.own_inRange wf
      · exact .answer (.refl s)

theorem carryCounters_fitsConfiguration (clear : Bool) (s : State) (g : Seg) (args : List Byte) :
    s.FitsConfiguration (carryCounters clear s g args) := by
  refine .of_state (carryCounters_state clear s g args) fun a => ?_
  unfold carryCounters
  dsimp only
  split <;> exact nofun

theorem carryReadEvents_fitsConfiguration (s : State) (g : Seg) (args : List Byte) : s.FitsConfiguration (carryReadEvents s g args) := by
  unfold carryReadEvents
  dsimp only
  split
  · exact .answer (.of_same rfl rfl rfl rfl)
  · exact .answer (.refl s)

/-- A lease is taken only by a segment with access (R148, R162). -/
theorem State.holdLease_carriesConfiguration (s : State) {g : Seg} (access : (s.active g).mgmtAccess = true) (k : Byte) :
    s.CarriesConfiguration (s.holdLease g k) := by
  refine .of_lease rfl rfl rfl fun l held => .inr ?_
  obtain rfl := Option.some.inj held
  exact access

theorem carryTakeLease_fitsConfiguration (s : State) (g : Seg) (args : List Byte) : s.FitsConfiguration (carryTakeLease s g args) := by
  unfold carryTakeLease
  dsimp only
  split
  · exact .answer (.refl s)
  · split
    · exact .answer (.refl s)
    next access =>
      have held := s.holdLease_carriesConfiguration (Bool.not_eq_false _ ▸ access) (arg args 0)
      split
      · exact .answer (held.trans (.of_same rfl rfl rfl rfl))
      · split
        · exact .answer held
        · exact .answer (.refl s)

theorem carryDropLease_fitsConfiguration (s : State) (g : Seg) (args : List Byte) : s.FitsConfiguration (carryDropLease s g args) := by
  unfold carryDropLease
  split
  · exact .answer (.refl s)
  · split
    · exact .answer (s.dropLeaseOf_carriesConfiguration g 0)
    · exact .answer (.refl s)

theorem carryRestart_fitsConfiguration (s : State) (g : Seg) (args : List Byte) : s.FitsConfiguration (carryRestart s g args) := by
  refine .of_state (carryRestart_state s g args) fun a => ?_
  unfold carryRestart
  split
  · exact nofun
  · split <;> exact nofun

theorem carryRestartSegment_fitsConfiguration (s : State) (g : Seg) (args : List Byte) : s.FitsConfiguration (carryRestartSegment s g args) := by
  unfold carryRestartSegment
  split
  · exact .answer (.refl s)
  · split
    · exact .answer (.refl s)
    · exact .answer (s.segmentRestart_carriesConfiguration _)

/-! ### Every step -/

/-- An event carries both laws where its effect does at the moment it falls due. -/
theorem State.takeEvent_carriesConfiguration {due : Option Nat} {effect : State → State}
    (taken : s.takeEvent due effect = .next t)
    (carries : ∀ m, due = some m → (s.advance m).CarriesConfiguration (effect (s.advance m))) :
    s.CarriesConfiguration t := by
  rcases State.takeEvent_cases taken with rfl | ⟨m, falls, rfl⟩
  · exact .refl _
  · exact .trans (t := s.advance m) (.of_same rfl rfl rfl rfl) (carries m falls)

/-- An event that keeps the configuration. -/
theorem State.takeEvent_keepsConfiguration {due : Option Nat} {effect : State → State}
    (taken : s.takeEvent due effect = .next t) (keeps : ∀ u : State, u.KeepsConfiguration (effect u) none) :
    s.CarriesConfiguration t :=
  State.takeEvent_carriesConfiguration taken fun _ _ => (keeps _).plain

/-- A management row whose command fits. -/
theorem State.command_carriesConfiguration {c : MgmtCommand} {carry : Carry} (taken : s.command c carry = .next t)
    (fits : ∀ (s : State) g args, s.FitsConfiguration (carry s g args)) : s.CarriesConfiguration t :=
  State.takeEvent_carriesConfiguration taken fun _ _ => State.takeLocal_carriesConfiguration _ c fits

/-- A management row that only answers. -/
theorem State.command_reads {c : MgmtCommand} {carry : Carry} (taken : s.command c carry = .next t)
    (reads : ∀ (s : State) g args, ∃ status results, carry s g args = .answer s status results) :
    s.CarriesConfiguration t :=
  State.command_carriesConfiguration taken fun u g args =>
    (reads u g args).elim fun _ answers => answers.elim fun _ same => same ▸ .answer (.refl u)

theorem State.responseTimer_keepsConfiguration (s : State) (r : Fin Config.numTxns) :
    s.KeepsConfiguration (s.responseTimer r) n := by
  unfold State.responseTimer
  split
  · exact .refl s
  · exact s.timeOut_keepsConfiguration r _

theorem State.agingTick_keepsConfiguration (s : State) : s.KeepsConfiguration s.agingTick n := by
  unfold State.agingTick
  dsimp only
  split <;> exact .of_same rfl rfl rfl rfl

theorem State.sweepVisit_keepsConfiguration (s : State) : s.KeepsConfiguration s.sweepVisit n := by
  unfold State.sweepVisit
  split
  · exact .refl s
  next w _ =>
    obtain ⟨b, l, h⟩ := s.sweepEntry_only w.cursor
    exact .of_same (by rw [h]) (by rw [h]) (by rw [h]) (by rw [h])

/-- An apply is taken at its quiet point, which leaves a segment Upstream (R158). -/
theorem State.upstreamAfter_of_applyDue {g : Seg} {m : Nat} (due : s.applyDue g = some m) : s.upstreamAfter g = true := by
  unfold State.applyDue at due
  split at due
  next quiet => exact ((Bool.and_eq_true _ _).mp quiet).2
  next => cases due

/-- Every command carries both laws. -/
theorem exec_carriesConfiguration {c : Instr} (taken : exec c s = .next t) : s.CarriesConfiguration t := by
  unfold exec at taken
  cases c with
  | characterComplete g x =>
    exact State.takeEvent_keepsConfiguration taken fun u => u.characterComplete_keepsConfiguration g x
  | breakFound g => exact State.takeEvent_keepsConfiguration taken fun u => u.breakFound_keepsConfiguration g
  | falseStart g => exact State.takeEvent_keepsConfiguration taken fun _ => .of_same rfl rfl rfl rfl
  | startWhileDriving g => exact State.takeEvent_keepsConfiguration taken fun u => u.startHeard_keepsConfiguration g
  | recoverEnd g => exact State.takeEvent_keepsConfiguration taken fun _ => .of_same rfl rfl rfl rfl
  | idleGapExpiry g => exact State.takeEvent_keepsConfiguration taken fun u => u.idleGap_keepsConfiguration g
  | arbiterScan =>
    exact State.takeEvent_keepsConfiguration taken fun u => State.scanFrom_keepsConfiguration u.txns.waiting u []
  | takeLine g => exact State.takeEvent_keepsConfiguration taken fun u => u.takeLine_keepsConfiguration g
  | leadGuardEnd g => exact State.takeEvent_keepsConfiguration taken fun u => u.endLead_keepsConfiguration g
  | characterSent g => exact State.takeEvent_keepsConfiguration taken fun u => u.characterSent_keepsConfiguration g
  | echoDeadline g => exact State.takeEvent_keepsConfiguration taken fun u => u.foundCollision_keepsConfiguration g
  | breakSent g => exact State.takeEvent_keepsConfiguration taken fun u => u.breakSent_keepsConfiguration g
  | tailGuardEnd g straps =>
    exact State.takeEvent_carriesConfiguration taken fun m _ =>
      .trans (t := { s.advance m with straps := straps })
        (.of_same rfl rfl rfl rfl) (State.endTail_carriesConfiguration _ g)
  | backoffEnd g =>
    exact State.takeEvent_keepsConfiguration taken fun _ => .setEgress (List.Subset.refl _)
  | responseTimerExpiry r => exact State.takeEvent_keepsConfiguration taken fun u => u.responseTimer_keepsConfiguration r
  | agingTick => exact State.takeEvent_keepsConfiguration taken State.agingTick_keepsConfiguration
  | sweepVisit => exact State.takeEvent_keepsConfiguration taken State.sweepVisit_keepsConfiguration
  | walkVisit => exact State.takeEvent_carriesConfiguration taken fun _ _ => State.walkVisit_carriesConfiguration _
  | leaseExpiry => exact State.takeEvent_carriesConfiguration taken fun _ _ => State.expireLease_carriesConfiguration _
  | settingsApply g =>
    exact State.takeEvent_carriesConfiguration taken fun m falls =>
      State.applySettings_carriesConfiguration (s.advance m) g (State.upstreamAfter_of_applyDue (s := s) falls)
  | identify => exact State.command_reads taken fun _ _ _ => ⟨_, _, rfl⟩
  | readStatus => exact State.command_reads taken fun _ _ _ => ⟨_, _, rfl⟩
  | readStation => exact State.command_reads taken fun _ _ _ => ⟨_, _, rfl⟩
  | writeStation => exact State.command_carriesConfiguration taken carryWriteStation_fitsConfiguration
  | readStationRange claims =>
    exact State.takeEvent_carriesConfiguration taken fun _ _ =>
      (State.takeLocal_carriesConfiguration _ _ carryReadStationRange_fitsConfiguration).trans
        (State.readStations_carriesConfiguration _ claims)
  | clearLearned => exact State.command_carriesConfiguration taken carryClearLearned_fitsConfiguration
  | readSegment => exact State.command_carriesConfiguration taken carryReadSegment_fitsConfiguration
  | writeSegment => exact State.command_carriesConfiguration taken carryWriteSegment_fitsConfiguration
  | applySegment => exact State.command_carriesConfiguration taken carryApplySegment_fitsConfiguration
  | writeBridge => exact State.command_carriesConfiguration taken carryWriteBridge_fitsConfiguration
  | readBridge => exact State.command_reads taken fun _ _ _ => ⟨_, _, rfl⟩
  | readCounters claims =>
    exact State.takeEvent_carriesConfiguration taken fun _ _ =>
      (State.takeLocal_carriesConfiguration _ _ (carryCounters_fitsConfiguration false)).trans
        (State.readCounterBlock_carriesConfiguration _ claims)
  | readClearCounters claims =>
    exact State.takeEvent_carriesConfiguration taken fun _ _ =>
      (State.takeLocal_carriesConfiguration _ _ (carryCounters_fitsConfiguration true)).trans
        (State.readCounterBlock_carriesConfiguration _ claims)
  | readEvents => exact State.command_carriesConfiguration taken carryReadEvents_fitsConfiguration
  | takeLease => exact State.command_carriesConfiguration taken carryTakeLease_fitsConfiguration
  | dropLease => exact State.command_carriesConfiguration taken carryDropLease_fitsConfiguration
  | restart => exact State.command_carriesConfiguration taken carryRestart_fitsConfiguration
  | restartSegment => exact State.command_carriesConfiguration taken carryRestartSegment_fitsConfiguration
  | echo => exact State.command_reads taken fun _ _ _ => ⟨_, _, rfl⟩
  | badCommand => exact State.takeEvent_carriesConfiguration taken fun _ _ => State.takeUnknown_carriesConfiguration _
  | powerOnRestart cause =>
    obtain rfl := Host.Outcome.next.inj taken
    cases cause <;> exact .of_default s.straps rfl rfl rfl rfl
  | powerOnRestartEnd straps =>
    obtain rfl := Host.Outcome.next.inj taken
    split
    · exact .of_default straps rfl rfl rfl rfl
    · exact .refl s
  | fallingEdge g => exact State.takeEvent_keepsConfiguration taken fun _ => .of_same rfl rfl rfl rfl

theorem State.idle_keepsConfiguration (s : State) : s.KeepsConfiguration s.idle n := by
  unfold State.idle
  split
  · exact .refl s
  · split <;> exact .of_same rfl rfl rfl rfl

theorem step_carriesConfiguration (stepped : step s = .next t) : s.CarriesConfiguration t := by
  unfold step at stepped
  split at stepped
  · exact Host.Outcome.next.inj stepped ▸ s.idle_keepsConfiguration.plain
  next c rest _ =>
    exact .trans (t := { s with pending := rest }) (.of_same rfl rfl rfl rfl)
      (exec_carriesConfiguration stepped)

end

/-- Settles O55: every step carries both laws, by the commands one by one. -/
theorem configurationLawsAreKept : Obligations.ConfigurationLawsAreKept :=
  ⟨fun _ _ law stepped => (step_carriesConfiguration stepped).lease law,
    fun _ _ law stepped => (step_carriesConfiguration stepped).settings law⟩

end Sys2Proof.Machine
end

