-- ==== Sys2Proof/Proofs/PowerOnHold.lean ====
section
/-!
A power-on restart in force (R163, R183): what POWER_ON_RESTART leaves, and that a held bridge takes no other event.
-/

namespace Sys2Proof.Machine

/-- A held bridge takes no event but those of the power-on restart itself (R163). -/
theorem exec_held {s : State} (held : s.held = true) {c : Instr} (starts : ∀ k, c ≠ .powerOnRestart k)
    (ends : ∀ x, c ≠ .powerOnRestartEnd x) : exec c s = .next s := by
  have command : ∀ (c : MgmtCommand) (carry : Carry), s.command c carry = .next s := fun _ _ =>
    State.takeEvent_held held _ _
  unfold exec
  cases c with
  | powerOnRestart k => exact absurd rfl (starts k)
  | powerOnRestartEnd x => exact absurd rfl (ends x)
  | identify | readStatus | readStation | writeStation | clearLearned | readSegment | writeSegment | applySegment
  | writeBridge | readBridge | readEvents | takeLease | dropLease | restart | restartSegment | echo => exact command _ _
  | _ => exact State.takeEvent_held held _ _

/-- Cleared, every record is free and every counter 0 (R52, R164, R180). -/
theorem State.clearAll_records (s : State) :
    (∀ r, s.clearAll.txn r = none) ∧ ∀ g i, s.clearAll.counters.read g i = 0 := by
  refine ⟨fun r => ?_, fun g i => ?_⟩
  · show (Vector.replicate Config.numTxns (none : Option Txn))[r] = none
    simp
  · show ((PerSeg.const (Vector.replicate 14 (0 : Word32))).get g)[i] = 0
    simp

/-- Cleared, a segment drives nothing, takes nothing and has nothing to send (R68, R164). -/
theorem State.clearAll_segment (s : State) (g : Seg) : (s.clearAll.lines.get g).de = false ∧ s.clearAll.txd g = true
    ∧ s.clearAll.receivers.get g = .hunt ∧ s.clearAll.egress.get g = Egress.empty := by
  have line : s.clearAll.lines.get g = LineUnit.started (SegRecord.default s.straps g) := PerSeg.get_tabulate _ g
  refine ⟨by rw [line]; rfl, ?_, PerSeg.get_const _ g, PerSeg.get_const _ g⟩
  rw [State.txd, line]
  rfl

/-- The store cleared holds every cell and every descriptor in its free lists (R106). -/
theorem Store.allFree_lists (cells : Vector (Vector Ch 16) Config.numCells) :
    (Store.allFree cells).freeCells.length = 128 ∧ (Store.allFree cells).freeDescs.length = 48 :=
  ⟨List.length_ofFn, List.length_ofFn⟩

/-- Settles O3: the commands one by one, and the two causes of a power-on restart. -/
theorem powerOnRestartHolds : Obligations.PowerOnRestartHolds := by
  refine ⟨fun c s held starts ends => exec_held held starts ends, fun k s => ?_⟩
  obtain ⟨records, counters⟩ := s.clearAll_records
  obtain ⟨cells, descs⟩ := Store.allFree_lists s.store.cells
  obtain ⟨p, q, row, held⟩ : ∃ p q, exec (.powerOnRestart k) s = .next { s.clearAll with rstN := p, supplyHold := q }
      ∧ State.held { s.clearAll with rstN := p, supplyHold := q } = true := by
    cases k with
    | resetPin => exact ⟨_, _, rfl, rfl⟩
    | supplyMonitor => exact ⟨_, _, rfl, Bool.or_true _⟩
  refine ⟨_, row, held, s.clearAll_segment, ?_, rfl, records, rfl, fun g => ⟨PerSeg.get_const _ g, PerSeg.get_const _ g⟩,
    rfl, rfl, rfl, rfl, StationTable.cleared_entry, rfl, cells, descs, rfl, counters, rfl, rfl, rfl⟩
  rw [State.attention, held]
  rfl

end Sys2Proof.Machine
end

