-- ==== Sys2Proof/Proofs/AppliesWithoutRoleChange.lean ====
section
/-!
SETTINGS_APPLY of a record that keeps the role, or of a segment that was Off (R158 to R160, R55, R162).
-/

namespace Sys2Proof.Machine

/-- The line unit at an apply, by the table of R55: only its receiver may change. -/
theorem LineUnit.applied_eq (u : LineUnit) (before after : SegRecord) (now : Nat) : u.applied before after now = { u with
    rx := if after.role = .off then .off
      else if before.role = .off then .recover now
      else if before.rate = after.rate ∧ before.parity = after.parity ∧ before.stopBits = after.stopBits then u.rx
      else .recover now } := by
  by_cases was : before.role = .off
  · unfold LineUnit.applied
    rw [if_pos was, if_pos was]
    split <;> rfl
  · rw [LineUnit.applied_on u was, if_neg was]

section
variable {s : State} {g : Seg}

/-- No consequence follows where the role stays, or was Off (R160). -/
theorem State.changeRole_still {before after : Role} (still : after = before ∨ before = .off) :
    s.changeRole g before after = s := by
  unfold State.changeRole
  rcases still with rfl | rfl
  · exact if_pos rfl
  · split <;> rfl

/-- Where the role stays, or was Off, the apply leaves whichever segment was Upstream so (R158). -/
theorem State.upstreamAfter_still
    (still : (s.settings.staged.get g).role = (s.active g).role ∨ (s.active g).role = .off)
    (up : ∃ h, (s.active h).role = .upstream) : s.upstreamAfter g = true := by
  obtain ⟨h, role⟩ := up
  refine List.any_eq_true.2 ⟨h, Seg.mem_all h, beq_iff_eq.2 ?_⟩
  split
  next here =>
    subst here
    rcases still with same | off
    · exact same.trans role
    · rw [off] at role
      cases role
  next => exact role

/-- The conditions of the quiet point (R158). -/
theorem State.quietPoint_of (marked : s.settings.applyPending.has g = true) (free : s.holder g = none)
    (hunts : s.receivers.get g = .hunt) (quiet : (s.egress.get g).state = .quiet)
    (lane : (s.egress.get g).replyLane = []) (slot : (s.egress.get g).slot = none) (up : s.upstreamAfter g = true) :
    s.quietPoint g = true := by
  simp only [State.quietPoint, marked, free, hunts, quiet, lane, slot, up, Option.isNone_none, beq_self_eq_true,
    List.isEmpty_nil, Bool.and_self]

end

/-- Settles O30: at the quiet point the record and the line unit change, then the lease, then SegmentApplied is raised. -/
theorem applyTakesTheStagedRecord : Obligations.ApplyTakesTheStagedRecord := by
  intro s g new dropped held marked free hunts quiet lane slot staged still up drops
  have due : s.applyDue g = some s.time :=
    if_pos (State.quietPoint_of marked free hunts quiet lane slot (State.upstreamAfter_still (staged ▸ still) up))
  change s.takeEvent (s.applyDue g) (fun s => s.applySettings g) = _
  rw [due, State.takeEvent_due held, State.advance_time, State.applySettings]
  dsimp only
  rw [← staged, State.changeRole_still still, State.applyLease_dropped
    (s := State.setLine { s with settings := s.settings.apply g } g _) (dropped := dropped) drops, LineUnit.applied_eq]
  subst staged
  rfl

end Sys2Proof.Machine
end

