-- ==== Sys2Proof/Proofs/EventsAndCounters.lean ====
section
/-!
A raise of an event and a raise of a counter (R169, R172, R174, R176).
-/

namespace Sys2Proof.Machine

/-! ### Counts that stay at their top (R172, R176) -/

/-- A counter raised stays at 4294967295 (R176). -/
theorem saturatingSucc_eq (w : Word32) : saturatingSucc w = BitVec.ofNat 32 (min 4294967295 (w.toNat + 1)) := by
  rw [saturatingSucc, show BitVec.allOnes 32 = 4294967295 from rfl]
  split
  next top =>
    rw [top]
    decide
  next below => bv_omega

/-- The count of lost events raised stays at 255 (R172). -/
theorem lostSucc_eq (n : Byte) : (if n = 255 then 255 else n + 1) = BitVec.ofNat 8 (min 255 (n.toNat + 1)) := by
  split
  next top =>
    rw [top]
    decide
  next below => bv_omega

/-! ### Events (R169, R172, R174) -/

section
variable {u : EventUnit} {mask : BitVec 16} {kind : EventKind}

/-- A kind that is off is not raised (R169). -/
theorem EventUnit.raise_masked (off : mask.getLsbD kind.code = false) (now : Word32) (g : Option Seg) (a : Option Byte)
    (d : Byte) : u.raise mask now kind g a d = u := by
  rw [EventUnit.raise, off, if_neg Bool.false_ne_true]

/-- The record joins the tail of a queue that has room (R169, R172). -/
theorem EventUnit.raise_queued (on : mask.getLsbD kind.code = true) (room : u.queue.length < 32) (now : Word32)
    (g : Option Seg) (a : Option Byte) (d : Byte) :
    u.raise mask now kind g a d = ⟨u.queue ++ [⟨u.nextSeq, now, kind, g, a, d⟩], u.nextSeq + 1, u.lost⟩ := by
  rw [EventUnit.raise, if_pos on]
  exact if_pos room

/-- At a full queue the record is dropped and counted, its sequence number used (R172). -/
theorem EventUnit.raise_dropped (on : mask.getLsbD kind.code = true) (full : 32 ≤ u.queue.length) (now : Word32)
    (g : Option Seg) (a : Option Byte) (d : Byte) : u.raise mask now kind g a d
      = ⟨u.queue, u.nextSeq + 1, BitVec.ofNat 8 (min 255 (u.lost.toNat + 1))⟩ := by
  rw [← lostSucc_eq, EventUnit.raise, if_pos on]
  exact if_neg (not_lt.2 full)

end

/-- ATTN_N is driven low while the queue holds a record and nothing holds the bridge (R163, R174). -/
theorem State.attention_iff (s : State) :
    s.attention = true ↔ s.events.queue ≠ [] ∧ s.rstN = true ∧ s.supplyHold = false := by
  simp only [State.attention, State.held, Bool.and_eq_true, Bool.not_eq_true', Bool.or_eq_false_iff, Bool.not_eq_false',
    List.isEmpty_eq_false_iff]
  exact and_comm

/-- Settles O50: the kind is off, or the queue has room, or it is full. -/
theorem eventIsRaised : Obligations.EventIsRaised := by
  refine ⟨fun s k g a d => ⟨rfl, fun off => ?_, fun on room => ?_, fun on full => ?_⟩, State.attention_iff⟩
  · rw [State.raise, EventUnit.raise_masked off]
  · rw [State.raise, EventUnit.raise_queued on room]
  · rw [State.raise, EventUnit.raise_dropped on full]

/-! ### Counters (R176) -/

/-- A segment counter raised, and every other as it was (R176). -/
theorem State.count_read (s : State) (g h : Seg) (c : SegCounter) (i : Fin 14) : (s.count g c).counters.read h i
    = if h = g ∧ i = c.index then saturatingSucc (s.counters.read g c.index) else s.counters.read h i :=
  Counters.read_write s.counters g h c.index i _

/-- Settles O51: the counter raised and the others, and the two counters of the whole bridge. -/
theorem countersSaturate : Obligations.CountersSaturate := by
  intro s g c
  refine ⟨rfl, ?_, fun h i other => ?_, rfl, rfl, ?_, ?_⟩
  · rw [State.count_read, if_pos ⟨rfl, rfl⟩, saturatingSucc_eq, BitVec.toNat_ofNat]
    omega
  · rw [State.count_read, if_neg other]
  · rw [State.countNoticeLost, saturatingSucc_eq]
  · rw [State.countSweepSkipped, saturatingSucc_eq]

end Sys2Proof.Machine
end

