-- ==== Sys2Proof/Proofs/CapacityRules.lean ====
section
/-!
The capacities of the event queue and the reply lanes, and BLIND with DE (R72, R110, R172). The queue grows by a raise alone, a
reply lane by an offer alone, and a segment is driven or let go by a few operations of its scheduler alone: all others keep the
capacities as `KeepsCapacities` says. Here are the operations of the transaction engine and of the schedulers.
-/

namespace Sys2Proof.Machine

/-! ### What the laws look at -/

/-- The capacities pass from s to t, and each segment of t is driven and BLIND where it was in s. -/
structure State.KeepsCapacities (s t : State) : Prop where
  events : s.EventsBounded → t.EventsBounded
  lanes : s.ReplyLanesBounded → t.ReplyLanesBounded
  blind : ∀ g, t.receivers.get g = .blind ↔ s.receivers.get g = .blind
  driving : ∀ g, (t.lines.get g).de = (s.lines.get g).de

/-- The three laws pass from s to t. -/
structure State.CarriesCapacities (s t : State) : Prop where
  events : s.EventsBounded → t.EventsBounded
  lanes : s.ReplyLanesBounded → t.ReplyLanesBounded
  blind : s.BlindWhileDriving → t.BlindWhileDriving

section
variable {s t u : State} {g : Seg} {e : Egress} {r : Fin Config.numTxns}

theorem State.KeepsCapacities.carries (keeps : s.KeepsCapacities t) : s.CarriesCapacities t :=
  ⟨keeps.events, keeps.lanes, fun law g => (keeps.blind g).trans ((law g).trans (by rw [keeps.driving]))⟩

theorem State.CarriesCapacities.trans (first : s.CarriesCapacities t) (next : t.CarriesCapacities u) :
    s.CarriesCapacities u :=
  ⟨next.events ∘ first.events, next.lanes ∘ first.lanes, next.blind ∘ first.blind⟩

theorem State.CarriesCapacities.keep (first : s.CarriesCapacities t) (next : t.KeepsCapacities u) :
    s.CarriesCapacities u := first.trans next.carries

theorem State.KeepsCapacities.trans (first : s.KeepsCapacities t) (next : t.KeepsCapacities u) : s.KeepsCapacities u :=
  ⟨next.events ∘ first.events, next.lanes ∘ first.lanes, fun g => (next.blind g).trans (first.blind g),
    fun g => (next.driving g).trans (first.driving g)⟩

/-- No reply lane is longer than it was. -/
theorem State.KeepsCapacities.of_lanes (events : t.events = s.events) (receivers : t.receivers = s.receivers)
    (lines : t.lines = s.lines) (lanes : ∀ g, (t.egress.get g).replyLane.length ≤ (s.egress.get g).replyLane.length) :
    s.KeepsCapacities t :=
  ⟨fun law => by rwa [State.EventsBounded, events], fun law g => (lanes g).trans (law g), fun g => by rw [receivers],
    fun g => by rw [lines]⟩

theorem State.KeepsCapacities.of_same (events : t.events = s.events) (receivers : t.receivers = s.receivers)
    (lines : t.lines = s.lines) (egress : t.egress = s.egress) : s.KeepsCapacities t :=
  .of_lanes events receivers lines fun _ => by rw [egress]

theorem State.KeepsCapacities.refl (s : State) : s.KeepsCapacities s := .of_same rfl rfl rfl rfl

theorem State.CarriesCapacities.refl (s : State) : s.CarriesCapacities s := (State.KeepsCapacities.refl s).carries

/-- Nothing the laws look at changes before they pass on. -/
theorem State.CarriesCapacities.after (next : t.CarriesCapacities u) (events : t.events = s.events)
    (receivers : t.receivers = s.receivers) (lines : t.lines = s.lines) (egress : t.egress = s.egress) :
    s.CarriesCapacities u := (State.KeepsCapacities.of_same events receivers lines egress).carries.trans next

/-- Nothing the laws look at changes after what is kept. -/
theorem State.KeepsCapacities.same (first : s.KeepsCapacities t) (events : u.events = t.events)
    (receivers : u.receivers = t.receivers) (lines : u.lines = t.lines) (egress : u.egress = t.egress) :
    s.KeepsCapacities u := first.trans (.of_same events receivers lines egress)

/-- One scheduler is replaced. -/
theorem State.KeepsCapacities.of_egress (events : t.events = s.events) (receivers : t.receivers = s.receivers)
    (lines : t.lines = s.lines) (egress : t.egress = s.egress.set g e)
    (lane : e.replyLane.length ≤ (s.egress.get g).replyLane.length) : s.KeepsCapacities t := by
  refine .of_lanes events receivers lines fun h => ?_
  rw [egress, PerSeg.get_set]
  split
  next here => exact here ▸ lane
  next => exact le_rfl

theorem State.KeepsCapacities.setEgress (lane : e.replyLane.length ≤ (s.egress.get g).replyLane.length) :
    s.KeepsCapacities (s.setEgress g e) := .of_egress rfl rfl rfl rfl lane

/-- The lanes hold the copies they held (R108). -/
theorem State.KeepsCapacities.of_copies (events : t.events = s.events) (receivers : t.receivers = s.receivers)
    (lines : t.lines = s.lines) (copies : ∀ g, (s.egress.get g).KeepsCopies (t.egress.get g)) : s.KeepsCapacities t :=
  .of_lanes events receivers lines fun g => by simpa using (congrArg List.length (copies g).replies).le

/-- A line unit changes with its DE as it was. -/
theorem State.KeepsCapacities.setLine {l : LineUnit} (de : l.de = (s.lines.get g).de) :
    s.KeepsCapacities (s.setLine g l) := by
  refine ⟨id, id, fun _ => Iff.rfl, fun h => ?_⟩
  rw [(s.setLine_fields g l).2.2.2.2.2.2.2.2.1, PerSeg.get_set]
  split
  next here => exact here ▸ de
  next => rfl

/-- A frame receiver that is not BLIND changes, and is not after (R70). -/
theorem State.KeepsCapacities.of_receiver {f : FrState} (events : t.events = s.events) (lines : t.lines = s.lines)
    (egress : t.egress = s.egress) (receivers : t.receivers = s.receivers.set g f) (sees : s.receivers.get g ≠ .blind)
    (seeing : f ≠ .blind) : s.KeepsCapacities t := by
  refine ⟨fun law => by rwa [State.EventsBounded, events], fun law h => egress ▸ law h, fun h => ?_, fun h => by rw [lines]⟩
  rw [receivers, PerSeg.get_set]
  split
  next here => exact here ▸ iff_of_false seeing sees
  next => exact Iff.rfl

theorem State.KeepsCapacities.sees (keeps : s.KeepsCapacities t) (sees : s.receivers.get g ≠ .blind) :
    t.receivers.get g ≠ .blind := fun blind => sees ((keeps.blind g).1 blind)

/-- A raise (R172). -/
theorem State.KeepsCapacities.raise {k : EventKind} {o : Option Seg} {a : Option Byte} {d : Byte}
    (keeps : s.KeepsCapacities t) : s.KeepsCapacities (t.raise k o a d) :=
  keeps.trans ⟨fun law => EventUnit.raise_bounded law _ _ _ _ _ _, id, fun _ => Iff.rfl, fun _ => rfl⟩

/-- The line of a segment is driven, or let go, with its frame receiver (R72). -/
theorem State.drive_carriesCapacities {l : LineUnit} {f : FrState} (agree : f = .blind ↔ l.de = true) :
    s.CarriesCapacities ((s.setLine g l).setReceiver g f) := by
  refine ⟨id, id, fun law h => ?_⟩
  simp only [State.setReceiver_fields, State.setLine_fields, PerSeg.get_set]
  split
  · exact agree
  · exact law h

theorem State.releaseLine_carriesCapacities (s : State) (g : Seg) : s.CarriesCapacities (s.releaseLine g) :=
  State.drive_carriesCapacities ⟨nofun, nofun⟩

/-! ### Notices and lanes (R109 to R112) -/

theorem State.notify_keepsCapacities (s : State) (g : Seg) (c : NoticeCode) (a : Byte) :
    s.KeepsCapacities (s.notify g c a) := by
  obtain ⟨e, k, only⟩ := s.notify_only g c a
  exact .of_copies (by rw [only]) (by rw [only]) (by rw [only]) (s.notify_keepsLanes g c a).lanes

theorem State.settlePendingOwn_keepsCapacities (s : State) : s.KeepsCapacities s.settlePendingOwn :=
  s.settlePendingOwn_eq ▸ .of_same rfl rfl rfl rfl

/-- Only started copies stay in the lane (R27, R48). -/
theorem State.withdrawReplies_keepsCapacities (s : State) (g : Seg) : s.KeepsCapacities (s.withdrawReplies g) := by
  obtain ⟨k, m, withdrawn⟩ := s.withdrawReplies_eq g
  exact withdrawn ▸ .of_egress rfl rfl rfl rfl (List.length_filter_le _ _)

theorem State.setBackBulk_keepsCapacities (s : State) (g : Seg) : s.KeepsCapacities (s.setBackBulk g) := by
  obtain ⟨e, only⟩ := s.setBackBulk_only g
  exact .of_copies (by rw [only]) (by rw [only]) (by rw [only]) (s.setBackBulk_keepsLanes g).lanes

/-- A copy joins a lane that has room (R110). -/
theorem State.offerReply_keepsCapacities (s : State) (g : Seg) (d : Fin Config.numDescs) (armed : Option Armed) :
    s.KeepsCapacities (s.offerReply g d armed) := by
  unfold State.offerReply
  dsimp only
  split
  next room =>
    refine ⟨id, fun law h => ?_, fun _ => Iff.rfl, fun _ => rfl⟩
    simp only [State.mapStore_fields, State.setEgress_fields, PerSeg.get_set]
    split
    · rw [List.length_append, List.length_singleton]
      exact room
    · exact law h
  next => exact .of_same rfl rfl rfl rfl

/-! ### Transactions (R27 to R51) -/

theorem State.countIf_keepsCapacities (s : State) (b : Bool) (g : Seg) (c : SegCounter) :
    s.KeepsCapacities (s.countIf b g c) := by
  obtain ⟨k, only⟩ := s.countIf_only b g c
  exact only ▸ .of_same rfl rfl rfl rfl

theorem State.putEntry_keepsCapacities (s : State) (a : Byte) (x : Entry) : s.KeepsCapacities (s.putEntry a x) :=
  .of_same rfl rfl rfl rfl

theorem State.learn_keepsCapacities (s : State) (a : Byte) (g : Seg) : s.KeepsCapacities (s.learn a g) := by
  unfold State.learn
  split
  · exact .refl s
  · split
    · exact (s.putEntry_keepsCapacities _ _).raise
    · split
      · exact s.putEntry_keepsCapacities _ _
      · exact (s.putEntry_keepsCapacities _ _).raise
    · exact s.putEntry_keepsCapacities _ _
    · exact .refl s

theorem State.countMiss_keepsCapacities (s : State) (a : Byte) : s.KeepsCapacities (s.countMiss a) := by
  unfold State.countMiss
  split
  · exact .refl s
  · exact .refl s
  all_goals
    dsimp only
    split
    · exact (s.putEntry_keepsCapacities _ _).raise
    · exact s.putEntry_keepsCapacities _ _

theorem State.releaseGrants_keepsCapacities (s : State) (m : SegSet) : s.KeepsCapacities (s.releaseGrants m) := by
  obtain ⟨x, only⟩ := s.releaseGrants_only m
  exact only ▸ .of_same rfl rfl rfl rfl

theorem State.dropRequest_keepsCapacities (s : State) (t : Txn) : s.KeepsCapacities (s.dropRequest t) := by
  obtain ⟨st, only⟩ := s.dropRequest_only t
  exact only ▸ .of_same rfl rfl rfl rfl

theorem State.closeTxn_keepsCapacities (s : State) (r : Fin Config.numTxns) (o : TxnOutcome) :
    s.KeepsCapacities (s.closeTxn r o) := by
  obtain ⟨x, e, k, only⟩ := s.closeTxn_only r o
  exact .of_copies (by rw [only]) (by rw [only]) (by rw [only]) (s.closeTxn_keepsLanes r o).lanes

theorem State.cancelWaiting_keepsCapacities (s : State) (r : Fin Config.numTxns) (o : TxnOutcome) :
    s.KeepsCapacities (s.cancelWaiting r o) := by
  unfold State.cancelWaiting
  split
  · exact .refl s
  · exact (s.dropRequest_keepsCapacities _).trans (State.closeTxn_keepsCapacities _ r o)

theorem State.abandonLive_keepsCapacities (s : State) (g : Seg) : s.KeepsCapacities (s.abandonLive g) := by
  obtain ⟨x, k, st, only⟩ := s.abandonLive_silent g
  exact only ▸ .of_same rfl rfl rfl rfl

theorem State.abandonOrigin_keepsCapacities (s : State) (g : Seg) : s.KeepsCapacities (s.abandonOrigin g) :=
  ((s.abandonLive_keepsCapacities g).trans (State.withdrawReplies_keepsCapacities _ g)).trans (.setEgress le_rfl)

/-- A record is written, and its transaction cancelled. -/
theorem State.putTxn_cancelWaiting_keepsCapacities (s : State) (r : Fin Config.numTxns) (t : Option Txn) (o : TxnOutcome) :
    s.KeepsCapacities ((s.putTxn r t).cancelWaiting r o) :=
  .trans (t := s.putTxn r t) (.of_same rfl rfl rfl rfl) (State.cancelWaiting_keepsCapacities _ r o)

theorem State.becomePending_keepsCapacities (s : State) (r : Fin Config.numTxns) :
    s.KeepsCapacities (s.becomePending r) := by
  unfold State.becomePending
  split
  · exact .refl s
  · dsimp only
    split
    · exact s.putTxn_cancelWaiting_keepsCapacities r _ _
    · exact .of_same rfl rfl rfl rfl

theorem State.becomeExecuting_keepsCapacities (s : State) (r : Fin Config.numTxns) (c q : Byte) :
    s.KeepsCapacities (s.becomeExecuting r c q) := by
  obtain ⟨x, m, only⟩ := s.becomeExecuting_only r c q
  exact only ▸ .of_same rfl rfl rfl rfl

/-- A launch puts copies in bulk lanes only (R33). -/
theorem State.launch_keepsCapacities (s : State) (older : List (Fin Config.numTxns)) (r : Fin Config.numTxns) :
    s.KeepsCapacities (s.launch older r) := by
  cases used : s.txn r with
  | none =>
    simp only [State.launch, used]
    exact .refl s
  | some t =>
    obtain ⟨v, _, _, launched, result, _, lanes⟩ := s.launch_eq older used
    obtain ⟨k, bypassed⟩ := v.raiseBypass_eq older t.egress
    rw [launched, bypassed, result]
    refine .of_lanes rfl rfl rfl fun g => ?_
    dsimp only
    rw [lanes]
    split <;> exact le_rfl

theorem State.scanFrom_keepsCapacities (l : List (Fin Config.numTxns)) (s : State) (older : List (Fin Config.numTxns)) :
    s.KeepsCapacities (s.scanFrom older l) := by
  induction l generalizing s older with
  | nil => exact .refl s
  | cons r l ih =>
    unfold State.scanFrom
    split
    · exact (s.launch_keepsCapacities older r).trans (ih _ older)
    · exact ih s (older ++ [r])

theorem State.copiesDone_keepsCapacities (s : State) (r : Fin Config.numTxns) : s.KeepsCapacities (s.copiesDone r) := by
  have closes : ∀ (t : Txn) (o : TxnOutcome), s.KeepsCapacities ((s.putTxn r (some t)).closeTxn r o) := fun t o =>
    .trans (t := s.putTxn r (some t)) (.of_same rfl rfl rfl rfl) (State.closeTxn_keepsCapacities _ r o)
  unfold State.copiesDone
  split
  · exact .refl s
  · dsimp only
    split
    · exact .refl s
    · split
      · exact .of_same rfl rfl rfl rfl
      · split
        · split
          · exact closes _ _
          · exact .of_same rfl rfl rfl rfl
        · exact .of_same rfl rfl rfl rfl
        · exact closes _ _
        · exact .of_same rfl rfl rfl rfl

theorem State.copyCompleted_keepsCapacities (s : State) (g : Seg) : s.KeepsCapacities (s.copyCompleted g) := by
  unfold State.copyCompleted
  split
  · exact .refl s
  next r _ =>
    split
    · exact .refl s
    · refine .trans ?_ (State.copiesDone_keepsCapacities _ r)
      dsimp only
      split
      · exact .of_same rfl rfl rfl rfl
      · split <;> exact .of_same rfl rfl rfl rfl

theorem State.copyFailed_keepsCapacities (s : State) (g : Seg) : s.KeepsCapacities (s.copyFailed g) := by
  unfold State.copyFailed
  split
  · exact .refl s
  next r _ =>
    split
    · exact .refl s
    · exact .trans (t := State.releaseGrant (s.putTxn r _) g) (.of_same rfl rfl rfl rfl)
        (State.copiesDone_keepsCapacities _ r)

theorem State.responseFailed_keepsCapacities (s : State) (r : Fin Config.numTxns) (g : Seg) (o : TxnOutcome) :
    s.KeepsCapacities (s.responseFailed r g o) :=
  .trans (t := s.releaseGrant g) (.of_same rfl rfl rfl rfl) (State.closeTxn_keepsCapacities _ r o)

theorem State.responseIntact_keepsCapacities (s : State) (r : Fin Config.numTxns) (g : Seg) (d : Fin Config.numDescs) :
    s.KeepsCapacities (s.responseIntact r g d) := by
  unfold State.responseIntact
  split
  · exact .of_same rfl rfl rfl rfl
  · refine .trans (.trans ?_ (State.responseFailed_keepsCapacities _ r g .answered)) (State.learn_keepsCapacities _ _ g)
    split
    · exact .of_same rfl rfl rfl rfl
    · exact .trans (t := s.mapStore fun st => st.modify d fun x => { x with txn := none }) (.of_same rfl rfl rfl rfl)
        (State.offerReply_keepsCapacities _ _ d none)

theorem State.timeOut_keepsCapacities (s : State) (r : Fin Config.numTxns) (t : Txn) :
    s.KeepsCapacities (s.timeOut r t) := by
  obtain ⟨h, l, expired, _⟩ := s.timeOut_eq r t
  rw [expired]
  have missed : s.KeepsCapacities ((s.countMiss t.station).raise .timeout (some t.origin) (some t.station) 0) :=
    (s.countMiss_keepsCapacities t.station).raise
  refine .trans ?_ (State.closeTxn_keepsCapacities _ r .timeout)
  exact ⟨missed.events, id, fun _ => Iff.rfl, fun _ => rfl⟩

theorem State.pruneWaiting_keepsCapacities (s : State) (g : Seg) : s.KeepsCapacities (s.pruneWaiting g) := by
  unfold State.pruneWaiting
  generalize s.txns.waiting = l
  induction l generalizing s with
  | nil => exact .refl s
  | cons q l ih =>
    rw [List.foldl_cons]
    refine .trans ?_ (ih _)
    split
    · exact .refl s
    · dsimp only
      split
      · split
        · exact s.putTxn_cancelWaiting_keepsCapacities q _ _
        · exact .of_same rfl rfl rfl rfl
      · exact .refl s

/-! ### Line units (R64, R65): what leaves DE as it was -/

theorem LineUnit.sendChar_de (l : LineUnit) (c : Ch) (now : Nat) : (l.sendChar c now).de = l.de := by
  unfold LineUnit.sendChar
  split <;> rfl

theorem LineUnit.sendBreak_de (l : LineUnit) (now : Nat) : (l.sendBreak now).de = l.de := by
  unfold LineUnit.sendBreak
  split <;> rfl

theorem LineUnit.endSending_de (l : LineUnit) (now : Nat) : (l.endSending now).de = l.de := by
  unfold LineUnit.endSending
  split <;> rfl

theorem LineUnit.quietFor_de (l : LineUnit) (now gap : Nat) : (l.quietFor now gap).de = l.de := by
  unfold LineUnit.quietFor
  split <;> rfl

theorem LineUnit.expire_de (l : LineUnit) : l.expire.de = l.de := by
  unfold LineUnit.expire
  split <;> rfl

theorem LineUnit.applied_de (l : LineUnit) (before after : SegRecord) (now : Nat) :
    (l.applied before after now).de = l.de := by rw [LineUnit.applied_eq]

/-! ### Sending (R111 to R122) -/

theorem State.requestNext_keepsCapacities (s : State) (g : Seg) (a : Attempt) : s.KeepsCapacities (s.requestNext g a) := by
  unfold State.requestNext
  dsimp only
  split
  · exact .setEgress le_rfl
  · split
    · exact .setEgress le_rfl
    · exact .trans (.setLine (LineUnit.sendChar_de _ _ _)) (.setEgress le_rfl)

theorem State.enterTransmit_keepsCapacities (s : State) (g : Seg) (b : Bool) :
    s.KeepsCapacities (s.enterTransmit g b) := by
  have started : s.KeepsCapacities (s.setEgress g (s.egress.get g).startItem) :=
    .setEgress (by rw [Egress.startItem_replyLane])
  have first := fun a => started.trans (State.requestNext_keepsCapacities _ g a)
  unfold State.enterTransmit
  dsimp only
  split
  · exact first _
  · exact (first _).trans (State.requestNext_keepsCapacities _ g _)

theorem State.dropItem_keepsCapacities (s : State) (g : Seg) (i : Item) : s.KeepsCapacities (s.dropItem g i) := by
  unfold State.dropItem
  dsimp only
  split
  · exact .setEgress le_rfl
  · exact .setEgress le_rfl
  · exact .of_egress rfl rfl rfl rfl (List.length_filter_le _ _)
  · exact .of_egress rfl rfl rfl rfl le_rfl

theorem State.sendCollided_keepsCapacities (s : State) (g : Seg) : s.KeepsCapacities (s.sendCollided g) := by
  unfold State.sendCollided
  split
  · exact .refl s
  next h _ =>
    have dropped := s.dropItem_keepsCapacities g h.item
    refine .raise (.trans ?_ (State.settlePendingOwn_keepsCapacities _))
    generalize s.dropItem g h.item = v at dropped
    have counted : s.KeepsCapacities (if h.item.isNotice = true then v.countNoticeLost else v) := by
      split
      · exact dropped.same rfl rfl rfl rfl
      · exact dropped
    split
    · exact counted.trans (State.copyFailed_keepsCapacities _ g)
    · exact counted

theorem State.backOff_keepsCapacities (s : State) (g : Seg) : s.KeepsCapacities (s.backOff g) := by
  unfold State.backOff
  dsimp only
  split
  · exact (s.sendCollided_keepsCapacities g).trans (.setEgress le_rfl)
  · exact .setEgress le_rfl

theorem State.failAttempt_keepsCapacities (s : State) (g : Seg) : s.KeepsCapacities (s.failAttempt g) :=
  .of_egress (g := g) rfl rfl rfl rfl le_rfl

theorem State.foundCollision_keepsCapacities (s : State) (g : Seg) : s.KeepsCapacities (s.foundCollision g) := by
  unfold State.foundCollision
  refine (s.failAttempt_keepsCapacities g).trans ?_
  generalize s.failAttempt g = v
  refine .trans (.setEgress ?_) (.setLine (LineUnit.sendBreak_de _ _))
  exact le_rfl

theorem State.echoCompare_keepsCapacities (s : State) (g : Seg) (i : EchoItem) :
    s.KeepsCapacities (s.echoCompare g i) := by
  have heard : s.KeepsCapacities (s.setEgress g { s.egress.get g with echoes := (s.egress.get g).echoes.tail }) :=
    .setEgress le_rfl
  unfold State.echoCompare
  dsimp only
  split
  · split
    · split
      · exact heard.trans (State.requestNext_keepsCapacities _ g _)
      · exact s.foundCollision_keepsCapacities g
    · exact .refl s
  · split
    · split
      · exact heard
      · exact s.foundCollision_keepsCapacities g
    · exact .refl s
  all_goals exact .refl s

/-- DE is asserted, and the frame receiver is BLIND (R72, R114). -/
theorem State.takeLine_carriesCapacities (s : State) (g : Seg) : s.CarriesCapacities (s.takeLine g) := by
  have taken : ∀ (l : LineUnit) (st : EgState), s.CarriesCapacities (((s.setLine g l.assertDE).setReceiver g
      .blind).setEgress g
        { s.egress.get g with state := st, hand := s.handOrChoice g, echoes := [], collision := false }) := fun l st =>
    (State.drive_carriesCapacities (iff_of_true rfl rfl)).keep (.setEgress le_rfl)
  unfold State.takeLine
  dsimp only
  split
  · exact (taken _ _).keep (State.enterTransmit_keepsCapacities _ g _)
  · exact taken _ _

theorem State.endLead_keepsCapacities (s : State) (g : Seg) : s.KeepsCapacities (s.endLead g) := by
  unfold State.endLead
  split
  · exact s.enterTransmit_keepsCapacities g _
  all_goals exact .refl s

theorem State.characterSent_keepsCapacities (s : State) (g : Seg) : s.KeepsCapacities (s.characterSent g) := by
  have ended : s.KeepsCapacities (s.setLine g ((s.lines.get g).endSending s.time)) := .setLine (LineUnit.endSending_de _ _)
  unfold State.characterSent
  refine ended.trans ?_
  generalize s.setLine g _ = v
  dsimp only
  split
  next a _ =>
    have counted : v.KeepsCapacities (v.setEgress g { v.egress.get g with
        state := .transmit { a with sent := a.sent + 1 }, echoes := markSent a.sent v.time (v.egress.get g).echoes }) :=
      .setEgress le_rfl
    split
    · exact counted
    · split
      · exact counted
      · split
        · exact counted.trans (.setEgress le_rfl)
        · split
          · exact counted
          · exact counted.trans (State.requestNext_keepsCapacities _ g _)
  all_goals exact .refl v

/-- The break ends, and with it the drive after a Segment restart (R69, R72, R118). -/
theorem State.breakSent_carriesCapacities (s : State) (g : Seg) : s.CarriesCapacities (s.breakSent g) := by
  have ended : s.KeepsCapacities (s.setLine g ((s.lines.get g).endSending s.time)) := .setLine (LineUnit.endSending_de _ _)
  unfold State.breakSent
  refine ended.carries.trans ?_
  generalize s.setLine g _ = v
  dsimp only
  split
  · exact State.KeepsCapacities.carries (.setEgress le_rfl)
  · exact State.KeepsCapacities.carries (.setEgress le_rfl)
  · exact v.releaseLine_carriesCapacities g
  · exact .refl v
  · exact v.releaseLine_carriesCapacities g

/-- Contention in LEAD lets the line go (R72, R116). -/
theorem State.startHeard_carriesCapacities (s : State) (g : Seg) : s.CarriesCapacities (s.startHeard g) := by
  have taken : s.KeepsCapacities (s.takeStart g) := by
    unfold State.takeStart
    dsimp only
    split
    · exact .setLine rfl
    all_goals exact .refl s
  unfold State.startHeard
  refine taken.carries.trans ?_
  generalize s.takeStart g = v
  dsimp only
  split
  · exact (v.releaseLine_carriesCapacities g).keep
      ((State.failAttempt_keepsCapacities _ g).trans (State.backOff_keepsCapacities _ g))
  all_goals exact .refl v

end

end Sys2Proof.Machine
end

