-- ==== Sys2Proof/Proofs/CapacityReceived.lean ====
section
/-!
The capacities of the event queue and the reply lanes, and BLIND with DE (R72, R110, R172), continued: reception, the timers, the
restarts and the settings.
-/

namespace Sys2Proof.Machine

section
variable {s t : State} {g : Seg}

/-! ### Frames received (R70 to R90): no frame receiver becomes BLIND, or leaves BLIND -/

theorem State.skipFrame_keepsCapacities (sees : s.receivers.get g ≠ .blind) (cls : Option FrameClass) (reason : SkipReason)
    (a : Byte) (r : Option (Fin Config.numTxns)) (i : Option NoticeIntent) :
    s.KeepsCapacities (s.skipFrame g cls reason a r i) := .of_receiver rfl rfl rfl rfl sees nofun

theorem State.refuseFrame_keepsCapacities (sees : s.receivers.get g ≠ .blind) (cls : FrameClass) (a : Byte)
    (r : Option (Fin Config.numTxns)) : s.KeepsCapacities (s.refuseFrame g cls a r) :=
  .of_receiver rfl rfl rfl rfl sees nofun

theorem State.admitRecord_keepsCapacities (sees : s.receivers.get g ≠ .blind) (cls : FrameClass) (kind : TxnKind)
    (m : SegSet) (tc : Option TimeoutClass) (c : RxChar) : s.KeepsCapacities (s.admitRecord g cls kind m tc c) := by
  unfold State.admitRecord
  dsimp only
  split
  · exact State.refuseFrame_keepsCapacities sees _ _ _
  · split
    · exact State.refuseFrame_keepsCapacities sees _ _ _
    · split
      · exact State.refuseFrame_keepsCapacities sees _ _ _
      · exact .of_receiver rfl rfl rfl rfl sees nofun

theorem State.admitPlain_keepsCapacities (sees : s.receivers.get g ≠ .blind) (cls : FrameClass)
    (r : Option (Fin Config.numTxns)) (c : RxChar) : s.KeepsCapacities (s.admitPlain g cls r c) := by
  unfold State.admitPlain
  dsimp only
  split
  · exact State.refuseFrame_keepsCapacities sees _ _ _
  · split
    · exact State.refuseFrame_keepsCapacities sees _ _ _
    · exact .of_receiver rfl rfl rfl rfl sees nofun

theorem State.beginFrame_keepsCapacities (sees : s.receivers.get g ≠ .blind) (c : RxChar) :
    s.KeepsCapacities (s.beginFrame g c) := by
  have skipped := fun cls reason => State.skipFrame_keepsCapacities sees cls reason c.value none none
  unfold State.beginFrame
  split
  · exact .refl s
  · exact State.admitRecord_keepsCapacities sees _ _ _ _ c
  next r t _ =>
    have matched : s.KeepsCapacities (s.matchWindow r t g) := by
      obtain ⟨x, only⟩ := s.matchWindow_only r t g
      exact only ▸ .of_same rfl rfl rfl rfl
    exact matched.trans (State.admitPlain_keepsCapacities (matched.sees sees) _ _ c)
  · exact .trans (t := s.count g .unsolicited) (.of_same rfl rfl rfl rfl)
      (State.admitPlain_keepsCapacities (s := s.count g .unsolicited) sees _ _ c)
  · split
    · exact (State.skipFrame_keepsCapacities sees _ _ _ _ _).same rfl rfl rfl rfl
    · exact (skipped _ _).same rfl rfl rfl rfl
    · exact .raise ((skipped _ .late).same rfl rfl rfl rfl)
    · exact (skipped _ _).same rfl rfl rfl rfl
    all_goals exact skipped _ _

theorem State.growFrame_keepsCapacities (sees : s.receivers.get g ≠ .blind) (f : Frame) (c : RxChar) :
    s.KeepsCapacities (s.growFrame g f c) := by
  unfold State.growFrame
  split
  · exact .refl s
  · split
    · exact .refl s
    · dsimp only
      split
      · exact .of_receiver rfl rfl rfl rfl sees nofun
      · split
        · split <;> exact .of_receiver rfl rfl rfl rfl sees nofun
        · exact .of_receiver rfl rfl rfl rfl sees nofun

/-- A frame offered to a segment goes to its bulk lane (R88). -/
theorem State.offerBulk_keepsCapacities (d : Fin Config.numDescs) (s : State) (u : Seg) :
    s.KeepsCapacities (State.offerBulk d s u) := by
  unfold State.offerBulk
  split
  · split
    · exact .of_egress (g := u) rfl rfl rfl rfl le_rfl
    · exact .of_same rfl rfl rfl rfl
  · exact .refl s

theorem State.forwardUnsolicited_keepsCapacities (s : State) (d : Fin Config.numDescs) :
    s.KeepsCapacities (s.forwardUnsolicited d) := by
  have offers : ∀ (l : List Seg) (v : State), v.KeepsCapacities (l.foldl (State.offerBulk d) v) := by
    intro l
    induction l with
    | nil => exact .refl
    | cons u l ih => exact fun v => (State.offerBulk_keepsCapacities d v u).trans (ih _)
  have offered := offers Seg.all s
  rw [State.forwardUnsolicited_eq]
  generalize Seg.all.foldl (State.offerBulk d) s = v at offered ⊢
  exact offered.same rfl rfl rfl rfl

theorem State.enterService_keepsCapacities (s : State) (g : Seg) (cls : FrameClass) (r : Fin Config.numTxns)
    (d : Fin Config.numDescs) : s.KeepsCapacities (s.enterService g cls r d) := by
  unfold State.enterService
  dsimp only
  split
  · exact .of_same rfl rfl rfl rfl
  · refine ((s.abandonOrigin_keepsCapacities g).trans ?_).trans (State.setBackBulk_keepsCapacities _ g)
    split
    · exact State.becomeExecuting_keepsCapacities _ r _ _
    · exact State.becomePending_keepsCapacities _ r

theorem State.handOn_keepsCapacities (s : State) (g : Seg) (f : Frame) (d : Fin Config.numDescs) :
    s.KeepsCapacities (s.handOn g f d) := by
  refine .trans (t := s.mapStore fun st => st.modify d fun x => { x with state := .ready }) (.of_same rfl rfl rfl rfl) ?_
  unfold State.handOn
  dsimp only
  split
  · exact State.enterService_keepsCapacities _ g _ _ d
  · exact State.enterService_keepsCapacities _ g _ _ d
  · exact State.enterService_keepsCapacities _ g _ _ d
  · exact State.responseIntact_keepsCapacities _ _ g d
  · exact State.forwardUnsolicited_keepsCapacities _ d
  · exact .refl _

theorem State.endUnkept_keepsCapacities (s : State) (g : Seg) (f : Frame) (o : Option TxnOutcome) :
    s.KeepsCapacities (s.endUnkept g f o) := by
  unfold State.endUnkept
  split
  · exact .of_same rfl rfl rfl rfl
  · split
    · exact s.responseFailed_keepsCapacities _ g _
    · exact .refl s

theorem State.releaseFrame_keepsCapacities (s : State) (f : Frame) : s.KeepsCapacities (s.releaseFrame f) := by
  unfold State.releaseFrame
  split <;> exact .of_same rfl rfl rfl rfl

theorem State.placeIntent_keepsCapacities (s : State) (g : Seg) (f : Frame) (cause : EndCause) :
    s.KeepsCapacities (s.placeIntent g f cause) := by
  unfold State.placeIntent
  split
  · split
    · exact .refl s
    · exact s.notify_keepsCapacities g _ _
  · exact .refl s

theorem State.endFrameOf_keepsCapacities (sees : s.receivers.get g ≠ .blind) (cause : EndCause) (skip : Option SkipReason)
    (f : Frame) : s.KeepsCapacities (s.endFrameOf g cause skip f) := by
  have hunts : s.KeepsCapacities ((s.setReceiver g .hunt).count g .framesReceived) :=
    .of_receiver rfl rfl rfl rfl sees nofun
  have unkept : ∀ (v : State) o, v.KeepsCapacities ((v.releaseFrame f).endUnkept g f o) := fun v o =>
    (v.releaseFrame_keepsCapacities f).trans (State.endUnkept_keepsCapacities _ g f o)
  unfold State.endFrameOf
  dsimp only
  refine .trans ?_ (State.placeIntent_keepsCapacities _ g f cause)
  generalize endingOf cause skip _ = ending
  have counted := (hunts.trans (State.countIf_keepsCapacities _ (ending == .damaged) g .damaged)).trans
    (State.countIf_keepsCapacities _ (ending == .truncated) g .noBuffer)
  split
  · split
    · exact counted.trans (State.handOn_keepsCapacities _ g f _)
    · exact counted
  · exact counted.trans (unkept _ _)
  · exact counted.trans (unkept _ _)
  · exact counted.trans (State.endUnkept_keepsCapacities _ g f _)

theorem State.endFrame_keepsCapacities (s : State) (g : Seg) (cause : EndCause) :
    s.KeepsCapacities (s.endFrame g cause) := by
  unfold State.endFrame
  split
  next stores => exact State.endFrameOf_keepsCapacities (by rw [stores]; nofun) cause _ _
  next skips => exact State.endFrameOf_keepsCapacities (by rw [skips]; nofun) cause _ _
  · exact .refl s
  · exact .refl s

theorem State.receiveChar_keepsCapacities (s : State) (g : Seg) (c : RxChar) :
    s.KeepsCapacities (s.receiveChar g c) := by
  by_cases sees : s.receivers.get g = .blind
  · simp only [State.receiveChar, sees]
    exact .refl s
  · have counted : s.KeepsCapacities (s.countErrors g c) :=
      (s.countIf_keepsCapacities _ g _).trans (State.countIf_keepsCapacities _ _ g _)
    have begun : s.KeepsCapacities ((s.countErrors g c).beginFrame g c) :=
      counted.trans (State.beginFrame_keepsCapacities (counted.sees sees) c)
    have ended := counted.trans (State.endFrame_keepsCapacities _ g .nextAddress)
    have next := ended.trans (State.beginFrame_keepsCapacities (ended.sees sees) c)
    unfold State.receiveChar
    split
    · exact .refl s
    · split
      · exact begun
      · exact counted.same rfl rfl rfl rfl
    · split
      · exact next
      · exact counted.trans (State.growFrame_keepsCapacities (counted.sees sees) _ c)
    · split
      · exact next
      · exact counted

theorem State.receiveBreak_keepsCapacities (s : State) (g : Seg) : s.KeepsCapacities (s.receiveBreak g) := by
  by_cases sees : s.receivers.get g = .blind
  · simp only [State.receiveBreak, sees]
    exact .refl s
  · rw [State.receiveBreak_eq sees]
    have ended : s.KeepsCapacities ((s.endFrame g .aborted).count g .breaks) :=
      (s.endFrame_keepsCapacities g .aborted).same rfl rfl rfl rfl
    split
    · exact ended.trans (State.abandonOrigin_keepsCapacities _ g)
    · exact ended

theorem State.setRx_keepsCapacities (s : State) (g : Seg) (rx : RxState) : s.KeepsCapacities (s.setRx g rx) := .setLine rfl

theorem State.falseStart_keepsCapacities (s : State) (g : Seg) : s.KeepsCapacities (s.falseStart g) :=
  (s.setRx_keepsCapacities g _).same rfl rfl rfl rfl

theorem State.breakFound_keepsCapacities (s : State) (g : Seg) : s.KeepsCapacities (s.breakFound g) := by
  refine (s.setRx_keepsCapacities g (.recover s.time)).trans ?_
  unfold State.breakFound State.deliverBreak
  split
  · exact State.echoCompare_keepsCapacities _ g none
  · exact State.receiveBreak_keepsCapacities _ g

theorem State.characterComplete_keepsCapacities (s : State) (g : Seg) (x : Samples) :
    s.KeepsCapacities (s.characterComplete g x) := by
  unfold State.characterComplete
  dsimp only
  split
  · exact s.falseStart_keepsCapacities g
  · exact s.breakFound_keepsCapacities g
  next c _ =>
    refine (s.setRx_keepsCapacities g (.ready s.time (endsHigh (s.active g) x) false)).trans ?_
    unfold State.deliverChar
    split
    · exact State.echoCompare_keepsCapacities _ g (some c)
    · exact State.receiveChar_keepsCapacities _ g c

theorem State.idleGap_keepsCapacities (s : State) (g : Seg) : s.KeepsCapacities (s.idleGap g) := by
  have quiet : ∀ gap, s.KeepsCapacities (s.setLine g ((s.lines.get g).quietFor s.time gap).expire) := fun gap =>
    .setLine ((LineUnit.expire_de _).trans (LineUnit.quietFor_de _ _ _))
  unfold State.idleGap
  dsimp only
  split
  · exact quiet _
  · exact (quiet _).trans (State.endFrame_keepsCapacities _ g .idleGap)

/-! ### The lease, the station table and the timers (R12 to R17, R41, R161) -/

theorem State.dropLeaseOf_keepsCapacities (s : State) (g : Seg) (d : Byte) : s.KeepsCapacities (s.dropLeaseOf g d) := by
  unfold State.dropLeaseOf
  split
  · exact .refl s
  · split
    · exact .raise (t := { s with lease := none }) (.of_same rfl rfl rfl rfl)
    · exact .refl s

theorem State.expireLease_keepsCapacities (s : State) : s.KeepsCapacities s.expireLease := by
  unfold State.expireLease
  split
  · exact .refl s
  · exact .raise (t := { s with lease := none }) (.of_same rfl rfl rfl rfl)

theorem State.responseTimer_keepsCapacities (s : State) (r : Fin Config.numTxns) :
    s.KeepsCapacities (s.responseTimer r) := by
  unfold State.responseTimer
  split
  · exact .refl s
  · exact s.timeOut_keepsCapacities r _

theorem State.agingTick_keepsCapacities (s : State) : s.KeepsCapacities s.agingTick := by
  unfold State.agingTick
  dsimp only
  split
  · exact .of_same rfl rfl rfl rfl
  · exact .raise (t := State.countSweepSkipped { s with table := { s.table with agingRef := s.nowMs } })
      (.of_same rfl rfl rfl rfl)

theorem State.sweepEntry_keepsCapacities (s : State) (a : Byte) : s.KeepsCapacities (s.sweepEntry a) := by
  unfold State.sweepEntry
  split
  · split
    · exact s.putEntry_keepsCapacities _ _
    · split
      · exact (s.putEntry_keepsCapacities _ _).raise
      · exact s.putEntry_keepsCapacities _ _
  all_goals exact .refl s

theorem State.sweepVisit_keepsCapacities (s : State) : s.KeepsCapacities s.sweepVisit := by
  unfold State.sweepVisit
  split
  · exact .refl s
  · exact (s.sweepEntry_keepsCapacities _).same rfl rfl rfl rfl

/-! ### Restarts (R163 to R166) -/

/-- Nothing queued, nothing to send, and no segment driven (R68, R126, R175): the laws hold, whatever came before. -/
theorem State.CarriesCapacities.of_started (events : s.EventsBounded → t.EventsBounded)
    (lanes : t.egress = PerSeg.const Egress.empty) (hunts : t.receivers = PerSeg.const .hunt)
    (rests : ∀ g, (t.lines.get g).de = false) : s.CarriesCapacities t := by
  refine ⟨events, fun _ g => ?_, fun _ g => ?_⟩
  · rw [lanes, PerSeg.get_const]
    exact Nat.zero_le 2
  · rw [hunts, PerSeg.get_const, rests]
    exact iff_of_false nofun Bool.false_ne_true

theorem State.clearAll_carriesCapacities (s : State) : s.CarriesCapacities s.clearAll :=
  .of_started (fun _ => Nat.zero_le 32) rfl rfl fun g => (s.clearAll_segment g).1

theorem State.fullRestart_carriesCapacities (s : State) : s.CarriesCapacities s.fullRestart :=
  s.clearAll_carriesCapacities.keep (State.KeepsCapacities.refl _).raise

/-- Every line is let go (R69, R165). -/
theorem State.trafficRestart_carriesCapacities (s : State) : s.CarriesCapacities s.trafficRestart := by
  unfold State.trafficRestart
  refine .keep ?_ (State.KeepsCapacities.refl _).raise
  refine .of_started id rfl rfl fun g => ?_
  dsimp only
  rw [PerSeg.get_tabulate]
  rfl

theorem State.discardFrame_keepsCapacities (s : State) (g : Seg) : s.KeepsCapacities (s.discardFrame g) := by
  cases framed : (s.receivers.get g).frame with
  | none =>
    simp only [State.discardFrame, framed]
    exact .refl s
  | some f =>
    obtain ⟨_, released⟩ | ⟨r, _, freed⟩ := State.discardFrame_cases framed
    · exact released ▸ s.releaseFrame_keepsCapacities f
    · exact freed ▸ (s.releaseFrame_keepsCapacities f).same rfl rfl rfl rfl

theorem State.restartOrigins_keepsCapacities (g : Seg) (l : List (Fin Config.numTxns)) (s : State) :
    s.KeepsCapacities (l.foldl (State.restartOrigin g) s) := by
  induction l generalizing s with
  | nil => exact .refl s
  | cons r l ih =>
    refine .trans ?_ (ih (State.restartOrigin g s r))
    unfold State.restartOrigin
    split
    · exact .refl s
    · split
      · split
        · exact s.cancelWaiting_keepsCapacities r _
        · exact .refl s
        all_goals exact .of_same rfl rfl rfl rfl
      · exact .refl s

theorem State.restartHolder_keepsCapacities (s : State) (g : Seg) : s.KeepsCapacities (s.restartHolder g) := by
  unfold State.restartHolder
  split
  · exact .refl s
  next r _ =>
    split
    · exact .of_same rfl rfl rfl rfl
    · dsimp only
      split
      · exact .trans (t := State.putTxn (State.releaseGrants _ _) r _)
          (.trans (t := State.releaseGrant (s.putTxn r _) g) (.of_same rfl rfl rfl rfl)
            ((State.releaseGrants_keepsCapacities _ _).same rfl rfl rfl rfl))
          (State.closeTxn_keepsCapacities _ r _)
      · exact .trans (t := State.releaseGrant (s.putTxn r _) g) (.of_same rfl rfl rfl rfl)
          (State.copiesDone_keepsCapacities _ r)

/-- A Segment restart leaves its segment BLIND while a break is sent in place of the character cut (R69, R72, R166). -/
theorem State.segmentRestart_carriesCapacities (s : State) (g : Seg) : s.CarriesCapacities (s.segmentRestart g) := by
  have flushed : s.KeepsCapacities ((s.discardFrame g).flushCopies g) := by
    rw [State.flushCopies, State.leaveAll_eq]
    exact (s.discardFrame_keepsCapacities g).same rfl rfl rfl rfl
  have emptied := flushed.trans (.setEgress (g := g) (e := Egress.empty) (Nat.zero_le _))
  have cut : ∀ (v : State) (l : LineUnit), v.CarriesCapacities ((v.setLine g l).setReceiver g
      (if l.de = true then .blind else .hunt)) := fun v l =>
    State.drive_carriesCapacities (by split <;> simp_all)
  have ends : ∀ v : State, v.KeepsCapacities ((State.raise (State.settlePendingOwn { v.setLastTimedOut g none with
      mgmt := { v.mgmt with caches := v.mgmt.caches.set g none } }) .restarted (some g) none 3).dropLeaseOf g 2) := fun v => by
    refine .trans (.raise (.trans ?_ (State.settlePendingOwn_keepsCapacities _))) (State.dropLeaseOf_keepsCapacities _ g 2)
    exact .of_same rfl rfl rfl rfl
  unfold State.segmentRestart
  exact (emptied.carries.trans (cut _ _)).keep (((State.restartOrigins_keepsCapacities g _ _).trans
    (State.restartHolder_keepsCapacities _ g)).trans (ends _))

/-! ### The deferred effects (R135, R136) -/

/-- Every armed effect is disarmed, and no copy leaves its lane (R136). -/
theorem State.disarmAll_keepsCapacities (s : State) : s.KeepsCapacities s.disarmAll :=
  .of_lanes rfl rfl rfl fun g => by simp only [State.disarmAll, PerSeg.get_tabulate, List.length_map, le_refl]

theorem State.disarmOwn_keepsCapacities (s : State) : s.KeepsCapacities s.disarmOwn :=
  .of_copies rfl rfl rfl s.disarmOwn_keepsLanes.lanes

theorem State.changeOwn_keepsCapacities (s : State) (a : Byte) : s.KeepsCapacities (s.changeOwn a) :=
  .trans (t := State.putEntry { s with settings := { s.settings with bridge := { s.settings.bridge with own := a } } } a
    .unassigned) (.of_same rfl rfl rfl rfl) ((State.disarmAll_keepsCapacities _).same rfl rfl rfl rfl)

theorem State.takeDeferred_carriesCapacities (s : State) (g : Seg) (x : Armed) :
    s.CarriesCapacities (s.takeDeferred g x) := by
  refine .after (t := { s with mgmt := { s.mgmt with
    caches := s.mgmt.caches.set g ((s.mgmt.caches.get g).map (CacheEntry.clearDeferred x)) } }) ?_ rfl rfl rfl rfl
  unfold State.takeDeferred
  dsimp only
  split
  · exact State.fullRestart_carriesCapacities _
  · exact State.trafficRestart_carriesCapacities _
  · exact (State.changeOwn_keepsCapacities _ _).carries

theorem State.sendCompleted_carriesCapacities (s : State) (g : Seg) : s.CarriesCapacities (s.sendCompleted g) := by
  unfold State.sendCompleted
  split
  · exact .refl s
  next h _ =>
    have dropped : s.KeepsCapacities ((s.dropItem g h.item).count g .framesSent) :=
      (s.dropItem_keepsCapacities g h.item).same rfl rfl rfl rfl
    dsimp only
    generalize (s.dropItem g h.item).count g .framesSent = v at dropped ⊢
    have reported : s.KeepsCapacities (if s.isRequestCopy h.item = true then v.copyCompleted g else v) := by
      split
      · exact dropped.trans (State.copyCompleted_keepsCapacities _ g)
      · exact dropped
    split
    next x _ =>
      exact (reported.carries.trans (State.takeDeferred_carriesCapacities _ g x)).keep
        (State.settlePendingOwn_keepsCapacities _)
    · exact reported.carries

/-- The line is let go as TAIL ends (R72, R119). -/
theorem State.endTail_carriesCapacities (s : State) (g : Seg) : s.CarriesCapacities (s.endTail g) := by
  unfold State.endTail
  refine (s.releaseLine_carriesCapacities g).trans ?_
  generalize s.releaseLine g = v
  dsimp only
  split
  · exact (v.backOff_keepsCapacities g).carries
  · refine .trans (State.KeepsCapacities.carries (.setEgress ?_)) (State.sendCompleted_carriesCapacities _ g)
    exact le_rfl

/-! ### Settings applies (R158 to R160) -/

theorem State.changeRole_keepsCapacities (s : State) (g : Seg) (before after : Role) :
    s.KeepsCapacities (s.changeRole g before after) := by
  unfold State.changeRole
  split
  · exact .refl s
  · split
    · have unlearned : s.KeepsCapacities (s.unlearnSegment g) :=
        .raise (t := { s with table := s.table.unlearnSegment g }) (.of_same rfl rfl rfl rfl)
      exact (unlearned.trans (State.pruneWaiting_keepsCapacities _ g)).same rfl rfl rfl rfl
    · refine (s.abandonLive_keepsCapacities g).trans ?_
      rw [State.flushBulk_eq]
      exact .of_egress (g := g) rfl rfl rfl rfl le_rfl
    · exact .refl s

theorem State.applySettings_keepsCapacities (s : State) (g : Seg) : s.KeepsCapacities (s.applySettings g) := by
  have applied : ∀ before after, s.KeepsCapacities (State.setLine { s with settings := s.settings.apply g } g
      ((s.lines.get g).applied before after s.time)) := fun before after =>
    .trans (t := { s with settings := s.settings.apply g }) (.of_same rfl rfl rfl rfl)
      (.setLine (LineUnit.applied_de _ _ _ _))
  have leased : ∀ (v : State) after, v.KeepsCapacities (v.applyLease g after) := by
    intro v after
    unfold State.applyLease
    split
    · exact v.dropLeaseOf_keepsCapacities g 1
    · exact .refl v
  unfold State.applySettings
  exact (((applied _ _).trans (State.changeRole_keepsCapacities _ g _ _)).trans (leased _ _)).raise

end

end Sys2Proof.Machine
end

