-- ==== Sys2Proof/Proofs/CapacityLaws.lean ====
section
/-!
The capacities of the event queue and the reply lanes, and BLIND with DE (R72, R110, R172), concluded: the management engine and
every step.
-/

namespace Sys2Proof.Machine

section
variable {s t : State}

/-! ### Replies and their caches (R103, R132 to R135) -/

theorem State.handOver_keepsCapacities (s : State) (g : Seg) (reply : List Byte) (armed : Option Armed) :
    s.KeepsCapacities (s.handOver g reply armed) := by
  unfold State.handOver
  split
  · exact .of_same rfl rfl rfl rfl
  next d st _ =>
    exact .trans (t := { s with store := st }) (.of_same rfl rfl rfl rfl) (State.offerReply_keepsCapacities _ g d armed)

theorem State.endExecution_keepsCapacities (s : State) (r : Fin Config.numTxns) (reply : List Byte)
    (armed : Option Armed) : s.KeepsCapacities (s.endExecution r reply armed) := by
  have ends : ∀ v : State, v.KeepsCapacities (v.freeRecord r).idleEngine.settlePendingOwn := fun v =>
    .trans (t := (v.freeRecord r).idleEngine) (.of_same rfl rfl rfl rfl) (State.settlePendingOwn_keepsCapacities _)
  unfold State.endExecution
  split
  · exact .trans (t := s.idleEngine) (.of_same rfl rfl rfl rfl) (State.settlePendingOwn_keepsCapacities _)
  next t _ =>
    have dropped := s.dropRequest_keepsCapacities t
    dsimp only
    refine .trans (.trans ?_ (State.closeTxn_keepsCapacities _ r _)) (ends _)
    split
    · exact dropped
    · exact dropped.trans (State.handOver_keepsCapacities _ t.origin reply armed)

theorem State.finishCached_keepsCapacities (s : State) (r : Fin Config.numTxns) (t : Txn) (p : Reply) :
    s.KeepsCapacities (s.finishCached r t p) :=
  .trans (t := s.setCache t.origin (some ⟨t.command, t.sequence, s.buildReply t p, p.deferred⟩)) (.of_same rfl rfl rfl rfl)
    (State.endExecution_keepsCapacities _ r _ _)

theorem State.refuseUncached_keepsCapacities (s : State) (r : Fin Config.numTxns) (t : Txn) (status : Status) :
    s.KeepsCapacities (s.refuseUncached r t status) :=
  .trans (t := { s with mgmt := { s.mgmt with buffer := s.buildReply t ⟨status, [], none⟩ } }) (.of_same rfl rfl rfl rfl)
    (State.endExecution_keepsCapacities _ r _ _)

theorem State.answerCached_keepsCapacities (s : State) (r : Fin Config.numTxns) (c : CacheEntry) :
    s.KeepsCapacities (s.answerCached r c) := by
  have pends : ∀ a, s.KeepsCapacities (s.pendAgain a) := fun a => by
    unfold State.pendAgain
    split
    · exact .refl s
    · exact s.disarmOwn_keepsCapacities.same rfl rfl rfl rfl
  unfold State.answerCached
  refine .trans ?_ (State.endExecution_keepsCapacities _ r _ _)
  split
  · exact pends _
  · exact .refl s
  · exact .refl s

/-! ### Carrying a command out (R131) -/

theorem State.checked_carriesCapacities (s : State) (r : Fin Config.numTxns) (t : Txn)
    {after : State → List Byte → State} (follows : ∀ args, s.CarriesCapacities (after s args)) :
    s.CarriesCapacities (s.checked r t after) := by
  unfold State.checked
  dsimp only
  split
  · exact (s.refuseUncached_keepsCapacities r t _).carries
  · split
    · exact (s.refuseUncached_keepsCapacities r t _).carries
    · split
      · exact (s.answerCached_keepsCapacities r _).carries
      · exact follows _

/-- Carrying the command out passes the laws on. -/
def Carry.CarriesCapacities (carry : Carry) : Prop :=
  ∀ (s : State) (g : Seg) (args : List Byte), s.CarriesCapacities (carry s g args).state

theorem State.carryOut_carriesCapacities (s : State) (r : Fin Config.numTxns) (t : Txn) (args : List Byte)
    (c : MgmtCommand) {carry : Carry} (carries : Carry.CarriesCapacities carry) :
    s.CarriesCapacities (s.carryOut r t args c carry) := by
  have carried := carries s t.origin args
  unfold State.carryOut
  split
  · split
    · exact (s.finishCached_keepsCapacities r t _).carries
    · split
      next v p result =>
        rw [result] at carried
        exact carried.keep (v.finishCached_keepsCapacities r t p)
      next v w result =>
        rw [result] at carried
        exact .keep (t := v) carried (.of_same rfl rfl rfl rfl)
  · exact (s.refuseUncached_keepsCapacities r t _).carries

theorem State.dequeue_keepsCapacities (s : State) : s.KeepsCapacities s.dequeue := .of_same rfl rfl rfl rfl

theorem State.takeLocal_carriesCapacities (s : State) (c : MgmtCommand) {carry : Carry}
    (carries : Carry.CarriesCapacities carry) : s.CarriesCapacities (s.takeLocal c carry) := by
  unfold State.takeLocal
  split
  · exact .refl s
  next r t _ =>
    exact s.dequeue_keepsCapacities.carries.trans (s.dequeue.checked_carriesCapacities r t fun args =>
      s.dequeue.carryOut_carriesCapacities r t args c carries)

theorem State.takeUnknown_carriesCapacities (s : State) : s.CarriesCapacities s.takeUnknown := by
  unfold State.takeUnknown
  split
  · exact .refl s
  next r t _ =>
    exact s.dequeue_keepsCapacities.carries.trans (s.dequeue.checked_carriesCapacities r t fun _ =>
      (s.dequeue.finishCached_keepsCapacities r t _).carries)

/-! ### Work of several claims (R17, R139, R145) -/

theorem State.readStations_keepsCapacities (s : State) (k : Nat) : s.KeepsCapacities (s.readStations k) := by
  unfold State.readStations
  split
  · dsimp only
    split
    · split
      · exact s.finishCached_keepsCapacities _ _ _
      · exact .of_same rfl rfl rfl rfl
    · exact .of_same rfl rfl rfl rfl
  all_goals exact .refl s

theorem State.readCounterBlock_keepsCapacities (s : State) (k : Nat) : s.KeepsCapacities (s.readCounterBlock k) := by
  unfold State.readCounterBlock
  split
  next r clear code next left acc _ =>
    have zeroed : s.KeepsCapacities
        (if clear = true then { s with counters := s.counters.zeroBlock code next (min k left) } else s) := by
      split <;> exact .of_same rfl rfl rfl rfl
    dsimp only
    generalize (if clear = true then _ else s) = v at zeroed ⊢
    split
    · split
      · exact zeroed.trans (v.finishCached_keepsCapacities _ _ _)
      · exact zeroed.same rfl rfl rfl rfl
    · exact zeroed.same rfl rfl rfl rfl
  all_goals exact .refl s

theorem State.walkVisit_keepsCapacities (s : State) : s.KeepsCapacities s.walkVisit := by
  unfold State.walkVisit
  split
  next r start cursor mask cleared _ =>
    have visited : s.KeepsCapacities
        (if (s.entry cursor).learnedIn mask = true then s.putEntry cursor .unassigned else s) := by
      split <;> exact .of_same rfl rfl rfl rfl
    dsimp only
    generalize (if (s.entry cursor).learnedIn mask = true then _ else s) = v at visited ⊢
    split
    · split
      · exact visited.raise.trans (State.finishCached_keepsCapacities _ _ _ _)
      · exact visited.raise.same rfl rfl rfl rfl
    · exact visited.same rfl rfl rfl rfl
  all_goals exact .refl s

/-! ### The commands (R137 to R152) -/

theorem Carry.CarriesCapacities.of_keeps {carry : Carry}
    (keeps : ∀ (s : State) g args, s.KeepsCapacities (carry s g args).state) : Carry.CarriesCapacities carry :=
  fun s g args => (keeps s g args).carries

/-- A command that changes nothing before its reply. -/
theorem Carry.CarriesCapacities.of_state {carry : Carry} (same : ∀ (s : State) g args, (carry s g args).state = s) :
    Carry.CarriesCapacities carry := .of_keeps fun s g args => (same s g args).symm ▸ .refl s

theorem carryWriteStation_carriesCapacities : Carry.CarriesCapacities carryWriteStation := by
  refine .of_keeps fun s g args => ?_
  unfold carryWriteStation
  split
  · exact .refl s
  · exact s.putEntry_keepsCapacities _ _

theorem carryWriteSegment_carriesCapacities : Carry.CarriesCapacities carryWriteSegment := by
  refine .of_keeps fun s g args => ?_
  unfold carryWriteSegment
  split
  · split <;> exact .of_same rfl rfl rfl rfl
  · exact .refl s

theorem carryApplySegment_carriesCapacities : Carry.CarriesCapacities carryApplySegment := by
  refine .of_keeps fun s g args => ?_
  unfold carryApplySegment
  split
  · exact .refl s
  · split
    · exact .refl s
    · split <;> exact .of_same rfl rfl rfl rfl

/-- The bridge record written disarms copies, and takes none from its lane (R135, R144). -/
theorem carryWriteBridge_carriesCapacities : Carry.CarriesCapacities carryWriteBridge := by
  have stored : ∀ (s : State) b a, s.KeepsCapacities ((s.storeBridge b).setPendingOwn a) := fun s b a =>
    .of_copies rfl rfl rfl s.disarmOwn_keepsLanes.lanes
  refine .of_keeps fun s g args => ?_
  unfold carryWriteBridge
  split
  · exact .refl s
  · split
    · exact stored s _ _
    · split
      · exact stored s _ _
      · exact .refl s

/-- Records leave the queue (R146). -/
theorem carryReadEvents_carriesCapacities : Carry.CarriesCapacities carryReadEvents := by
  refine .of_keeps fun s g args => ?_
  unfold carryReadEvents
  dsimp only
  split
  · exact ⟨fun law => (List.drop_sublist _ _).length_le.trans law, id, fun _ => Iff.rfl, fun _ => rfl⟩
  · exact .refl s

theorem carryTakeLease_carriesCapacities : Carry.CarriesCapacities carryTakeLease := by
  refine .of_keeps fun s g args => ?_
  have held : s.KeepsCapacities (s.holdLease g (arg args 0)) := .of_same rfl rfl rfl rfl
  unfold carryTakeLease
  dsimp only
  split
  · exact .refl s
  · split
    · exact .refl s
    · split
      · exact held.raise
      · split
        · exact held
        · exact .refl s

theorem carryDropLease_carriesCapacities : Carry.CarriesCapacities carryDropLease := by
  refine .of_keeps fun s g args => ?_
  unfold carryDropLease
  split
  · exact .refl s
  · split
    · exact s.dropLeaseOf_keepsCapacities g 0
    · exact .refl s

theorem carryRestartSegment_carriesCapacities : Carry.CarriesCapacities carryRestartSegment := by
  intro s g args
  unfold carryRestartSegment
  split
  · exact .refl s
  · split
    · exact .refl s
    · exact s.segmentRestart_carriesCapacities _

/-! ### Every step -/

/-- An event passes the laws on where its effect does. -/
theorem State.takeEvent_carriesCapacities {due : Option Nat} {effect : State → State}
    (taken : s.takeEvent due effect = .next t) (carries : ∀ u : State, u.CarriesCapacities (effect u)) :
    s.CarriesCapacities t := by
  rcases State.takeEvent_cases taken with rfl | ⟨m, _, rfl⟩
  · exact .refl _
  · exact (carries (s.advance m)).after rfl rfl rfl rfl

theorem State.takeEvent_keepsCapacities {due : Option Nat} {effect : State → State}
    (taken : s.takeEvent due effect = .next t) (keeps : ∀ u : State, u.KeepsCapacities (effect u)) :
    s.CarriesCapacities t := State.takeEvent_carriesCapacities taken fun u => (keeps u).carries

theorem State.command_carriesCapacities {c : MgmtCommand} {carry : Carry} (taken : s.command c carry = .next t)
    (carries : Carry.CarriesCapacities carry) : s.CarriesCapacities t :=
  State.takeEvent_carriesCapacities taken fun u => u.takeLocal_carriesCapacities c carries

/-- Every command passes the laws on. -/
theorem exec_carriesCapacities {c : Instr} (taken : exec c s = .next t) : s.CarriesCapacities t := by
  unfold exec at taken
  cases c with
  | characterComplete g x => exact State.takeEvent_keepsCapacities taken fun u => u.characterComplete_keepsCapacities g x
  | breakFound g => exact State.takeEvent_keepsCapacities taken fun u => u.breakFound_keepsCapacities g
  | falseStart g => exact State.takeEvent_keepsCapacities taken fun u => u.falseStart_keepsCapacities g
  | startWhileDriving g => exact State.takeEvent_carriesCapacities taken fun u => u.startHeard_carriesCapacities g
  | recoverEnd g => exact State.takeEvent_keepsCapacities taken fun u => u.setRx_keepsCapacities g _
  | idleGapExpiry g => exact State.takeEvent_keepsCapacities taken fun u => u.idleGap_keepsCapacities g
  | arbiterScan =>
    exact State.takeEvent_keepsCapacities taken fun u => State.scanFrom_keepsCapacities u.txns.waiting u []
  | takeLine g => exact State.takeEvent_carriesCapacities taken fun u => u.takeLine_carriesCapacities g
  | leadGuardEnd g => exact State.takeEvent_keepsCapacities taken fun u => u.endLead_keepsCapacities g
  | characterSent g => exact State.takeEvent_keepsCapacities taken fun u => u.characterSent_keepsCapacities g
  | echoDeadline g => exact State.takeEvent_keepsCapacities taken fun u => u.foundCollision_keepsCapacities g
  | breakSent g => exact State.takeEvent_carriesCapacities taken fun u => u.breakSent_carriesCapacities g
  | tailGuardEnd g straps =>
    exact State.takeEvent_carriesCapacities taken fun u =>
      (State.endTail_carriesCapacities { u with straps := straps } g).after rfl rfl rfl rfl
  | backoffEnd g => exact State.takeEvent_keepsCapacities taken fun _ => .setEgress le_rfl
  | responseTimerExpiry r => exact State.takeEvent_keepsCapacities taken fun u => u.responseTimer_keepsCapacities r
  | agingTick => exact State.takeEvent_keepsCapacities taken State.agingTick_keepsCapacities
  | sweepVisit => exact State.takeEvent_keepsCapacities taken State.sweepVisit_keepsCapacities
  | walkVisit => exact State.takeEvent_keepsCapacities taken State.walkVisit_keepsCapacities
  | leaseExpiry => exact State.takeEvent_keepsCapacities taken State.expireLease_keepsCapacities
  | settingsApply g => exact State.takeEvent_keepsCapacities taken fun u => u.applySettings_keepsCapacities g
  | identify => exact State.command_carriesCapacities taken (.of_state fun _ _ _ => rfl)
  | readStatus => exact State.command_carriesCapacities taken (.of_state fun _ _ _ => rfl)
  | readStation => exact State.command_carriesCapacities taken (.of_state fun _ _ _ => rfl)
  | writeStation => exact State.command_carriesCapacities taken carryWriteStation_carriesCapacities
  | readStationRange claims =>
    exact State.takeEvent_carriesCapacities taken fun u =>
      (u.takeLocal_carriesCapacities _ (.of_state carryReadStationRange_state)).keep
        (State.readStations_keepsCapacities _ claims)
  | clearLearned => exact State.command_carriesCapacities taken (.of_state carryClearLearned_state)
  | readSegment => exact State.command_carriesCapacities taken (.of_state carryReadSegment_state)
  | writeSegment => exact State.command_carriesCapacities taken carryWriteSegment_carriesCapacities
  | applySegment => exact State.command_carriesCapacities taken carryApplySegment_carriesCapacities
  | writeBridge => exact State.command_carriesCapacities taken carryWriteBridge_carriesCapacities
  | readBridge => exact State.command_carriesCapacities taken (.of_state fun _ _ _ => rfl)
  | readCounters claims =>
    exact State.takeEvent_carriesCapacities taken fun u =>
      (u.takeLocal_carriesCapacities _ (.of_state (carryCounters_state false))).keep
        (State.readCounterBlock_keepsCapacities _ claims)
  | readClearCounters claims =>
    exact State.takeEvent_carriesCapacities taken fun u =>
      (u.takeLocal_carriesCapacities _ (.of_state (carryCounters_state true))).keep
        (State.readCounterBlock_keepsCapacities _ claims)
  | readEvents => exact State.command_carriesCapacities taken carryReadEvents_carriesCapacities
  | takeLease => exact State.command_carriesCapacities taken carryTakeLease_carriesCapacities
  | dropLease => exact State.command_carriesCapacities taken carryDropLease_carriesCapacities
  | restart => exact State.command_carriesCapacities taken (.of_state carryRestart_state)
  | restartSegment => exact State.command_carriesCapacities taken carryRestartSegment_carriesCapacities
  | echo => exact State.command_carriesCapacities taken (.of_state fun _ _ _ => rfl)
  | badCommand => exact State.takeEvent_carriesCapacities taken State.takeUnknown_carriesCapacities
  | powerOnRestart cause =>
    obtain rfl := Host.Outcome.next.inj taken
    cases cause <;> exact s.clearAll_carriesCapacities.keep (.of_same rfl rfl rfl rfl)
  | powerOnRestartEnd straps =>
    obtain rfl := Host.Outcome.next.inj taken
    split
    · have cleared := State.clearAll_carriesCapacities { s with straps := straps }
      exact .keep (t := { State.clearAll { s with straps := straps } with rstN := true, supplyHold := false })
        ⟨cleared.events, cleared.lanes, cleared.blind⟩ (State.KeepsCapacities.refl _).raise
    · exact .refl s
  | fallingEdge g => exact State.takeEvent_keepsCapacities taken fun u => u.setRx_keepsCapacities g _

theorem State.idle_keepsCapacities (s : State) : s.KeepsCapacities s.idle := by
  unfold State.idle
  split
  · exact .refl s
  · split <;> exact .of_same rfl rfl rfl rfl

theorem step_carriesCapacities (stepped : step s = .next t) : s.CarriesCapacities t := by
  unfold step at stepped
  split at stepped
  · exact Host.Outcome.next.inj stepped ▸ s.idle_keepsCapacities.carries
  next c rest _ =>
    exact (exec_carriesCapacities (s := { s with pending := rest }) stepped).after rfl rfl rfl rfl

end

/-- Settles O56: every step passes the laws on, by the commands one by one. -/
theorem capacitiesAreKept : Obligations.CapacitiesAreKept :=
  ⟨fun _ _ events lanes stepped =>
      ⟨(step_carriesCapacities stepped).events events, (step_carriesCapacities stepped).lanes lanes⟩,
    fun _ _ law stepped => (step_carriesCapacities stepped).blind law⟩

end Sys2Proof.Machine
end
